-- ==== Sys2Proof/Word.lean ====
section
/-! DEFINITION. The words of the block: bytes, 16-bit stream fields, 32-bit CSR values, byte sequences (R8, R9). -/

namespace Sys2Proof

/-- An 8-bit value: one DMEM byte, one byte of a stream (R9, R34). -/
abbrev Byte := BitVec 8

/-- A 16-bit field of the GIF byte stream (R40). -/
abbrev U16 := BitVec 16

/-- The value of a 32-bit CSR (R14). -/
abbrev Word := BitVec 32

/-- A byte sequence: a finite list of 8-bit values (R9). -/
abbrev Seq := List Byte

/-- A natural number stored into a 32-bit register: `v mod 2^32` (R8). -/
abbrev word (v : Nat) : Word := BitVec.ofNat 32 v

/-- A natural number stored into a byte: `v mod 2^8` (R8). -/
abbrev byte (v : Nat) : Byte := BitVec.ofNat 8 v

end Sys2Proof
end

