-- ==== Sys2Proof/Config.lean ====
section
/-! DEFINITION. The implementation parameters of the block (R6, R7). -/

namespace Sys2Proof.Config

/-- `MAX_W`, the widest code in bits (R6). -/
def maxW : Nat := 12

/-- `N_MIN`, the least symbol width (R7). -/
def nMin : Nat := 2

/-- `N_MAX`, the greatest symbol width (R7). -/
def nMax : Nat := 11

/-- `DICT_MAX`, the number of dictionary slots (R7, R23). -/
def dictMax : Nat := 4097

/-- `ID`, the read-only identity constant (R7, R20). -/
def identity : Word := 0x4C5A5701#32

/-- The bound on `DMEM_SIZE` (R7, R34): `1 ≤ DMEM_SIZE ≤ 2^28`. -/
def dmemSizeMax : Nat := 2 ^ 28

/-- The `DMEM_SIZE` of `State.reset`. DESIGN CHOICE (log 2): the spec leaves the parameter OPEN; every statement is made for
every value of the State field. -/
def resetDmemSize : Nat := dmemSizeMax

/-- What a DMEM byte that nothing has written reads as. DESIGN CHOICE (log 3): `DMEM_INIT` is OPEN in the spec. -/
def unlistedByte : Byte := 0#8

/-- `CSR_BASE`, the base of the CSR window on the host's bus: OPEN, "a platform parameter no rule reads" (R7); no value (log 4). -/
opaque csrBase : Nat

/-- Where the host's bus sees the CSR at byte offset `off` (R34). No rule reads it. -/
def csrBusAddress (off : Nat) : Nat := csrBase + off

end Sys2Proof.Config
end

