-- ==== Sys2Proof/Syntax.lean ====
section
/-! DEFINITION. The instructions: one constructor per row of the opcode table (R56, R66, R67). -/

namespace Sys2Proof

/-- Where an instruction is encoded: a command in `CMD` and its operand latches (R54, R55), or a block of the GIF byte
stream at `P_POS` (R63 to R75). -/
inductive Format where
  | command
  | block
  deriving DecidableEq, Repr

/-- The instructions. A command carries the operands it reads, each a whole 32-bit latch (R55). A block of the GIF stream
carries every field of its encoding, the bytes no rule checks included (R68, R70, R71). -/
inductive Instr where
  /-- NOP (R150). -/
  | nop
  /-- RD_INIT (R79). -/
  | rdInit (base len bit : Word)
  /-- RD_CONSUME (R80). -/
  | rdConsume (width : Word)
  /-- RD_ISCOMPLETE (R81). -/
  | rdIsComplete (width : Word)
  /-- WR_INIT (R84). -/
  | wrInit (base len : Word)
  /-- WR_APPEND (R85). -/
  | wrAppend (value width : Word)
  /-- WR_CANAPPEND (R86). -/
  | wrCanAppend (width : Word)
  /-- WR_WRITTEN (R87). -/
  | wrWritten
  /-- TBL_INIT (R92). -/
  | tblInit (n : Word)
  /-- TBL_APPEND (R93). -/
  | tblAppend (base len : Word)
  /-- TBL_LOOKUP (R94). -/
  | tblLookup (code base cap : Word)
  /-- TBL_COUNT (R95). -/
  | tblCount
  /-- TBL_WIDTH (R96). -/
  | tblWidth
  /-- TBL_CLEAR (R97). -/
  | tblClear
  /-- LZW_DECOMPRESS (R98). -/
  | lzwDecompress (base cap flags : Word)
  /-- LZW_COMPRESS (R112). -/
  | lzwCompress (n base len flags : Word)
  /-- GIF_PARSE (R122). -/
  | gifParse (base len : Word)
  /-- CT_SIZE (R145). -/
  | ctSize (sel : Word)
  /-- CT_INDEX (R146). -/
  | ctIndex (sel index : Word)
  /-- CT_FIND (R147). -/
  | ctFind (sel rgb : Word)
  /-- CONT_READ (R148). -/
  | contRead (block field element : Word)
  /-- SOFT_RESET (R151). -/
  | softReset
  /-- GIF_EXTENSION (R130, R135): the introducer 0x21 with an extension label that is none of the four kinds below. -/
  | gifExtension (label : Byte)
  /-- GIF_IMAGE (R136): the image descriptor of R72. -/
  | gifImage (left top width height : U16) (ipacked : Byte)
  /-- GIF_TRAILER (R129). -/
  | gifTrailer
  /-- GIF_EXT_COMMENT (R131): the text up to the 0x00 terminator (R69). -/
  | gifExtComment (text : Seq)
  /-- GIF_EXT_GRAPHICS_CONTROL (R132): the 8-byte block of R68. -/
  | gifExtGraphicsControl (size packed : Byte) (delay : U16) (transparent terminator : Byte)
  /-- GIF_EXT_APPLICATION (R133): the 14-byte header and the payload up to the 0x00 terminator (R70). -/
  | gifExtApplication (size : Byte) (identifier : Vector Byte 8) (auth : Vector Byte 3) (payload : Seq)
  /-- GIF_EXT_PLAIN_TEXT (R134): the 15-byte fixed header (R71). -/
  | gifExtPlainText (size : Byte) (header : Vector Byte 12)
  deriving DecidableEq, Repr

/-- Which of the two encodings an instruction has. -/
def Instr.format : Instr → Format
  | .nop | .rdInit .. | .rdConsume .. | .rdIsComplete .. | .wrInit .. | .wrAppend .. | .wrCanAppend .. | .wrWritten
  | .tblInit .. | .tblAppend .. | .tblLookup .. | .tblCount | .tblWidth | .tblClear
  | .lzwDecompress .. | .lzwCompress .. | .gifParse .. | .ctSize .. | .ctIndex .. | .ctFind .. | .contRead ..
  | .softReset => .command
  | .gifExtension .. | .gifImage .. | .gifTrailer | .gifExtComment .. | .gifExtGraphicsControl ..
  | .gifExtApplication .. | .gifExtPlainText .. => .block

end Sys2Proof
end

