-- ==== Sys2Proof/WellFormed.lean ====
section
/-! DEFINITION. Which instructions are well formed: those some encoding of the spec stands for. -/

namespace Sys2Proof

/-- The extension labels that name a kind of their own (R67). -/
def knownExtensionLabels : List Byte := [0xFE#8, 0xF9#8, 0xFF#8, 0x01#8]

/-- A sequence that a 0x00 byte can terminate: it holds no 0x00 itself (R69, R70). -/
def zeroFree (s : Seq) : Bool := s.all (· != 0#8)

/-- Every operand of a command is a whole latch, so every command is well formed (R55). An unknown extension's label is none
of the four kinds' (R67). A text or payload that is scanned to its 0x00 terminator holds no 0x00 (R69, R70). -/
def Instr.wellFormed : Instr → Bool
  | .nop | .rdInit .. | .rdConsume .. | .rdIsComplete .. | .wrInit .. | .wrAppend .. | .wrCanAppend .. | .wrWritten
  | .tblInit .. | .tblAppend .. | .tblLookup .. | .tblCount | .tblWidth | .tblClear
  | .lzwDecompress .. | .lzwCompress .. | .gifParse .. | .ctSize .. | .ctIndex .. | .ctFind .. | .contRead ..
  | .softReset => true
  | .gifExtension label => !knownExtensionLabels.contains label
  | .gifImage .. => true
  | .gifTrailer => true
  | .gifExtComment text => zeroFree text
  | .gifExtGraphicsControl .. => true
  | .gifExtApplication _ _ _ payload => zeroFree payload
  | .gifExtPlainText .. => true

end Sys2Proof
end

