-- ==== Sys2Proof/Decode.lean ====
section
/-! DEFINITION. The decoder, total on any words and any bytes, and after it the encoder, both from the tables of R54 to R75. -/

namespace Sys2Proof

/-- Why no instruction can be read. -/
inductive DecodeError where
  /-- An unassigned opcode (R57). -/
  | badOpcode (opcode : Byte)
  /-- A byte at a label position that is none of 0x21, 0x2C, 0x3B (R66). -/
  | notALabel (label : Byte)
  /-- The bytes end inside the instruction (R124). -/
  | truncated
  deriving DecidableEq, Repr

/-- What a command is read from: the value in `CMD` and the four operand latches (R54, R55). -/
structure CommandWords where
  cmd : Word
  a0 : Word
  a1 : Word
  a2 : Word
  a3 : Word
  deriving DecidableEq, Repr

/-! ## The opcode table -/

/-- One row of the opcode table: a word stands for the row when its bits under `mask` are `pattern`. -/
structure Row where
  mnemonic : String
  format : Format
  mask : Nat
  pattern : Nat
  /-- How many operand latches the command reads (R56). -/
  reads : Nat
  deriving DecidableEq, Repr

/-- The rows of the commands (R56). -/
def commandRows : List Row :=
  [⟨"NOP", .command, 0xFF, 0x00, 0⟩, ⟨"RD_INIT", .command, 0xFF, 0x01, 3⟩, ⟨"RD_CONSUME", .command, 0xFF, 0x02, 1⟩,
   ⟨"RD_ISCOMPLETE", .command, 0xFF, 0x03, 1⟩, ⟨"WR_INIT", .command, 0xFF, 0x08, 2⟩, ⟨"WR_APPEND", .command, 0xFF, 0x09, 2⟩,
   ⟨"WR_CANAPPEND", .command, 0xFF, 0x0A, 1⟩, ⟨"WR_WRITTEN", .command, 0xFF, 0x0B, 0⟩, ⟨"TBL_INIT", .command, 0xFF, 0x10, 1⟩,
   ⟨"TBL_APPEND", .command, 0xFF, 0x11, 2⟩, ⟨"TBL_LOOKUP", .command, 0xFF, 0x12, 3⟩, ⟨"TBL_COUNT", .command, 0xFF, 0x13, 0⟩,
   ⟨"TBL_WIDTH", .command, 0xFF, 0x14, 0⟩, ⟨"TBL_CLEAR", .command, 0xFF, 0x15, 0⟩,
   ⟨"LZW_DECOMPRESS", .command, 0xFF, 0x20, 3⟩, ⟨"LZW_COMPRESS", .command, 0xFF, 0x21, 4⟩,
   ⟨"GIF_PARSE", .command, 0xFF, 0x30, 2⟩, ⟨"CT_SIZE", .command, 0xFF, 0x38, 1⟩, ⟨"CT_INDEX", .command, 0xFF, 0x39, 2⟩,
   ⟨"CT_FIND", .command, 0xFF, 0x3A, 2⟩, ⟨"CONT_READ", .command, 0xFF, 0x3B, 3⟩, ⟨"SOFT_RESET", .command, 0xFF, 0xFF, 0⟩]

/-- The rows of the block labels (R66) and of the extension labels, two bytes read as one little-endian value (R67). -/
def blockRows : List Row :=
  [⟨"GIF_EXTENSION", .block, 0xFF, 0x21, 0⟩, ⟨"GIF_IMAGE", .block, 0xFF, 0x2C, 0⟩, ⟨"GIF_TRAILER", .block, 0xFF, 0x3B, 0⟩,
   ⟨"GIF_EXT_COMMENT", .block, 0xFFFF, 0xFE21, 0⟩, ⟨"GIF_EXT_GRAPHICS_CONTROL", .block, 0xFFFF, 0xF921, 0⟩,
   ⟨"GIF_EXT_APPLICATION", .block, 0xFFFF, 0xFF21, 0⟩, ⟨"GIF_EXT_PLAIN_TEXT", .block, 0xFFFF, 0x0121, 0⟩]

/-- No word matches both rows. -/
def Row.disjoint (r q : Row) : Bool := (r.pattern ^^^ q.pattern) &&& (r.mask &&& q.mask) != 0

/-! ## Byte order (R40) -/

/-- The 16-bit value of a little-endian byte pair: `B[p] + 256·B[p+1]` (R40). -/
def u16Of (lo hi : Byte) : U16 := hi ++ lo

/-- The low byte of a 16-bit value. -/
def u16Lo (v : U16) : Byte := v.extractLsb' 0 8

/-- The high byte of a 16-bit value. -/
def u16Hi (v : U16) : Byte := v.extractLsb' 8 8

/-! ## Decoding -/

/-- `OPCODE`, bits 7:0 of `CMD`; bits 31:8 are ignored (R54). -/
def opcodeOf (cmd : Word) : Byte := cmd.extractLsb' 0 8

/-- Decode a command from `CMD` and the operand latches: the opcode map of R56; every other opcode is unassigned (R57). -/
def decodeCommand (c : CommandWords) : Except DecodeError Instr :=
  match opcodeOf c.cmd with
  | 0x00#8 => .ok .nop
  | 0x01#8 => .ok (.rdInit c.a0 c.a1 c.a2)
  | 0x02#8 => .ok (.rdConsume c.a0)
  | 0x03#8 => .ok (.rdIsComplete c.a0)
  | 0x08#8 => .ok (.wrInit c.a0 c.a1)
  | 0x09#8 => .ok (.wrAppend c.a0 c.a1)
  | 0x0A#8 => .ok (.wrCanAppend c.a0)
  | 0x0B#8 => .ok .wrWritten
  | 0x10#8 => .ok (.tblInit c.a0)
  | 0x11#8 => .ok (.tblAppend c.a0 c.a1)
  | 0x12#8 => .ok (.tblLookup c.a0 c.a1 c.a2)
  | 0x13#8 => .ok .tblCount
  | 0x14#8 => .ok .tblWidth
  | 0x15#8 => .ok .tblClear
  | 0x20#8 => .ok (.lzwDecompress c.a0 c.a1 c.a2)
  | 0x21#8 => .ok (.lzwCompress c.a0 c.a1 c.a2 c.a3)
  | 0x30#8 => .ok (.gifParse c.a0 c.a1)
  | 0x38#8 => .ok (.ctSize c.a0)
  | 0x39#8 => .ok (.ctIndex c.a0 c.a1)
  | 0x3A#8 => .ok (.ctFind c.a0 c.a1)
  | 0x3B#8 => .ok (.contRead c.a0 c.a1 c.a2)
  | 0xFF#8 => .ok .softReset
  | op => .error (.badOpcode op)

/-- The bytes before the first 0x00, and the bytes after it (R69, R70): none if there is no 0x00. -/
def splitAtZero : List Byte → Option (Seq × List Byte)
  | [] => none
  | b :: t =>
    if b = 0#8 then some ([], t)
    else match splitAtZero t with
      | none => none
      | some (text, rest) => some (b :: text, rest)

/-- The text of a comment extension, after its two label bytes (R69). -/
def decodeComment (t : List Byte) : Except DecodeError (Instr × List Byte) :=
  match splitAtZero t with
  | none => .error .truncated
  | some (text, rest) => .ok (.gifExtComment text, rest)

/-- The six bytes of a graphics-control extension after its two label bytes (R68). -/
def decodeGraphicsControl : List Byte → Except DecodeError (Instr × List Byte)
  | size :: packed :: dLo :: dHi :: transparent :: terminator :: rest =>
    .ok (.gifExtGraphicsControl size packed (u16Of dLo dHi) transparent terminator, rest)
  | _ => .error .truncated

/-- The header and payload of an application extension after its two label bytes (R70). -/
def decodeApplication : List Byte → Except DecodeError (Instr × List Byte)
  | size :: i0 :: i1 :: i2 :: i3 :: i4 :: i5 :: i6 :: i7 :: u0 :: u1 :: u2 :: t =>
    match splitAtZero t with
    | none => .error .truncated
    | some (payload, rest) =>
      .ok (.gifExtApplication size #v[i0, i1, i2, i3, i4, i5, i6, i7] #v[u0, u1, u2] payload, rest)
  | _ => .error .truncated

/-- The thirteen bytes of a plain-text extension after its two label bytes (R71). -/
def decodePlainText : List Byte → Except DecodeError (Instr × List Byte)
  | size :: h0 :: h1 :: h2 :: h3 :: h4 :: h5 :: h6 :: h7 :: h8 :: h9 :: h10 :: h11 :: rest =>
    .ok (.gifExtPlainText size #v[h0, h1, h2, h3, h4, h5, h6, h7, h8, h9, h10, h11], rest)
  | _ => .error .truncated

/-- An extension, from the byte after its introducer 0x21 on: the second byte is the extension label (R67). -/
def decodeExtension : List Byte → Except DecodeError (Instr × List Byte)
  | [] => .error .truncated
  | label :: t =>
    if label = 0xFE#8 then decodeComment t
    else if label = 0xF9#8 then decodeGraphicsControl t
    else if label = 0xFF#8 then decodeApplication t
    else if label = 0x01#8 then decodePlainText t
    else .ok (.gifExtension label, t)

/-- An image descriptor, from the byte after its label 0x2C on (R72). -/
def decodeImage : List Byte → Except DecodeError (Instr × List Byte)
  | l0 :: l1 :: t0 :: t1 :: w0 :: w1 :: h0 :: h1 :: ipacked :: rest =>
    .ok (.gifImage (u16Of l0 l1) (u16Of t0 t1) (u16Of w0 w1) (u16Of h0 h1) ipacked, rest)
  | _ => .error .truncated

/-- Decode one block at the front of a GIF byte stream (R66): the instruction and the bytes after it. -/
def decodeBlock : List Byte → Except DecodeError (Instr × List Byte)
  | [] => .error .truncated
  | b :: t =>
    if b = 0x21#8 then decodeExtension t
    else if b = 0x2C#8 then decodeImage t
    else if b = 0x3B#8 then .ok (.gifTrailer, t)
    else .error (.notALabel b)

/-! ## Encoding -/

/-- The opcode of a command (R56): none for a block of the GIF stream. -/
def commandOpcode : Instr → Option Byte
  | .nop => some 0x00#8
  | .rdInit .. => some 0x01#8
  | .rdConsume .. => some 0x02#8
  | .rdIsComplete .. => some 0x03#8
  | .wrInit .. => some 0x08#8
  | .wrAppend .. => some 0x09#8
  | .wrCanAppend .. => some 0x0A#8
  | .wrWritten => some 0x0B#8
  | .tblInit .. => some 0x10#8
  | .tblAppend .. => some 0x11#8
  | .tblLookup .. => some 0x12#8
  | .tblCount => some 0x13#8
  | .tblWidth => some 0x14#8
  | .tblClear => some 0x15#8
  | .lzwDecompress .. => some 0x20#8
  | .lzwCompress .. => some 0x21#8
  | .gifParse .. => some 0x30#8
  | .ctSize .. => some 0x38#8
  | .ctIndex .. => some 0x39#8
  | .ctFind .. => some 0x3A#8
  | .contRead .. => some 0x3B#8
  | .softReset => some 0xFF#8
  | .gifExtension .. | .gifImage .. | .gifTrailer | .gifExtComment .. | .gifExtGraphicsControl ..
  | .gifExtApplication .. | .gifExtPlainText .. => none

/-- The operands a command reads, in the order `A0`, `A1`, `A2`, `A3` (R56). -/
def commandOperands : Instr → List Word
  | .rdInit base len bit => [base, len, bit]
  | .rdConsume width => [width]
  | .rdIsComplete width => [width]
  | .wrInit base len => [base, len]
  | .wrAppend value width => [value, width]
  | .wrCanAppend width => [width]
  | .tblInit n => [n]
  | .tblAppend base len => [base, len]
  | .tblLookup code base cap => [code, base, cap]
  | .lzwDecompress base cap flags => [base, cap, flags]
  | .lzwCompress n base len flags => [n, base, len, flags]
  | .gifParse base len => [base, len]
  | .ctSize sel => [sel]
  | .ctIndex sel index => [sel, index]
  | .ctFind sel rgb => [sel, rgb]
  | .contRead block field element => [block, field, element]
  | .nop | .wrWritten | .tblCount | .tblWidth | .tblClear | .softReset
  | .gifExtension .. | .gifImage .. | .gifTrailer | .gifExtComment .. | .gifExtGraphicsControl ..
  | .gifExtApplication .. | .gifExtPlainText .. => []

/-- The words of a command (R54, R55): the opcode in bits 7:0 of `CMD`, and the operands it reads in `A0` to `A3`. A latch it
does not read is encoded as 0. -/
def encodeCommand (i : Instr) : Option CommandWords :=
  match commandOpcode i with
  | none => none
  | some op =>
    let args := commandOperands i
    some ⟨op.setWidth 32, args.getD 0 0, args.getD 1 0, args.getD 2 0, args.getD 3 0⟩

/-- The bytes of a block of the GIF stream (R66 to R75): none for a command. -/
def encodeBlock : Instr → Option (List Byte)
  | .gifExtension label => some [0x21#8, label]
  | .gifImage left top width height ipacked =>
    some [0x2C#8, u16Lo left, u16Hi left, u16Lo top, u16Hi top, u16Lo width, u16Hi width, u16Lo height, u16Hi height,
      ipacked]
  | .gifTrailer => some [0x3B#8]
  | .gifExtComment text => some (0x21#8 :: 0xFE#8 :: (text ++ [0#8]))
  | .gifExtGraphicsControl size packed delay transparent terminator =>
    some [0x21#8, 0xF9#8, size, packed, u16Lo delay, u16Hi delay, transparent, terminator]
  | .gifExtApplication size identifier auth payload =>
    some (0x21#8 :: 0xFF#8 :: size :: (identifier.toList ++ auth.toList ++ payload ++ [0#8]))
  | .gifExtPlainText size header => some (0x21#8 :: 0x01#8 :: size :: header.toList)
  | .nop | .rdInit .. | .rdConsume .. | .rdIsComplete .. | .wrInit .. | .wrAppend .. | .wrCanAppend .. | .wrWritten
  | .tblInit .. | .tblAppend .. | .tblLookup .. | .tblCount | .tblWidth | .tblClear
  | .lzwDecompress .. | .lzwCompress .. | .gifParse .. | .ctSize .. | .ctIndex .. | .ctFind .. | .contRead ..
  | .softReset => none

/-- An encoded instruction: the words of a command, or the bytes of a block. -/
inductive Encoded where
  | command (words : CommandWords)
  | block (bytes : List Byte)
  deriving DecidableEq, Repr

/-- The encoding of an instruction. -/
def encode (i : Instr) : Encoded :=
  match encodeCommand i with
  | some c => .command c
  | none => .block ((encodeBlock i).getD [])

/-- Decode an encoding: the instruction, and the bytes of the stream after it. -/
def decode : Encoded → Except DecodeError (Instr × List Byte)
  | .command c =>
    match decodeCommand c with
    | .ok i => .ok (i, [])
    | .error e => .error e
  | .block bs => decodeBlock bs

/-! ## The words of the opcode table -/

/-- The most bytes a block takes when every bit above its table row's is 0: the 15 bytes of R70 and R71. -/
def longestZeroBlock : Nat := 15

/-- The stream bytes of a table word, the first in bits 7:0, with zeros after them. -/
def tableBytes (nbits w : Nat) : List Byte :=
  (List.range longestZeroBlock).map fun k => byte ((w % 2 ^ nbits) / 2 ^ (8 * k))

/-- The command words of a table word: the word in `CMD`, operand words of zeros. -/
def tableCommand (nbits w : Nat) : CommandWords := ⟨word (w % 2 ^ nbits), 0, 0, 0, 0⟩

/-- Whether a table word is read as a `CMD` value: a word of more than 16 bits is, a 16-bit word is an extension label pair, and
an 8-bit word is a block label when its value is one (R66), else a command when its value is an assigned opcode (R56). DESIGN
CHOICE (log 7): 0x21 and 0x3B are rows of both formats, and 8 bits alone do not tell them apart. -/
def tableIsCommand (nbits w : Nat) : Bool :=
  let v := (w % 2 ^ nbits) % 256
  decide (16 < nbits) ||
    (decide (nbits ≤ 8) && commandRows.any (fun r => r.pattern == v) && !blockRows.any fun r => r.pattern == v)

/-- The instruction the decoder reads from a word of the opcode table. -/
def decodeTableWord (nbits w : Nat) : Option Instr :=
  if tableIsCommand nbits w then
    match decodeCommand (tableCommand nbits w) with
    | .ok i => some i
    | .error _ => none
  else
    match decodeBlock (tableBytes nbits w) with
    | .ok (i, _) => some i
    | .error _ => none

end Sys2Proof
end

