-- ==== Sys2Proof/Machine/State.lean ====
section
/-! DEFINITION. The state of the block (10_state.md), the reasons a step can stop, and the reset state (R164). -/

namespace Sys2Proof.Machine

/-! ## Why a step stops -/

/-- The machine stops with a fault of the model. These are no faults of the block: those are next states (R155). -/
inductive Fault where
  /-- A DMEM access at an address that is not below `DMEM_SIZE` (R34, R37, R38). Raised by every DMEM read and write, of the
  engine and of the host. Safe: the model stops. -/
  | dmemHole
  /-- The compressor asked for the code of a working buffer the dictionary does not hold (R117, R118): raised by C_SCAN and
  C_FLUSH. Safe: the model stops, and no run reaches it. -/
  | encoderNoCode
  deriving DecidableEq, Repr

/-- The model gives an action no meaning. -/
inductive Refusal where
  /-- An instruction that has no meaning yet, by its mnemonic: raised by `exec` only. Safe. -/
  | notModelled (mnemonic : String)
  /-- A CSR access that is not 32 bits wide at a multiple of 4: "refused: the model gives it no meaning" (R45). Safe. -/
  | csrAccessShape
  /-- A CSR access at an offset above 0x7C, outside the block's window (R14, R34). Safe. -/
  | csrOutsideWindow
  /-- A host access to DMEM while `BUSY` = 1: "the model gives the host no DMEM step" (R39). Safe. -/
  | dmemWhileBusy
  deriving DecidableEq, Repr

/-! ## The block's own faults -/

/-- The faults of the block (R156). -/
inductive Exc where
  | format | width | capacity | symbolWidth | literal | noSeq | badCode | range | badOpcode | index | lctSize | notInit
  | dictFull | readOverrun | unwritten
  deriving DecidableEq, Repr

/-! ## State machines (R32) -/

/-- The states of the decompress machine (42_lzw_decompress.md). -/
inductive DecState where
  | checkClear | first | loop
  deriving DecidableEq, Repr

/-- The states of the compress machine (43_lzw_compress.md). -/
inductive EncState where
  | start | scan | flush | eoi
  deriving DecidableEq, Repr

/-- The states of the parser (44_container_parser.md). -/
inductive ParState where
  | header | gct | label | ext | image | lct | codeSize | subLen | subData
  deriving DecidableEq, Repr

/-- The state held in `STATUS.FSM` (R32). The decompress machine runs alone or inside GIF_PARSE. -/
inductive Fsm where
  | idle
  | decode (inParse : Bool) (st : DecState)
  | compress (st : EncState)
  | parse (st : ParState)
  deriving DecidableEq, Repr

/-! ## Host-visible registers (R14 to R20) -/

/-- `STATUS` (R16). Its reserved bits read as 0 and are not held. -/
structure Status where
  busy : Bool
  done : Bool
  fault : Bool
  flag : Bool
  reject : Bool
  faultCode : Byte
  fsm : Fsm
  deriving DecidableEq, Repr

/-- Four 32-bit operands: the registers `ARG0`..`ARG3`, or the latches `A0`..`A3` (R17). -/
structure Operands where
  a0 : Word
  a1 : Word
  a2 : Word
  a3 : Word
  deriving DecidableEq, Repr

/-- The four policy bits of `CONFIG` (R18). Its reserved bits read as 0 and are not held. -/
structure Policy where
  badCode : Bool
  clearPrev : Bool
  lctSizing : Bool
  rdOverrun : Bool
  deriving DecidableEq, Repr

/-! ## The units (R21 to R27) -/

/-- The reader unit (R21). -/
structure Reader where
  base : Word
  len : Word
  cur : Word
  valid : Bool
  deriving DecidableEq, Repr

/-- The writer unit (R22). -/
structure Writer where
  base : Word
  len : Word
  cur : Word
  valid : Bool
  deriving DecidableEq, Repr

/-- The dictionary unit (R23). `slots` holds the present slots of `DICT`, code `c` at position `c`; every slot from its length
on is ABSENT. `TBL_COUNT` is its length, stored once (log 12). -/
structure Dict where
  n : Word
  width : Word
  slots : List Seq
  valid : Bool
  deriving DecidableEq, Repr

/-- Where emitted bytes go: `OUT_SINK` (R24). -/
inductive Sink where
  | dmem
  | pixels
  deriving DecidableEq, Repr

/-- The decoder's output region and position (R24). -/
structure Output where
  base : Word
  cap : Word
  pos : Word
  sink : Sink
  deriving DecidableEq, Repr

/-- The decoder's private registers `DEC_PREV` and `DEC_OMIT` (R24). -/
structure Decoder where
  prev : Option Seq
  omitClear : Bool
  deriving DecidableEq, Repr

/-- The compressor's private registers (R25). -/
structure Encoder where
  n : Nat
  src : Nat
  len : Nat
  idx : Nat
  buf : Seq
  codes : Nat
  omitClear : Bool
  omitEoi : Bool
  deriving DecidableEq, Repr

/-- A colour of a colour table (R65). -/
structure Rgb where
  r : Byte
  g : Byte
  b : Byte
  deriving DecidableEq, Repr

/-- A colour table: an ordered list of RGB triples (R65). -/
abbrev ColorTable := List Rgb

/-- The written cells of a pixel buffer, by cell number, rising. A cell that is not listed is UNWRITTEN (R27). -/
abbrev Pixels := List (Nat × Byte)

/-- An image block, or the image record being built (R27). -/
structure Image where
  left : U16
  top : U16
  width : U16
  height : U16
  ipacked : Byte
  lct : Option ColorTable
  codeSize : Byte
  pixels : Pixels
  filled : Nat
  deriving DecidableEq, Repr

/-- A block of the container (R27). -/
inductive Block where
  | comment (text : Seq)
  | graphicsControl (packed : Byte) (delay : U16) (transparent : Byte)
  | application (identifier : Vector Byte 8) (auth : Vector Byte 3) (payload : Seq)
  | plainText (header : Vector Byte 12)
  | image (img : Image)
  deriving DecidableEq, Repr

/-- The container's header (R27, R63). -/
structure Header where
  sig : Vector Byte 3
  ver : Vector Byte 3
  canvasW : U16
  canvasH : U16
  spacked : Byte
  bg : Byte
  aspect : Byte
  deriving DecidableEq, Repr

/-- The container `CONT` (R27). -/
structure Container where
  valid : Bool
  hdr : Header
  gct : Option ColorTable
  blocks : List Block
  deriving DecidableEq, Repr

/-- The parser's registers (R26). -/
structure Parser where
  base : Nat
  len : Nat
  pos : Word
  img : Image
  subIdx : Nat
  subLen : Byte
  gSize : BitVec 3
  gctFlag : Bool
  deriving DecidableEq, Repr

/-! ## The host agent (R5, R152): the model's own fields -/

/-- Which agent moves (R5). -/
inductive Agent where
  | host
  | engine
  deriving DecidableEq, Repr

/-- One action of the host, or of the platform (R152, R58, R59, R164). -/
inductive HostOp where
  /-- A CSR read of `bytes` bytes at byte offset `off`. -/
  | csrRead (bytes off : Nat)
  /-- A CSR write of `bytes` bytes at byte offset `off`. -/
  | csrWrite (bytes off : Nat) (v : Word)
  /-- A read of one DMEM byte. -/
  | dmemRead (a : Nat)
  /-- A write of one DMEM byte. -/
  | dmemWrite (a : Nat) (v : Byte)
  /-- The pseudo-instruction WAIT: read `STATUS` until `BUSY` = 0 (R59). -/
  | wait
  /-- A hardware reset, with the DMEM contents `DMEM_INIT` the platform gives (R164). -/
  | hardwareReset (init : List Host.Cell)
  deriving DecidableEq, Repr

/-- A value the host got back. -/
inductive HostValue where
  | csr (v : Word)
  | dmem (v : Byte)
  deriving DecidableEq, Repr

/-- The host: the actions it has yet to do, oldest first; which agent moves next; the values it got back, oldest first. -/
structure HostAgent where
  script : List HostOp
  turns : List Agent
  got : List HostValue
  deriving DecidableEq, Repr

/-! ## The whole state -/

/-- Every DMEM byte that differs from what an unlisted byte reads as, by address, rising. -/
abbrev Memory := List Host.Cell

/-- The state of the block, its data memory and its host. -/
structure State where
  dmemSize : Nat
  cmd : Byte
  status : Status
  arg : Operands
  res0 : Word
  res1 : Word
  config : Policy
  lat : Operands
  cfg : Policy
  rd : Reader
  wr : Writer
  tbl : Dict
  out : Output
  dec : Decoder
  enc : Encoder
  par : Parser
  cont : Container
  dmem : Memory
  host : HostAgent
  deriving DecidableEq, Repr

/-! ## Reset (R164) -/

/-- Four operands of 0. -/
def Operands.zero : Operands := ⟨0, 0, 0, 0⟩

/-- `CONFIG` = 0: the reference's behaviour at each point (R18). -/
def Policy.zero : Policy := ⟨false, false, false, false⟩

/-- `STATUS` = 0x00000000 (R164). -/
def Status.zero : Status := ⟨false, false, false, false, false, 0#8, .idle⟩

/-- An image record with every field 0 and no pixel written: the empty `P_IMG` (R26, R164). -/
def Image.empty : Image := ⟨0, 0, 0, 0, 0, none, 0, [], 0⟩

/-- A header with every field 0 (R164). -/
def Header.zero : Header := ⟨#v[0, 0, 0], #v[0, 0, 0], 0, 0, 0, 0, 0⟩

/-- The container of the reset state (R164). -/
def Container.empty : Container := ⟨false, Header.zero, none, []⟩

/-- A host with nothing to do. -/
def HostAgent.idle : HostAgent := ⟨[], [], []⟩

/-- The block after a reset, over a data memory of `size` bytes with contents `mem`, and a host (R164). -/
def State.hardwareReset (size : Nat) (mem : Memory) (host : HostAgent) : State where
  dmemSize := size
  cmd := 0
  status := Status.zero
  arg := Operands.zero
  res0 := 0
  res1 := 0
  config := Policy.zero
  lat := Operands.zero
  cfg := Policy.zero
  rd := ⟨0, 0, 0, false⟩
  wr := ⟨0, 0, 0, false⟩
  tbl := ⟨0, 0, [], false⟩
  out := ⟨0, 0, 0, .dmem⟩
  dec := ⟨none, false⟩
  enc := ⟨0, 0, 0, 0, [], 0, false, false⟩
  par := ⟨0, 0, 0, Image.empty, 0, 0, 0, false⟩
  cont := Container.empty
  dmem := mem
  host := host

/-- The machine right after reset (R164), with the `DMEM_SIZE` of log 2, the `DMEM_INIT` of log 3 and a host with nothing to do. -/
def State.reset : State := State.hardwareReset Config.resetDmemSize [] HostAgent.idle

end Sys2Proof.Machine
end

