-- ==== Sys2Proof/Machine/Ops.lean ====
section
/-! DEFINITION. The named operations over memory and registers: DMEM reads and writes, the finish of a command, the block's
fault entry, command acceptance, soft reset, and the result of a piece of a micro-step. -/

namespace Sys2Proof.Machine

/-! ## DMEM as data -/

/-- The byte at address `a`; an unlisted byte reads as `Config.unlistedByte` (log 3). -/
def Memory.read : Memory → Nat → Byte
  | [], _ => Config.unlistedByte
  | (k, b) :: m, a => if a = k then b else if a < k then Config.unlistedByte else Memory.read m a

/-- Put an entry at the front unless it says what an unlisted byte reads as. -/
def Memory.cons (a : Nat) (v : Byte) (m : Memory) : Memory :=
  if v = Config.unlistedByte then m else (a, v) :: m

/-- Set the byte at address `a` to `v`, keeping the canonical form. -/
def Memory.write : Memory → Nat → Byte → Memory
  | [], a, v => Memory.cons a v []
  | (k, b) :: m, a, v =>
    if a < k then Memory.cons a v ((k, b) :: m)
    else if a = k then Memory.cons a v m
    else (k, b) :: Memory.write m a v

/-- Every address listed is above `lo`, addresses rise, and no entry equals what an unlisted byte reads as. -/
def Memory.wfFrom : Nat → Memory → Bool
  | _, [] => true
  | lo, (k, b) :: m => decide (lo ≤ k) && (b != Config.unlistedByte) && Memory.wfFrom (k + 1) m

/-- The canonical form of a memory. -/
def Memory.wf (m : Memory) : Bool := Memory.wfFrom 0 m

/-- The memory that holds the given bytes below `size`, later entries over earlier ones: `DMEM_INIT` as data. -/
def Memory.ofCells (size : Nat) (cells : List Host.Cell) : Memory :=
  cells.foldl (fun m c => if c.1 < size then Memory.write m c.1 c.2 else m) []

/-! ## DMEM of the state (R34, R37, R38) -/

/-- The byte DMEM holds at `a`, for a reader outside the machine: no bound is checked. -/
def State.peek (s : State) (a : Nat) : Byte := s.dmem.read a

/-- `MemRead(a, 1)`: none at an address that does not exist (R37). -/
def State.memRead (s : State) (a : Nat) : Option Byte :=
  if a < s.dmemSize then some (s.peek a) else none

/-- `MemWrite(a, 1, v)`: none at an address that does not exist (R38). -/
def State.memWrite (s : State) (a : Nat) (v : Byte) : Option State :=
  if a < s.dmemSize then some { s with dmem := s.dmem.write a v } else none

/-- The `k` bytes from address `a` on, in order. -/
def State.readBytes (s : State) : (a k : Nat) → Option Seq
  | _, 0 => some []
  | a, k + 1 =>
    match s.memRead a with
    | none => none
    | some b =>
      match s.readBytes (a + 1) k with
      | none => none
      | some t => some (b :: t)

/-- Write the bytes of a sequence from address `a` on, in order. -/
def State.writeBytes (s : State) (a : Nat) : Seq → Option State
  | [] => some s
  | b :: t =>
    match s.memWrite a b with
    | none => none
    | some s' => s'.writeBytes (a + 1) t

/-! ## The end of a command -/

/-- `finish(flag, res0, res1)` (R31). -/
def State.finish (s : State) (flag : Bool) (res0 res1 : Nat) : State :=
  { s with
    status := { s.status with flag := flag, busy := false, done := true, fsm := .idle }
    res0 := word res0
    res1 := word res1 }

/-- The code of a fault (R156). -/
def Exc.code : Exc → Byte
  | .format => 0x01
  | .width => 0x02
  | .capacity => 0x03
  | .symbolWidth => 0x04
  | .literal => 0x05
  | .noSeq => 0x06
  | .badCode => 0x07
  | .range => 0x08
  | .badOpcode => 0x09
  | .index => 0x0A
  | .lctSize => 0x0B
  | .notInit => 0x0C
  | .dictFull => 0x0D
  | .readOverrun => 0x0E
  | .unwritten => 0x0F

/-- Fault entry, `raise E(i0, i1)` (R155): the one way a command takes a fault. `STATUS.FSM` and everything else are kept. -/
def State.raise (s : State) (e : Exc) (i0 i1 : Nat) : State :=
  { s with
    status := { s.status with fault := true, faultCode := e.code, flag := false, busy := false, done := true }
    res0 := word i0
    res1 := word i1 }

/-- Return from a fault (R160) is SOFT_RESET (R151): every CSR, unit register, DICT slot, FSM register and CONT field at its
reset value, then `CMD.OPCODE` = 0xFF and `DONE` = 1. DMEM, its size and the host are no part of the block's reset. -/
def State.softReset (s : State) : State :=
  let r := State.hardwareReset s.dmemSize s.dmem s.host
  { r with cmd := 0xFF, status := { r.status with done := true } }

/-! ## The start of a command -/

/-- Acceptance of a `CMD` write of value `v` (R28): the opcode, the operand latches and `CFG` are latched, `DONE`, `FLAG`,
`RES0` and `RES1` are cleared, and `BUSY` is set. -/
def State.accept (s : State) (v : Word) : State :=
  { s with
    cmd := opcodeOf v
    lat := s.arg
    cfg := s.config
    status := { s.status with done := false, flag := false, busy := true }
    res0 := 0
    res1 := 0 }

/-- A dropped host write sets the sticky `STATUS.REJECT` and changes nothing else (R29). -/
def State.rejectWrite (s : State) : State := { s with status := { s.status with reject := true } }

/-- Set `STATUS.FSM` (R32). -/
def State.setFsm (s : State) (f : Fsm) : State := { s with status := { s.status with fsm := f } }

/-! ## The result of a piece of a micro-step -/

/-- What a piece of a micro-step does: go on with a value in a state, raise a fault of the block in a state (the effects so
far stand, R155), or stop the model. -/
inductive Res (α : Type) where
  | ok (a : α) (s : State)
  | raised (e : Exc) (i0 i1 : Nat) (s : State)
  | stop (f : Fault)
  deriving DecidableEq, Repr

/-- Run a piece, then the rest. After a `raise` "the rest of the micro-step is not performed" (R155). -/
def Res.bind {α β : Type} (r : Res α) (k : α → State → Res β) : Res β :=
  match r with
  | .ok a s => k a s
  | .raised e i0 i1 s => .raised e i0 i1 s
  | .stop f => .stop f

/-- A precondition: when it fails, `raise e(i0, i1)` (R11, R158). -/
def Res.require {α : Type} (c : Bool) (e : Exc) (i0 i1 : Nat) (s : State) (k : Res α) : Res α :=
  if c then k else .raised e i0 i1 s

/-- A DMEM access, then the rest; an address that does not exist stops the model. -/
def Res.access {α β : Type} (o : Option α) (k : α → Res β) : Res β :=
  match o with
  | some a => k a
  | none => .stop .dmemHole

/-- The outcome of a whole micro-step: a raised fault is the fault state, a next state (R155). -/
def Res.outcome (r : Res Unit) : Host.Outcome State Fault Refusal :=
  match r with
  | .ok _ s => .next s
  | .raised e i0 i1 s => .next (s.raise e i0 i1)
  | .stop f => .fault f

end Sys2Proof.Machine
end

