-- ==== Sys2Proof/Machine/Operands.lean ====
section
/-! DEFINITION. The operand forms of the commands (R55): regions, option bits, colours, colour-table selectors. -/

namespace Sys2Proof.Machine

/-! ## Regions (R35, R36) -/

/-- A region is legal iff `base + len ≤ DMEM_SIZE`, without wrap-around (R35). -/
def State.legalRegion (s : State) (base len : Word) : Bool := decide (base.toNat + len.toNat ≤ s.dmemSize)

/-- Whether two regions overlap (R36). -/
def overlap (b1 l1 b2 l2 : Word) : Bool :=
  decide (0 < l1.toNat) && decide (0 < l2.toNat) && decide (b1.toNat < b2.toNat + l2.toNat) &&
    decide (b2.toNat < b1.toNat + l1.toNat)

/-- Whether a region overlaps the current reader region while `RD_VALID` = 1 (R36). -/
def State.hitsReader (s : State) (base len : Word) : Bool := s.rd.valid && overlap base len s.rd.base s.rd.len

/-! ## Option bits (R55) -/

/-- LZW_DECOMPRESS flags bit 0, `omitInitialClearCode` (R98). -/
def flagOmitInitialClear (flags : Word) : Bool := flags.getLsbD 0

/-- LZW_COMPRESS flags bit 0, `omitClearCode` (R112). -/
def flagOmitClear (flags : Word) : Bool := flags.getLsbD 0

/-- LZW_COMPRESS flags bit 1, `omitEndOfInformation` (R112). -/
def flagOmitEoi (flags : Word) : Bool := flags.getLsbD 1

/-! ## Colours (R144) -/

/-- A colour as a 32-bit value: red in bits 7:0, green in 15:8, blue in 23:16, bits 31:24 zero (R144). -/
def Rgb.packed (c : Rgb) : Nat := c.r.toNat + 2 ^ 8 * c.g.toNat + 2 ^ 16 * c.b.toNat

/-- The colour of an `rgb` operand; bits 31:24 are ignored (R144). -/
def rgbOperand (v : Word) : Rgb := ⟨v.extractLsb' 0 8, v.extractLsb' 8 8, v.extractLsb' 16 8⟩

/-! ## Colour-table selectors (R143) -/

/-- `selTable(sel)`: the global table for 0, the local table of block `k` for `k + 1`. The outer option is none when the
selector names no image block; the inner one when the named table is absent (R143). -/
def State.selTable (s : State) (sel : Word) : Option (Option ColorTable) :=
  match sel.toNat with
  | 0 => some s.cont.gct
  | k + 1 =>
    match s.cont.blocks[k]? with
    | some (.image img) => some img.lct
    | _ => none

/-! ## The container's header selector (R148) -/

/-- The `block` operand that names the header (R148). -/
def headerBlock : Word := 0xFFFFFFFF#32

end Sys2Proof.Machine
end

