-- ==== Sys2Proof/Machine/Flags.lean ====
section
/-! DEFINITION. The boolean results that STATUS.FLAG carries, the code widths, and the words of STATUS, VALID and CONFIG. -/

namespace Sys2Proof.Machine

/-! ## The tests FLAG reports -/

/-- The bits the reader has left (R78, R81). -/
def Reader.remaining (rd : Reader) : Nat := 8 * rd.len.toNat - rd.cur.toNat

/-- `isComplete(w)`: fewer than `w` bits remain (R78). -/
def Reader.isComplete (rd : Reader) (w : Nat) : Bool := decide (rd.remaining < w)

/-- `canAppend(w)`: the strict capacity test (R82). -/
def Writer.canAppend (wr : Writer) (w : Nat) : Bool :=
  !(decide (Config.maxW < w) || decide (8 * wr.len.toNat ≤ wr.cur.toNat + w))

/-! ## Code widths -/

/-- `bitlen(c)`: the number of bits in the binary form of `c`, with `bitlen(0) = 0` (R10). -/
def bitlen (c : Nat) : Nat := if c = 0 then 0 else Nat.log2 c + 1

/-- `TBL_COUNT`, the number of entries (R23; log 12). -/
def Dict.count (d : Dict) : Nat := d.slots.length

/-- The growth control: the width after an append that leaves `count` entries (R89). -/
def grownWidth (count : Nat) (width : Word) : Word :=
  if 2 ^ width.toNat ≤ count then word (width.toNat + 1) else width

/-- The width at which the compressor writes a code (R114). -/
def State.encWidth (s : State) : Nat := max (s.enc.n + 1) (bitlen (s.tbl.count - 1))

/-! ## Register words -/

/-- The code of a state machine's state in `STATUS.FSM` (R32). -/
def Fsm.code : Fsm → Byte
  | .idle => 0x00
  | .decode false .checkClear => 0x10
  | .decode false .first => 0x11
  | .decode false .loop => 0x12
  | .compress .start => 0x20
  | .compress .scan => 0x21
  | .compress .flush => 0x22
  | .compress .eoi => 0x23
  | .parse .header => 0x30
  | .parse .gct => 0x31
  | .parse .label => 0x32
  | .parse .ext => 0x33
  | .parse .image => 0x34
  | .parse .lct => 0x35
  | .parse .codeSize => 0x36
  | .parse .subLen => 0x37
  | .parse .subData => 0x38
  | .decode true .checkClear => 0x90
  | .decode true .first => 0x91
  | .decode true .loop => 0x92

/-- The value a read of `STATUS` gives (R16): reserved bits 7:5 and 31:24 are 0. -/
def Status.word (st : Status) : Word :=
  0#8 ++ st.fsm.code ++ st.faultCode ++ 0#3 ++ BitVec.ofBool st.reject ++ BitVec.ofBool st.flag ++
    BitVec.ofBool st.fault ++ BitVec.ofBool st.done ++ BitVec.ofBool st.busy

/-- The value a read of `VALID` gives (R19). -/
def State.validWord (s : State) : Word :=
  0#28 ++ BitVec.ofBool s.cont.valid ++ BitVec.ofBool s.tbl.valid ++ BitVec.ofBool s.wr.valid ++
    BitVec.ofBool s.rd.valid

/-- The value a read of `CONFIG` gives (R18): bits 31:4 are 0. -/
def Policy.word (p : Policy) : Word :=
  0#28 ++ BitVec.ofBool p.rdOverrun ++ BitVec.ofBool p.lctSizing ++ BitVec.ofBool p.clearPrev ++
    BitVec.ofBool p.badCode

/-- The policy bits a write of `CONFIG` stores; bits 31:4 are ignored (R18, R15). -/
def Policy.ofWord (v : Word) : Policy := ⟨v.getLsbD 0, v.getLsbD 1, v.getLsbD 2, v.getLsbD 3⟩

end Sys2Proof.Machine
end

