-- ==== Sys2Proof/Machine/Units.lean ====
section
/-! DEFINITION. The internal functions of the units, shared by the commands and the state machines: `consume`, `append`, the
dictionary's functions, `find` and `emit`. -/

namespace Sys2Proof.Machine

/-! ## The bit stream (R41) -/

/-- Stream bit `p` of the region at `base`: bit `p mod 8` of byte `base + p / 8` (R41). -/
def State.streamBit (s : State) (base p : Nat) : Option Nat :=
  match s.memRead (base + p / 8) with
  | none => none
  | some b => some (b.getLsbD (p % 8)).toNat

/-- The `w`-bit code at stream bit `p`: its bit 0 is stream bit `p`; a stream bit at or past `limit` counts as 0 (R41, R77). -/
def State.streamCode (s : State) (base limit : Nat) : (p w : Nat) → Option Nat
  | _, 0 => some 0
  | p, w + 1 =>
    match (if p < limit then s.streamBit base p else some 0) with
    | none => none
    | some b =>
      match s.streamCode base limit (p + 1) w with
      | none => none
      | some v => some (b + 2 * v)

/-- OR the low `w` bits of `v` into the region at `base`, from stream bit `p` on (R83). -/
def State.orCode (s : State) (base v : Nat) : (p w : Nat) → Option State
  | _, 0 => some s
  | p, w + 1 =>
    match s.memRead (base + p / 8) with
    | none => none
    | some b =>
      match s.memWrite (base + p / 8) (b ||| byte ((v % 2) * 2 ^ (p % 8))) with
      | none => none
      | some s' => s'.orCode base (v / 2) (p + 1) w

/-! ## The reader (R77) -/

/-- The reader's bit cursor at `cur` (R21). -/
def State.setRdCur (s : State) (cur : Nat) : State := { s with rd := { s.rd with cur := word cur } }

/-- `consume(w)` (R77). -/
def consume (w : Nat) (s : State) : Res Nat :=
  let limit := 8 * s.rd.len.toNat
  let cur := s.rd.cur.toNat
  Res.require (decide (1 ≤ w) && decide (w ≤ Config.maxW)) .width cur w s <|
  Res.require (!(decide (limit < cur + w) && s.cfg.rdOverrun)) .readOverrun cur w s <|
  Res.access (s.streamCode s.rd.base.toNat limit cur w) fun v =>
    .ok v (s.setRdCur (min (cur + w) limit))

/-! ## The writer (R83) -/

/-- The writer's bit cursor at `cur` (R22). -/
def State.setWrCur (s : State) (cur : Nat) : State := { s with wr := { s.wr with cur := word cur } }

/-- `append(v, w)` (R83). -/
def append (v w : Nat) (s : State) : Res Unit :=
  let cur := s.wr.cur.toNat
  Res.require (decide (1 ≤ w) && decide (w ≤ Config.maxW)) .width cur w s <|
  Res.require (s.wr.canAppend w) .capacity cur w s <|
  Res.access (s.orCode s.wr.base.toNat v cur w) fun s' =>
    .ok () (s'.setWrCur (cur + w))

/-! ## The dictionary (R88, R89, R91, R113) -/

/-- The slots of a table right after initialisation: `2^n` literals, the clear code and the end-of-information code, both the
empty sequence (R88). A literal of 256 or more is stored modulo `2^8` (R8; log 15). -/
def initialSlots (n : Nat) : List Seq := (List.range (2 ^ n)).map (fun c => [byte c]) ++ [[], []]

/-- `tblClear()` (R88): the initial state, with the same `n`. -/
def State.tblClear (s : State) : State :=
  { s with tbl := { s.tbl with slots := initialSlots s.tbl.n.toNat, width := word (s.tbl.n.toNat + 1) } }

/-- `tblInit(n)` (R88). -/
def tableInit (n : Nat) (s : State) : Res Unit :=
  Res.require (decide (Config.nMin ≤ n) && decide (n ≤ Config.nMax)) .symbolWidth 0 n s <|
  let s := { s with tbl := { s.tbl with n := word n } }
  let s := s.tblClear
  .ok () { s with tbl := { s.tbl with valid := true } }

/-- A new entry at the next code, and the width after it (R89). -/
def Dict.push (d : Dict) (q : Seq) : Dict :=
  { d with slots := d.slots ++ [q], width := grownWidth (d.count + 1) d.width }

/-- `tblAppend(q)` with the growth control: the code assigned (R89). -/
def tableAppend (q : Seq) (s : State) : Res Nat :=
  Res.require (decide (s.tbl.count < Config.dictMax)) .dictFull s.tbl.count q.length s <|
  .ok s.tbl.count { s with tbl := s.tbl.push q }

/-- `lookup(c)`: the sequence of a code below `TBL_COUNT`, none for any other (R91). -/
def Dict.lookup (d : Dict) (c : Nat) : Option Seq := d.slots[c]?

/-- The first position, counted from `c`, at which a slot holds `q`. -/
def findFrom (q : Seq) : (c : Nat) → List Seq → Option Nat
  | _, [] => none
  | c, p :: rest => if p = q then some c else findFrom q (c + 1) rest

/-- `find(q)`: the smallest code whose entry is `q` (R113). -/
def Dict.find (d : Dict) (q : Seq) : Option Nat := findFrom q 0 d.slots

/-! ## Pixel buffers (R27) -/

/-- The byte of a cell, none while it is UNWRITTEN. -/
def Pixels.read : Pixels → Nat → Option Byte
  | [], _ => none
  | (k, b) :: m, a => if a = k then some b else if a < k then none else Pixels.read m a

/-- Write a cell, keeping the cells rising. -/
def Pixels.write : Pixels → Nat → Byte → Pixels
  | [], a, v => [(a, v)]
  | (k, b) :: m, a, v =>
    if a < k then (a, v) :: (k, b) :: m
    else if a = k then (a, v) :: m
    else (k, b) :: Pixels.write m a v

/-- Every cell listed is `lo` or above, and cells rise. -/
def Pixels.wfFrom : Nat → Pixels → Bool
  | _, [] => true
  | lo, (k, _) :: m => decide (lo ≤ k) && Pixels.wfFrom (k + 1) m

/-- The canonical form of a pixel buffer. -/
def Pixels.wf (m : Pixels) : Bool := Pixels.wfFrom 0 m

/-- The number of cells of an image: `width · height` (R27, R136). -/
def Image.cells (img : Image) : Nat := img.width.toNat * img.height.toNat

/-! ## The decoder's output (R99) -/

/-- Write one byte to the output sink at index `i` (R99): DMEM, or a pixel cell of the image being built, whose `filled` count
becomes `i + 1`. -/
def State.sinkWrite (s : State) (i : Nat) (b : Byte) : Option State :=
  match s.out.sink with
  | .dmem => s.memWrite i b
  | .pixels =>
    some { s with par := { s.par with img := { s.par.img with pixels := s.par.img.pixels.write i b, filled := i + 1 } } }

/-- `emit(q)` (R99): the bytes in order; those that do not fit are discarded. -/
def emit : Seq → State → Res Unit
  | [], s => .ok () s
  | b :: t, s =>
    if s.out.pos.toNat < s.out.cap.toNat then
      Res.access (s.sinkWrite (s.out.base.toNat + s.out.pos.toNat) b) fun s' =>
        emit t { s' with out := { s'.out with pos := word (s'.out.pos.toNat + 1) } }
    else emit t s

end Sys2Proof.Machine
end

