-- ==== Sys2Proof/Machine/Access.lean ====
section
/-! DEFINITION. The read accessors over the container (45_container_access.md, R143 to R148). -/

namespace Sys2Proof.Machine

/-- The selector check of R143, then the rest with the named table, none when it is absent. -/
def Res.selecting (sel : Word) (s : State) (k : Option ColorTable → Res Unit) : Res Unit :=
  match s.selTable sel with
  | none => .raised .index 0 sel.toNat s
  | some t => k t

/-- CT_SIZE: the size of a colour table (R145). -/
def execCtSize (sel : Word) (s : State) : Host.Outcome State Fault Refusal :=
  Res.outcome <|
  Res.require s.cont.valid .notInit 0 0x38 s <|
  Res.selecting sel s fun t =>
  match t with
  | none => .ok () (s.finish false 0 0)
  | some t => .ok () (s.finish true t.length 0)

/-- CT_INDEX: index to colour (R146). -/
def execCtIndex (sel index : Word) (s : State) : Host.Outcome State Fault Refusal :=
  Res.outcome <|
  Res.require s.cont.valid .notInit 0 0x39 s <|
  Res.selecting sel s fun t =>
  match t with
  | none => .raised .index 0 sel.toNat s
  | some t =>
    match t[index.toNat]? with
    | none => .raised .index 1 index.toNat s
    | some c => .ok () (s.finish false c.packed 0)

/-- The least index of a colour, counted from `i` (R147). -/
def findColor (c : Rgb) : (i : Nat) → ColorTable → Option Nat
  | _, [] => none
  | i, d :: t => if d = c then some i else findColor c (i + 1) t

/-- CT_FIND: colour to index, first match (R147). -/
def execCtFind (sel rgb : Word) (s : State) : Host.Outcome State Fault Refusal :=
  Res.outcome <|
  Res.require s.cont.valid .notInit 0 0x3A s <|
  Res.selecting sel s fun t =>
  match t with
  | none => .raised .index 0 sel.toNat s
  | some t =>
    match findColor (rgbOperand rgb) 0 t with
    | some i => .ok () (s.finish true i 0)
    | none => .ok () (s.finish false 0xFFFFFFFF 0)

/-! ## CONT_READ (R148) -/

/-- What a field of the container reads as. -/
inductive FieldRead where
  /-- The field's value. -/
  | value (v : Nat)
  /-- The field is not listed for the header or the block's kind. -/
  | noField
  /-- The element is not below the field's bound. -/
  | noElement
  /-- A pixel cell that is UNWRITTEN. -/
  | unwritten
  deriving DecidableEq, Repr

/-- Element `e` of an indexed field whose elements are `bs`. -/
def FieldRead.element (bs : Seq) (e : Nat) : FieldRead :=
  match bs[e]? with
  | some b => .value b.toNat
  | none => .noElement

/-- Three bytes in lanes, the first in bits 7:0 (R148, R43). -/
def packed3 (v : Vector Byte 3) : Nat := v[0].toNat + 2 ^ 8 * v[1].toNat + 2 ^ 16 * v[2].toNat

/-- The header's fields (R148). -/
def Container.headerField (c : Container) (field : Nat) : FieldRead :=
  match field with
  | 0 => .value (packed3 c.hdr.sig)
  | 1 => .value (packed3 c.hdr.ver)
  | 2 => .value c.hdr.canvasW.toNat
  | 3 => .value c.hdr.canvasH.toNat
  | 4 => .value c.hdr.spacked.toNat
  | 5 => .value c.hdr.bg.toNat
  | 6 => .value c.hdr.aspect.toNat
  | 7 => .value c.gct.isSome.toNat
  | 8 => .value c.blocks.length
  | _ => .noField

/-- The pixel of an image (R148): the bound is `width · height`, then the cell must be written. -/
def Image.pixelField (img : Image) (e : Nat) : FieldRead :=
  if e < img.cells then
    match img.pixels.read e with
    | some b => .value b.toNat
    | none => .unwritten
  else .noElement

/-- The fields of a block, by its kind (R148). -/
def Block.field (b : Block) (field e : Nat) : FieldRead :=
  match b with
  | .comment text =>
    match field with
    | 0 => .value 1
    | 1 => .value text.length
    | 2 => .element text e
    | _ => .noField
  | .graphicsControl packed delay transparent =>
    match field with
    | 0 => .value 2
    | 1 => .value packed.toNat
    | 2 => .value delay.toNat
    | 3 => .value transparent.toNat
    | _ => .noField
  | .application identifier auth payload =>
    match field with
    | 0 => .value 3
    | 1 => .element identifier.toList e
    | 2 => .element auth.toList e
    | 3 => .value payload.length
    | 4 => .element payload e
    | _ => .noField
  | .plainText header =>
    match field with
    | 0 => .value 4
    | 1 => .element header.toList e
    | _ => .noField
  | .image img =>
    match field with
    | 0 => .value 5
    | 1 => .value img.left.toNat
    | 2 => .value img.top.toNat
    | 3 => .value img.width.toNat
    | 4 => .value img.height.toNat
    | 5 => .value img.ipacked.toNat
    | 6 => .value img.lct.isSome.toNat
    | 7 => .value img.filled
    | 8 => img.pixelField e
    | 9 => .value img.codeSize.toNat
    | _ => .noField

/-- The result of CONT_READ for a field of the header or of an existing block (R148). -/
def contReadField (block field element : Word) (r : FieldRead) (s : State) : Res Unit :=
  match r with
  | .value v => .ok () (s.finish true v 0)
  | .noField => .raised .index 1 field.toNat s
  | .noElement => .raised .index 2 element.toNat s
  | .unwritten => .raised .unwritten block.toNat element.toNat s

/-- CONT_READ: read one field of the container (R148). -/
def execContRead (block field element : Word) (s : State) : Host.Outcome State Fault Refusal :=
  Res.outcome <|
  Res.require s.cont.valid .notInit 0 0x3B s <|
  if block = headerBlock then contReadField block field element (s.cont.headerField field.toNat) s
  else
    match s.cont.blocks[block.toNat]? with
    | none => .raised .index 0 block.toNat s
    | some b => contReadField block field element (b.field field.toNat element.toNat) s

end Sys2Proof.Machine
end

