-- ==== Sys2Proof/Machine/Bitstream.lean ====
section
/-! DEFINITION. The bit-stream reader and writer commands (40_bitstream.md, R79 to R81 and R84 to R87). -/

namespace Sys2Proof.Machine

/-- RD_INIT: construct the reader (R79). -/
def execRdInit (base len bit : Word) (s : State) : Host.Outcome State Fault Refusal :=
  Res.outcome <|
  Res.require (s.legalRegion base len) .range 0 base.toNat s <|
  Res.require (decide (bit.toNat ≤ 8 * len.toNat)) .range 0 bit.toNat s <|
  .ok () ({ s with rd := ⟨base, len, bit, true⟩ }.finish false 0 0)

/-- RD_CONSUME: read one code (R80). -/
def execRdConsume (width : Word) (s : State) : Host.Outcome State Fault Refusal :=
  Res.outcome <|
  Res.require s.rd.valid .notInit 0 0x02 s <|
  Res.bind (consume width.toNat s) fun v s => .ok () (s.finish false v s.rd.cur.toNat)

/-- RD_ISCOMPLETE: test for exhaustion (R81). -/
def execRdIsComplete (width : Word) (s : State) : Host.Outcome State Fault Refusal :=
  Res.outcome <|
  Res.require s.rd.valid .notInit 0 0x03 s <|
  .ok () (s.finish (s.rd.isComplete width.toNat) s.rd.remaining 0)

/-- WR_INIT: construct the writer and zero its region (R84). -/
def execWrInit (base len : Word) (s : State) : Host.Outcome State Fault Refusal :=
  Res.outcome <|
  Res.require (decide (1 ≤ len.toNat)) .range 0 len.toNat s <|
  Res.require (s.legalRegion base len) .range 0 base.toNat s <|
  Res.require (!s.hitsReader base len) .range 0 base.toNat s <|
  Res.access (s.writeBytes base.toNat (List.replicate len.toNat 0#8)) fun s =>
    .ok () ({ s with wr := ⟨base, len, 0, true⟩ }.finish false 0 0)

/-- WR_APPEND: append one code (R85). -/
def execWrAppend (value width : Word) (s : State) : Host.Outcome State Fault Refusal :=
  Res.outcome <|
  Res.require s.wr.valid .notInit 0 0x09 s <|
  Res.require (!s.hitsReader s.wr.base s.wr.len) .range 0 s.wr.base.toNat s <|
  Res.bind (append value.toNat width.toNat s) fun _ s => .ok () (s.finish false s.wr.cur.toNat 0)

/-- WR_CANAPPEND: test for room (R86). -/
def execWrCanAppend (width : Word) (s : State) : Host.Outcome State Fault Refusal :=
  Res.outcome <|
  Res.require s.wr.valid .notInit 0 0x0A s <|
  .ok () (s.finish (s.wr.canAppend width.toNat) 0 0)

/-- WR_WRITTEN: the length of the written view (R87). -/
def execWrWritten (s : State) : Host.Outcome State Fault Refusal :=
  Res.outcome <|
  Res.require s.wr.valid .notInit 0 0x0B s <|
  .ok () (s.finish false (s.wr.cur.toNat / 8 + 1) 0)

end Sys2Proof.Machine
end

