-- ==== Sys2Proof/Machine/Compress.lean ====
section
/-! DEFINITION. LZW_COMPRESS and the compress state machine (43_lzw_compress.md, R112 to R119). -/

namespace Sys2Proof.Machine

/-! ## The command (R112) -/

/-- The compressor's latches at the setup micro-step (R112). -/
def Encoder.setup (n base len flags : Word) : Encoder :=
  ⟨n.toNat, base.toNat, len.toNat, 0, [], 0, flagOmitClear flags, flagOmitEoi flags⟩

/-- LZW_COMPRESS: preconditions and the setup micro-step (R112). -/
def execLzwCompress (n base len flags : Word) (s : State) : Host.Outcome State Fault Refusal :=
  Res.outcome <|
  Res.require s.wr.valid .notInit 0 0x21 s <|
  Res.require (decide (Config.nMin ≤ n.toNat) && decide (n.toNat ≤ Config.nMax)) .symbolWidth 0 n.toNat s <|
  Res.require (s.legalRegion base len) .range 0 base.toNat s <|
  Res.require (!overlap base len s.wr.base s.wr.len) .range 0 base.toNat s <|
  Res.require (!s.hitsReader s.wr.base s.wr.len) .range 0 s.wr.base.toNat s <|
  Res.bind (tableInit n.toNat s) fun _ s =>
  .ok () ({ s with enc := Encoder.setup n base len flags }.setFsm (.compress .start))

/-! ## Shared pieces -/

/-- `emitCode(c)`: append one code at the emission width, and count it (R114, R115). -/
def emitCode (c : Nat) (s : State) : Res Unit :=
  Res.bind (append c s.encWidth s) fun _ s => .ok () { s with enc := { s.enc with codes := s.enc.codes + 1 } }

/-- `emitCode(find(ENC_BUF))` (R117, R118). A buffer the dictionary does not hold has no code: the model stops (log 10). -/
def emitBuffer (s : State) : Res Unit :=
  match s.tbl.find s.enc.buf with
  | none => .stop .encoderNoCode
  | some c => emitCode c s

/-! ## The states -/

/-- C_START: the clear code, unless omitted (R116). -/
def stepStart (s : State) : Res Unit :=
  Res.bind (if s.enc.omitClear then .ok () s else emitCode (2 ^ s.enc.n) s) fun _ s =>
  .ok () (s.setFsm (.compress (if s.enc.len = 0 then .flush else .scan)))

/-- The end of a C_SCAN step: the next input byte, or C_FLUSH after the last (R117). -/
def scanNext (buf : Seq) (s : State) : State :=
  { s with enc := { s.enc with buf := buf, idx := s.enc.idx + 1 } }.setFsm
    (.compress (if s.enc.idx + 1 = s.enc.len then .flush else .scan))

/-- C_SCAN: consume one input byte (R117). -/
def stepScan (s : State) : Res Unit :=
  Res.access (s.memRead (s.enc.src + s.enc.idx)) fun b =>
  Res.require (decide (b.toNat < 2 ^ s.enc.n)) .literal s.enc.idx b.toNat s <|
  let ext := s.enc.buf ++ [b]
  match s.tbl.find ext with
  | some _ => .ok () (scanNext ext s)
  | none =>
    Res.bind (emitBuffer s) fun _ s =>
    Res.bind (tableAppend ext s) fun _ s =>
    .ok () (scanNext [b] s)

/-- C_FLUSH: the code of the leftover buffer (R118). -/
def stepFlush (s : State) : Res Unit :=
  Res.bind (if s.enc.buf.length = 0 then .ok () s else emitBuffer s) fun _ s =>
  .ok () (s.setFsm (.compress .eoi))

/-- C_EOI: the end-of-information code, unless omitted, and the finish (R119). -/
def stepEoi (s : State) : Res Unit :=
  Res.bind (if s.enc.omitEoi then .ok () s else emitCode (2 ^ s.enc.n + 1) s) fun _ s =>
  .ok () (s.finish false s.enc.codes s.wr.cur.toNat)

/-- One micro-step of the compress machine. -/
def encodeStep (st : EncState) (s : State) : Host.Outcome State Fault Refusal :=
  Res.outcome <|
  match st with
  | .start => stepStart s
  | .scan => stepScan s
  | .flush => stepFlush s
  | .eoi => stepEoi s

end Sys2Proof.Machine
end

