-- ==== Sys2Proof/Machine/Control.lean ====
section
/-! DEFINITION. The engine control commands (46_engine_control.md, R150 and R151). -/

namespace Sys2Proof.Machine

/-- NOP: the finish only (R150). -/
def execNop (s : State) : Host.Outcome State Fault Refusal := .next (s.finish false 0 0)

/-- SOFT_RESET: return the block to its reset state (R151). -/
def execSoftReset (s : State) : Host.Outcome State Fault Refusal := .next s.softReset

end Sys2Proof.Machine
end

