-- ==== Sys2Proof/Machine/Decompress.lean ====
section
/-! DEFINITION. LZW_DECOMPRESS and the decompress state machine (42_lzw_decompress.md, R98 to R108). -/

namespace Sys2Proof.Machine

/-! ## The command (R98) -/

/-- LZW_DECOMPRESS: preconditions and the setup micro-step (R98). -/
def execLzwDecompress (base cap flags : Word) (s : State) : Host.Outcome State Fault Refusal :=
  Res.outcome <|
  Res.require s.rd.valid .notInit 0 0x20 s <|
  Res.require s.tbl.valid .notInit 0 0x20 s <|
  Res.require (s.legalRegion base cap) .range 0 base.toNat s <|
  Res.require (!s.hitsReader base cap) .range 0 base.toNat s <|
  let omits := flagOmitInitialClear flags
  let s := { s with out := ⟨base, cap, 0, .dmem⟩, dec := ⟨none, omits⟩ }
  .ok () (s.setFsm (.decode false (if omits then .first else .checkClear)))

/-! ## Shared pieces -/

/-- `readCode()`: one code at the dictionary's current width (R100). -/
def readCode (s : State) : Res Nat :=
  let w := s.tbl.width.toNat
  Res.require (decide (w ≤ Config.maxW)) .width s.rd.cur.toNat w s <|
  consume w s

/-- `DEC_PREV <- q` (R24). -/
def State.setPrev (s : State) (q : Option Seq) : State := { s with dec := { s.dec with prev := q } }

/-- Back to the parser after a sub-block's decompress (R140): past the sub-block's bytes, at P_SUBLEN. -/
def State.resumeParse (s : State) : State :=
  { s with par := { s.par with pos := word (s.par.pos.toNat + s.par.subLen.toNat), subIdx := s.par.subIdx + 1 } }.setFsm
    (.parse .subLen)

/-- The machine's finish (R108): the command ends, or inside GIF_PARSE the parser goes on (R140). -/
def decodeFinish (inParse : Bool) (s : State) : Res Unit :=
  if inParse then .ok () s.resumeParse
  else .ok () (s.finish false s.out.pos.toNat s.rd.cur.toNat)

/-! ## The states -/

/-- D_CHECK_CLEAR: the first code must be the clear code (R101). -/
def stepCheckClear (inParse : Bool) (s : State) : Res Unit :=
  Res.bind (readCode s) fun c s =>
  Res.require (c == 2 ^ s.tbl.n.toNat) .format s.rd.cur.toNat c s <|
  .ok () (s.setFsm (.decode inParse .first))

/-- D_FIRST: emit the sequence of the first data code (R102). -/
def stepFirst (inParse : Bool) (s : State) : Res Unit :=
  Res.bind (readCode s) fun c s =>
  match s.tbl.lookup c with
  | none => .raised .noSeq s.rd.cur.toNat c s
  | some q =>
    Res.bind (emit q s) fun _ s =>
    .ok () ((s.setPrev (some q)).setFsm (.decode inParse .loop))

/-- The CLEAR step (R105). -/
def stepClear (inParse : Bool) (s : State) : Res Unit :=
  let s := s.tblClear
  let s := if s.cfg.clearPrev then s.setPrev none else s
  .ok () (s.setFsm (.decode inParse .loop))

/-- Append `DEC_PREV ++ [b]` when there is a non-empty previous sequence (R106). -/
def appendAfterPrev (b : Byte) (s : State) : Res Unit :=
  match s.dec.prev with
  | some (x :: p) => Res.bind (tableAppend (x :: p ++ [b]) s) fun _ s => .ok () s
  | _ => .ok () s

/-- The FOUND step, with the entry `q` the dictionary held before it (R106). -/
def stepFound (inParse : Bool) (c : Nat) (q : Seq) (s : State) : Res Unit :=
  match q with
  | [] => .raised .noSeq s.rd.cur.toNat c s
  | b :: _ =>
    Res.bind (emit q s) fun _ s =>
    Res.bind (appendAfterPrev b s) fun _ s =>
    .ok () ((s.setPrev (some q)).setFsm (.decode inParse .loop))

/-- The UNDEFINED step (R107). -/
def stepUndefined (inParse : Bool) (c : Nat) (s : State) : Res Unit :=
  Res.require (!(decide (s.tbl.count < c) && s.cfg.badCode)) .badCode s.rd.cur.toNat c s <|
  match s.dec.prev with
  | some (b :: p) =>
    let t := b :: p ++ [b]
    Res.bind (tableAppend t s) fun _ s =>
    Res.bind (emit t s) fun _ s =>
    .ok () ((s.setPrev (some t)).setFsm (.decode inParse .loop))
  | _ => .raised .noSeq s.rd.cur.toNat c s

/-- What D_LOOP does with a code: the classes of R62, tested in the order of R103. -/
def stepCode (inParse : Bool) (c : Nat) (s : State) : Res Unit :=
  if c = 2 ^ s.tbl.n.toNat + 1 then decodeFinish inParse s
  else if c = 2 ^ s.tbl.n.toNat then stepClear inParse s
  else
    match s.tbl.lookup c with
    | some q => stepFound inParse c q s
    | none => stepUndefined inParse c s

/-- D_LOOP: one loop iteration (R103). -/
def stepLoop (inParse : Bool) (s : State) : Res Unit :=
  if s.out.cap.toNat ≤ s.out.pos.toNat then decodeFinish inParse s
  else if s.rd.isComplete s.tbl.width.toNat then decodeFinish inParse s
  else Res.bind (readCode s) fun c s => stepCode inParse c s

/-- One micro-step of the decompress machine. -/
def decodeStep (inParse : Bool) (st : DecState) (s : State) : Host.Outcome State Fault Refusal :=
  Res.outcome <|
  match st with
  | .checkClear => stepCheckClear inParse s
  | .first => stepFirst inParse s
  | .loop => stepLoop inParse s

end Sys2Proof.Machine
end

