-- ==== Sys2Proof/Machine/Parser.lean ====
section
/-! DEFINITION. GIF_PARSE, the blocks of the GIF stream and the parser's states (44_container_parser.md, R122 to R140). -/

namespace Sys2Proof.Machine

/-! ## The parse region -/

/-- `B[i]`, the byte at offset `i` of the parse region (R122). -/
def State.parseByte (s : State) (i : Nat) : Option Byte := s.memRead (s.par.base + i)

/-- `need(k)`: at least `k` bytes are left at `P_POS` (R122). -/
def State.need (s : State) (k : Nat) : Bool := decide (s.par.pos.toNat + k ≤ s.par.len)

/-- The bytes of the parse region from `P_POS` to its end: the stream the next block is decoded from. -/
def State.parseStream (s : State) : Option (List Byte) :=
  s.readBytes (s.par.base + s.par.pos.toNat) (s.par.len - s.par.pos.toNat)

/-- `P_POS <- p` (R26). -/
def State.setPos (s : State) (p : Nat) : State := { s with par := { s.par with pos := word p } }

/-- The units a parse leaves unconstructed at its finish: `RD_VALID <- 0; TBL_VALID <- 0` (R124, R129). -/
def State.dropUnits (s : State) : State :=
  { s with rd := { s.rd with valid := false }, tbl := { s.tbl with valid := false } }

/-- Truncation: the parse ends with `ok` = 0 (R124). -/
def State.truncate (s : State) : State :=
  let s := ({ s with cont := { s.cont with valid := false } }).dropUnits
  s.finish false s.cont.blocks.length s.par.pos.toNat

/-- Append a block to `CONT.BLOCKS`, in stream order (R130). -/
def State.addBlock (s : State) (b : Block) : State := { s with cont := { s.cont with blocks := s.cont.blocks ++ [b] } }

/-- Record a block, go to `p`, and back to P_LABEL (R130). -/
def State.recordBlock (s : State) (b : Block) (p : Nat) : State := ((s.addBlock b).setPos p).setFsm (.parse .label)

/-! ## The command (R122) -/

/-- GIF_PARSE: the precondition and the setup micro-step (R122). -/
def execGifParse (base len : Word) (s : State) : Host.Outcome State Fault Refusal :=
  Res.outcome <|
  Res.require (s.legalRegion base len) .range 0 base.toNat s <|
  let par := { s.par with base := base.toNat, len := len.toNat, pos := 0 }
  .ok () ({ s with par := par, cont := Container.empty }.setFsm (.parse .header))

/-! ## The blocks: the instructions of the stream at `P_POS` -/

/-- GIF_TRAILER: the parse ends with `ok` = 1 (R129). -/
def execGifTrailer (s : State) : Host.Outcome State Fault Refusal :=
  let s := s.setPos (s.par.pos.toNat + 1)
  let s := ({ s with cont := { s.cont with valid := true } }).dropUnits
  .next (s.finish true s.cont.blocks.length s.par.pos.toNat)

/-- GIF_EXT_COMMENT: two label bytes, the text and its terminator (R131). -/
def execGifExtComment (text : Seq) (s : State) : Host.Outcome State Fault Refusal :=
  .next (s.recordBlock (.comment text) (s.par.pos.toNat + 2 + text.length + 1))

/-- GIF_EXT_GRAPHICS_CONTROL: eight bytes; the size and terminator bytes are not checked (R132). -/
def execGifExtGraphicsControl (_size packed : Byte) (delay : U16) (transparent _terminator : Byte) (s : State) :
    Host.Outcome State Fault Refusal :=
  .next (s.recordBlock (.graphicsControl packed delay transparent) (s.par.pos.toNat + 8))

/-- GIF_EXT_APPLICATION: a 14-byte header, the payload and its terminator; the size byte is not checked (R133). -/
def execGifExtApplication (_size : Byte) (identifier : Vector Byte 8) (auth : Vector Byte 3) (payload : Seq) (s : State) :
    Host.Outcome State Fault Refusal :=
  .next (s.recordBlock (.application identifier auth payload) (s.par.pos.toNat + 14 + payload.length + 1))

/-- GIF_EXT_PLAIN_TEXT: a 15-byte header; the body is not skipped (R134). -/
def execGifExtPlainText (_size : Byte) (header : Vector Byte 12) (s : State) : Host.Outcome State Fault Refusal :=
  .next (s.recordBlock (.plainText header) (s.par.pos.toNat + 15))

/-- GIF_EXTENSION: an extension whose label is none of the four kinds. The two label bytes are skipped and no block is recorded
(R130's last case, R135). -/
def execGifExtension (_label : Byte) (s : State) : Host.Outcome State Fault Refusal :=
  .next ((s.setPos (s.par.pos.toNat + 2)).setFsm (.parse .label))

/-- GIF_IMAGE: the image descriptor (R136). -/
def execGifImage (left top width height : U16) (ipacked : Byte) (s : State) : Host.Outcome State Fault Refusal :=
  let img : Image := ⟨left, top, width, height, ipacked, none, 0, [], 0⟩
  let s := { s with par := { s.par with img := img } }.setPos (s.par.pos.toNat + 10)
  .next (s.setFsm (.parse (if ipacked.getLsbD 7 then .lct else .codeSize)))

/-! ## The parser's other states -/

/-- Go on when `need(k)` holds, else truncate (R122, R124). -/
def Res.needing (k : Nat) (s : State) (go : Res Unit) : Res Unit :=
  if s.need k then go else .ok () s.truncate

/-- The header of the 13 bytes at the start of the parse region (R63). -/
def headerOf : Seq → Header
  | [s0, s1, s2, v0, v1, v2, w0, w1, h0, h1, spacked, bg, aspect] =>
    ⟨#v[s0, s1, s2], #v[v0, v1, v2], u16Of w0 w1, u16Of h0 h1, spacked, bg, aspect⟩
  | _ => Header.zero

/-- P_HEADER: the 13-byte header (R125). Neither the signature nor the version is checked. -/
def stepHeader (s : State) : Res Unit :=
  Res.needing 13 s <|
  Res.access (s.readBytes s.par.base 13) fun bs =>
  let h := headerOf bs
  let flag := h.spacked.getLsbD 7
  let par := { s.par with gctFlag := flag, gSize := h.spacked.extractLsb' 0 3, pos := word 13 }
  .ok () ({ s with cont := { s.cont with hdr := h }, par := par }.setFsm (.parse (if flag then .gct else .label)))

/-- The triples of a colour table's bytes: red, green, blue (R65). -/
def rgbTriples : Seq → ColorTable
  | r :: g :: b :: t => ⟨r, g, b⟩ :: rgbTriples t
  | _ => []

/-- A colour table of `k` entries at `P_POS` (R65, R126, R137). -/
def State.readColors (s : State) (k : Nat) : Option ColorTable :=
  match s.readBytes (s.par.base + s.par.pos.toNat) (3 * k) with
  | none => none
  | some bs => some (rgbTriples bs)

/-- P_GCT: the global colour table (R126). -/
def stepGct (s : State) : Res Unit :=
  let k := 2 ^ (s.par.gSize.toNat + 1)
  Res.needing (3 * k) s <|
  Res.access (s.readColors k) fun t =>
  .ok () (({ s with cont := { s.cont with gct := some t } }.setPos (s.par.pos.toNat + 3 * k)).setFsm (.parse .label))

/-- The size of a local colour table: its own under `LCT_SIZING` = 1, else the global table's, none when there is no global
table (R137). -/
def State.lctSize (s : State) : Option Nat :=
  if s.cfg.lctSizing then some (2 ^ ((s.par.img.ipacked.extractLsb' 0 3).toNat + 1))
  else if s.par.gctFlag then some (2 ^ (s.par.gSize.toNat + 1))
  else none

/-- P_LCT: the local colour table (R137). -/
def stepLct (s : State) : Res Unit :=
  match s.lctSize with
  | none => .raised .lctSize s.par.pos.toNat s.par.img.ipacked.toNat s
  | some k =>
    Res.needing (3 * k) s <|
    Res.access (s.readColors k) fun t =>
    let par := { s.par with img := { s.par.img with lct := some t } }
    .ok () (({ s with par := par }.setPos (s.par.pos.toNat + 3 * k)).setFsm (.parse .codeSize))

/-- P_CODESIZE: the code-size byte, which initialises the image's table (R138). -/
def stepCodeSize (s : State) : Res Unit :=
  Res.needing 1 s <|
  Res.access (s.parseByte s.par.pos.toNat) fun cs =>
  let s := s.setPos (s.par.pos.toNat + 1)
  Res.bind (tableInit cs.toNat s) fun _ s =>
  .ok () ({ s with par := { s.par with img := { s.par.img with codeSize := cs }, subIdx := 0 } }.setFsm (.parse .subLen))

/-- P_SUBLEN: a sub-block's length byte; a zero ends the image and records it (R139). -/
def stepSubLen (s : State) : Res Unit :=
  Res.needing 1 s <|
  Res.access (s.parseByte s.par.pos.toNat) fun l =>
  let s := s.setPos (s.par.pos.toNat + 1)
  if l = 0#8 then .ok () ((s.addBlock (.image s.par.img)).setFsm (.parse .label))
  else .ok () ({ s with par := { s.par with subLen := l } }.setFsm (.parse .subData))

/-- The decompress of one sub-block: a fresh reader over its bytes, the pixel sink, and the clear code expected only in the
image's first (R140). -/
def State.startSubBlock (s : State) : State :=
  let img := s.par.img
  let omits := decide (0 < s.par.subIdx)
  let s := { s with
    rd := ⟨word (s.par.base + s.par.pos.toNat), word s.par.subLen.toNat, 0, true⟩
    out := ⟨word img.filled, word (img.cells - img.filled), 0, .pixels⟩
    dec := ⟨none, omits⟩ }
  s.setFsm (.decode true (if omits then .first else .checkClear))

/-- P_SUBDATA: feed one sub-block to the decoder, or skip it when the pixel buffer is full (R140). -/
def stepSubData (s : State) : Res Unit :=
  Res.needing s.par.subLen.toNat s <|
  if s.par.img.filled < s.par.img.cells then .ok () s.startSubBlock
  else .ok () s.resumeParse

end Sys2Proof.Machine
end

