-- ==== Sys2Proof/Machine/Table.lean ====
section
/-! DEFINITION. The dictionary commands (41_codetable.md, R92 to R97). -/

namespace Sys2Proof.Machine

/-- TBL_INIT: construct the table (R92). -/
def execTblInit (n : Word) (s : State) : Host.Outcome State Fault Refusal :=
  Res.outcome <|
  Res.bind (tableInit n.toNat s) fun _ s => .ok () (s.finish false s.tbl.count s.tbl.width.toNat)

/-- TBL_APPEND: append a sequence taken from DMEM (R93). -/
def execTblAppend (base len : Word) (s : State) : Host.Outcome State Fault Refusal :=
  Res.outcome <|
  Res.require s.tbl.valid .notInit 0 0x11 s <|
  Res.require (s.legalRegion base len) .range 0 base.toNat s <|
  Res.access (s.readBytes base.toNat len.toNat) fun q =>
  Res.bind (tableAppend q s) fun c s => .ok () (s.finish false c s.tbl.width.toNat)

/-- TBL_LOOKUP: look up a code and copy its sequence to DMEM (R94). -/
def execTblLookup (code base cap : Word) (s : State) : Host.Outcome State Fault Refusal :=
  Res.outcome <|
  Res.require s.tbl.valid .notInit 0 0x12 s <|
  Res.require (s.legalRegion base cap) .range 0 base.toNat s <|
  Res.require (!s.hitsReader base cap) .range 0 base.toNat s <|
  match s.tbl.lookup code.toNat with
  | some q =>
    let k := min q.length cap.toNat
    Res.access (s.writeBytes base.toNat (q.take k)) fun s => .ok () (s.finish true q.length k)
  | none => .ok () (s.finish false 0 0)

/-- TBL_COUNT: read the entry count (R95). -/
def execTblCount (s : State) : Host.Outcome State Fault Refusal :=
  Res.outcome <|
  Res.require s.tbl.valid .notInit 0 0x13 s <|
  .ok () (s.finish false s.tbl.count 0)

/-- TBL_WIDTH: read the current code width (R96). -/
def execTblWidth (s : State) : Host.Outcome State Fault Refusal :=
  Res.outcome <|
  Res.require s.tbl.valid .notInit 0 0x14 s <|
  .ok () (s.finish false s.tbl.width.toNat 0)

/-- TBL_CLEAR: reset the table to its initial state, with the same `n` (R97). -/
def execTblClear (s : State) : Host.Outcome State Fault Refusal :=
  Res.outcome <|
  Res.require s.tbl.valid .notInit 0 0x15 s <|
  let s := s.tblClear
  .ok () (s.finish false s.tbl.count s.tbl.width.toNat)

end Sys2Proof.Machine
end

