-- ==== Sys2Proof/Machine/Dispatch.lean ====
section
/-! DEFINITION. The meaning of every instruction: one arm per constructor. A command's meaning is its first micro-step (R30). -/

namespace Sys2Proof.Machine

def exec (i : Instr) (s : State) : Host.Outcome State Fault Refusal :=
  match i with
  | .nop => Sys2Proof.Machine.execNop s
  | .rdInit base len bit => Sys2Proof.Machine.execRdInit base len bit s
  | .rdConsume width => Sys2Proof.Machine.execRdConsume width s
  | .rdIsComplete width => Sys2Proof.Machine.execRdIsComplete width s
  | .wrInit base len => Sys2Proof.Machine.execWrInit base len s
  | .wrAppend value width => Sys2Proof.Machine.execWrAppend value width s
  | .wrCanAppend width => Sys2Proof.Machine.execWrCanAppend width s
  | .wrWritten => Sys2Proof.Machine.execWrWritten s
  | .tblInit n => Sys2Proof.Machine.execTblInit n s
  | .tblAppend base len => Sys2Proof.Machine.execTblAppend base len s
  | .tblLookup code base cap => Sys2Proof.Machine.execTblLookup code base cap s
  | .tblCount => Sys2Proof.Machine.execTblCount s
  | .tblWidth => Sys2Proof.Machine.execTblWidth s
  | .tblClear => Sys2Proof.Machine.execTblClear s
  | .lzwDecompress base cap flags => Sys2Proof.Machine.execLzwDecompress base cap flags s
  | .lzwCompress n base len flags => Sys2Proof.Machine.execLzwCompress n base len flags s
  | .gifParse base len => Sys2Proof.Machine.execGifParse base len s
  | .ctSize sel => Sys2Proof.Machine.execCtSize sel s
  | .ctIndex sel index => Sys2Proof.Machine.execCtIndex sel index s
  | .ctFind sel rgb => Sys2Proof.Machine.execCtFind sel rgb s
  | .contRead block field element => Sys2Proof.Machine.execContRead block field element s
  | .softReset => Sys2Proof.Machine.execSoftReset s
  | .gifExtension label => Sys2Proof.Machine.execGifExtension label s
  | .gifImage left top width height ipacked => Sys2Proof.Machine.execGifImage left top width height ipacked s
  | .gifTrailer => Sys2Proof.Machine.execGifTrailer s
  | .gifExtComment text => Sys2Proof.Machine.execGifExtComment text s
  | .gifExtGraphicsControl size packed delay transparent terminator => Sys2Proof.Machine.execGifExtGraphicsControl size packed delay transparent terminator s
  | .gifExtApplication size identifier auth payload => Sys2Proof.Machine.execGifExtApplication size identifier auth payload s
  | .gifExtPlainText size header => Sys2Proof.Machine.execGifExtPlainText size header s

end Sys2Proof.Machine
end

