-- ==== Sys2Proof/Machine/Engine.lean ====
section
/-! DEFINITION. The engine: which micro-step is next, the fetch of a command and of a block of the GIF stream (R28, R30). -/

namespace Sys2Proof.Machine

/-! ## The first micro-step of an accepted command -/

/-- The words the engine decodes: the latched opcode and operands (R28, R54). -/
def State.commandWords (s : State) : CommandWords :=
  ⟨s.cmd.setWidth 32, s.lat.a0, s.lat.a1, s.lat.a2, s.lat.a3⟩

/-- Decode the accepted command and run its first micro-step; an unassigned opcode raises `E_BAD_OPCODE` (R28, R57). -/
def firstStep (s : State) : Host.Outcome State Fault Refusal :=
  match decodeCommand s.commandWords with
  | .ok i => exec i s
  | .error _ => .next (s.raise .badOpcode 0 s.cmd.toNat)

/-! ## The parser's states that decode the stream -/

/-- P_LABEL: a label byte selects P_EXT, P_IMAGE or the trailer; any other byte is skipped (R127, R128). -/
def stepLabel (s : State) : Host.Outcome State Fault Refusal :=
  if s.need 1 then
    match s.parseByte s.par.pos.toNat with
    | none => .fault .dmemHole
    | some b =>
      if b = 0x21#8 then .next (s.setFsm (.parse .ext))
      else if b = 0x2C#8 then .next (s.setFsm (.parse .image))
      else if b = 0x3B#8 then exec .gifTrailer s
      else .next ((s.setPos (s.par.pos.toNat + 1)).setFsm (.parse .label))
  else .next s.truncate

/-- Run a block decoded from the stream, or truncate when its bytes end (R124). -/
def runBlock (d : Except DecodeError (Instr × List Byte)) (s : State) : Host.Outcome State Fault Refusal :=
  match d with
  | .ok (i, _) => exec i s
  | .error _ => .next s.truncate

/-- P_EXT: one whole extension; the byte at `P_POS` is its introducer (R130 to R135). -/
def stepExt (s : State) : Host.Outcome State Fault Refusal :=
  match s.parseStream with
  | none => .fault .dmemHole
  | some bs => runBlock (decodeExtension bs.tail) s

/-- P_IMAGE: the image descriptor; the byte at `P_POS` is its label (R136). -/
def stepImage (s : State) : Host.Outcome State Fault Refusal :=
  match s.parseStream with
  | none => .fault .dmemHole
  | some bs => runBlock (decodeImage bs.tail) s

/-- One micro-step of the parser. -/
def parseStep (st : ParState) (s : State) : Host.Outcome State Fault Refusal :=
  match st with
  | .header => Res.outcome (stepHeader s)
  | .gct => Res.outcome (stepGct s)
  | .label => stepLabel s
  | .ext => stepExt s
  | .image => stepImage s
  | .lct => Res.outcome (stepLct s)
  | .codeSize => Res.outcome (stepCodeSize s)
  | .subLen => Res.outcome (stepSubLen s)
  | .subData => Res.outcome (stepSubData s)

/-! ## The engine's micro-step -/

/-- One micro-step of the running command (R30). While `FSM` is IDLE it is the command's first. SOFT_RESET, the one command
accepted after a fault that kept another `FSM` (R28, R155), has no second micro-step (R151), so its opcode is looked at before
`FSM`. DEDUCED (log 6). -/
def microStep (s : State) : Host.Outcome State Fault Refusal :=
  if s.cmd = 0xFF#8 then firstStep s
  else
    match s.status.fsm with
    | .idle => firstStep s
    | .decode inParse st => decodeStep inParse st s
    | .compress st => encodeStep st s
    | .parse st => parseStep st s

/-- The engine's move: a micro-step while `BUSY` = 1, nothing otherwise. -/
def engineStep (s : State) : Host.Outcome State Fault Refusal :=
  if s.status.busy then microStep s else .next s

end Sys2Proof.Machine
end

