-- ==== Sys2Proof/Machine/HostPort.lean ====
section
/-! DEFINITION. The host's side of the CSR port (R14 to R20, R28, R29, R152), the assembler form of a command and the
pseudo-instructions (R58, R59). -/

namespace Sys2Proof.Machine

/-! ## CSRs -/

/-- The value a CSR read gives at a byte offset of the window (R14). Reserved offsets read 0 (R15). -/
def State.csrRead (s : State) (off : Nat) : Word :=
  match off with
  | 0x00 => s.cmd.setWidth 32
  | 0x04 => s.status.word
  | 0x08 => s.arg.a0
  | 0x0C => s.arg.a1
  | 0x10 => s.arg.a2
  | 0x14 => s.arg.a3
  | 0x18 => s.res0
  | 0x1C => s.res1
  | 0x20 => s.config.word
  | 0x24 => s.validWord
  | 0x28 => s.rd.base
  | 0x2C => s.rd.len
  | 0x30 => s.rd.cur
  | 0x34 => s.wr.base
  | 0x38 => s.wr.len
  | 0x3C => s.wr.cur
  | 0x40 => s.tbl.n
  | 0x44 => word s.tbl.count
  | 0x48 => s.tbl.width
  | 0x4C => s.out.base
  | 0x50 => s.out.cap
  | 0x54 => s.out.pos
  | 0x58 => s.par.pos
  | 0x5C => Config.identity
  | _ => 0

/-- A write of `CMD` (R28, R29): accepted while `BUSY` = 0 and either `FAULT` = 0 or the opcode is SOFT_RESET's. -/
def State.writeCmd (s : State) (v : Word) : State :=
  if !s.status.busy && (!s.status.fault || opcodeOf v == 0xFF#8) then s.accept v else s.rejectWrite

/-- A write of a register the host may write: dropped while `BUSY` = 1 (R29). -/
def State.writeIdle (s t : State) : State := if s.status.busy then s.rejectWrite else t

/-- What a CSR write does at a byte offset of the window; read-only registers and reserved offsets ignore it (R15, R152). -/
def State.csrWrite (s : State) (off : Nat) (v : Word) : State :=
  match off with
  | 0x00 => s.writeCmd v
  | 0x08 => s.writeIdle { s with arg := { s.arg with a0 := v } }
  | 0x0C => s.writeIdle { s with arg := { s.arg with a1 := v } }
  | 0x10 => s.writeIdle { s with arg := { s.arg with a2 := v } }
  | 0x14 => s.writeIdle { s with arg := { s.arg with a3 := v } }
  | 0x20 => s.writeIdle { s with config := Policy.ofWord v }
  | _ => s

/-! ## The host's move -/

/-- The host got a value back. -/
def State.give (s : State) (v : HostValue) : State := { s with host := { s.host with got := s.host.got ++ [v] } }

/-- A CSR access of `bytes` bytes at `off`, then `k`; any access but a 32-bit one at a multiple of 4 is refused (R45). -/
def csrAccess (bytes off : Nat) (k : Host.Outcome State Fault Refusal) : Host.Outcome State Fault Refusal :=
  if bytes = 4 ∧ off % 4 = 0 then
    if off ≤ 0x7C then k else .refused .csrOutsideWindow
  else .refused .csrAccessShape

/-- A host access to DMEM, then `k`; there is no such step while `BUSY` = 1 (R39). -/
def dmemAccess (s : State) (k : Host.Outcome State Fault Refusal) : Host.Outcome State Fault Refusal :=
  if s.status.busy then .refused .dmemWhileBusy else k

/-- One action of the host (R152), in the state that no longer lists it. -/
def hostAct (op : HostOp) (s : State) : Host.Outcome State Fault Refusal :=
  match op with
  | .csrRead bytes off => csrAccess bytes off (.next (s.give (.csr (s.csrRead off))))
  | .csrWrite bytes off v => csrAccess bytes off (.next (s.csrWrite off v))
  | .dmemRead a =>
    dmemAccess s <|
    match s.memRead a with
    | none => .fault .dmemHole
    | some b => .next (s.give (.dmem b))
  | .dmemWrite a v =>
    dmemAccess s <|
    match s.memWrite a v with
    | none => .fault .dmemHole
    | some s' => .next s'
  | .wait =>
    let t := s.give (.csr s.status.word)
    .next (if s.status.busy then { t with host := { t.host with script := .wait :: t.host.script } } else t)
  | .hardwareReset init => .next (State.hardwareReset s.dmemSize (Memory.ofCells s.dmemSize init) s.host)

/-- The host's move: the next action of its script, nothing when there is none. -/
def hostStep (s : State) : Host.Outcome State Fault Refusal :=
  match s.host.script with
  | [] => .next s
  | op :: rest => hostAct op { s with host := { s.host with script := rest } }

/-! ## Host programs (R58, R59) -/

/-- The byte offset of `ARGk` (R14). -/
def argOffset (k : Nat) : Nat := 0x08 + 4 * k

/-- The writes of the operands a command reads, from `ARGk` on (R58). -/
def assembleArgs : (k : Nat) → List Word → List HostOp
  | _, [] => []
  | k, v :: rest => .csrWrite 4 (argOffset k) v :: assembleArgs (k + 1) rest

/-- The host writes a command line assembles to: its operands in order, then the opcode to `CMD` (R58). -/
def assemble (i : Instr) : List HostOp :=
  match commandOpcode i with
  | none => []
  | some op => assembleArgs 0 (commandOperands i) ++ [.csrWrite 4 0x00 (op.setWidth 32)]

/-- A command line with the operands it gives (R58): an operand the command reads and the line omits is written as 0, and an
operand the command does not read is an assembly error, as is an unknown mnemonic. -/
def assembleLine (mnemonic : String) (ops : List Word) : Option (List HostOp) :=
  match commandRows.find? (fun r => r.mnemonic == mnemonic) with
  | none => none
  | some r =>
    if ops.length ≤ r.reads then
      some (assembleArgs 0 (ops ++ List.replicate (r.reads - ops.length) 0) ++ [.csrWrite 4 0x00 (word r.pattern)])
    else none

/-- `SETCFG v` (R59). -/
def pseudoSetCfg (v : Word) : List HostOp := [.csrWrite 4 0x20 v]

/-- `RD_OPEN base, len` (R59). -/
def pseudoRdOpen (base len : Word) : List HostOp := assemble (.rdInit base len 0)

/-- `DECODE base, cap` (R59). -/
def pseudoDecode (base cap : Word) : List HostOp := assemble (.lzwDecompress base cap 0)

/-- `DECODE_CONT base, cap` (R59). -/
def pseudoDecodeCont (base cap : Word) : List HostOp := assemble (.lzwDecompress base cap 1)

/-- `ENCODE n, base, len` (R59). -/
def pseudoEncode (n base len : Word) : List HostOp := assemble (.lzwCompress n base len 0)

/-- `RESULT -> s, r0, r1` (R59). -/
def pseudoResult : List HostOp := [.csrRead 4 0x04, .csrRead 4 0x18, .csrRead 4 0x1C]

end Sys2Proof.Machine
end

