-- ==== Sys2Proof/Machine/Fetch.lean ====
section
/-! DEFINITION. Whose move is next (R5, R30), and how an instruction's words come to stand where the engine fetches. -/

namespace Sys2Proof.Machine

/-- One move: of the agent that `turns` names. With no turn listed the engine moves while `BUSY` = 1 and the host otherwise, so a
run is fair to the engine (R153, R167; log 5). -/
def nextMove (s : State) : Host.Outcome State Fault Refusal :=
  match s.host.turns with
  | [] => if s.status.busy then engineStep s else hostStep s
  | .engine :: rest => engineStep { s with host := { s.host with turns := rest } }
  | .host :: rest => hostStep { s with host := { s.host with turns := rest } }

/-- Write bytes from an address on, as data. -/
def placeBytes (m : Memory) (a : Nat) : Seq → Memory
  | [] => m
  | b :: t => placeBytes (m.write a b) (a + 1) t

/-- The parser state in which a block of the stream is decoded: P_EXT, P_IMAGE, or P_LABEL for the trailer. -/
def blockFsm (label : Byte) : Fsm :=
  if label = 0x21#8 then .parse .ext else if label = 0x2C#8 then .parse .image else .parse .label

/-- `s` with a command accepted and about to run its first micro-step: what `State.accept` leaves of a `CMD` write, with
operand latches of zeros. -/
def State.withCommand (s : State) (nbits w : Nat) : State :=
  { s with
    cmd := opcodeOf (tableCommand nbits w).cmd
    lat := Operands.zero
    cfg := s.config
    status := { s.status with done := false, flag := false, busy := true, fsm := .idle }
    res0 := 0
    res1 := 0
    host := { s.host with turns := [] } }

/-- `s` with a parse under way and the block's bytes at `P_POS`: the parse region and DMEM reach past them. -/
def State.withBlock (s : State) (nbits w : Nat) : State :=
  let bs := tableBytes nbits w
  let at_ := s.par.base + s.par.pos.toNat
  { s with
    dmemSize := max s.dmemSize (s.par.base + max s.par.len (s.par.pos.toNat + bs.length))
    cmd := 0x30#8
    status := { s.status with done := false, flag := false, busy := true, fsm := blockFsm (byte (w % 2 ^ nbits)) }
    par := { s.par with len := max s.par.len (s.par.pos.toNat + bs.length) }
    dmem := placeBytes s.dmem at_ bs
    host := { s.host with turns := [] } }

end Sys2Proof.Machine
end

