-- ==== Sys2Proof/Machine/Step.lean ====
section
/-! DEFINITION. One step of the machine: a move of the host or of the engine (R5, R30, R152). -/

namespace Sys2Proof.Machine

/-- One step of the machine (R30, R152). -/
def step (s : State) : Host.Outcome State Fault Refusal := nextMove s

/-- `s` with a word of the opcode table stored where the next step fetches its instruction, so that the next step runs it (log 7). -/
def State.withFetchWord (s : State) (nbits w : Nat) : State :=
  if tableIsCommand nbits w then s.withCommand nbits w else s.withBlock nbits w

end Sys2Proof.Machine
end

