-- ==== Sys2Proof/Safety.lean ====
section
/-! DEFINITION. The terms the statements use: results and frames, runs of the engine, the region a command may write, and the
machine's invariant (10_state.md). -/

namespace Sys2Proof.Machine

/-! ## Results and frames -/

/-- The command ended with a finish that gave these results (R31). -/
def Ends (s t : State) (flag : Bool) (res0 res1 : Nat) : Prop :=
  t.status = { s.status with flag := flag, busy := false, done := true, fsm := .idle } ∧
    t.res0 = word res0 ∧ t.res1 = word res1

/-- Every byte of DMEM reads as before. -/
def KeepsMemory (s t : State) : Prop := ∀ a, t.peek a = s.peek a

/-- Every byte of DMEM outside the `len` bytes at `base` reads as before. -/
def KeepsMemoryOutside (base len : Nat) (s t : State) : Prop :=
  ∀ a, ¬(base ≤ a ∧ a < base + len) → t.peek a = s.peek a

/-- Only `STATUS`, `RES0` and `RES1` may differ. -/
def OnlyResults (s t : State) : Prop := t = { s with status := t.status, res0 := t.res0, res1 := t.res1 }

/-- `CMD` values with this opcode decode to the instruction `f` makes of the latches (R54, R55, R56). -/
def Encodes (opcode : Byte) (f : CommandWords → Instr) : Prop :=
  ∀ c : CommandWords, opcodeOf c.cmd = opcode → decodeCommand c = .ok (f c)

/-- Stream bit `p` of the region at `base`, as DMEM holds it (R41). -/
def State.bitAt (s : State) (base p : Nat) : Bool := (s.peek (base + p / 8)).getLsbD (p % 8)

/-- The `w`-bit code at stream bit `p`: the sum of `bit(p + i) · 2^i`, where a stream bit at or past `limit` counts as 0 (R41,
R77). -/
def State.codeAt (s : State) (base limit p w : Nat) : Nat :=
  ((List.range w).map fun i => if p + i < limit then (s.bitAt base (p + i)).toNat * 2 ^ i else 0).sum

/-- The code the reader gives next at width `w` (R77). -/
def State.nextCode (s : State) (w : Nat) : Nat :=
  s.codeAt s.rd.base.toNat (8 * s.rd.len.toNat) s.rd.cur.toNat w

/-- The reader's cursor after a code of width `w` (R77). -/
def State.nextCur (s : State) (w : Nat) : Nat := min (s.rd.cur.toNat + w) (8 * s.rd.len.toNat)

/-- Two regions overlap (R36). -/
def Meets (b1 l1 b2 l2 : Nat) : Prop := 0 < l1 ∧ 0 < l2 ∧ b1 < b2 + l2 ∧ b2 < b1 + l1

/-- A region overlaps the reader region while `RD_VALID` = 1 (R36). -/
def State.MeetsReader (s : State) (base len : Nat) : Prop :=
  s.rd.valid = true ∧ Meets base len s.rd.base.toNat s.rd.len.toNat

/-- The low `w` bits of `v` are ORed into the writer region from its cursor on, the cursor moves past them, and nothing else
changes: of DMEM, no byte but those that hold these bits (R83). -/
def Appends (v w : Nat) (s t : State) : Prop :=
  let base := s.wr.base.toNat
  let cur := s.wr.cur.toNat
  t = { s with dmem := t.dmem, wr := { s.wr with cur := word (cur + w) } } ∧
    (∀ p, t.bitAt base p = (s.bitAt base p || (decide (cur ≤ p) && decide (p < cur + w) && v.testBit (p - cur)))) ∧
    KeepsMemoryOutside (base + cur / 8) ((cur + w - 1) / 8 + 1 - cur / 8) s t

/-- The bytes of `q` go to the output sink in order, as many as fit, and nothing else changes (R99). -/
def Emits (q : Seq) (s t : State) : Prop :=
  let k := min q.length (s.out.cap.toNat - s.out.pos.toNat)
  let start := s.out.base.toNat + s.out.pos.toNat
  t = { s with
    dmem := t.dmem
    out := { s.out with pos := word (s.out.pos.toNat + k) }
    par := { s.par with img := { s.par.img with pixels := t.par.img.pixels, filled := t.par.img.filled } } } ∧
    (s.out.sink = .dmem → t.par = s.par ∧
      ∀ a, t.peek a = if start ≤ a ∧ a < start + k then q.getD (a - start) 0 else s.peek a) ∧
    (s.out.sink = .pixels → t.dmem = s.dmem ∧ t.par.img.filled = start + k ∧
      ∀ a, t.par.img.pixels.read a = if start ≤ a ∧ a < start + k then q[a - start]? else s.par.img.pixels.read a)

/-- A code fits the writer at the compressor's width (R114, R115). -/
def State.CodeFits (s : State) : Prop := s.encWidth ≤ 12 ∧ s.wr.cur.toNat + s.encWidth < 8 * s.wr.len.toNat

/-- The compressor emits one code and counts it (R115). -/
def EmitsCode (c : Nat) (s t : State) : Prop :=
  ∃ u, Appends c s.encWidth s u ∧ t = { u with enc := { u.enc with codes := u.enc.codes + 1 } }

/-- `c` is the smallest code that holds `q` (R113). -/
def Dict.First (d : Dict) (q : Seq) (c : Nat) : Prop := d.lookup c = some q ∧ ∀ j, j < c → d.lookup j ≠ some q

/-- `B[i]`, the byte at offset `i` of the parse region, as DMEM holds it (R122). -/
def State.byteAt (s : State) (i : Nat) : Byte := s.peek (s.par.base + i)

/-- `B[i .. j)` (R9, R122). -/
def State.bytesAt (s : State) (i j : Nat) : Seq := (List.range (j - i)).map fun k => s.byteAt (i + k)

/-- `u16le(i)` (R122). -/
def State.u16At (s : State) (i : Nat) : U16 := u16Of (s.byteAt i) (s.byteAt (i + 1))

/-- `z` is the first offset from `i` on, inside the parse region, whose byte is 0x00 (R131, R133). -/
def State.ZeroAt (s : State) (i z : Nat) : Prop :=
  i ≤ z ∧ z < s.par.len ∧ s.byteAt z = 0#8 ∧ ∀ y, i ≤ y → y < z → s.byteAt y ≠ 0#8

/-- No byte from offset `i` to the end of the parse region is 0x00. -/
def State.NoZeroFrom (s : State) (i : Nat) : Prop := ∀ y, i ≤ y → y < s.par.len → s.byteAt y ≠ 0#8

/-- `t` is a colour table of `k` entries, read from offset `i` of the parse region (R65). -/
def State.TableAt (s : State) (i k : Nat) (t : ColorTable) : Prop :=
  t.length = k ∧ ∀ e, e < k → t[e]? = some ⟨s.byteAt (i + 3 * e), s.byteAt (i + 3 * e + 1), s.byteAt (i + 3 * e + 2)⟩

/-! ## The host -/

/-- `s` with these actions left in the host's script. -/
def State.withScript (s : State) (ops : List HostOp) : State := { s with host := { s.host with script := ops } }

/-- The agent whose move is next: the one `turns` names, else the engine while `BUSY` = 1 and the host otherwise (R30; log 5). -/
def State.mover (s : State) : Agent :=
  match s.host.turns with
  | [] => if s.status.busy then .engine else .host
  | a :: _ => a

/-- `s` with that move's turn taken. -/
def State.turned (s : State) : State := { s with host := { s.host with turns := s.host.turns.tail } }

/-- The host, in its move, gives the block a hardware reset: it is the next action of its script, and `t` is what it leaves (R164;
log 14). -/
def State.HardwareResets (s t : State) : Prop :=
  s.mover = .host ∧ ∃ init rest, s.host.script = .hardwareReset init :: rest ∧
    t = State.hardwareReset s.dmemSize (Memory.ofCells s.dmemSize init)
      { s.host with script := rest, turns := s.host.turns.tail }

/-- The engine, in its move, runs the one micro-step of an accepted SOFT_RESET, and `t` is what it leaves (R151). -/
def State.SoftResets (s t : State) : Prop :=
  s.mover = .engine ∧ s.status.busy = true ∧ s.cmd = 0xFF#8 ∧ exec .softReset s.turned = .next t

/-! ## Accessor reads -/

/-- CONT_READ gives this value (R148). -/
def ReadsField (s : State) (block field element : Word) (v : Nat) : Prop :=
  ∃ t, exec (.contRead block field element) s = .next t ∧ Ends s t true v 0 ∧ OnlyResults s t

/-- CONT_READ gives one byte of a sequence, or faults on an element that is not below its length (R148). -/
def ReadsElement (s : State) (block field element : Word) (bs : Seq) : Prop :=
  (∀ b, bs[element.toNat]? = some b → ReadsField s block field element b.toNat) ∧
    (bs.length ≤ element.toNat →
      exec (.contRead block field element) s = .next (s.raise .index 2 element.toNat))

/-- CONT_READ faults: the field is not listed for the block (R148). -/
def NoField (s : State) (block field element : Word) : Prop :=
  exec (.contRead block field element) s = .next (s.raise .index 1 field.toNat)

/-! ## Runs of the engine -/

/-- `k` micro-steps of the engine, with no host step between them. -/
def engineRun : Nat → State → Host.Outcome State Fault Refusal
  | 0, s => .next s
  | k + 1, s =>
    match engineStep s with
    | .next t => engineRun k t
    | .fault f => .fault f
    | .refused r => .refused r

/-- `k` steps of the machine. -/
def stepRun : Nat → State → Host.Outcome State Fault Refusal
  | 0, s => .next s
  | k + 1, s =>
    match step s with
    | .next t => stepRun k t
    | .fault f => .fault f
    | .refused r => .refused r

/-- The `RES0` of each instruction of a list, run one after the other, and the last state: none if one of them stops or ends in
the fault state. -/
def execResults : List Instr → State → Option (List Word × State)
  | [], s => some ([], s)
  | i :: is, s =>
    match exec i s with
    | .next t =>
      if t.status.fault then none
      else match execResults is t with
        | none => none
        | some (rs, u) => some (t.res0 :: rs, u)
    | .fault _ => none
    | .refused _ => none

/-- A command other than SOFT_RESET is running. -/
def State.running (s : State) : Prop := s.status.busy = true ∧ s.cmd ≠ 0xFF#8

/-- A command other than SOFT_RESET is running, and `STATUS.FSM` holds this state. -/
def State.runs (s : State) (f : Fsm) : Prop := s.running ∧ s.status.fsm = f

/-- The region, as an address and a length, that the engine's next micro-step may write (R36, R38). -/
def State.target (s : State) : Nat × Nat :=
  if s.cmd = 0xFF#8 then (0, 0)
  else
    match s.status.fsm with
    | .decode false _ => (s.out.base.toNat, s.out.cap.toNat)
    | .decode true _ => (0, 0)
    | .compress _ => (s.wr.base.toNat, s.wr.len.toNat)
    | .parse _ => (0, 0)
    | .idle =>
      match decodeCommand s.commandWords with
      | .ok (.wrInit base len) => (base.toNat, len.toNat)
      | .ok (.wrAppend _ _) => (s.wr.base.toNat, s.wr.len.toNat)
      | .ok (.tblLookup _ base cap) => (base.toNat, cap.toNat)
      | _ => (0, 0)

/-! ## The machine's invariant -/

/-- The dictionary invariants (a) to (e) of R23, with the width law of R90. -/
structure Dict.Inv (d : Dict) : Prop where
  nMin : 2 ≤ d.n.toNat
  nMax : d.n.toNat ≤ 11
  literals : ∀ c, c < 2 ^ d.n.toNat → d.lookup c = some [byte c]
  clear : d.lookup (2 ^ d.n.toNat) = some []
  eoi : d.lookup (2 ^ d.n.toNat + 1) = some []
  countMin : 2 ^ d.n.toNat + 2 ≤ d.count
  countMax : d.count ≤ Config.dictMax
  width : d.width.toNat = max (d.n.toNat + 1) (bitlen d.count)

/-- A pixel buffer's invariant (R27): cells `0 .. filled-1` hold bytes, and cells from `filled` on are UNWRITTEN. -/
structure Image.Inv (img : Image) : Prop where
  canonical : img.pixels.wf = true
  written : ∀ k, (img.pixels.read k).isSome = true ↔ k < img.filled
  bound : img.filled ≤ img.cells

/-- A colour table's size is a power of two in [2, 256] (R27, R65). -/
def ColorTable.Inv (t : ColorTable) : Prop := ∃ e, 1 ≤ e ∧ e ≤ 8 ∧ t.length = 2 ^ e

/-- What holds of an image record's local colour table and pixels. -/
def Image.Legal (img : Image) : Prop := img.Inv ∧ ∀ t, img.lct = some t → ColorTable.Inv t

/-- What holds of a container (R27). -/
structure Container.Inv (c : Container) : Prop where
  gct : ∀ t, c.gct = some t → ColorTable.Inv t
  images : ∀ img, Block.image img ∈ c.blocks → img.Legal

/-- A region lies in DMEM (R35). -/
def State.InDmem (s : State) (base len : Nat) : Prop := base + len ≤ s.dmemSize

/-- What holds while the decompress machine runs (R98, R140). -/
structure State.Decoding (s : State) (inParse : Bool) : Prop where
  reader : s.rd.valid = true
  table : s.tbl.valid = true
  dmemSink : inParse = false →
    s.out.sink = .dmem ∧ s.InDmem s.out.base.toNat s.out.cap.toNat ∧ s.hitsReader s.out.base s.out.cap = false
  pixelSink : inParse = true →
    s.out.sink = .pixels ∧ s.par.img.filled = s.out.base.toNat + s.out.pos.toNat ∧
      s.out.base.toNat + s.out.cap.toNat = s.par.img.cells
  parser : inParse = true →
    s.cont.valid = false ∧ s.InDmem s.par.base s.par.len ∧ s.par.pos.toNat + s.par.subLen.toNat ≤ s.par.len

/-- What holds while the compress machine runs (R112, R117). -/
structure State.Encoding (s : State) (st : EncState) : Prop where
  writer : s.wr.valid = true
  table : s.tbl.valid = true
  symbolWidth : s.tbl.n.toNat = s.enc.n
  source : s.InDmem s.enc.src s.enc.len
  reader : s.hitsReader s.wr.base s.wr.len = false
  started : st = .start → s.enc.idx = 0 ∧ s.enc.buf = []
  scanning : st = .scan → s.enc.idx < s.enc.len
  scanned : st = .flush ∨ st = .eoi → s.enc.idx = s.enc.len
  buffer : s.enc.buf = [] ∧ s.enc.idx = 0 ∨ s.enc.buf ≠ [] ∧ ∃ c, s.tbl.find s.enc.buf = some c

/-- What holds while a parser state outside the decoder runs (R122, R136 to R140). -/
structure State.Parsing (s : State) (st : ParState) : Prop where
  invalid : s.cont.valid = false
  region : s.InDmem s.par.base s.par.len
  cursor : s.par.pos.toNat ≤ s.par.len
  header : st = .header → s.par.pos.toNat = 0
  table : st = .subLen ∨ st = .subData → s.tbl.valid = true

/-- The invariants of the stored data: of DMEM, the reader, the writer, the dictionary, the output, the image being built and the
container (10_state.md). They hold in every state, whatever runs. -/
structure State.DataInv (s : State) : Prop where
  sizeMin : 1 ≤ s.dmemSize
  sizeMax : s.dmemSize ≤ Config.dmemSizeMax
  memory : s.dmem.wf = true
  cells : ∀ c ∈ s.dmem, c.1 < s.dmemSize
  readerCursor : s.rd.cur.toNat ≤ 8 * s.rd.len.toNat
  readerRegion : s.rd.valid = true → s.InDmem s.rd.base.toNat s.rd.len.toNat
  writerCursor : s.wr.valid = true → s.wr.cur.toNat < 8 * s.wr.len.toNat
  writerRegion : s.wr.valid = true → s.InDmem s.wr.base.toNat s.wr.len.toNat
  table : s.tbl.valid = true → s.tbl.Inv
  output : s.out.pos.toNat ≤ s.out.cap.toNat
  image : s.par.img.Legal
  container : s.cont.Inv

/-- The invariants of 10_state.md, with what the running machine's rules need of them. -/
structure State.Inv (s : State) : Prop extends s.DataInv where
  notDone : s.status.busy = true → s.status.done = false
  ended : s.status.busy = false → s.status.fault = false → s.status.fsm = .idle
  faulted : s.status.busy = true → s.status.fault = true → s.cmd = 0xFF#8
  decoding : ∀ p st, s.running → s.status.fsm = .decode p st → s.Decoding p
  encoding : ∀ st, s.running → s.status.fsm = .compress st → s.Encoding st
  parsing : ∀ st, s.running → s.status.fsm = .parse st → s.Parsing st

end Sys2Proof.Machine
end

