-- ==== Sys2Proof/Certificates/Slice0/Obligations.lean ====
section
/-! DEFINITION. The statements for the provers, in the order of OBLIGATIONS.json. -/

open Sys2Proof Sys2Proof.Machine

/-! ## Encodings (30_encoding.md) -/

/-- Decoding the encoding of a well-formed instruction gives it back, with every operand. -/
def Obligations.EncodedInstructionsDecode : Prop :=
  ∀ i : Instr, i.wellFormed = true → decode (encode i) = .ok (i, [])

/-- A block is decoded from the front of a stream exactly when it is well formed and the stream starts with its bytes. -/
def Obligations.BlocksAreTheirBytes : Prop :=
  ∀ (bs rest : List Byte) (i : Instr),
    decodeBlock bs = .ok (i, rest) ↔
      i.wellFormed = true ∧ ∃ bytes, encodeBlock i = some bytes ∧ bs = bytes ++ rest

/-- A decoded command has its opcode, and the operands it reads are its latches, in order and whole. -/
def Obligations.DecodedCommandsKeepTheirWords : Prop :=
  ∀ (c : CommandWords) (i : Instr), decodeCommand c = .ok i →
    i.wellFormed = true ∧ i.format = .command ∧ commandOpcode i = some (opcodeOf c.cmd) ∧
      commandOperands i = [c.a0, c.a1, c.a2, c.a3].take (commandOperands i).length

/-- The opcodes of R57 are unassigned, every other opcode is a command, and an accepted command with an unassigned opcode raises
`E_BAD_OPCODE` in its first micro-step and changes no other state. -/
def Obligations.UnassignedOpcodesFault : Prop :=
  let unassigned (op : Nat) : Prop :=
    4 ≤ op ∧ op ≤ 7 ∨ 0x0C ≤ op ∧ op ≤ 0x0F ∨ 0x16 ≤ op ∧ op ≤ 0x1F ∨ 0x22 ≤ op ∧ op ≤ 0x2F ∨
      0x31 ≤ op ∧ op ≤ 0x37 ∨ 0x3C ≤ op ∧ op ≤ 0xFE
  (∀ c : CommandWords, unassigned (opcodeOf c.cmd).toNat ↔ ∀ i, decodeCommand c ≠ .ok i) ∧
    ∀ s : State, s.status.busy = true → s.status.fsm = .idle → unassigned s.cmd.toNat →
      engineStep s = .next (s.raise .badOpcode 0 s.cmd.toNat)

/-- No word matches two command rows; no label byte matches two of the three block labels; and no label pair matches two of the six
rows but GIF_EXTENSION, whose one byte begins the pairs of all four extension rows. Eight encodings written out from the spec decode to
what they stand for. -/
def Obligations.SpecWordsDecode : Prop :=
  commandRows.Pairwise (fun r q => r.disjoint q = true) ∧
    (blockRows.take 3).Pairwise (fun r q => r.disjoint q = true) ∧
    (blockRows.drop 1).Pairwise (fun r q => r.disjoint q = true) ∧
    decodeCommand ⟨0x00000001#32, 0x100#32, 6#32, 0#32, 0#32⟩ = .ok (.rdInit 0x100#32 6#32 0#32) ∧
    decodeCommand ⟨0xFFFFFF09#32, 32#32, 7#32, 5#32, 5#32⟩ = .ok (.wrAppend 32#32 7#32) ∧
    decodeCommand ⟨0x12#32, 3#32, 0x300#32, 4#32, 0#32⟩ = .ok (.tblLookup 3#32 0x300#32 4#32) ∧
    decodeCommand ⟨0x21#32, 2#32, 0x100#32, 7#32, 1#32⟩ = .ok (.lzwCompress 2#32 0x100#32 7#32 1#32) ∧
    decodeCommand ⟨0x3B#32, 0#32, 8#32, 1#32, 0#32⟩ = .ok (.contRead 0#32 8#32 1#32) ∧
    decodeBlock [0x21#8, 0xF9#8, 4#8, 1#8, 10#8, 0#8, 1#8, 0#8] = .ok (.gifExtGraphicsControl 4#8 1#8 10#16 1#8 0#8, []) ∧
    decodeBlock [0x21#8, 0xFE#8, 0x68#8, 0x69#8, 0#8, 0x3B#8] = .ok (.gifExtComment [0x68#8, 0x69#8], [0x3B#8]) ∧
    decodeBlock [0x2C#8, 0#8, 0#8, 0#8, 0#8, 2#8, 0#8, 2#8, 1#8, 0x80#8] =
      .ok (.gifImage 0#16 0#16 2#16 258#16 0x80#8, [])

/-- A word of the opcode table, placed where the machine fetches, is the instruction the next step runs. -/
def Obligations.FetchWordRunsTheRow : Prop :=
  ∀ (s : State) (nbits w : Nat) (i : Instr), s.dmem.wf = true → decodeTableWord nbits w = some i →
    step (s.withFetchWord nbits w) = exec i (s.withFetchWord nbits w)

/-! ## The commands of the bit stream (40_bitstream.md) -/

/-- NOP finishes with no result and changes nothing else; while `FAULT` = 1 it is rejected. -/
def Obligations.NopOnlyFinishes : Prop :=
  Encodes 0x00#8 (fun _ => .nop) ∧
    (∀ s : State, ∃ t, exec .nop s = .next t ∧ Ends s t false 0 0 ∧ OnlyResults s t ∧ KeepsMemory s t) ∧
    ∀ (s : State) (v : Word), opcodeOf v = 0x00#8 → s.status.fault = true →
      s.csrWrite 0x00 v = { s with status := { s.status with reject := true } }

/-- RD_INIT: the legality of its region and bit offset, and the reader it constructs. -/
def Obligations.RdInitConstructsTheReader : Prop :=
  Encodes 0x01#8 (fun c => .rdInit c.a0 c.a1 c.a2) ∧
  ∀ (base len bit : Word) (s : State),
    (s.dmemSize < base.toNat + len.toNat →
      exec (.rdInit base len bit) s = .next (s.raise .range 0 base.toNat)) ∧
    (base.toNat + len.toNat ≤ s.dmemSize → 8 * len.toNat < bit.toNat →
      exec (.rdInit base len bit) s = .next (s.raise .range 0 bit.toNat)) ∧
    (base.toNat + len.toNat ≤ s.dmemSize → bit.toNat ≤ 8 * len.toNat →
      ∃ t, exec (.rdInit base len bit) s = .next t ∧ Ends s t false 0 0 ∧
        t.rd = ⟨base, len, bit, true⟩ ∧
        t = { s with status := t.status, res0 := t.res0, res1 := t.res1, rd := t.rd } ∧ KeepsMemory s t)

/-- RD_CONSUME: its faults in order, the code it reads bit by bit, and the cursor, which stops at the region's end. -/
def Obligations.RdConsumeReadsACode : Prop :=
  Encodes 0x02#8 (fun c => .rdConsume c.a0) ∧
  ∀ (width : Word) (s : State),
    let w := width.toNat
    let bits := 8 * s.rd.len.toNat
    (s.rd.valid = false → exec (.rdConsume width) s = .next (s.raise .notInit 0 0x02)) ∧
    (s.rd.valid = true → w < 1 ∨ 12 < w →
      exec (.rdConsume width) s = .next (s.raise .width s.rd.cur.toNat w)) ∧
    (s.rd.valid = true → 1 ≤ w → w ≤ 12 → bits < s.rd.cur.toNat + w → s.cfg.rdOverrun = true →
      exec (.rdConsume width) s = .next (s.raise .readOverrun s.rd.cur.toNat w)) ∧
    (s.rd.valid = true → 1 ≤ w → w ≤ 12 → s.rd.cur.toNat + w ≤ bits ∨ s.cfg.rdOverrun = false →
      s.InDmem s.rd.base.toNat s.rd.len.toNat →
      ∃ t, exec (.rdConsume width) s = .next t ∧ s.nextCode w < 2 ^ w ∧
        Ends s t false (s.nextCode w) (s.nextCur w) ∧
        t.rd = { s.rd with cur := word (s.nextCur w) } ∧
        t = { s with status := t.status, res0 := t.res0, res1 := t.res1, rd := t.rd } ∧ KeepsMemory s t)

/-- RD_ISCOMPLETE: the exhaustion test at any width, and the bits that remain. -/
def Obligations.RdIsCompleteTestsExhaustion : Prop :=
  Encodes 0x03#8 (fun c => .rdIsComplete c.a0) ∧
  ∀ (width : Word) (s : State),
    (s.rd.valid = false → exec (.rdIsComplete width) s = .next (s.raise .notInit 0 0x03)) ∧
    (s.rd.valid = true →
      ∃ t, exec (.rdIsComplete width) s = .next t ∧
        Ends s t (decide (8 * s.rd.len.toNat - s.rd.cur.toNat < width.toNat))
          (8 * s.rd.len.toNat - s.rd.cur.toNat) 0 ∧
        OnlyResults s t ∧ KeepsMemory s t)

/-- WR_INIT: its faults in order, the writer it constructs, and the region it zeroes; every other byte stays. -/
def Obligations.WrInitZeroesTheRegion : Prop :=
  Encodes 0x08#8 (fun c => .wrInit c.a0 c.a1) ∧
  ∀ (base len : Word) (s : State),
    (len.toNat = 0 → exec (.wrInit base len) s = .next (s.raise .range 0 len.toNat)) ∧
    (1 ≤ len.toNat → s.dmemSize < base.toNat + len.toNat →
      exec (.wrInit base len) s = .next (s.raise .range 0 base.toNat)) ∧
    (1 ≤ len.toNat → base.toNat + len.toNat ≤ s.dmemSize → s.MeetsReader base.toNat len.toNat →
      exec (.wrInit base len) s = .next (s.raise .range 0 base.toNat)) ∧
    (1 ≤ len.toNat → base.toNat + len.toNat ≤ s.dmemSize → ¬s.MeetsReader base.toNat len.toNat →
      s.dmem.wf = true →
      ∃ t, exec (.wrInit base len) s = .next t ∧ Ends s t false 0 0 ∧ t.wr = ⟨base, len, 0, true⟩ ∧
        t = { s with status := t.status, res0 := t.res0, res1 := t.res1, wr := t.wr, dmem := t.dmem } ∧
        (∀ a, base.toNat ≤ a → a < base.toNat + len.toNat → t.peek a = 0) ∧
        KeepsMemoryOutside base.toNat len.toNat s t)

/-- WR_APPEND: its faults in order, the bits it ORs into the region, and the cursor; every other bit of DMEM stays. -/
def Obligations.WrAppendWritesACode : Prop :=
  Encodes 0x09#8 (fun c => .wrAppend c.a0 c.a1) ∧
  ∀ (value width : Word) (s : State),
    let w := width.toNat
    let cur := s.wr.cur.toNat
    (s.wr.valid = false → exec (.wrAppend value width) s = .next (s.raise .notInit 0 0x09)) ∧
    (s.wr.valid = true → s.MeetsReader s.wr.base.toNat s.wr.len.toNat →
      exec (.wrAppend value width) s = .next (s.raise .range 0 s.wr.base.toNat)) ∧
    (s.wr.valid = true → ¬s.MeetsReader s.wr.base.toNat s.wr.len.toNat → w < 1 ∨ 12 < w →
      exec (.wrAppend value width) s = .next (s.raise .width cur w)) ∧
    (s.wr.valid = true → ¬s.MeetsReader s.wr.base.toNat s.wr.len.toNat → 1 ≤ w → w ≤ 12 →
      8 * s.wr.len.toNat ≤ cur + w →
      exec (.wrAppend value width) s = .next (s.raise .capacity cur w)) ∧
    (s.wr.valid = true → ¬s.MeetsReader s.wr.base.toNat s.wr.len.toNat → 1 ≤ w → w ≤ 12 →
      cur + w < 8 * s.wr.len.toNat → s.InDmem s.wr.base.toNat s.wr.len.toNat → s.dmem.wf = true →
      ∃ u t, Appends value.toNat w s u ∧ exec (.wrAppend value width) s = .next t ∧
        Ends u t false u.wr.cur.toNat 0 ∧ OnlyResults u t)

/-- WR_CANAPPEND, the strict capacity test, and WR_WRITTEN, the written view: one byte more than the fully consumed ones. -/
def Obligations.WriterTestsItsRoom : Prop :=
  Encodes 0x0A#8 (fun c => .wrCanAppend c.a0) ∧ Encodes 0x0B#8 (fun _ => .wrWritten) ∧
  ∀ (width : Word) (s : State),
    (s.wr.valid = false →
      exec (.wrCanAppend width) s = .next (s.raise .notInit 0 0x0A) ∧
        exec .wrWritten s = .next (s.raise .notInit 0 0x0B)) ∧
    (s.wr.valid = true →
      (∃ t, exec (.wrCanAppend width) s = .next t ∧
        Ends s t (decide (width.toNat ≤ 12 ∧ s.wr.cur.toNat + width.toNat < 8 * s.wr.len.toNat)) 0 0 ∧
        OnlyResults s t ∧ KeepsMemory s t) ∧
      ∃ t, exec .wrWritten s = .next t ∧ Ends s t false (s.wr.cur.toNat / 8 + 1) 0 ∧
        OnlyResults s t ∧ KeepsMemory s t)

/-! ## The commands of the dictionary (41_codetable.md) -/

/-- TBL_INIT: the legal symbol widths and the initial table. A literal of 256 or more stands for its value modulo `2^8`: the
model's reading (log 15). -/
def Obligations.TblInitBuildsTheInitialTable : Prop :=
  Encodes 0x10#8 (fun c => .tblInit c.a0) ∧
  ∀ (n : Word) (s : State),
    (n.toNat < 2 ∨ 11 < n.toNat → exec (.tblInit n) s = .next (s.raise .symbolWidth 0 n.toNat)) ∧
    (2 ≤ n.toNat → n.toNat ≤ 11 →
      ∃ t, exec (.tblInit n) s = .next t ∧ Ends s t false (2 ^ n.toNat + 2) (n.toNat + 1) ∧
        t.tbl.n = n ∧ t.tbl.width.toNat = n.toNat + 1 ∧ t.tbl.valid = true ∧ t.tbl.count = 2 ^ n.toNat + 2 ∧
        (∀ c, c < 2 ^ n.toNat → t.tbl.lookup c = some [byte c]) ∧
        t.tbl.lookup (2 ^ n.toNat) = some [] ∧ t.tbl.lookup (2 ^ n.toNat + 1) = some [] ∧
        t.tbl.slots = initialSlots n.toNat ∧ (∀ c, 2 ^ n.toNat + 2 ≤ c → t.tbl.lookup c = none) ∧
        t = { s with status := t.status, res0 := t.res0, res1 := t.res1, tbl := t.tbl } ∧ KeepsMemory s t)

/-- TBL_APPEND: its faults in order, the entry at the next code, and the growth control. -/
def Obligations.TblAppendGrowsTheTable : Prop :=
  Encodes 0x11#8 (fun c => .tblAppend c.a0 c.a1) ∧
  ∀ (base len : Word) (s : State),
    let legal := base.toNat + len.toNat ≤ s.dmemSize
    let width := if 2 ^ s.tbl.width.toNat ≤ s.tbl.count + 1 then s.tbl.width.toNat + 1 else s.tbl.width.toNat
    (s.tbl.valid = false → exec (.tblAppend base len) s = .next (s.raise .notInit 0 0x11)) ∧
    (s.tbl.valid = true → ¬legal → exec (.tblAppend base len) s = .next (s.raise .range 0 base.toNat)) ∧
    (s.tbl.valid = true → legal → 4097 ≤ s.tbl.count →
      exec (.tblAppend base len) s = .next (s.raise .dictFull s.tbl.count len.toNat)) ∧
    (s.tbl.valid = true → legal → s.tbl.count < 4097 →
      ∃ t, exec (.tblAppend base len) s = .next t ∧ Ends s t false s.tbl.count width ∧
        t.tbl.count = s.tbl.count + 1 ∧
        t.tbl.lookup s.tbl.count = some ((List.range len.toNat).map fun i => s.peek (base.toNat + i)) ∧
        (∀ c, c < s.tbl.count → t.tbl.lookup c = s.tbl.lookup c) ∧
        t.tbl.width.toNat = width ∧ t.tbl.n = s.tbl.n ∧ t.tbl.valid = true ∧
        t = { s with status := t.status, res0 := t.res0, res1 := t.res1, tbl := t.tbl } ∧ KeepsMemory s t)

/-- TBL_LOOKUP: its faults in order, the sequence it copies to DMEM as far as it fits, and a code that is not found; every byte
outside the copy stays. -/
def Obligations.TblLookupCopiesTheSequence : Prop :=
  Encodes 0x12#8 (fun c => .tblLookup c.a0 c.a1 c.a2) ∧
  ∀ (code base cap : Word) (s : State),
    let legal := base.toNat + cap.toNat ≤ s.dmemSize
    (s.tbl.valid = false → exec (.tblLookup code base cap) s = .next (s.raise .notInit 0 0x12)) ∧
    (s.tbl.valid = true → ¬legal → exec (.tblLookup code base cap) s = .next (s.raise .range 0 base.toNat)) ∧
    (s.tbl.valid = true → legal → s.MeetsReader base.toNat cap.toNat →
      exec (.tblLookup code base cap) s = .next (s.raise .range 0 base.toNat)) ∧
    (s.tbl.valid = true → legal → ¬s.MeetsReader base.toNat cap.toNat → s.tbl.count ≤ code.toNat →
      ∃ t, exec (.tblLookup code base cap) s = .next t ∧ Ends s t false 0 0 ∧ OnlyResults s t ∧ KeepsMemory s t) ∧
    (s.tbl.valid = true → legal → ¬s.MeetsReader base.toNat cap.toNat → s.dmem.wf = true →
      ∀ q, s.tbl.lookup code.toNat = some q →
      ∃ t, exec (.tblLookup code base cap) s = .next t ∧
        Ends s t true q.length (min q.length cap.toNat) ∧
        (∀ i, i < min q.length cap.toNat → some (t.peek (base.toNat + i)) = q[i]?) ∧
        KeepsMemoryOutside base.toNat (min q.length cap.toNat) s t ∧
        t = { s with status := t.status, res0 := t.res0, res1 := t.res1, dmem := t.dmem })

/-- TBL_COUNT, TBL_WIDTH and TBL_CLEAR. The last leaves what TBL_INIT with the same symbol width leaves. -/
def Obligations.TableReadsAndClear : Prop :=
  Encodes 0x13#8 (fun _ => .tblCount) ∧ Encodes 0x14#8 (fun _ => .tblWidth) ∧ Encodes 0x15#8 (fun _ => .tblClear) ∧
  ∀ s : State,
    (s.tbl.valid = false →
      exec .tblCount s = .next (s.raise .notInit 0 0x13) ∧ exec .tblWidth s = .next (s.raise .notInit 0 0x14) ∧
        exec .tblClear s = .next (s.raise .notInit 0 0x15)) ∧
    (s.tbl.valid = true →
      (∃ t, exec .tblCount s = .next t ∧ Ends s t false s.tbl.count 0 ∧ OnlyResults s t ∧ KeepsMemory s t) ∧
      (∃ t, exec .tblWidth s = .next t ∧ Ends s t false s.tbl.width.toNat 0 ∧ OnlyResults s t ∧ KeepsMemory s t) ∧
      (2 ≤ s.tbl.n.toNat → s.tbl.n.toNat ≤ 11 →
        ∃ t, exec .tblClear s = .next t ∧ Ends s t false (2 ^ s.tbl.n.toNat + 2) (s.tbl.n.toNat + 1) ∧
          exec (.tblInit s.tbl.n) s = .next t ∧
          t = { s with status := t.status, res0 := t.res0, res1 := t.res1, tbl := t.tbl } ∧ KeepsMemory s t))

/-! ## The composite commands' setup (42, 43 and 44) -/

/-- LZW_DECOMPRESS: its preconditions in order, and its setup micro-step. -/
def Obligations.LzwDecompressSetsUp : Prop :=
  Encodes 0x20#8 (fun c => .lzwDecompress c.a0 c.a1 c.a2) ∧
  ∀ (base cap flags : Word) (s : State),
    let legal := base.toNat + cap.toNat ≤ s.dmemSize
    (s.rd.valid = false ∨ s.tbl.valid = false →
      exec (.lzwDecompress base cap flags) s = .next (s.raise .notInit 0 0x20)) ∧
    (s.rd.valid = true → s.tbl.valid = true → ¬legal ∨ s.MeetsReader base.toNat cap.toNat →
      exec (.lzwDecompress base cap flags) s = .next (s.raise .range 0 base.toNat)) ∧
    (s.rd.valid = true → s.tbl.valid = true → legal → ¬s.MeetsReader base.toNat cap.toNat →
      exec (.lzwDecompress base cap flags) s = .next { s with
        out := ⟨base, cap, 0, .dmem⟩
        dec := ⟨none, flags.getLsbD 0⟩
        status := { s.status with fsm := .decode false (if flags.getLsbD 0 then .first else .checkClear) } })

/-- LZW_COMPRESS: its preconditions in order, and its setup micro-step, which builds a fresh table. -/
def Obligations.LzwCompressSetsUp : Prop :=
  Encodes 0x21#8 (fun c => .lzwCompress c.a0 c.a1 c.a2 c.a3) ∧
  ∀ (n base len flags : Word) (s : State),
    let width := 2 ≤ n.toNat ∧ n.toNat ≤ 11
    let legal := base.toNat + len.toNat ≤ s.dmemSize
    let apart := ¬Meets base.toNat len.toNat s.wr.base.toNat s.wr.len.toNat
    (s.wr.valid = false → exec (.lzwCompress n base len flags) s = .next (s.raise .notInit 0 0x21)) ∧
    (s.wr.valid = true → ¬width →
      exec (.lzwCompress n base len flags) s = .next (s.raise .symbolWidth 0 n.toNat)) ∧
    (s.wr.valid = true → width → ¬legal ∨ ¬apart →
      exec (.lzwCompress n base len flags) s = .next (s.raise .range 0 base.toNat)) ∧
    (s.wr.valid = true → width → legal → apart → s.MeetsReader s.wr.base.toNat s.wr.len.toNat →
      exec (.lzwCompress n base len flags) s = .next (s.raise .range 0 s.wr.base.toNat)) ∧
    (s.wr.valid = true → width → legal → apart → ¬s.MeetsReader s.wr.base.toNat s.wr.len.toNat →
      ∃ t u, exec (.lzwCompress n base len flags) s = .next t ∧ exec (.tblInit n) s = .next u ∧ t = { s with
        tbl := u.tbl
        enc := ⟨n.toNat, base.toNat, len.toNat, 0, [], 0, flags.getLsbD 0, flags.getLsbD 1⟩
        status := { s.status with fsm := .compress .start } })

/-- GIF_PARSE: its precondition, and its setup micro-step, which empties the container. -/
def Obligations.GifParseSetsUp : Prop :=
  Encodes 0x30#8 (fun c => .gifParse c.a0 c.a1) ∧
  ∀ (base len : Word) (s : State),
    (s.dmemSize < base.toNat + len.toNat → exec (.gifParse base len) s = .next (s.raise .range 0 base.toNat)) ∧
    (base.toNat + len.toNat ≤ s.dmemSize →
      exec (.gifParse base len) s = .next { s with
        par := { s.par with base := base.toNat, len := len.toNat, pos := 0 }
        cont := ⟨false, ⟨#v[0, 0, 0], #v[0, 0, 0], 0, 0, 0, 0, 0⟩, none, []⟩
        status := { s.status with fsm := .parse .header } })

/-! ## The accessors (45_container_access.md) -/

/-- CT_SIZE, CT_INDEX and CT_FIND: the selector, the faults in order, and the results. -/
def Obligations.ColorTablesAreRead : Prop :=
  Encodes 0x38#8 (fun c => .ctSize c.a0) ∧ Encodes 0x39#8 (fun c => .ctIndex c.a0 c.a1) ∧
  Encodes 0x3A#8 (fun c => .ctFind c.a0 c.a1) ∧
  ∀ (sel index rgb : Word) (s : State),
    let names (t : Option ColorTable) : Prop :=
      sel.toNat = 0 ∧ t = s.cont.gct ∨
        ∃ k img, sel.toNat = k + 1 ∧ s.cont.blocks[k]? = some (.image img) ∧ t = img.lct
    let color : Rgb := ⟨rgb.extractLsb' 0 8, rgb.extractLsb' 8 8, rgb.extractLsb' 16 8⟩
    (s.cont.valid = false →
      exec (.ctSize sel) s = .next (s.raise .notInit 0 0x38) ∧
        exec (.ctIndex sel index) s = .next (s.raise .notInit 0 0x39) ∧
        exec (.ctFind sel rgb) s = .next (s.raise .notInit 0 0x3A)) ∧
    (s.cont.valid = true → (∀ t, ¬names t) →
      exec (.ctSize sel) s = .next (s.raise .index 0 sel.toNat) ∧
        exec (.ctIndex sel index) s = .next (s.raise .index 0 sel.toNat) ∧
        exec (.ctFind sel rgb) s = .next (s.raise .index 0 sel.toNat)) ∧
    (s.cont.valid = true → names none →
      (∃ t, exec (.ctSize sel) s = .next t ∧ Ends s t false 0 0 ∧ OnlyResults s t ∧ KeepsMemory s t) ∧
        exec (.ctIndex sel index) s = .next (s.raise .index 0 sel.toNat) ∧
        exec (.ctFind sel rgb) s = .next (s.raise .index 0 sel.toNat)) ∧
    ∀ tab : ColorTable, s.cont.valid = true → names (some tab) →
      (∃ t, exec (.ctSize sel) s = .next t ∧ Ends s t true tab.length 0 ∧ OnlyResults s t ∧ KeepsMemory s t) ∧
      (tab.length ≤ index.toNat → exec (.ctIndex sel index) s = .next (s.raise .index 1 index.toNat)) ∧
      (∀ c, tab[index.toNat]? = some c →
        ∃ t, exec (.ctIndex sel index) s = .next t ∧
          Ends s t false (c.r.toNat + 2 ^ 8 * c.g.toNat + 2 ^ 16 * c.b.toNat) 0 ∧ OnlyResults s t ∧ KeepsMemory s t) ∧
      (∀ i : Nat, tab[i]? = some color → (∀ j, j < i → tab[j]? ≠ some color) →
        ∃ t, exec (.ctFind sel rgb) s = .next t ∧ Ends s t true i 0 ∧ OnlyResults s t ∧ KeepsMemory s t) ∧
      ((∀ i : Nat, tab[i]? ≠ some color) →
        ∃ t, exec (.ctFind sel rgb) s = .next t ∧ Ends s t false 0xFFFFFFFF 0 ∧ OnlyResults s t ∧ KeepsMemory s t)

/-- CONT_READ: the faults in order, and every field of the header and of the five kinds of block. -/
def Obligations.ContReadReadsTheContainer : Prop :=
  Encodes 0x3B#8 (fun c => .contRead c.a0 c.a1 c.a2) ∧
  ∀ (block field element : Word) (s : State),
    let f := field.toNat
    let e := element.toNat
    let reads := ReadsField s block field element
    let elements := ReadsElement s block field element
    let noField := NoField s block field element
    let h := s.cont.hdr
    let bytes3 (v : Vector Byte 3) : Nat := v[0].toNat + 2 ^ 8 * v[1].toNat + 2 ^ 16 * v[2].toNat
    (s.cont.valid = false → exec (.contRead block field element) s = .next (s.raise .notInit 0 0x3B)) ∧
    (s.cont.valid = true → block = 0xFFFFFFFF#32 →
      (f = 0 → reads (bytes3 h.sig)) ∧ (f = 1 → reads (bytes3 h.ver)) ∧ (f = 2 → reads h.canvasW.toNat) ∧
      (f = 3 → reads h.canvasH.toNat) ∧ (f = 4 → reads h.spacked.toNat) ∧ (f = 5 → reads h.bg.toNat) ∧
      (f = 6 → reads h.aspect.toNat) ∧ (f = 7 → reads (if s.cont.gct = none then 0 else 1)) ∧
      (f = 8 → reads s.cont.blocks.length) ∧ (9 ≤ f → noField)) ∧
    (s.cont.valid = true → block ≠ 0xFFFFFFFF#32 → s.cont.blocks.length ≤ block.toNat →
      exec (.contRead block field element) s = .next (s.raise .index 0 block.toNat)) ∧
    (s.cont.valid = true → block ≠ 0xFFFFFFFF#32 →
      (∀ text, s.cont.blocks[block.toNat]? = some (.comment text) →
        (f = 0 → reads 1) ∧ (f = 1 → reads text.length) ∧ (f = 2 → elements text) ∧ (3 ≤ f → noField)) ∧
      (∀ packed delay transparent,
        s.cont.blocks[block.toNat]? = some (.graphicsControl packed delay transparent) →
        (f = 0 → reads 2) ∧ (f = 1 → reads packed.toNat) ∧ (f = 2 → reads delay.toNat) ∧
        (f = 3 → reads transparent.toNat) ∧ (4 ≤ f → noField)) ∧
      (∀ identifier auth payload,
        s.cont.blocks[block.toNat]? = some (.application identifier auth payload) →
        (f = 0 → reads 3) ∧ (f = 1 → elements identifier.toList) ∧ (f = 2 → elements auth.toList) ∧
        (f = 3 → reads payload.length) ∧ (f = 4 → elements payload) ∧ (5 ≤ f → noField)) ∧
      (∀ header, s.cont.blocks[block.toNat]? = some (.plainText header) →
        (f = 0 → reads 4) ∧ (f = 1 → elements header.toList) ∧ (2 ≤ f → noField)) ∧
      (∀ img, s.cont.blocks[block.toNat]? = some (.image img) →
        (f = 0 → reads 5) ∧ (f = 1 → reads img.left.toNat) ∧ (f = 2 → reads img.top.toNat) ∧
        (f = 3 → reads img.width.toNat) ∧ (f = 4 → reads img.height.toNat) ∧ (f = 5 → reads img.ipacked.toNat) ∧
        (f = 6 → reads (if img.lct = none then 0 else 1)) ∧ (f = 7 → reads img.filled) ∧
        (f = 8 →
          (img.width.toNat * img.height.toNat ≤ e →
            exec (.contRead block field element) s = .next (s.raise .index 2 e)) ∧
          (e < img.width.toNat * img.height.toNat → img.pixels.read e = none →
            exec (.contRead block field element) s = .next (s.raise .unwritten block.toNat e)) ∧
          (e < img.width.toNat * img.height.toNat → ∀ b, img.pixels.read e = some b → reads b.toNat)) ∧
        (f = 9 → reads img.codeSize.toNat) ∧ (10 ≤ f → noField)))

/-! ## Control (46_engine_control.md, 70_reset_and_hazards.md) -/

/-- SOFT_RESET: every CSR, unit register, dictionary slot, state-machine register and container field at its reset value, but
`CMD` = 0xFF and `DONE` = 1; DMEM stays, and so do its size and the host, which are no part of the block. -/
def Obligations.SoftResetResetsTheBlock : Prop :=
  Encodes 0xFF#8 (fun _ => .softReset) ∧
  ∀ s : State, ∃ t, exec .softReset s = .next t ∧
    t.cmd = 0xFF#8 ∧ t.status = ⟨false, true, false, false, false, 0#8, .idle⟩ ∧
    t.arg = ⟨0, 0, 0, 0⟩ ∧ t.res0 = 0 ∧ t.res1 = 0 ∧ t.config = ⟨false, false, false, false⟩ ∧
    t.lat = ⟨0, 0, 0, 0⟩ ∧ t.cfg = ⟨false, false, false, false⟩ ∧
    t.rd = ⟨0, 0, 0, false⟩ ∧ t.wr = ⟨0, 0, 0, false⟩ ∧ t.tbl = ⟨0, 0, [], false⟩ ∧
    t.out = ⟨0, 0, 0, .dmem⟩ ∧ t.dec = ⟨none, false⟩ ∧ t.enc = ⟨0, 0, 0, 0, [], 0, false, false⟩ ∧
    t.par = ⟨0, 0, 0, ⟨0, 0, 0, 0, 0, none, 0, [], 0⟩, 0, 0, 0, false⟩ ∧
    t.cont = ⟨false, ⟨#v[0, 0, 0], #v[0, 0, 0], 0, 0, 0, 0, 0⟩, none, []⟩ ∧
    t.dmem = s.dmem ∧ t.dmemSize = s.dmemSize ∧ t.host = s.host

/-- The reset state: the values of R164, what the CSRs read, and which commands fault `E_NOT_INIT` there. The DMEM size is the
model's choice (log 2), and so are its contents (log 3). -/
def Obligations.ResetStateIsAsTheSpecSays : Prop :=
  let s := State.reset
  s.cmd = 0 ∧ s.status = ⟨false, false, false, false, false, 0#8, .idle⟩ ∧ s.arg = ⟨0, 0, 0, 0⟩ ∧ s.res0 = 0 ∧
    s.res1 = 0 ∧ s.config = ⟨false, false, false, false⟩ ∧ s.lat = ⟨0, 0, 0, 0⟩ ∧ s.cfg = ⟨false, false, false, false⟩ ∧
    s.rd = ⟨0, 0, 0, false⟩ ∧ s.wr = ⟨0, 0, 0, false⟩ ∧ s.tbl = ⟨0, 0, [], false⟩ ∧ s.out = ⟨0, 0, 0, .dmem⟩ ∧
    s.dec = ⟨none, false⟩ ∧ s.enc = ⟨0, 0, 0, 0, [], 0, false, false⟩ ∧
    s.par = ⟨0, 0, 0, ⟨0, 0, 0, 0, 0, none, 0, [], 0⟩, 0, 0, 0, false⟩ ∧
    s.cont = ⟨false, ⟨#v[0, 0, 0], #v[0, 0, 0], 0, 0, 0, 0, 0⟩, none, []⟩ ∧
    (∀ off, off < 32 → s.csrRead (4 * off) = if off = 23 then 0x4C5A5701#32 else 0) ∧
    ∀ (a b c d : Word),
      exec (.rdConsume a) s = .next (s.raise .notInit 0 0x02) ∧
      exec (.rdIsComplete a) s = .next (s.raise .notInit 0 0x03) ∧
      exec (.wrAppend a b) s = .next (s.raise .notInit 0 0x09) ∧
      exec (.wrCanAppend a) s = .next (s.raise .notInit 0 0x0A) ∧
      exec .wrWritten s = .next (s.raise .notInit 0 0x0B) ∧
      exec (.tblAppend a b) s = .next (s.raise .notInit 0 0x11) ∧
      exec (.tblLookup a b c) s = .next (s.raise .notInit 0 0x12) ∧
      exec .tblCount s = .next (s.raise .notInit 0 0x13) ∧
      exec .tblWidth s = .next (s.raise .notInit 0 0x14) ∧
      exec .tblClear s = .next (s.raise .notInit 0 0x15) ∧
      exec (.lzwDecompress a b c) s = .next (s.raise .notInit 0 0x20) ∧
      exec (.lzwCompress a b c d) s = .next (s.raise .notInit 0 0x21) ∧
      exec (.ctSize a) s = .next (s.raise .notInit 0 0x38) ∧
      exec (.ctIndex a b) s = .next (s.raise .notInit 0 0x39) ∧
      exec (.ctFind a b) s = .next (s.raise .notInit 0 0x3A) ∧
      exec (.contRead a b c) s = .next (s.raise .notInit 0 0x3B)

/-! ## The blocks of the GIF stream as instructions (44_container_parser.md) -/

/-- Each block of the stream completes in every state: what it records, and how far it moves `P_POS`. -/
def Obligations.GifBlocksComplete : Prop :=
  ∀ s : State,
    let pos := s.par.pos.toNat
    let records (i : Instr) (b : Block) (n : Nat) : Prop :=
      ∃ t, exec i s = .next t ∧ t.cont = { s.cont with blocks := s.cont.blocks ++ [b] } ∧
        t.par = { s.par with pos := word (pos + n) } ∧ t.status = { s.status with fsm := .parse .label } ∧
        t = { s with status := t.status, par := t.par, cont := t.cont } ∧ KeepsMemory s t
    (∀ text, records (.gifExtComment text) (.comment text) (text.length + 3)) ∧
    (∀ size packed delay transparent terminator,
      records (.gifExtGraphicsControl size packed delay transparent terminator)
        (.graphicsControl packed delay transparent) 8) ∧
    (∀ size identifier auth payload,
      records (.gifExtApplication size identifier auth payload) (.application identifier auth payload)
        (payload.length + 15)) ∧
    (∀ size header, records (.gifExtPlainText size header) (.plainText header) 15) ∧
    (∀ label, ∃ t, exec (.gifExtension label) s = .next t ∧ t.par = { s.par with pos := word (pos + 2) } ∧
      t.status = { s.status with fsm := .parse .label } ∧
      t = { s with status := t.status, par := t.par } ∧ KeepsMemory s t) ∧
    (∀ left top width height ipacked, ∃ t, exec (.gifImage left top width height ipacked) s = .next t ∧
      t.par = { s.par with pos := word (pos + 10), img := ⟨left, top, width, height, ipacked, none, 0, [], 0⟩ } ∧
      t.status = { s.status with fsm := .parse (if ipacked.getLsbD 7 then .lct else .codeSize) } ∧
      t = { s with status := t.status, par := t.par } ∧ KeepsMemory s t) ∧
    ∃ t, exec .gifTrailer s = .next t ∧ t.cont = { s.cont with valid := true } ∧
      t.rd = { s.rd with valid := false } ∧ t.tbl = { s.tbl with valid := false } ∧
      t.par = { s.par with pos := word (pos + 1) } ∧ Ends s t true s.cont.blocks.length (pos + 1) ∧
      t = { s with
        status := t.status, res0 := t.res0, res1 := t.res1, rd := t.rd, tbl := t.tbl, par := t.par, cont := t.cont } ∧
      KeepsMemory s t

/-! ## The life of a command (10_state.md, 60_exceptions.md) -/

/-- Fault entry: what `raise` writes and what it keeps, `STATUS.FSM` among it; the code of every fault; and `finish`. -/
def Obligations.FaultAndFinishWriteStatus : Prop :=
  (∀ (s : State) (e : Exc) (i j : Nat), s.raise e i j = { s with
    status := ⟨false, true, true, false, s.status.reject, e.code, s.status.fsm⟩, res0 := word i, res1 := word j }) ∧
  (∀ (s : State) (flag : Bool) (i j : Nat), s.finish flag i j = { s with
    status := ⟨false, true, s.status.fault, flag, s.status.reject, s.status.faultCode, .idle⟩
    res0 := word i, res1 := word j }) ∧
  [Exc.format, .width, .capacity, .symbolWidth, .literal, .noSeq, .badCode, .range, .badOpcode, .index, .lctSize,
    .notInit, .dictFull, .readOverrun, .unwritten].map Exc.code = (List.range 15).map fun k => byte (k + 1)

/-- Every host write of a CSR: the accepted command, the dropped writes, the writes performed, and the offsets that ignore one. -/
def Obligations.HostWritesOfCsrs : Prop :=
  ∀ (s : State) (rest : List HostOp) (v : Word),
    let u := s.withScript rest
    let writes (off : Nat) (t : State) : Prop := hostStep (s.withScript (.csrWrite 4 off v :: rest)) = .next t
    let dropped : State := { u with status := { s.status with reject := true } }
    (s.status.busy = false → s.status.fault = false ∨ opcodeOf v = 0xFF#8 →
      writes 0x00 { u with
        cmd := opcodeOf v, lat := s.arg, cfg := s.config, res0 := 0, res1 := 0
        status := { s.status with done := false, flag := false, busy := true } }) ∧
    (s.status.busy = true ∨ s.status.fault = true ∧ opcodeOf v ≠ 0xFF#8 → writes 0x00 dropped) ∧
    (s.status.busy = true → ∀ off ∈ [0x08, 0x0C, 0x10, 0x14, 0x20], writes off dropped) ∧
    (s.status.busy = false →
      writes 0x08 { u with arg := { s.arg with a0 := v } } ∧ writes 0x0C { u with arg := { s.arg with a1 := v } } ∧
      writes 0x10 { u with arg := { s.arg with a2 := v } } ∧ writes 0x14 { u with arg := { s.arg with a3 := v } } ∧
      writes 0x20 { u with config := ⟨v.getLsbD 0, v.getLsbD 1, v.getLsbD 2, v.getLsbD 3⟩ }) ∧
    ∀ k, k < 32 → 4 * k ∉ [0x00, 0x08, 0x0C, 0x10, 0x14, 0x20] → writes (4 * k) u

/-- Every host read of a CSR gives the register's value and changes nothing but the host; a read or a write of another shape is
refused, and so is one above the window. The last is the model's choice (log 8). -/
def Obligations.HostReadsOfCsrs : Prop :=
  ∀ (s : State) (rest : List HostOp),
    let gives (off : Nat) (v : Word) : Prop :=
      hostStep (s.withScript (.csrRead 4 off :: rest)) =
        .next { s with host := { s.host with script := rest, got := s.host.got ++ [.csr v] } }
    let bit (b : Bool) (k : Nat) : Nat := if b then 2 ^ k else 0
    (∀ p ∈ [(0x00, word s.cmd.toNat), (0x08, s.arg.a0), (0x0C, s.arg.a1), (0x10, s.arg.a2), (0x14, s.arg.a3),
      (0x18, s.res0), (0x1C, s.res1), (0x28, s.rd.base), (0x2C, s.rd.len), (0x30, s.rd.cur), (0x34, s.wr.base),
      (0x38, s.wr.len), (0x3C, s.wr.cur), (0x40, s.tbl.n), (0x44, word s.tbl.count), (0x48, s.tbl.width),
      (0x4C, s.out.base), (0x50, s.out.cap), (0x54, s.out.pos), (0x58, s.par.pos), (0x5C, 0x4C5A5701#32)],
      gives p.1 p.2) ∧
    (∀ k, k < 8 → gives (0x60 + 4 * k) 0) ∧
    gives 0x04 (word (bit s.status.busy 0 + bit s.status.done 1 + bit s.status.fault 2 + bit s.status.flag 3 +
      bit s.status.reject 4 + 2 ^ 8 * s.status.faultCode.toNat + 2 ^ 16 * s.status.fsm.code.toNat)) ∧
    gives 0x20 (word (bit s.config.badCode 0 + bit s.config.clearPrev 1 + bit s.config.lctSizing 2 +
      bit s.config.rdOverrun 3)) ∧
    gives 0x24 (word (bit s.rd.valid 0 + bit s.wr.valid 1 + bit s.tbl.valid 2 + bit s.cont.valid 3)) ∧
    (∀ bytes off, ¬(bytes = 4 ∧ off % 4 = 0) →
      hostStep (s.withScript (.csrRead bytes off :: rest)) = .refused .csrAccessShape ∧
        ∀ v, hostStep (s.withScript (.csrWrite bytes off v :: rest)) = .refused .csrAccessShape) ∧
    ∀ k, 32 ≤ k → hostStep (s.withScript (.csrRead 4 (4 * k) :: rest)) = .refused .csrOutsideWindow ∧
      ∀ v, hostStep (s.withScript (.csrWrite 4 (4 * k) v :: rest)) = .refused .csrOutsideWindow

/-- The host's access to DMEM: performed while `BUSY` = 0, no step while `BUSY` = 1, and no byte beyond `DMEM_SIZE`. That the
model stops in the last two cases is its own choice (log 8, log 9). -/
def Obligations.HostReachesDmemWhenIdle : Prop :=
  ∀ (s : State) (rest : List HostOp) (a : Nat) (v : Byte),
    let reads := hostStep (s.withScript (.dmemRead a :: rest))
    let writes := hostStep (s.withScript (.dmemWrite a v :: rest))
    (s.status.busy = true → reads = .refused .dmemWhileBusy ∧ writes = .refused .dmemWhileBusy) ∧
    (s.status.busy = false → s.dmemSize ≤ a → reads = .fault .dmemHole ∧ writes = .fault .dmemHole) ∧
    (s.status.busy = false → a < s.dmemSize → s.dmem.wf = true →
      reads = .next { s with host := { s.host with script := rest, got := s.host.got ++ [.dmem (s.peek a)] } } ∧
      ∃ t, writes = .next t ∧ t.peek a = v ∧ (∀ b, b ≠ a → t.peek b = s.peek b) ∧
        t = { s.withScript rest with dmem := t.dmem })

/-- One step is a move of the engine while `BUSY` = 1 and of the host otherwise, or of the agent that `turns` names (log 5); and
the first micro-step of an accepted command is `exec` of the decoded instruction. -/
def Obligations.StepRunsTheAcceptedCommand : Prop :=
  ∀ s : State,
    (s.host.turns = [] → step s = if s.status.busy then engineStep s else hostStep s) ∧
    (∀ turns, s.host.turns = .engine :: turns → step s = engineStep { s with host := { s.host with turns := turns } }) ∧
    (∀ turns, s.host.turns = .host :: turns → step s = hostStep { s with host := { s.host with turns := turns } }) ∧
    ∀ i : Instr, s.host.turns = [] → s.status.busy = true → s.status.fsm = .idle ∨ s.cmd = 0xFF#8 →
      decodeCommand ⟨word s.cmd.toNat, s.lat.a0, s.lat.a1, s.lat.a2, s.lat.a3⟩ = .ok i → step s = exec i s

/-- When the bytes of the parse region from `P_POS` on start with the bytes of a block, the parser's step over it is `exec` of
that block: P_EXT for an extension, P_IMAGE for an image, P_LABEL for the trailer. -/
def Obligations.StepRunsTheBlockAtTheCursor : Prop :=
  ∀ (s : State) (st : ParState) (i : Instr) (bytes : List Byte),
    s.runs (.parse st) → s.host.turns = [] → s.InDmem s.par.base s.par.len → s.par.pos.toNat ≤ s.par.len →
    i.wellFormed = true → encodeBlock i = some bytes →
    s.par.pos.toNat + bytes.length ≤ s.par.len → s.bytesAt s.par.pos.toNat (s.par.pos.toNat + bytes.length) = bytes →
    (st = .ext ∧ bytes.head? = some 0x21#8 ∨ st = .image ∧ bytes.head? = some 0x2C#8 ∨
      st = .label ∧ bytes.head? = some 0x3B#8) →
    step s = exec i s

/-- The host program a command line assembles to runs the command: after its writes, the next step is `exec` of it. -/
def Obligations.AssembledCommandRuns : Prop :=
  ∀ (i : Instr) (s : State) (rest : List HostOp),
    i.format = .command → s.status.busy = false → s.status.fsm = .idle ∨ i = .softReset →
    s.status.fault = false ∨ i = .softReset →
    s.host.turns = [] → s.host.script = assemble i ++ rest →
    ∃ t, stepRun (assemble i).length s = .next t ∧ step t = exec i t ∧ t.host.script = rest ∧ t.cfg = s.config ∧
      t = { s with
        cmd := t.cmd, status := t.status, arg := t.arg, lat := t.arg, cfg := t.cfg, res0 := 0, res1 := 0, host := t.host } ∧
      t.status = { s.status with done := false, flag := false, busy := true } ∧ KeepsMemory s t

/-- A line of a host program writes each operand the command reads, in order, an operand it omits as 0, and then the opcode; an
operand the command does not read is an error, and so is a mnemonic of no command. The pseudo-instructions expand as R59 says. WAIT
reads `STATUS` and repeats while `BUSY` = 1: that it is one action of the host is the model's choice (log 16). -/
def Obligations.HostProgramsAssemble : Prop :=
  (∀ i : Instr, ∀ r ∈ commandRows, commandOpcode i = some (byte r.pattern) →
    (commandOperands i).length = r.reads ∧ assembleLine r.mnemonic (commandOperands i) = some (assemble i)) ∧
  (∀ r ∈ commandRows, ∀ ops : List Word,
    (ops.length ≤ r.reads → assembleLine r.mnemonic ops = some
      (((List.range r.reads).map fun k => HostOp.csrWrite 4 (0x08 + 4 * k) (ops.getD k 0)) ++
        [.csrWrite 4 0x00 (word r.pattern)])) ∧
    (r.reads < ops.length → assembleLine r.mnemonic ops = none)) ∧
  (∀ (mnemonic : String) (ops : List Word), (∀ r ∈ commandRows, r.mnemonic ≠ mnemonic) →
    assembleLine mnemonic ops = none) ∧
  (∀ v base len cap n : Word,
    pseudoSetCfg v = [.csrWrite 4 0x20 v] ∧ pseudoRdOpen base len = assemble (.rdInit base len 0) ∧
    pseudoDecode base cap = assemble (.lzwDecompress base cap 0) ∧
    pseudoDecodeCont base cap = assemble (.lzwDecompress base cap 1) ∧
    pseudoEncode n base len = assemble (.lzwCompress n base len 0) ∧
    pseudoResult = [.csrRead 4 0x04, .csrRead 4 0x18, .csrRead 4 0x1C]) ∧
  ∀ (s : State) (rest : List HostOp),
    hostStep (s.withScript (.wait :: rest)) = .next { s with host := { s.host with
      script := if s.status.busy then .wait :: rest else rest
      got := s.host.got ++ [.csr s.status.word] } }

/-! ## The decompress machine (42_lzw_decompress.md) -/

/-- D_CHECK_CLEAR: the code at the current width must be the clear code. -/
def Obligations.DecoderChecksTheClearCode : Prop :=
  ∀ (s : State) (p : Bool), s.Inv → s.runs (.decode p .checkClear) →
    let w := s.tbl.width.toNat
    let u := s.setRdCur (s.nextCur w)
    let overruns := 8 * s.rd.len.toNat < s.rd.cur.toNat + w ∧ s.cfg.rdOverrun = true
    (12 < w → engineStep s = .next (s.raise .width s.rd.cur.toNat w)) ∧
    (w ≤ 12 → overruns → engineStep s = .next (s.raise .readOverrun s.rd.cur.toNat w)) ∧
    (w ≤ 12 → ¬overruns → s.nextCode w = 2 ^ s.tbl.n.toNat →
      engineStep s = .next (u.setFsm (.decode p .first))) ∧
    (w ≤ 12 → ¬overruns → s.nextCode w ≠ 2 ^ s.tbl.n.toNat →
      engineStep s = .next (u.raise .format (s.nextCur w) (s.nextCode w)))

/-- D_FIRST: the sequence of the first data code is emitted and becomes the previous sequence; nothing is appended. -/
def Obligations.DecoderEmitsTheFirstCode : Prop :=
  ∀ (s : State) (p : Bool), s.Inv → s.runs (.decode p .first) →
    let w := s.tbl.width.toNat
    let u := s.setRdCur (s.nextCur w)
    let overruns := 8 * s.rd.len.toNat < s.rd.cur.toNat + w ∧ s.cfg.rdOverrun = true
    (12 < w → engineStep s = .next (s.raise .width s.rd.cur.toNat w)) ∧
    (w ≤ 12 → overruns → engineStep s = .next (s.raise .readOverrun s.rd.cur.toNat w)) ∧
    (w ≤ 12 → ¬overruns → s.tbl.count ≤ s.nextCode w →
      engineStep s = .next (u.raise .noSeq (s.nextCur w) (s.nextCode w))) ∧
    (w ≤ 12 → ¬overruns → ∀ q, s.tbl.lookup (s.nextCode w) = some q →
      ∃ v, Emits q u v ∧
        engineStep s = .next { v with
          dec := { s.dec with prev := some q }, status := { s.status with fsm := .decode p .loop } })

/-- D_LOOP ends on a full output, on an exhausted reader and on the end-of-information code, in that order; the clear code resets
the table; inside GIF_PARSE the end hands over to the parser. -/
def Obligations.DecoderLoopEndsAndClears : Prop :=
  ∀ (s : State) (p : Bool), s.Inv → s.runs (.decode p .loop) →
    let w := s.tbl.width.toNat
    let u := s.setRdCur (s.nextCur w)
    let n := s.tbl.n.toNat
    let full := s.out.cap.toNat ≤ s.out.pos.toNat
    let complete := 8 * s.rd.len.toNat - s.rd.cur.toNat < w
    let ends (v : State) : Prop :=
      (p = false → engineStep s = .next (v.finish false v.out.pos.toNat v.rd.cur.toNat)) ∧
      (p = true → engineStep s = .next { v with
        par := { v.par with pos := word (v.par.pos.toNat + v.par.subLen.toNat), subIdx := v.par.subIdx + 1 }
        status := { v.status with fsm := .parse .subLen } })
    (full ∨ complete → ends s) ∧
    (¬full → ¬complete → 12 < w → engineStep s = .next (s.raise .width s.rd.cur.toNat w)) ∧
    (¬full → ¬complete → w ≤ 12 → s.nextCode w = 2 ^ n + 1 → ends u) ∧
    (¬full → ¬complete → w ≤ 12 → s.nextCode w = 2 ^ n →
      engineStep s = .next { u with
        tbl := { s.tbl with slots := initialSlots n, width := word (n + 1) }
        dec := { s.dec with prev := if s.cfg.clearPrev then none else s.dec.prev } })

/-- D_LOOP on a code the table holds: its sequence is emitted, then the previous sequence and its first byte are appended. -/
def Obligations.DecoderHandlesAFoundCode : Prop :=
  ∀ (s : State) (p : Bool), s.Inv → s.runs (.decode p .loop) →
    let w := s.tbl.width.toNat
    let u := s.setRdCur (s.nextCur w)
    let c := s.nextCode w
    s.out.pos.toNat < s.out.cap.toNat → s.rd.cur.toNat + w ≤ 8 * s.rd.len.toNat → w ≤ 12 →
    c ≠ 2 ^ s.tbl.n.toNat → c ≠ 2 ^ s.tbl.n.toNat + 1 →
    (s.tbl.lookup c = some [] → engineStep s = .next (u.raise .noSeq (s.nextCur w) c)) ∧
    ∀ b q, s.tbl.lookup c = some (b :: q) →
      let after (v : State) : State :=
        { v with dec := { s.dec with prev := some (b :: q) } }
      ∃ v, Emits (b :: q) u v ∧
        (s.dec.prev = none ∨ s.dec.prev = some [] → engineStep s = .next (after v)) ∧
        ∀ x prev, s.dec.prev = some (x :: prev) →
          engineStep s = .next (after { v with tbl := s.tbl.push (x :: prev ++ [b]) })

/-- D_LOOP on a code the table does not hold yet: the previous sequence and its own first byte are appended and emitted; without a
previous sequence the step faults, and a code beyond the next one faults under `BAD_CODE` = 1. -/
def Obligations.DecoderHandlesAnUndefinedCode : Prop :=
  ∀ (s : State) (p : Bool), s.Inv → s.runs (.decode p .loop) →
    let w := s.tbl.width.toNat
    let u := s.setRdCur (s.nextCur w)
    let c := s.nextCode w
    let bad := s.tbl.count < c ∧ s.cfg.badCode = true
    s.out.pos.toNat < s.out.cap.toNat → s.rd.cur.toNat + w ≤ 8 * s.rd.len.toNat → w ≤ 12 → s.tbl.count ≤ c →
    (bad → engineStep s = .next (u.raise .badCode (s.nextCur w) c)) ∧
    (¬bad → s.dec.prev = none ∨ s.dec.prev = some [] →
      engineStep s = .next (u.raise .noSeq (s.nextCur w) c)) ∧
    ∀ x prev, ¬bad → s.dec.prev = some (x :: prev) →
      let q := x :: prev ++ [x]
      ∃ v, Emits q { u with tbl := s.tbl.push q } v ∧
        engineStep s = .next { v with dec := { s.dec with prev := some q } }

/-! ## The compress machine (43_lzw_compress.md) -/

/-- C_START, C_FLUSH and C_EOI: which code each emits, at which width, its faults, and the finish. -/
def Obligations.EncoderStartsFlushesAndEnds : Prop :=
  ∀ s : State, s.Inv →
    let emits (c : Nat) (go : State → State) : Prop :=
      (s.CodeFits → ∃ v, EmitsCode c s v ∧ engineStep s = .next (go v)) ∧
      (12 < s.encWidth → engineStep s = .next (s.raise .width s.wr.cur.toNat s.encWidth)) ∧
      (s.encWidth ≤ 12 → 8 * s.wr.len.toNat ≤ s.wr.cur.toNat + s.encWidth →
        engineStep s = .next (s.raise .capacity s.wr.cur.toNat s.encWidth))
    let started (v : State) : State := v.setFsm (.compress (if s.enc.len = 0 then .flush else .scan))
    let flushed (v : State) : State := v.setFsm (.compress .eoi)
    let ended (v : State) : State := v.finish false v.enc.codes v.wr.cur.toNat
    (s.runs (.compress .start) →
      (s.enc.omitClear = true → engineStep s = .next (started s)) ∧
      (s.enc.omitClear = false → emits (2 ^ s.enc.n) started)) ∧
    (s.runs (.compress .flush) →
      (s.enc.buf = [] → engineStep s = .next (flushed s)) ∧
      (s.enc.buf ≠ [] → ∃ c, s.tbl.First s.enc.buf c ∧ emits c flushed)) ∧
    (s.runs (.compress .eoi) →
      (s.enc.omitEoi = true → engineStep s = .next (ended s)) ∧
      (s.enc.omitEoi = false → emits (2 ^ s.enc.n + 1) ended))

/-- C_SCAN: one input byte extends the buffer while the dictionary holds it; else the buffer's code is emitted, the extended
sequence is registered, and the buffer starts again at the byte. -/
def Obligations.EncoderScansOneByte : Prop :=
  ∀ s : State, s.Inv → s.runs (.compress .scan) →
    let b := s.peek (s.enc.src + s.enc.idx)
    let ext := s.enc.buf ++ [b]
    let next (v : State) (buf : Seq) : State :=
      { v with
        enc := { v.enc with buf := buf, idx := s.enc.idx + 1 }
        status := { s.status with fsm := .compress (if s.enc.idx + 1 = s.enc.len then .flush else .scan) } }
    (2 ^ s.enc.n ≤ b.toNat → engineStep s = .next (s.raise .literal s.enc.idx b.toNat)) ∧
    (b.toNat < 2 ^ s.enc.n → (∃ c, s.tbl.lookup c = some ext) → engineStep s = .next (next s ext)) ∧
    (b.toNat < 2 ^ s.enc.n → (∀ c, s.tbl.lookup c ≠ some ext) →
      ∃ c, s.tbl.First s.enc.buf c ∧
        (s.CodeFits → ∃ v, EmitsCode c s v ∧
          engineStep s = .next (next { v with tbl := s.tbl.push ext } [b])) ∧
        (12 < s.encWidth → engineStep s = .next (s.raise .width s.wr.cur.toNat s.encWidth)) ∧
        (s.encWidth ≤ 12 → 8 * s.wr.len.toNat ≤ s.wr.cur.toNat + s.encWidth →
          engineStep s = .next (s.raise .capacity s.wr.cur.toNat s.encWidth)))

/-! ## The parser (44_container_parser.md) -/

/-- P_HEADER and P_GCT: the 13-byte header, the fields of its packed byte, and the global colour table. -/
def Obligations.ParserReadsHeaderAndGlobalTable : Prop :=
  ∀ s : State, s.Inv →
    (s.runs (.parse .header) → 13 ≤ s.par.len →
      let flag := (s.byteAt 10).getLsbD 7
      engineStep s = .next { s with
        cont := { s.cont with hdr := ⟨#v[s.byteAt 0, s.byteAt 1, s.byteAt 2], #v[s.byteAt 3, s.byteAt 4, s.byteAt 5],
          s.u16At 6, s.u16At 8, s.byteAt 10, s.byteAt 11, s.byteAt 12⟩ }
        par := { s.par with gctFlag := flag, gSize := (s.byteAt 10).extractLsb' 0 3, pos := 13 }
        status := { s.status with fsm := .parse (if flag then .gct else .label) } }) ∧
    (s.runs (.parse .gct) →
      let k := 2 ^ (s.par.gSize.toNat + 1)
      s.par.pos.toNat + 3 * k ≤ s.par.len →
      ∃ t, s.TableAt s.par.pos.toNat k t ∧ engineStep s = .next { s with
        cont := { s.cont with gct := some t }
        par := { s.par with pos := word (s.par.pos.toNat + 3 * k) }
        status := { s.status with fsm := .parse .label } })

/-- P_LABEL: what each label byte selects; any other byte is skipped and records nothing. -/
def Obligations.ParserDispatchesOnLabels : Prop :=
  ∀ s : State, s.Inv → s.runs (.parse .label) → s.par.pos.toNat < s.par.len →
    let b := s.byteAt s.par.pos.toNat
    (b = 0x21#8 → engineStep s = .next (s.setFsm (.parse .ext))) ∧
    (b = 0x2C#8 → engineStep s = .next (s.setFsm (.parse .image))) ∧
    (b = 0x3B#8 → engineStep s = exec .gifTrailer s) ∧
    (b ≠ 0x21#8 → b ≠ 0x2C#8 → b ≠ 0x3B#8 →
      engineStep s = .next { s with par := { s.par with pos := word (s.par.pos.toNat + 1) } })

/-- P_EXT: one whole extension, by its label byte: what is recorded and where `P_POS` goes. -/
def Obligations.ParserReadsExtensions : Prop :=
  ∀ s : State, s.Inv → s.runs (.parse .ext) →
    let P := s.par.pos.toNat
    let label := s.byteAt (P + 1)
    let goes (blocks : List Block) (pos : Nat) : Prop := engineStep s = .next { s with
      cont := { s.cont with blocks := s.cont.blocks ++ blocks }
      par := { s.par with pos := word pos }
      status := { s.status with fsm := .parse .label } }
    (P + 2 ≤ s.par.len → label = 0xFE#8 → ∀ z, s.ZeroAt (P + 2) z →
      goes [.comment (s.bytesAt (P + 2) z)] (z + 1)) ∧
    (P + 8 ≤ s.par.len → label = 0xF9#8 →
      goes [.graphicsControl (s.byteAt (P + 3)) (s.u16At (P + 4)) (s.byteAt (P + 6))] (P + 8)) ∧
    (P + 14 ≤ s.par.len → label = 0xFF#8 → ∀ z, s.ZeroAt (P + 14) z →
      ∃ identifier auth, identifier.toList = s.bytesAt (P + 3) (P + 11) ∧ auth.toList = s.bytesAt (P + 11) (P + 14) ∧
        goes [.application identifier auth (s.bytesAt (P + 14) z)] (z + 1)) ∧
    (P + 15 ≤ s.par.len → label = 0x01#8 →
      ∃ header, header.toList = s.bytesAt (P + 3) (P + 15) ∧ goes [.plainText header] (P + 15)) ∧
    (P + 2 ≤ s.par.len → label ≠ 0xFE#8 → label ≠ 0xF9#8 → label ≠ 0xFF#8 → label ≠ 0x01#8 → goes [] (P + 2))

/-- P_IMAGE, P_LCT and P_CODESIZE: the image record, its local colour table under either sizing, and its fresh code table. -/
def Obligations.ParserReadsImageHeads : Prop :=
  ∀ s : State, s.Inv →
    let P := s.par.pos.toNat
    (s.runs (.parse .image) → P + 10 ≤ s.par.len →
      let ipacked := s.byteAt (P + 9)
      engineStep s = .next { s with
        par := { s.par with
          img := ⟨s.u16At (P + 1), s.u16At (P + 3), s.u16At (P + 5), s.u16At (P + 7), ipacked, none, 0, [], 0⟩
          pos := word (P + 10) }
        status := { s.status with fsm := .parse (if ipacked.getLsbD 7 then .lct else .codeSize) } }) ∧
    (s.runs (.parse .lct) →
      let reads (k : Nat) : Prop := P + 3 * k ≤ s.par.len →
        ∃ t, s.TableAt P k t ∧ engineStep s = .next { s with
          par := { s.par with img := { s.par.img with lct := some t }, pos := word (P + 3 * k) }
          status := { s.status with fsm := .parse .codeSize } }
      (s.cfg.lctSizing = true → reads (2 ^ ((s.par.img.ipacked.extractLsb' 0 3).toNat + 1))) ∧
      (s.cfg.lctSizing = false → s.par.gctFlag = true → reads (2 ^ (s.par.gSize.toNat + 1))) ∧
      (s.cfg.lctSizing = false → s.par.gctFlag = false →
        engineStep s = .next (s.raise .lctSize P s.par.img.ipacked.toNat))) ∧
    (s.runs (.parse .codeSize) → P + 1 ≤ s.par.len →
      let cs := s.byteAt P
      let u := s.setPos (P + 1)
      (cs.toNat < 2 ∨ 11 < cs.toNat → engineStep s = .next (u.raise .symbolWidth 0 cs.toNat)) ∧
      (2 ≤ cs.toNat → cs.toNat ≤ 11 →
        engineStep s = .next { u with
          tbl := ⟨word cs.toNat, word (cs.toNat + 1), initialSlots cs.toNat, true⟩
          par := { u.par with img := { s.par.img with codeSize := cs }, subIdx := 0 }
          status := { s.status with fsm := .parse .subLen } }))

/-- P_SUBLEN and P_SUBDATA: a sub-block's length, the end of an image, and the decoder's start over a sub-block, or its skip once
the pixel buffer is full. -/
def Obligations.ParserFeedsSubBlocks : Prop :=
  ∀ s : State, s.Inv →
    let P := s.par.pos.toNat
    let l := s.byteAt P
    let u := s.setPos (P + 1)
    let L := s.par.subLen.toNat
    let img := s.par.img
    let cells := img.width.toNat * img.height.toNat
    (s.runs (.parse .subLen) → P + 1 ≤ s.par.len →
      (l = 0#8 → engineStep s = .next { u with
        cont := { s.cont with blocks := s.cont.blocks ++ [.image img] }
        status := { s.status with fsm := .parse .label } }) ∧
      (l ≠ 0#8 → engineStep s = .next { u with
        par := { u.par with subLen := l }
        status := { s.status with fsm := .parse .subData } })) ∧
    (s.runs (.parse .subData) → P + L ≤ s.par.len →
      (img.filled < cells → engineStep s = .next { s with
        rd := ⟨word (s.par.base + P), word L, 0, true⟩
        out := ⟨word img.filled, word (cells - img.filled), 0, .pixels⟩
        dec := ⟨none, decide (0 < s.par.subIdx)⟩
        status := { s.status with fsm := .decode true (if 0 < s.par.subIdx then .first else .checkClear) } }) ∧
      (cells ≤ img.filled → engineStep s = .next { s with
        par := { s.par with pos := word (P + L), subIdx := s.par.subIdx + 1 }
        status := { s.status with fsm := .parse .subLen } }))

/-- Truncation: in every parser state that finds too few bytes, or no terminator, the parse ends with `ok` = 0 and without a
fault. -/
def Obligations.TruncationEndsTheParse : Prop :=
  ∀ (s : State) (st : ParState), s.Inv → s.runs (.parse st) →
    let P := s.par.pos.toNat
    let label := s.byteAt (P + 1)
    let len := s.par.len
    let lct := if s.cfg.lctSizing then some (2 ^ ((s.par.img.ipacked.extractLsb' 0 3).toNat + 1))
      else if s.par.gctFlag then some (2 ^ (s.par.gSize.toNat + 1)) else none
    (st = .header ∧ len < 13 ∨ st = .gct ∧ len < P + 3 * 2 ^ (s.par.gSize.toNat + 1) ∨ st = .label ∧ len < P + 1 ∨
      st = .ext ∧ (len < P + 2 ∨ label = 0xFE#8 ∧ s.NoZeroFrom (P + 2) ∨ label = 0xF9#8 ∧ len < P + 8 ∨
        label = 0xFF#8 ∧ (len < P + 14 ∨ s.NoZeroFrom (P + 14)) ∨ label = 0x01#8 ∧ len < P + 15) ∨
      st = .image ∧ len < P + 10 ∨ st = .lct ∧ (∃ k, lct = some k ∧ len < P + 3 * k) ∨
      (st = .codeSize ∨ st = .subLen) ∧ len < P + 1 ∨ st = .subData ∧ len < P + s.par.subLen.toNat) →
    ∃ t, engineStep s = .next t ∧ Ends s t false s.cont.blocks.length P ∧
      t.cont = { s.cont with valid := false } ∧ t.rd = { s.rd with valid := false } ∧
      t.tbl = { s.tbl with valid := false } ∧
      t = { s with status := t.status, res0 := t.res0, res1 := t.res1, rd := t.rd, tbl := t.tbl, cont := t.cont } ∧
      KeepsMemory s t

/-! ## The whole machine -/

/-- Every step keeps the invariants of 10_state.md. -/
def Obligations.StepKeepsTheInvariant : Prop :=
  ∀ s t : State, s.Inv → step s = .next t → t.Inv

/-- The invariants hold after every hardware reset over a legal data memory, and in the model's own reset state. -/
def Obligations.ResetMeetsTheInvariant : Prop :=
  State.reset.Inv ∧
    ∀ (size : Nat) (mem : Memory) (host : HostAgent), 1 ≤ size → size ≤ 2 ^ 28 → mem.wf = true →
      (∀ c ∈ mem, c.1 < size) → (State.hardwareReset size mem host).Inv

/-- While `BUSY` = 1 the engine has a micro-step: from the invariants, it never stops the model. -/
def Obligations.EngineAlwaysHasAMicroStep : Prop :=
  ∀ s : State, s.Inv → ∃ t, engineStep s = .next t

/-- The engine writes DMEM in the target region of the running command and nowhere else. -/
def Obligations.EngineWritesOnlyItsTarget : Prop :=
  ∀ s t : State, s.Inv → engineStep s = .next t → KeepsMemoryOutside s.target.1 s.target.2 s t

/-- The reader's region is immutable: no micro-step of the engine changes a byte of it while `RD_VALID` = 1. -/
def Obligations.ReaderRegionIsImmutable : Prop :=
  ∀ s t : State, s.Inv → engineStep s = .next t → s.rd.valid = true →
    ∀ a, s.rd.base.toNat ≤ a → a < s.rd.base.toNat + s.rd.len.toNat → t.peek a = s.peek a

/-- No instruction writes DMEM but WR_INIT, WR_APPEND and TBL_LOOKUP, and GIF_PARSE writes none at all: neither its parser's
micro-steps nor its decoder's. -/
def Obligations.ParsingWritesNoMemory : Prop :=
  (∀ (i : Instr) (s t : State), (∀ base len, i ≠ .wrInit base len) → (∀ value width, i ≠ .wrAppend value width) →
    (∀ code base cap, i ≠ .tblLookup code base cap) → exec i s = .next t → KeepsMemory s t) ∧
  (∀ (st : ParState) (s t : State), s.runs (.parse st) → engineStep s = .next t → KeepsMemory s t) ∧
  ∀ (st : DecState) (s t : State), s.Inv → s.runs (.decode true st) → engineStep s = .next t → KeepsMemory s t

/-- One micro-step writes the dictionary at most once: it is unchanged, one longer, at its initial state, or empty (SOFT_RESET). So an
entry, once written, never changes. -/
def Obligations.DictionaryIsWrittenOnce : Prop :=
  ∀ s t : State, s.Inv → engineStep s = .next t →
    t.tbl.slots = s.tbl.slots ∨ (∃ q, t.tbl.slots = s.tbl.slots ++ [q] ∧ t.tbl.n = s.tbl.n) ∨
      t.tbl.slots = initialSlots t.tbl.n.toNat ∨ s.cmd = 0xFF#8 ∧ t.tbl.slots = []

/-- The fault state is sticky, and so are `FAULT_CODE` and `REJECT`: only the engine's move for SOFT_RESET or the host's move for a
hardware reset clears them. -/
def Obligations.FaultStateIsSticky : Prop :=
  ∀ s t : State, s.Inv → step s = .next t →
    let reset := s.HardwareResets t ∨ s.SoftResets t
    (s.status.fault = true → t.status.fault = true ∧ t.status.faultCode = s.status.faultCode ∨ reset) ∧
    (s.status.reject = true → t.status.reject = true ∨ reset)

/-- A running command sees the opcode, the operands and the configuration it was accepted with: no step of the host or of the
engine changes the latches while it runs, but the host's move for a hardware reset. -/
def Obligations.LatchesHoldDuringARun : Prop :=
  ∀ s t : State, s.running → step s = .next t →
    (t.cmd = s.cmd ∧ t.lat = s.lat ∧ t.cfg = s.cfg ∧ t.arg = s.arg ∧ t.config = s.config) ∨
      s.HardwareResets t

/-- Which faults a micro-step of the decoder and of the parser can raise; `E_DICT_FULL` is none of them. -/
def Obligations.ParseRaisesOnlyItsFaults : Prop :=
  ∀ s t : State, s.Inv → s.running → engineStep s = .next t → t.status.fault = true →
    (∀ p st, s.status.fsm = .decode p st →
      t.status.faultCode ∈ [Exc.format, .width, .noSeq].map Exc.code ∨
        t.status.faultCode = Exc.badCode.code ∧ s.cfg.badCode = true ∨
        t.status.faultCode = Exc.readOverrun.code ∧ s.cfg.rdOverrun = true) ∧
    (∀ st, s.status.fsm = .compress st → t.status.faultCode ∈ [Exc.literal, .width, .capacity].map Exc.code) ∧
    ∀ st, s.status.fsm = .parse st →
      t.status.faultCode = Exc.lctSize.code ∧ st = .lct ∨ t.status.faultCode = Exc.symbolWidth.code ∧ st = .codeSize

/-- LZW_DECOMPRESS ends within `3 + floor(8·RD_LEN / 3)` micro-steps, its setup included. -/
def Obligations.DecompressEnds : Prop :=
  ∀ (s : State) (base cap flags : Word), s.Inv → s.status.busy = true → s.status.fsm = .idle →
    decodeCommand s.commandWords = .ok (.lzwDecompress base cap flags) →
    ∃ k t, k ≤ 3 + 8 * s.rd.len.toNat / 3 ∧ engineRun k s = .next t ∧ t.status.busy = false

/-- LZW_COMPRESS runs exactly `len + 4` micro-steps when it does not fault, and no more when it does. -/
def Obligations.CompressEnds : Prop :=
  ∀ (s : State) (n base len flags : Word), s.Inv → s.status.busy = true → s.status.fsm = .idle →
    decodeCommand s.commandWords = .ok (.lzwCompress n base len flags) →
    (∃ t, engineRun (len.toNat + 4) s = .next t ∧ t.status.busy = false) ∧
      ∀ k t, k < len.toNat + 4 → engineRun k s = .next t → t.status.fault = false → t.status.busy = true

/-- GIF_PARSE ends within `5·len + 2` micro-steps, its decoder's included. The bound is the model's own; that of R142 is not below it. -/
def Obligations.ParseEnds : Prop :=
  ∀ (s : State) (base len : Word), s.Inv → s.status.busy = true → s.status.fsm = .idle →
    decodeCommand s.commandWords = .ok (.gifParse base len) →
    ∃ k t, k ≤ 5 * len.toNat + 2 ∧ engineRun k s = .next t ∧ t.status.busy = false

/-- The bit-stream round trip: codes of widths 1 to 12 appended one after the other to zeroed bits are read back, each as its low
`width` bits, by a reader over the writer's region from the cursor the first append started at. -/
def Obligations.BitStreamRoundTrips : Prop :=
  ∀ (codes : List (Word × Word)) (s t : State) (results : List Word), s.Inv →
    (∀ p, s.wr.cur.toNat ≤ p → p < 8 * s.wr.len.toNat → s.bitAt s.wr.base.toNat p = false) →
    execResults (codes.map fun c => .wrAppend c.1 c.2) s = some (results, t) →
    ∃ v, execResults (codes.map fun c => .rdConsume c.2) { t with rd := ⟨s.wr.base, s.wr.len, s.wr.cur, true⟩ } =
      some (codes.map fun c => word (c.1.toNat % 2 ^ c.2.toNat), v)
end

