-- ==== Sys2Proof/Laws/State.lean ====
section
/-! SUPPORT. What each named update of the state leaves in each field: one lemma per field, true by definition. -/

namespace Sys2Proof.Machine

variable (s : State)

/-! ## `State.finish` -/

@[simp] theorem State.finish_dmemSize (f : Bool) (a b : Nat) : (s.finish f a b).dmemSize = s.dmemSize := rfl
@[simp] theorem State.finish_cmd (f : Bool) (a b : Nat) : (s.finish f a b).cmd = s.cmd := rfl
@[simp] theorem State.finish_busy (f : Bool) (a b : Nat) : (s.finish f a b).status.busy = false := rfl
@[simp] theorem State.finish_done (f : Bool) (a b : Nat) : (s.finish f a b).status.done = true := rfl
@[simp] theorem State.finish_fault (f : Bool) (a b : Nat) : (s.finish f a b).status.fault = s.status.fault := rfl
@[simp] theorem State.finish_flag (f : Bool) (a b : Nat) : (s.finish f a b).status.flag = f := rfl
@[simp] theorem State.finish_reject (f : Bool) (a b : Nat) : (s.finish f a b).status.reject = s.status.reject := rfl
@[simp] theorem State.finish_faultCode (f : Bool) (a b : Nat) : (s.finish f a b).status.faultCode = s.status.faultCode := rfl
@[simp] theorem State.finish_fsm (f : Bool) (a b : Nat) : (s.finish f a b).status.fsm = .idle := rfl
@[simp] theorem State.finish_arg (f : Bool) (a b : Nat) : (s.finish f a b).arg = s.arg := rfl
@[simp] theorem State.finish_res0 (f : Bool) (a b : Nat) : (s.finish f a b).res0 = word a := rfl
@[simp] theorem State.finish_res1 (f : Bool) (a b : Nat) : (s.finish f a b).res1 = word b := rfl
@[simp] theorem State.finish_config (f : Bool) (a b : Nat) : (s.finish f a b).config = s.config := rfl
@[simp] theorem State.finish_lat (f : Bool) (a b : Nat) : (s.finish f a b).lat = s.lat := rfl
@[simp] theorem State.finish_cfg (f : Bool) (a b : Nat) : (s.finish f a b).cfg = s.cfg := rfl
@[simp] theorem State.finish_rd (f : Bool) (a b : Nat) : (s.finish f a b).rd = s.rd := rfl
@[simp] theorem State.finish_wr (f : Bool) (a b : Nat) : (s.finish f a b).wr = s.wr := rfl
@[simp] theorem State.finish_tbl (f : Bool) (a b : Nat) : (s.finish f a b).tbl = s.tbl := rfl
@[simp] theorem State.finish_out (f : Bool) (a b : Nat) : (s.finish f a b).out = s.out := rfl
@[simp] theorem State.finish_dec (f : Bool) (a b : Nat) : (s.finish f a b).dec = s.dec := rfl
@[simp] theorem State.finish_enc (f : Bool) (a b : Nat) : (s.finish f a b).enc = s.enc := rfl
@[simp] theorem State.finish_par (f : Bool) (a b : Nat) : (s.finish f a b).par = s.par := rfl
@[simp] theorem State.finish_cont (f : Bool) (a b : Nat) : (s.finish f a b).cont = s.cont := rfl
@[simp] theorem State.finish_dmem (f : Bool) (a b : Nat) : (s.finish f a b).dmem = s.dmem := rfl
@[simp] theorem State.finish_host (f : Bool) (a b : Nat) : (s.finish f a b).host = s.host := rfl

/-! ## `State.raise` -/

@[simp] theorem State.raise_dmemSize (e : Exc) (a b : Nat) : (s.raise e a b).dmemSize = s.dmemSize := rfl
@[simp] theorem State.raise_cmd (e : Exc) (a b : Nat) : (s.raise e a b).cmd = s.cmd := rfl
@[simp] theorem State.raise_busy (e : Exc) (a b : Nat) : (s.raise e a b).status.busy = false := rfl
@[simp] theorem State.raise_done (e : Exc) (a b : Nat) : (s.raise e a b).status.done = true := rfl
@[simp] theorem State.raise_fault (e : Exc) (a b : Nat) : (s.raise e a b).status.fault = true := rfl
@[simp] theorem State.raise_flag (e : Exc) (a b : Nat) : (s.raise e a b).status.flag = false := rfl
@[simp] theorem State.raise_reject (e : Exc) (a b : Nat) : (s.raise e a b).status.reject = s.status.reject := rfl
@[simp] theorem State.raise_faultCode (e : Exc) (a b : Nat) : (s.raise e a b).status.faultCode = e.code := rfl
@[simp] theorem State.raise_fsm (e : Exc) (a b : Nat) : (s.raise e a b).status.fsm = s.status.fsm := rfl
@[simp] theorem State.raise_arg (e : Exc) (a b : Nat) : (s.raise e a b).arg = s.arg := rfl
@[simp] theorem State.raise_res0 (e : Exc) (a b : Nat) : (s.raise e a b).res0 = word a := rfl
@[simp] theorem State.raise_res1 (e : Exc) (a b : Nat) : (s.raise e a b).res1 = word b := rfl
@[simp] theorem State.raise_config (e : Exc) (a b : Nat) : (s.raise e a b).config = s.config := rfl
@[simp] theorem State.raise_lat (e : Exc) (a b : Nat) : (s.raise e a b).lat = s.lat := rfl
@[simp] theorem State.raise_cfg (e : Exc) (a b : Nat) : (s.raise e a b).cfg = s.cfg := rfl
@[simp] theorem State.raise_rd (e : Exc) (a b : Nat) : (s.raise e a b).rd = s.rd := rfl
@[simp] theorem State.raise_wr (e : Exc) (a b : Nat) : (s.raise e a b).wr = s.wr := rfl
@[simp] theorem State.raise_tbl (e : Exc) (a b : Nat) : (s.raise e a b).tbl = s.tbl := rfl
@[simp] theorem State.raise_out (e : Exc) (a b : Nat) : (s.raise e a b).out = s.out := rfl
@[simp] theorem State.raise_dec (e : Exc) (a b : Nat) : (s.raise e a b).dec = s.dec := rfl
@[simp] theorem State.raise_enc (e : Exc) (a b : Nat) : (s.raise e a b).enc = s.enc := rfl
@[simp] theorem State.raise_par (e : Exc) (a b : Nat) : (s.raise e a b).par = s.par := rfl
@[simp] theorem State.raise_cont (e : Exc) (a b : Nat) : (s.raise e a b).cont = s.cont := rfl
@[simp] theorem State.raise_dmem (e : Exc) (a b : Nat) : (s.raise e a b).dmem = s.dmem := rfl
@[simp] theorem State.raise_host (e : Exc) (a b : Nat) : (s.raise e a b).host = s.host := rfl

/-! ## `State.accept` -/

@[simp] theorem State.accept_dmemSize (v : Word) : (s.accept v).dmemSize = s.dmemSize := rfl
@[simp] theorem State.accept_cmd (v : Word) : (s.accept v).cmd = opcodeOf v := rfl
@[simp] theorem State.accept_busy (v : Word) : (s.accept v).status.busy = true := rfl
@[simp] theorem State.accept_done (v : Word) : (s.accept v).status.done = false := rfl
@[simp] theorem State.accept_fault (v : Word) : (s.accept v).status.fault = s.status.fault := rfl
@[simp] theorem State.accept_flag (v : Word) : (s.accept v).status.flag = false := rfl
@[simp] theorem State.accept_reject (v : Word) : (s.accept v).status.reject = s.status.reject := rfl
@[simp] theorem State.accept_faultCode (v : Word) : (s.accept v).status.faultCode = s.status.faultCode := rfl
@[simp] theorem State.accept_fsm (v : Word) : (s.accept v).status.fsm = s.status.fsm := rfl
@[simp] theorem State.accept_arg (v : Word) : (s.accept v).arg = s.arg := rfl
@[simp] theorem State.accept_res0 (v : Word) : (s.accept v).res0 = 0 := rfl
@[simp] theorem State.accept_res1 (v : Word) : (s.accept v).res1 = 0 := rfl
@[simp] theorem State.accept_config (v : Word) : (s.accept v).config = s.config := rfl
@[simp] theorem State.accept_lat (v : Word) : (s.accept v).lat = s.arg := rfl
@[simp] theorem State.accept_cfg (v : Word) : (s.accept v).cfg = s.config := rfl
@[simp] theorem State.accept_rd (v : Word) : (s.accept v).rd = s.rd := rfl
@[simp] theorem State.accept_wr (v : Word) : (s.accept v).wr = s.wr := rfl
@[simp] theorem State.accept_tbl (v : Word) : (s.accept v).tbl = s.tbl := rfl
@[simp] theorem State.accept_out (v : Word) : (s.accept v).out = s.out := rfl
@[simp] theorem State.accept_dec (v : Word) : (s.accept v).dec = s.dec := rfl
@[simp] theorem State.accept_enc (v : Word) : (s.accept v).enc = s.enc := rfl
@[simp] theorem State.accept_par (v : Word) : (s.accept v).par = s.par := rfl
@[simp] theorem State.accept_cont (v : Word) : (s.accept v).cont = s.cont := rfl
@[simp] theorem State.accept_dmem (v : Word) : (s.accept v).dmem = s.dmem := rfl
@[simp] theorem State.accept_host (v : Word) : (s.accept v).host = s.host := rfl

/-! ## `State.rejectWrite` -/

@[simp] theorem State.rejectWrite_dmemSize : s.rejectWrite.dmemSize = s.dmemSize := rfl
@[simp] theorem State.rejectWrite_cmd : s.rejectWrite.cmd = s.cmd := rfl
@[simp] theorem State.rejectWrite_busy : s.rejectWrite.status.busy = s.status.busy := rfl
@[simp] theorem State.rejectWrite_done : s.rejectWrite.status.done = s.status.done := rfl
@[simp] theorem State.rejectWrite_fault : s.rejectWrite.status.fault = s.status.fault := rfl
@[simp] theorem State.rejectWrite_flag : s.rejectWrite.status.flag = s.status.flag := rfl
@[simp] theorem State.rejectWrite_reject : s.rejectWrite.status.reject = true := rfl
@[simp] theorem State.rejectWrite_faultCode : s.rejectWrite.status.faultCode = s.status.faultCode := rfl
@[simp] theorem State.rejectWrite_fsm : s.rejectWrite.status.fsm = s.status.fsm := rfl
@[simp] theorem State.rejectWrite_arg : s.rejectWrite.arg = s.arg := rfl
@[simp] theorem State.rejectWrite_res0 : s.rejectWrite.res0 = s.res0 := rfl
@[simp] theorem State.rejectWrite_res1 : s.rejectWrite.res1 = s.res1 := rfl
@[simp] theorem State.rejectWrite_config : s.rejectWrite.config = s.config := rfl
@[simp] theorem State.rejectWrite_lat : s.rejectWrite.lat = s.lat := rfl
@[simp] theorem State.rejectWrite_cfg : s.rejectWrite.cfg = s.cfg := rfl
@[simp] theorem State.rejectWrite_rd : s.rejectWrite.rd = s.rd := rfl
@[simp] theorem State.rejectWrite_wr : s.rejectWrite.wr = s.wr := rfl
@[simp] theorem State.rejectWrite_tbl : s.rejectWrite.tbl = s.tbl := rfl
@[simp] theorem State.rejectWrite_out : s.rejectWrite.out = s.out := rfl
@[simp] theorem State.rejectWrite_dec : s.rejectWrite.dec = s.dec := rfl
@[simp] theorem State.rejectWrite_enc : s.rejectWrite.enc = s.enc := rfl
@[simp] theorem State.rejectWrite_par : s.rejectWrite.par = s.par := rfl
@[simp] theorem State.rejectWrite_cont : s.rejectWrite.cont = s.cont := rfl
@[simp] theorem State.rejectWrite_dmem : s.rejectWrite.dmem = s.dmem := rfl
@[simp] theorem State.rejectWrite_host : s.rejectWrite.host = s.host := rfl

/-! ## `State.setFsm` -/

@[simp] theorem State.setFsm_dmemSize (g : Fsm) : (s.setFsm g).dmemSize = s.dmemSize := rfl
@[simp] theorem State.setFsm_cmd (g : Fsm) : (s.setFsm g).cmd = s.cmd := rfl
@[simp] theorem State.setFsm_busy (g : Fsm) : (s.setFsm g).status.busy = s.status.busy := rfl
@[simp] theorem State.setFsm_done (g : Fsm) : (s.setFsm g).status.done = s.status.done := rfl
@[simp] theorem State.setFsm_fault (g : Fsm) : (s.setFsm g).status.fault = s.status.fault := rfl
@[simp] theorem State.setFsm_flag (g : Fsm) : (s.setFsm g).status.flag = s.status.flag := rfl
@[simp] theorem State.setFsm_reject (g : Fsm) : (s.setFsm g).status.reject = s.status.reject := rfl
@[simp] theorem State.setFsm_faultCode (g : Fsm) : (s.setFsm g).status.faultCode = s.status.faultCode := rfl
@[simp] theorem State.setFsm_fsm (g : Fsm) : (s.setFsm g).status.fsm = g := rfl
@[simp] theorem State.setFsm_arg (g : Fsm) : (s.setFsm g).arg = s.arg := rfl
@[simp] theorem State.setFsm_res0 (g : Fsm) : (s.setFsm g).res0 = s.res0 := rfl
@[simp] theorem State.setFsm_res1 (g : Fsm) : (s.setFsm g).res1 = s.res1 := rfl
@[simp] theorem State.setFsm_config (g : Fsm) : (s.setFsm g).config = s.config := rfl
@[simp] theorem State.setFsm_lat (g : Fsm) : (s.setFsm g).lat = s.lat := rfl
@[simp] theorem State.setFsm_cfg (g : Fsm) : (s.setFsm g).cfg = s.cfg := rfl
@[simp] theorem State.setFsm_rd (g : Fsm) : (s.setFsm g).rd = s.rd := rfl
@[simp] theorem State.setFsm_wr (g : Fsm) : (s.setFsm g).wr = s.wr := rfl
@[simp] theorem State.setFsm_tbl (g : Fsm) : (s.setFsm g).tbl = s.tbl := rfl
@[simp] theorem State.setFsm_out (g : Fsm) : (s.setFsm g).out = s.out := rfl
@[simp] theorem State.setFsm_dec (g : Fsm) : (s.setFsm g).dec = s.dec := rfl
@[simp] theorem State.setFsm_enc (g : Fsm) : (s.setFsm g).enc = s.enc := rfl
@[simp] theorem State.setFsm_par (g : Fsm) : (s.setFsm g).par = s.par := rfl
@[simp] theorem State.setFsm_cont (g : Fsm) : (s.setFsm g).cont = s.cont := rfl
@[simp] theorem State.setFsm_dmem (g : Fsm) : (s.setFsm g).dmem = s.dmem := rfl
@[simp] theorem State.setFsm_host (g : Fsm) : (s.setFsm g).host = s.host := rfl

/-! ## `State.setRdCur` -/

@[simp] theorem State.setRdCur_dmemSize (n : Nat) : (s.setRdCur n).dmemSize = s.dmemSize := rfl
@[simp] theorem State.setRdCur_cmd (n : Nat) : (s.setRdCur n).cmd = s.cmd := rfl
@[simp] theorem State.setRdCur_status (n : Nat) : (s.setRdCur n).status = s.status := rfl
@[simp] theorem State.setRdCur_arg (n : Nat) : (s.setRdCur n).arg = s.arg := rfl
@[simp] theorem State.setRdCur_res0 (n : Nat) : (s.setRdCur n).res0 = s.res0 := rfl
@[simp] theorem State.setRdCur_res1 (n : Nat) : (s.setRdCur n).res1 = s.res1 := rfl
@[simp] theorem State.setRdCur_config (n : Nat) : (s.setRdCur n).config = s.config := rfl
@[simp] theorem State.setRdCur_lat (n : Nat) : (s.setRdCur n).lat = s.lat := rfl
@[simp] theorem State.setRdCur_cfg (n : Nat) : (s.setRdCur n).cfg = s.cfg := rfl
@[simp] theorem State.setRdCur_rd (n : Nat) : (s.setRdCur n).rd = { s.rd with cur := word n } := rfl
@[simp] theorem State.setRdCur_wr (n : Nat) : (s.setRdCur n).wr = s.wr := rfl
@[simp] theorem State.setRdCur_tbl (n : Nat) : (s.setRdCur n).tbl = s.tbl := rfl
@[simp] theorem State.setRdCur_out (n : Nat) : (s.setRdCur n).out = s.out := rfl
@[simp] theorem State.setRdCur_dec (n : Nat) : (s.setRdCur n).dec = s.dec := rfl
@[simp] theorem State.setRdCur_enc (n : Nat) : (s.setRdCur n).enc = s.enc := rfl
@[simp] theorem State.setRdCur_par (n : Nat) : (s.setRdCur n).par = s.par := rfl
@[simp] theorem State.setRdCur_cont (n : Nat) : (s.setRdCur n).cont = s.cont := rfl
@[simp] theorem State.setRdCur_dmem (n : Nat) : (s.setRdCur n).dmem = s.dmem := rfl
@[simp] theorem State.setRdCur_host (n : Nat) : (s.setRdCur n).host = s.host := rfl

/-! ## `State.setWrCur` -/

@[simp] theorem State.setWrCur_dmemSize (n : Nat) : (s.setWrCur n).dmemSize = s.dmemSize := rfl
@[simp] theorem State.setWrCur_cmd (n : Nat) : (s.setWrCur n).cmd = s.cmd := rfl
@[simp] theorem State.setWrCur_status (n : Nat) : (s.setWrCur n).status = s.status := rfl
@[simp] theorem State.setWrCur_arg (n : Nat) : (s.setWrCur n).arg = s.arg := rfl
@[simp] theorem State.setWrCur_res0 (n : Nat) : (s.setWrCur n).res0 = s.res0 := rfl
@[simp] theorem State.setWrCur_res1 (n : Nat) : (s.setWrCur n).res1 = s.res1 := rfl
@[simp] theorem State.setWrCur_config (n : Nat) : (s.setWrCur n).config = s.config := rfl
@[simp] theorem State.setWrCur_lat (n : Nat) : (s.setWrCur n).lat = s.lat := rfl
@[simp] theorem State.setWrCur_cfg (n : Nat) : (s.setWrCur n).cfg = s.cfg := rfl
@[simp] theorem State.setWrCur_rd (n : Nat) : (s.setWrCur n).rd = s.rd := rfl
@[simp] theorem State.setWrCur_wr (n : Nat) : (s.setWrCur n).wr = { s.wr with cur := word n } := rfl
@[simp] theorem State.setWrCur_tbl (n : Nat) : (s.setWrCur n).tbl = s.tbl := rfl
@[simp] theorem State.setWrCur_out (n : Nat) : (s.setWrCur n).out = s.out := rfl
@[simp] theorem State.setWrCur_dec (n : Nat) : (s.setWrCur n).dec = s.dec := rfl
@[simp] theorem State.setWrCur_enc (n : Nat) : (s.setWrCur n).enc = s.enc := rfl
@[simp] theorem State.setWrCur_par (n : Nat) : (s.setWrCur n).par = s.par := rfl
@[simp] theorem State.setWrCur_cont (n : Nat) : (s.setWrCur n).cont = s.cont := rfl
@[simp] theorem State.setWrCur_dmem (n : Nat) : (s.setWrCur n).dmem = s.dmem := rfl
@[simp] theorem State.setWrCur_host (n : Nat) : (s.setWrCur n).host = s.host := rfl

/-! ## `State.tblClear` -/

@[simp] theorem State.tblClear_dmemSize : s.tblClear.dmemSize = s.dmemSize := rfl
@[simp] theorem State.tblClear_cmd : s.tblClear.cmd = s.cmd := rfl
@[simp] theorem State.tblClear_status : s.tblClear.status = s.status := rfl
@[simp] theorem State.tblClear_arg : s.tblClear.arg = s.arg := rfl
@[simp] theorem State.tblClear_res0 : s.tblClear.res0 = s.res0 := rfl
@[simp] theorem State.tblClear_res1 : s.tblClear.res1 = s.res1 := rfl
@[simp] theorem State.tblClear_config : s.tblClear.config = s.config := rfl
@[simp] theorem State.tblClear_lat : s.tblClear.lat = s.lat := rfl
@[simp] theorem State.tblClear_cfg : s.tblClear.cfg = s.cfg := rfl
@[simp] theorem State.tblClear_rd : s.tblClear.rd = s.rd := rfl
@[simp] theorem State.tblClear_wr : s.tblClear.wr = s.wr := rfl
@[simp] theorem State.tblClear_tbl : s.tblClear.tbl = { s.tbl with slots := initialSlots s.tbl.n.toNat, width := word (s.tbl.n.toNat + 1) } := rfl
@[simp] theorem State.tblClear_out : s.tblClear.out = s.out := rfl
@[simp] theorem State.tblClear_dec : s.tblClear.dec = s.dec := rfl
@[simp] theorem State.tblClear_enc : s.tblClear.enc = s.enc := rfl
@[simp] theorem State.tblClear_par : s.tblClear.par = s.par := rfl
@[simp] theorem State.tblClear_cont : s.tblClear.cont = s.cont := rfl
@[simp] theorem State.tblClear_dmem : s.tblClear.dmem = s.dmem := rfl
@[simp] theorem State.tblClear_host : s.tblClear.host = s.host := rfl

/-! ## `State.setPrev` -/

@[simp] theorem State.setPrev_dmemSize (q : Option Seq) : (s.setPrev q).dmemSize = s.dmemSize := rfl
@[simp] theorem State.setPrev_cmd (q : Option Seq) : (s.setPrev q).cmd = s.cmd := rfl
@[simp] theorem State.setPrev_status (q : Option Seq) : (s.setPrev q).status = s.status := rfl
@[simp] theorem State.setPrev_arg (q : Option Seq) : (s.setPrev q).arg = s.arg := rfl
@[simp] theorem State.setPrev_res0 (q : Option Seq) : (s.setPrev q).res0 = s.res0 := rfl
@[simp] theorem State.setPrev_res1 (q : Option Seq) : (s.setPrev q).res1 = s.res1 := rfl
@[simp] theorem State.setPrev_config (q : Option Seq) : (s.setPrev q).config = s.config := rfl
@[simp] theorem State.setPrev_lat (q : Option Seq) : (s.setPrev q).lat = s.lat := rfl
@[simp] theorem State.setPrev_cfg (q : Option Seq) : (s.setPrev q).cfg = s.cfg := rfl
@[simp] theorem State.setPrev_rd (q : Option Seq) : (s.setPrev q).rd = s.rd := rfl
@[simp] theorem State.setPrev_wr (q : Option Seq) : (s.setPrev q).wr = s.wr := rfl
@[simp] theorem State.setPrev_tbl (q : Option Seq) : (s.setPrev q).tbl = s.tbl := rfl
@[simp] theorem State.setPrev_out (q : Option Seq) : (s.setPrev q).out = s.out := rfl
@[simp] theorem State.setPrev_dec (q : Option Seq) : (s.setPrev q).dec = { s.dec with prev := q } := rfl
@[simp] theorem State.setPrev_enc (q : Option Seq) : (s.setPrev q).enc = s.enc := rfl
@[simp] theorem State.setPrev_par (q : Option Seq) : (s.setPrev q).par = s.par := rfl
@[simp] theorem State.setPrev_cont (q : Option Seq) : (s.setPrev q).cont = s.cont := rfl
@[simp] theorem State.setPrev_dmem (q : Option Seq) : (s.setPrev q).dmem = s.dmem := rfl
@[simp] theorem State.setPrev_host (q : Option Seq) : (s.setPrev q).host = s.host := rfl

/-! ## `State.setPos` -/

@[simp] theorem State.setPos_dmemSize (n : Nat) : (s.setPos n).dmemSize = s.dmemSize := rfl
@[simp] theorem State.setPos_cmd (n : Nat) : (s.setPos n).cmd = s.cmd := rfl
@[simp] theorem State.setPos_status (n : Nat) : (s.setPos n).status = s.status := rfl
@[simp] theorem State.setPos_arg (n : Nat) : (s.setPos n).arg = s.arg := rfl
@[simp] theorem State.setPos_res0 (n : Nat) : (s.setPos n).res0 = s.res0 := rfl
@[simp] theorem State.setPos_res1 (n : Nat) : (s.setPos n).res1 = s.res1 := rfl
@[simp] theorem State.setPos_config (n : Nat) : (s.setPos n).config = s.config := rfl
@[simp] theorem State.setPos_lat (n : Nat) : (s.setPos n).lat = s.lat := rfl
@[simp] theorem State.setPos_cfg (n : Nat) : (s.setPos n).cfg = s.cfg := rfl
@[simp] theorem State.setPos_rd (n : Nat) : (s.setPos n).rd = s.rd := rfl
@[simp] theorem State.setPos_wr (n : Nat) : (s.setPos n).wr = s.wr := rfl
@[simp] theorem State.setPos_tbl (n : Nat) : (s.setPos n).tbl = s.tbl := rfl
@[simp] theorem State.setPos_out (n : Nat) : (s.setPos n).out = s.out := rfl
@[simp] theorem State.setPos_dec (n : Nat) : (s.setPos n).dec = s.dec := rfl
@[simp] theorem State.setPos_enc (n : Nat) : (s.setPos n).enc = s.enc := rfl
@[simp] theorem State.setPos_par (n : Nat) : (s.setPos n).par = { s.par with pos := word n } := rfl
@[simp] theorem State.setPos_cont (n : Nat) : (s.setPos n).cont = s.cont := rfl
@[simp] theorem State.setPos_dmem (n : Nat) : (s.setPos n).dmem = s.dmem := rfl
@[simp] theorem State.setPos_host (n : Nat) : (s.setPos n).host = s.host := rfl

/-! ## `State.dropUnits` -/

@[simp] theorem State.dropUnits_dmemSize : s.dropUnits.dmemSize = s.dmemSize := rfl
@[simp] theorem State.dropUnits_cmd : s.dropUnits.cmd = s.cmd := rfl
@[simp] theorem State.dropUnits_status : s.dropUnits.status = s.status := rfl
@[simp] theorem State.dropUnits_arg : s.dropUnits.arg = s.arg := rfl
@[simp] theorem State.dropUnits_res0 : s.dropUnits.res0 = s.res0 := rfl
@[simp] theorem State.dropUnits_res1 : s.dropUnits.res1 = s.res1 := rfl
@[simp] theorem State.dropUnits_config : s.dropUnits.config = s.config := rfl
@[simp] theorem State.dropUnits_lat : s.dropUnits.lat = s.lat := rfl
@[simp] theorem State.dropUnits_cfg : s.dropUnits.cfg = s.cfg := rfl
@[simp] theorem State.dropUnits_rd : s.dropUnits.rd = { s.rd with valid := false } := rfl
@[simp] theorem State.dropUnits_wr : s.dropUnits.wr = s.wr := rfl
@[simp] theorem State.dropUnits_tbl : s.dropUnits.tbl = { s.tbl with valid := false } := rfl
@[simp] theorem State.dropUnits_out : s.dropUnits.out = s.out := rfl
@[simp] theorem State.dropUnits_dec : s.dropUnits.dec = s.dec := rfl
@[simp] theorem State.dropUnits_enc : s.dropUnits.enc = s.enc := rfl
@[simp] theorem State.dropUnits_par : s.dropUnits.par = s.par := rfl
@[simp] theorem State.dropUnits_cont : s.dropUnits.cont = s.cont := rfl
@[simp] theorem State.dropUnits_dmem : s.dropUnits.dmem = s.dmem := rfl
@[simp] theorem State.dropUnits_host : s.dropUnits.host = s.host := rfl

/-! ## `State.addBlock` -/

@[simp] theorem State.addBlock_dmemSize (b : Block) : (s.addBlock b).dmemSize = s.dmemSize := rfl
@[simp] theorem State.addBlock_cmd (b : Block) : (s.addBlock b).cmd = s.cmd := rfl
@[simp] theorem State.addBlock_status (b : Block) : (s.addBlock b).status = s.status := rfl
@[simp] theorem State.addBlock_arg (b : Block) : (s.addBlock b).arg = s.arg := rfl
@[simp] theorem State.addBlock_res0 (b : Block) : (s.addBlock b).res0 = s.res0 := rfl
@[simp] theorem State.addBlock_res1 (b : Block) : (s.addBlock b).res1 = s.res1 := rfl
@[simp] theorem State.addBlock_config (b : Block) : (s.addBlock b).config = s.config := rfl
@[simp] theorem State.addBlock_lat (b : Block) : (s.addBlock b).lat = s.lat := rfl
@[simp] theorem State.addBlock_cfg (b : Block) : (s.addBlock b).cfg = s.cfg := rfl
@[simp] theorem State.addBlock_rd (b : Block) : (s.addBlock b).rd = s.rd := rfl
@[simp] theorem State.addBlock_wr (b : Block) : (s.addBlock b).wr = s.wr := rfl
@[simp] theorem State.addBlock_tbl (b : Block) : (s.addBlock b).tbl = s.tbl := rfl
@[simp] theorem State.addBlock_out (b : Block) : (s.addBlock b).out = s.out := rfl
@[simp] theorem State.addBlock_dec (b : Block) : (s.addBlock b).dec = s.dec := rfl
@[simp] theorem State.addBlock_enc (b : Block) : (s.addBlock b).enc = s.enc := rfl
@[simp] theorem State.addBlock_par (b : Block) : (s.addBlock b).par = s.par := rfl
@[simp] theorem State.addBlock_cont (b : Block) : (s.addBlock b).cont = { s.cont with blocks := s.cont.blocks ++ [b] } := rfl
@[simp] theorem State.addBlock_dmem (b : Block) : (s.addBlock b).dmem = s.dmem := rfl
@[simp] theorem State.addBlock_host (b : Block) : (s.addBlock b).host = s.host := rfl

/-! ## `State.give` -/

@[simp] theorem State.give_dmemSize (v : HostValue) : (s.give v).dmemSize = s.dmemSize := rfl
@[simp] theorem State.give_cmd (v : HostValue) : (s.give v).cmd = s.cmd := rfl
@[simp] theorem State.give_status (v : HostValue) : (s.give v).status = s.status := rfl
@[simp] theorem State.give_arg (v : HostValue) : (s.give v).arg = s.arg := rfl
@[simp] theorem State.give_res0 (v : HostValue) : (s.give v).res0 = s.res0 := rfl
@[simp] theorem State.give_res1 (v : HostValue) : (s.give v).res1 = s.res1 := rfl
@[simp] theorem State.give_config (v : HostValue) : (s.give v).config = s.config := rfl
@[simp] theorem State.give_lat (v : HostValue) : (s.give v).lat = s.lat := rfl
@[simp] theorem State.give_cfg (v : HostValue) : (s.give v).cfg = s.cfg := rfl
@[simp] theorem State.give_rd (v : HostValue) : (s.give v).rd = s.rd := rfl
@[simp] theorem State.give_wr (v : HostValue) : (s.give v).wr = s.wr := rfl
@[simp] theorem State.give_tbl (v : HostValue) : (s.give v).tbl = s.tbl := rfl
@[simp] theorem State.give_out (v : HostValue) : (s.give v).out = s.out := rfl
@[simp] theorem State.give_dec (v : HostValue) : (s.give v).dec = s.dec := rfl
@[simp] theorem State.give_enc (v : HostValue) : (s.give v).enc = s.enc := rfl
@[simp] theorem State.give_par (v : HostValue) : (s.give v).par = s.par := rfl
@[simp] theorem State.give_cont (v : HostValue) : (s.give v).cont = s.cont := rfl
@[simp] theorem State.give_dmem (v : HostValue) : (s.give v).dmem = s.dmem := rfl
@[simp] theorem State.give_host (v : HostValue) : (s.give v).host = { s.host with got := s.host.got ++ [v] } := rfl

/-! ## Updates made of the named ones -/

theorem State.recordBlock_eq (b : Block) (p : Nat) :
    s.recordBlock b p = ((s.addBlock b).setPos p).setFsm (.parse .label) := rfl

theorem State.peek_eq (a : Nat) : s.peek a = s.dmem.read a := rfl

/-- A state is its fields. -/
theorem State.ext_fields {s t : State} (h1 : s.dmemSize = t.dmemSize) (h2 : s.cmd = t.cmd) (h3 : s.status = t.status)
    (h4 : s.arg = t.arg) (h5 : s.res0 = t.res0) (h6 : s.res1 = t.res1) (h7 : s.config = t.config) (h8 : s.lat = t.lat)
    (h9 : s.cfg = t.cfg) (h10 : s.rd = t.rd) (h11 : s.wr = t.wr) (h12 : s.tbl = t.tbl) (h13 : s.out = t.out)
    (h14 : s.dec = t.dec) (h15 : s.enc = t.enc) (h16 : s.par = t.par) (h17 : s.cont = t.cont) (h18 : s.dmem = t.dmem)
    (h19 : s.host = t.host) : s = t := by
  cases s; cases t; simp_all

end Sys2Proof.Machine
end

