-- ==== Sys2Proof/Laws/Memory.lean ====
section
/-! SUPPORT. The laws of DMEM as data: read after write, and the canonical form every memory operation keeps. -/

namespace Sys2Proof.Machine

/-! ## The canonical form -/

theorem Memory.wfFrom_cons {lo k : Nat} {b : Byte} {m : Memory} :
    Memory.wfFrom lo ((k, b) :: m) = true ↔ lo ≤ k ∧ b ≠ Config.unlistedByte ∧ Memory.wfFrom (k + 1) m = true := by
  simp [Memory.wfFrom, and_assoc]

theorem Memory.wfFrom_mono {lo hi : Nat} (h : lo ≤ hi) {m : Memory} (w : Memory.wfFrom hi m = true) :
    Memory.wfFrom lo m = true := by
  cases m with
  | nil => rfl
  | cons c m => obtain ⟨k, b⟩ := c; rw [Memory.wfFrom_cons] at w ⊢; exact ⟨by omega, w.2⟩

/-- A byte below every listed address reads as unlisted. -/
theorem Memory.read_below {lo a : Nat} {m : Memory} (w : Memory.wfFrom lo m = true) (h : a < lo) :
    m.read a = Config.unlistedByte := by
  cases m with
  | nil => rfl
  | cons c m => obtain ⟨k, b⟩ := c; rw [Memory.wfFrom_cons] at w; simp [Memory.read, show a ≠ k by omega, show a < k by omega]

theorem Memory.wfFrom_consCell {lo a : Nat} {v : Byte} {m : Memory} (h : lo ≤ a) (w : Memory.wfFrom (a + 1) m = true) :
    Memory.wfFrom lo (Memory.cons a v m) = true := by
  unfold Memory.cons
  split
  · exact Memory.wfFrom_mono (by omega) w
  · rw [Memory.wfFrom_cons]; exact ⟨h, ‹_›, w⟩

theorem Memory.read_consCell {a : Nat} {v : Byte} {m : Memory} (w : Memory.wfFrom (a + 1) m = true) (b : Nat) :
    (Memory.cons a v m).read b = if b = a then v else m.read b := by
  unfold Memory.cons
  split
  · rename_i hv
    split
    · subst_vars; exact (Memory.read_below w (by omega))
    · rfl
  · simp only [Memory.read]
    split
    · rfl
    · split
      · exact (Memory.read_below w (by omega)).symm
      · rfl

/-- A write keeps the canonical form. -/
theorem Memory.wfFrom_write {m : Memory} {lo a : Nat} {v : Byte} (w : Memory.wfFrom lo m = true) (h : lo ≤ a) :
    Memory.wfFrom lo (m.write a v) = true := by
  induction m generalizing lo with
  | nil => exact Memory.wfFrom_consCell h rfl
  | cons c m ih =>
    obtain ⟨k, b⟩ := c
    have w' := Memory.wfFrom_cons.mp w
    simp only [Memory.write]
    split
    · exact Memory.wfFrom_consCell h (Memory.wfFrom_cons.mpr ⟨by omega, w'.2⟩)
    · split
      · subst_vars; exact Memory.wfFrom_consCell h w'.2.2
      · exact Memory.wfFrom_cons.mpr ⟨w'.1, w'.2.1, ih w'.2.2 (by omega)⟩

theorem Memory.wf_write {m : Memory} (w : m.wf = true) (a : Nat) (v : Byte) : (m.write a v).wf = true :=
  Memory.wfFrom_write w (Nat.zero_le a)

theorem Memory.readFrom_write {m : Memory} {lo a : Nat} {v : Byte} (w : Memory.wfFrom lo m = true) (b : Nat) :
    (m.write a v).read b = if b = a then v else m.read b := by
  induction m generalizing lo with
  | nil => exact Memory.read_consCell rfl b
  | cons c m ih =>
    obtain ⟨k, d⟩ := c
    have w' := Memory.wfFrom_cons.mp w
    simp only [Memory.write]
    split
    · exact Memory.read_consCell (Memory.wfFrom_cons.mpr ⟨by omega, w'.2⟩) b
    · split
      · subst_vars
        rw [Memory.read_consCell w'.2.2]
        by_cases hb : b = k
        · simp [hb]
        · simp only [hb, Memory.read]
          by_cases hk : b < k
          · simp [hk, Memory.read_below w'.2.2 (show b < k + 1 by omega)]
          · simp [hk]
      · simp only [Memory.read, ih w'.2.2]
        by_cases hb : b = k
        · simp [hb, show k ≠ a by omega]
        · by_cases hk : b < k
          · simp [hb, hk, show b ≠ a by omega]
          · simp [hb, hk]

/-- Read after write (R37, R38). -/
theorem Memory.read_write {m : Memory} (w : m.wf = true) (a b : Nat) (v : Byte) :
    (m.write a v).read b = if b = a then v else m.read b := Memory.readFrom_write w b

/-- A write lists no address but its own that was not listed before. -/
theorem Memory.mem_write {m : Memory} {a : Nat} {v : Byte} {c : Host.Cell} (h : c ∈ m.write a v) :
    c.1 = a ∨ c ∈ m := by
  have hc : ∀ {m' : Memory}, c ∈ Memory.cons a v m' → c.1 = a ∨ c ∈ m' := by
    intro m' h
    unfold Memory.cons at h
    split at h
    · exact .inr h
    · rcases List.mem_cons.mp h with rfl | h
      · exact .inl rfl
      · exact .inr h
  induction m with
  | nil => exact hc h
  | cons d m ih =>
    obtain ⟨k, b⟩ := d
    simp only [Memory.write] at h
    split at h
    · exact hc h
    · split at h
      · exact (hc h).imp_right (List.mem_cons_of_mem _)
      · rcases List.mem_cons.mp h with rfl | h
        · exact .inr (List.mem_cons_self ..)
        · exact (ih h).imp_right (List.mem_cons_of_mem _)

/-- Two canonical memories that read alike are the same data. -/
theorem Memory.ext_read {lo : Nat} {m n : Memory} (hm : Memory.wfFrom lo m = true) (hn : Memory.wfFrom lo n = true)
    (h : ∀ a, m.read a = n.read a) : m = n := by
  induction m generalizing n lo with
  | nil =>
    cases n with
    | nil => rfl
    | cons c n =>
      obtain ⟨k, b⟩ := c
      have := h k
      simp only [Memory.read] at this
      exact absurd this.symm (Memory.wfFrom_cons.mp hn).2.1
  | cons c m ih =>
    obtain ⟨k, b⟩ := c
    have hm' := Memory.wfFrom_cons.mp hm
    cases n with
    | nil =>
      have := h k
      simp only [Memory.read] at this
      exact absurd this hm'.2.1
    | cons d n =>
      obtain ⟨j, d⟩ := d
      have hn' := Memory.wfFrom_cons.mp hn
      have hkj : k = j := by
        rcases Nat.lt_trichotomy k j with hlt | heq | hgt
        · have := h k
          simp [Memory.read, show k ≠ j by omega, hlt] at this
          exact absurd this hm'.2.1
        · exact heq
        · have := h j
          simp [Memory.read, show j ≠ k by omega, hgt] at this
          exact absurd this.symm hn'.2.1
      subst hkj
      have hbd : b = d := by simpa [Memory.read] using h k
      subst hbd
      rw [ih hm'.2.2 hn'.2.2]
      intro a
      by_cases ha : a ≤ k
      · rw [Memory.read_below hm'.2.2 (by omega), Memory.read_below hn'.2.2 (by omega)]
      · simpa [Memory.read, show a ≠ k by omega, show ¬a < k by omega] using h a

/-! ## Many bytes at once -/

theorem placeBytes_wf (q : Seq) {m : Memory} (w : m.wf = true) (a : Nat) : (placeBytes m a q).wf = true := by
  induction q generalizing m a with
  | nil => exact w
  | cons b q ih => exact ih (Memory.wf_write w a b) (a + 1)

/-- The byte at `b` after a sequence is written from `a` on. -/
theorem placeBytes_read (q : Seq) {m : Memory} (w : m.wf = true) (a b : Nat) :
    (placeBytes m a q).read b = if a ≤ b then (q[b - a]?).getD (m.read b) else m.read b := by
  induction q generalizing m a with
  | nil => simp [placeBytes]
  | cons v q ih =>
    rw [placeBytes, ih (Memory.wf_write w a v), Memory.read_write w]
    by_cases h : a + 1 ≤ b
    · have e : b - a = (b - (a + 1)) + 1 := by omega
      simp [h, show a ≤ b by omega, show b ≠ a by omega, e]
    · by_cases hb : b = a
      · subst hb; simp
      · simp [h, hb, show ¬a ≤ b by omega]

theorem placeBytes_mem (q : Seq) {m : Memory} {a : Nat} {c : Host.Cell} (h : c ∈ placeBytes m a q) :
    (a ≤ c.1 ∧ c.1 < a + q.length) ∨ c ∈ m := by
  induction q generalizing m a with
  | nil => exact .inr h
  | cons v q ih =>
    rcases ih h with h | h
    · exact .inl (by simp; omega)
    · exact (Memory.mem_write h).imp_left (by intro e; simp; omega)

theorem Memory.ofCells_wf (size : Nat) (cells : List Host.Cell) : (Memory.ofCells size cells).wf = true := by
  unfold Memory.ofCells
  suffices h : ∀ m : Memory, m.wf = true →
      (cells.foldl (fun m c => if c.1 < size then Memory.write m c.1 c.2 else m) m).wf = true from h [] rfl
  induction cells with
  | nil => exact fun _ h => h
  | cons c cells ih => intro m h; exact ih _ (by dsimp only; split <;> [exact Memory.wf_write h _ _; exact h])

theorem Memory.ofCells_bound (size : Nat) (cells : List Host.Cell) : ∀ c ∈ Memory.ofCells size cells, c.1 < size := by
  unfold Memory.ofCells
  suffices h : ∀ m : Memory, (∀ c ∈ m, c.1 < size) →
      ∀ c ∈ cells.foldl (fun m c => if c.1 < size then Memory.write m c.1 c.2 else m) m, c.1 < size from
    h [] (by simp)
  induction cells with
  | nil => exact fun _ h => h
  | cons d cells ih =>
    intro m h
    refine ih _ ?_
    dsimp only
    split
    · intro c hc
      rcases Memory.mem_write hc with e | hc
      · omega
      · exact h c hc
    · exact h

/-! ## DMEM of the state -/

theorem State.memRead_eq {s : State} {a : Nat} (h : a < s.dmemSize) : s.memRead a = some (s.peek a) := by
  simp [State.memRead, h]

theorem State.memRead_none {s : State} {a : Nat} (h : s.dmemSize ≤ a) : s.memRead a = none := by
  simp [State.memRead, Nat.not_lt.mpr h]

theorem State.memWrite_eq {s : State} {a : Nat} (h : a < s.dmemSize) (v : Byte) :
    s.memWrite a v = some { s with dmem := s.dmem.write a v } := by
  simp [State.memWrite, h]

/-- Everything a DMEM write can do. -/
theorem State.memWrite_cases {s s' : State} {a : Nat} {v : Byte} (h : s.memWrite a v = some s') :
    a < s.dmemSize ∧ s' = { s with dmem := s.dmem.write a v } := by
  unfold State.memWrite at h
  split at h
  · exact ⟨‹_›, by simpa using h.symm⟩
  · cases h

theorem State.readBytes_eq {s : State} {a k : Nat} (h : a + k ≤ s.dmemSize) :
    s.readBytes a k = some ((List.range k).map fun i => s.peek (a + i)) := by
  induction k generalizing a with
  | zero => rfl
  | succ k ih =>
    rw [State.readBytes, State.memRead_eq (by omega), ih (by omega)]
    simp [List.range_succ_eq_map, Function.comp_def, Nat.add_assoc, Nat.add_comm 1]

theorem State.writeBytes_eq (q : Seq) {s : State} {a : Nat} (h : a + q.length ≤ s.dmemSize) :
    s.writeBytes a q = some { s with dmem := placeBytes s.dmem a q } := by
  induction q generalizing s a with
  | nil => rfl
  | cons b q ih =>
    simp only [List.length_cons] at h
    rw [State.writeBytes, State.memWrite_eq (by omega)]
    exact ih (s := { s with dmem := s.dmem.write a b }) (by dsimp only; omega)

/-- Everything a write of a sequence can do. -/
theorem State.writeBytes_cases (q : Seq) {s s' : State} {a : Nat} (h : s.writeBytes a q = some s') :
    (q = [] ∨ a + q.length ≤ s.dmemSize) ∧ s' = { s with dmem := placeBytes s.dmem a q } := by
  induction q generalizing s a with
  | nil => simp only [State.writeBytes, Option.some.injEq] at h; exact ⟨.inl rfl, h.symm⟩
  | cons b q ih =>
    rw [State.writeBytes] at h
    split at h
    · cases h
    · rename_i s1 h1
      obtain ⟨ha, rfl⟩ := State.memWrite_cases h1
      obtain ⟨hq, rfl⟩ := ih h
      refine ⟨.inr ?_, rfl⟩
      rcases hq with rfl | hq <;> simp only [List.length_cons, List.length_nil] at * <;> omega

/-! ## Pixel cells -/

theorem Pixels.wfFrom_cons {lo k : Nat} {b : Byte} {m : Pixels} :
    Pixels.wfFrom lo ((k, b) :: m) = true ↔ lo ≤ k ∧ Pixels.wfFrom (k + 1) m = true := by
  simp [Pixels.wfFrom]

theorem Pixels.read_below {lo a : Nat} {m : Pixels} (w : Pixels.wfFrom lo m = true) (h : a < lo) : m.read a = none := by
  cases m with
  | nil => rfl
  | cons c m => obtain ⟨k, b⟩ := c; rw [Pixels.wfFrom_cons] at w; simp [Pixels.read, show a ≠ k by omega, show a < k by omega]

theorem Pixels.wfFrom_write {m : Pixels} {lo a : Nat} {v : Byte} (w : Pixels.wfFrom lo m = true) (h : lo ≤ a) :
    Pixels.wfFrom lo (m.write a v) = true := by
  induction m generalizing lo with
  | nil => simp [Pixels.write, Pixels.wfFrom, h]
  | cons c m ih =>
    obtain ⟨k, b⟩ := c
    have w' := Pixels.wfFrom_cons.mp w
    simp only [Pixels.write]
    split
    · exact Pixels.wfFrom_cons.mpr ⟨h, Pixels.wfFrom_cons.mpr ⟨by omega, w'.2⟩⟩
    · split
      · subst_vars; exact Pixels.wfFrom_cons.mpr w'
      · exact Pixels.wfFrom_cons.mpr ⟨w'.1, ih w'.2 (by omega)⟩

theorem Pixels.wf_write {m : Pixels} (w : m.wf = true) (a : Nat) (v : Byte) : (m.write a v).wf = true :=
  Pixels.wfFrom_write w (Nat.zero_le a)

/-- Read after write on pixel cells. No canonical form is needed but the one `Pixels.wf` states. -/
theorem Pixels.read_write {m : Pixels} (w : m.wf = true) (a b : Nat) (v : Byte) :
    (m.write a v).read b = if b = a then some v else m.read b := by
  suffices h : ∀ lo, Pixels.wfFrom lo m = true → (m.write a v).read b = if b = a then some v else m.read b from h 0 w
  clear w
  induction m with
  | nil => intro lo _; by_cases hb : b = a <;> simp [Pixels.write, Pixels.read, hb]
  | cons c m ih =>
    obtain ⟨k, d⟩ := c
    intro lo w
    have w' := Pixels.wfFrom_cons.mp w
    simp only [Pixels.write]
    split
    · simp only [Pixels.read]
      by_cases hb : b = a
      · simp [hb]
      · by_cases hba : b < a
        · simp [hb, hba, show b ≠ k by omega, show b < k by omega]
        · simp [hb, hba]
    · split
      · subst_vars
        simp only [Pixels.read]
        by_cases hb : b = k <;> simp [hb]
      · simp only [Pixels.read, ih _ w'.2]
        by_cases hb : b = k
        · simp [hb, show k ≠ a by omega]
        · by_cases hk : b < k
          · simp [hb, hk, show b ≠ a by omega]
          · simp [hb, hk]

end Sys2Proof.Machine
end

