-- ==== Sys2Proof/Laws/Result.lean ====
section
/-! SUPPORT. The laws of a micro-step's pieces: what each combinator does on each result, and one predicate, `Res.Sat`, that says
what holds after a piece whichever way it ends. -/

namespace Sys2Proof.Machine

variable {α β : Type}

/-! ## The combinators on each result -/

@[simp] theorem Res.bind_ok (a : α) (s : State) (k : α → State → Res β) : Res.bind (.ok a s) k = k a s := rfl

@[simp] theorem Res.bind_raised (e : Exc) (i j : Nat) (s : State) (k : α → State → Res β) :
    Res.bind (.raised e i j s) k = .raised e i j s := rfl

@[simp] theorem Res.bind_stop (f : Fault) (k : α → State → Res β) : Res.bind (.stop f) k = .stop f := rfl

@[simp] theorem Res.require_true (e : Exc) (i j : Nat) (s : State) (k : Res α) : Res.require true e i j s k = k := rfl

@[simp] theorem Res.require_false (e : Exc) (i j : Nat) (s : State) (k : Res α) :
    Res.require false e i j s k = .raised e i j s := rfl

@[simp] theorem Res.access_some (a : α) (k : α → Res β) : Res.access (some a) k = k a := rfl

@[simp] theorem Res.access_none (k : α → Res β) : Res.access none k = .stop .dmemHole := rfl

@[simp] theorem Res.outcome_ok (a : Unit) (s : State) : Res.outcome (.ok a s) = .next s := rfl

@[simp] theorem Res.outcome_raised (e : Exc) (i j : Nat) (s : State) :
    Res.outcome (.raised e i j s) = .next (s.raise e i j) := rfl

@[simp] theorem Res.outcome_stop (f : Fault) : Res.outcome (.stop f) = .fault f := rfl

/-- Everything a micro-step that answers a next state can have done. -/
theorem Res.outcome_next {r : Res Unit} {t : State} (h : Res.outcome r = .next t) :
    r = .ok () t ∨ ∃ e i j s, r = .raised e i j s ∧ t = s.raise e i j := by
  cases r with
  | ok a s => cases h; exact .inl rfl
  | raised e i j s => cases h; exact .inr ⟨e, i, j, s, rfl, rfl⟩
  | stop f => cases h

/-! ## What holds after a piece -/

/-- After the piece: `Q` of the value and state it goes on with, `R` of the fault it raises, `S` of the stop. -/
def Res.Sat (r : Res α) (Q : α → State → Prop) (R : Exc → Nat → Nat → State → Prop) (S : Fault → Prop) : Prop :=
  match r with
  | .ok a s => Q a s
  | .raised e i j s => R e i j s
  | .stop f => S f

@[simp] theorem Res.sat_ok (a : α) (s : State) (Q : α → State → Prop) (R : Exc → Nat → Nat → State → Prop)
    (S : Fault → Prop) : (Res.ok a s).Sat Q R S = Q a s := rfl

@[simp] theorem Res.sat_raised (e : Exc) (i j : Nat) (s : State) (Q : α → State → Prop)
    (R : Exc → Nat → Nat → State → Prop) (S : Fault → Prop) : (Res.raised e i j s : Res α).Sat Q R S = R e i j s := rfl

@[simp] theorem Res.sat_stop (f : Fault) (Q : α → State → Prop) (R : Exc → Nat → Nat → State → Prop)
    (S : Fault → Prop) : (Res.stop f : Res α).Sat Q R S = S f := rfl

theorem Res.Sat.mono {r : Res α} {Q Q' : α → State → Prop} {R R' : Exc → Nat → Nat → State → Prop} {S S' : Fault → Prop}
    (h : r.Sat Q R S) (hQ : ∀ a s, Q a s → Q' a s) (hR : ∀ e i j s, R e i j s → R' e i j s) (hS : ∀ f, S f → S' f) :
    r.Sat Q' R' S' := by
  cases r <;> [exact hQ _ _ h; exact hR _ _ _ _ h; exact hS _ h]

theorem Res.Sat.bind {r : Res α} {k : α → State → Res β} {Q : β → State → Prop} {R : Exc → Nat → Nat → State → Prop}
    {S : Fault → Prop} (h : r.Sat (fun a s => (k a s).Sat Q R S) R S) : (r.bind k).Sat Q R S := by
  cases r <;> exact h

theorem Res.sat_require {c : Bool} {e : Exc} {i j : Nat} {s : State} {k : Res α} {Q : α → State → Prop}
    {R : Exc → Nat → Nat → State → Prop} {S : Fault → Prop} :
    (Res.require c e i j s k).Sat Q R S ↔ (c = false → R e i j s) ∧ (c = true → k.Sat Q R S) := by
  cases c <;> simp

theorem Res.sat_access {o : Option α} {k : α → Res β} {Q : β → State → Prop}
    {R : Exc → Nat → Nat → State → Prop} {S : Fault → Prop} :
    (Res.access o k).Sat Q R S ↔ (o = none → S .dmemHole) ∧ (∀ a, o = some a → (k a).Sat Q R S) := by
  cases o <;> simp

/-- What holds of the next state of a micro-step. -/
theorem Res.Sat.next {r : Res Unit} {P : State → Prop} {S : Fault → Prop}
    (h : r.Sat (fun _ s => P s) (fun e i j s => P (s.raise e i j)) S) {t : State} (ht : r.outcome = .next t) : P t := by
  rcases Res.outcome_next ht with rfl | ⟨e, i, j, s, rfl, rfl⟩ <;> exact h

/-- A piece that cannot stop ends in a next state. -/
theorem Res.Sat.total {r : Res Unit} {Q : Unit → State → Prop} {R : Exc → Nat → Nat → State → Prop}
    (h : r.Sat Q R fun _ => False) : ∃ t, r.outcome = .next t := by
  cases r <;> [exact ⟨_, rfl⟩; exact ⟨_, rfl⟩; exact h.elim]

end Sys2Proof.Machine
end

