-- ==== Sys2Proof/Laws/Streams.lean ====
section
/-! SUPPORT. The laws of the bit stream: what `streamCode` reads, what `orCode` writes, and from them `consume` and `append`. -/

namespace Sys2Proof.Machine

/-! ## Bits -/

theorem State.streamBit_eq {s : State} {base p : Nat} (h : base + p / 8 < s.dmemSize) :
    s.streamBit base p = some (s.bitAt base p).toNat := by
  simp [State.streamBit, State.memRead_eq h, State.bitAt]

theorem testBit_bit_zero (b : Bool) (v : Nat) : (b.toNat + 2 * v).testBit 0 = b := by
  cases b <;> simp [Nat.testBit_zero, Nat.add_mod]

theorem testBit_bit_succ (b : Bool) (v i : Nat) : (b.toNat + 2 * v).testBit (i + 1) = v.testBit i := by
  rw [Nat.testBit_succ]
  cases b <;> simp [Nat.add_mul_div_left]

/-- What a code read from the stream is: its bit `i` is stream bit `p + i`, or 0 at or past the limit (R41, R77). -/
theorem State.streamCode_spec {s : State} {base limit : Nat} (h : ∀ p, p < limit → base + p / 8 < s.dmemSize)
    (w p : Nat) : ∃ v, s.streamCode base limit p w = some v ∧ v < 2 ^ w ∧
      ∀ i, i < w → v.testBit i = (decide (p + i < limit) && s.bitAt base (p + i)) := by
  induction w generalizing p with
  | zero => exact ⟨0, rfl, by simp, by simp⟩
  | succ w ih =>
    obtain ⟨v, hv, hlt, hbit⟩ := ih (p + 1)
    have hb : (if p < limit then s.streamBit base p else some 0) =
        some (decide (p < limit) && s.bitAt base p).toNat := by
      by_cases hp : p < limit
      · simp [hp, State.streamBit_eq (h p hp)]
      · simp [hp]
    refine ⟨(decide (p < limit) && s.bitAt base p).toNat + 2 * v, by rw [State.streamCode, hb, hv], ?_, ?_⟩
    · have := Bool.toNat_lt (decide (p < limit) && s.bitAt base p)
      rw [Nat.pow_succ]; omega
    · intro i hi
      cases i with
      | zero => rw [testBit_bit_zero]; rfl
      | succ i => rw [testBit_bit_succ, hbit i (by omega), show p + 1 + i = p + (i + 1) by omega]

/-- The byte that one OR of the writer leaves: only bit `p mod 8` can change. -/
theorem or_bit (b : Byte) (v p j : Nat) (hj : j < 8) :
    (b ||| byte ((v % 2) * 2 ^ (p % 8))).getLsbD j = (b.getLsbD j || (decide (j = p % 8) && v.testBit 0)) := by
  have hb : (byte ((v % 2) * 2 ^ (p % 8))).getLsbD j = (decide (j = p % 8) && v.testBit 0) := by
    simp only [byte, BitVec.getLsbD_ofNat, hj, decide_true, Bool.true_and, Nat.testBit_mul_two_pow]
    by_cases h : j = p % 8
    · subst h; simp [Nat.testBit_zero]
    · simp only [h, decide_false, Bool.false_and]
      by_cases hle : p % 8 ≤ j
      · have : j - p % 8 = (j - p % 8 - 1) + 1 := by omega
        rw [this, Nat.testBit_succ, Nat.div_eq_of_lt (Nat.mod_lt v (by decide))]; simp
      · simp [hle]
  rw [BitVec.getLsbD_or, hb]

/-- Everything `orCode` can do that answers a state. -/
theorem State.orCode_cases {s t : State} {base v p w : Nat} (h : s.orCode base v p w = some t) :
    ∃ m, t = { s with dmem := m } ∧ (s.dmem.wf = true → m.wf = true) ∧
      ∀ c ∈ m, c.1 < s.dmemSize ∨ c ∈ s.dmem := by
  induction w generalizing s v p with
  | zero =>
    simp only [State.orCode, Option.some.injEq] at h
    exact ⟨s.dmem, h.symm, id, fun c hc => .inr hc⟩
  | succ w ih =>
    rw [State.orCode] at h
    split at h
    · cases h
    · split at h
      · cases h
      · rename_i b _ s1 h1
        obtain ⟨ha, rfl⟩ := State.memWrite_cases h1
        obtain ⟨m, rfl, hw, hc⟩ := ih h
        refine ⟨m, rfl, fun w => hw (Memory.wf_write w _ _), fun c hm => ?_⟩
        rcases hc c hm with hlt | hm
        · exact .inl hlt
        · rcases Memory.mem_write hm with e | hm
          · exact .inl (by omega)
          · exact .inr hm

/-- What the writer's ORs leave: stream bit `r` of the region gains bit `r - p` of the value for `p ≤ r < p + w`, and no
other bit of DMEM changes (R83). -/
theorem State.orCode_spec {s : State} {base v p w : Nat} (hw : s.dmem.wf = true)
    (h : ∀ i, i < w → base + (p + i) / 8 < s.dmemSize) :
    ∃ m, s.orCode base v p w = some { s with dmem := m } ∧
      (∀ r, (m.read (base + r / 8)).getLsbD (r % 8) =
        (s.bitAt base r || (decide (p ≤ r) && decide (r < p + w) && v.testBit (r - p)))) ∧
      ∀ a, a < base → m.read a = s.peek a := by
  induction w generalizing s v p with
  | zero =>
    refine ⟨s.dmem, rfl, fun r => ?_, fun a _ => rfl⟩
    have : (decide (p ≤ r) && decide (r < p + 0)) = false := by simp
    rw [this]; simp [State.bitAt, State.peek]
  | succ w ih =>
    have h0 := h 0 (by omega)
    simp only [Nat.add_zero] at h0
    obtain ⟨m, hm, hbit, hlow⟩ := ih (s := { s with dmem := s.dmem.write (base + p / 8) (s.peek (base + p / 8) |||
      byte ((v % 2) * 2 ^ (p % 8))) }) (v := v / 2) (p := p + 1) (Memory.wf_write hw _ _) (by
        intro i hi; have := h (i + 1) (by omega); rwa [show p + 1 + i = p + (i + 1) by omega])
    refine ⟨m, ?_, fun r => ?_, fun a ha => ?_⟩
    · rw [State.orCode, State.memRead_eq h0]
      simp only [State.memWrite_eq h0]
      exact hm
    · rw [hbit r]
      have hr : State.bitAt { s with dmem := s.dmem.write (base + p / 8) (s.peek (base + p / 8) |||
          byte ((v % 2) * 2 ^ (p % 8))) } base r = (s.bitAt base r || (decide (r = p) && v.testBit 0)) := by
        simp only [State.bitAt, State.peek, Memory.read_write hw]
        by_cases hq : base + r / 8 = base + p / 8
        · rw [if_pos hq, or_bit _ _ _ _ (Nat.mod_lt _ (by decide)), hq]
          congr 2
          simp only [decide_eq_decide]; omega
        · rw [if_neg hq]
          have : r ≠ p := by rintro rfl; exact hq rfl
          simp [this]
      rw [hr]
      by_cases hrp : r = p
      · subst hrp; simp
      · by_cases hlt : p < r
        · obtain ⟨k, rfl⟩ : ∃ k, r = p + 1 + k := ⟨r - (p + 1), by omega⟩
          have e1 : p + 1 + k - p = k + 1 := by omega
          have e2 : p + 1 + k - (p + 1) = k := by omega
          rw [e1, e2, Nat.testBit_succ]
          have d1 : decide (p + 1 ≤ p + 1 + k) = true := by simp
          have d2 : decide (p ≤ p + 1 + k) = true := by simp; omega
          have d3 : decide (p + 1 + k < p + 1 + w) = decide (p + 1 + k < p + (w + 1)) := by
            simp only [decide_eq_decide]; omega
          rw [d1, d2, d3, decide_eq_false hrp]; simp
        · have d1 : decide (p + 1 ≤ r) = false := by simp; omega
          have d2 : decide (p ≤ r) = false := by simp; omega
          rw [d1, d2, decide_eq_false hrp]; simp
    · rw [hlow a ha, State.peek, Memory.read_write hw, if_neg (by omega)]; rfl

/-- Two bytes with the same bits are equal. -/
theorem byte_ext {a b : Byte} (h : ∀ j, j < 8 → a.getLsbD j = b.getLsbD j) : a = b :=
  BitVec.eq_of_getLsbD_eq fun i hi => h i hi

/-- The bytes the writer's ORs leave alone. -/
theorem State.orCode_keeps {s : State} {base v p w : Nat} (hw : s.dmem.wf = true)
    (h : ∀ i, i < w → base + (p + i) / 8 < s.dmemSize) {t : State} (ht : s.orCode base v p w = some t) (a : Nat)
    (ha : ¬(base + p / 8 ≤ a ∧ a < base + (p + w + 7) / 8)) : t.peek a = s.peek a := by
  obtain ⟨m, hm, hbit, hlow⟩ := State.orCode_spec (v := v) hw h
  rw [hm] at ht; cases ht
  by_cases hb : a < base
  · exact hlow a hb
  · refine byte_ext fun j hj => ?_
    have hr := hbit (8 * (a - base) + j)
    have e1 : (8 * (a - base) + j) / 8 = a - base := by omega
    have e2 : (8 * (a - base) + j) % 8 = j := by omega
    rw [e1, e2, show base + (a - base) = a by omega] at hr
    rw [State.peek_eq, hr]
    have : (decide (p ≤ 8 * (a - base) + j) && decide (8 * (a - base) + j < p + w)) = false := by
      simp; omega
    simp [this, State.bitAt, e1, e2, show base + (a - base) = a by omega]

/-! ## The reader and the writer -/

/-- `consume` where no fault arises: the code, and the cursor at its bound (R77). -/
theorem consume_ok {s : State} {w : Nat} (h1 : 1 ≤ w) (h2 : w ≤ Config.maxW)
    (h3 : ¬(8 * s.rd.len.toNat < s.rd.cur.toNat + w ∧ s.cfg.rdOverrun = true))
    (hr : s.InDmem s.rd.base.toNat s.rd.len.toNat) :
    ∃ v, consume w s = .ok v (s.setRdCur (min (s.rd.cur.toNat + w) (8 * s.rd.len.toNat))) ∧ v < 2 ^ w ∧
      ∀ i, i < w → v.testBit i =
        (decide (s.rd.cur.toNat + i < 8 * s.rd.len.toNat) && s.bitAt s.rd.base.toNat (s.rd.cur.toNat + i)) := by
  obtain ⟨v, hv, hlt, hbit⟩ := State.streamCode_spec (s := s) (base := s.rd.base.toNat) (limit := 8 * s.rd.len.toNat)
    (by intro p hp; unfold State.InDmem at hr; omega) w s.rd.cur.toNat
  refine ⟨v, ?_, hlt, hbit⟩
  have h3' : (!(decide (8 * s.rd.len.toNat < s.rd.cur.toNat + w) && s.cfg.rdOverrun)) = true := by
    cases hc : s.cfg.rdOverrun <;> simp_all
  simp only [consume, h1, h2, decide_true, Bool.and_self, Res.require_true, h3', hv, Res.access_some]

/-- Everything `consume` can do (R77). -/
theorem consume_sat (w : Nat) (s : State) :
    (consume w s).Sat
      (fun _ t => 1 ≤ w ∧ w ≤ Config.maxW ∧ t = s.setRdCur (min (s.rd.cur.toNat + w) (8 * s.rd.len.toNat)) ∧
        ¬(8 * s.rd.len.toNat < s.rd.cur.toNat + w ∧ s.cfg.rdOverrun = true))
      (fun e i j t => t = s ∧ i = s.rd.cur.toNat ∧ j = w ∧
        (e = .width ∧ ¬(1 ≤ w ∧ w ≤ Config.maxW) ∨
          e = .readOverrun ∧ 8 * s.rd.len.toNat < s.rd.cur.toNat + w ∧ s.cfg.rdOverrun = true))
      (fun f => f = .dmemHole ∧ ¬s.InDmem s.rd.base.toNat s.rd.len.toNat) := by
  by_cases h1 : 1 ≤ w ∧ w ≤ Config.maxW
  · have hw : (decide (1 ≤ w) && decide (w ≤ Config.maxW)) = true := by simp [h1.1, h1.2]
    by_cases h3 : 8 * s.rd.len.toNat < s.rd.cur.toNat + w ∧ s.cfg.rdOverrun = true
    · have e : consume w s = .raised .readOverrun s.rd.cur.toNat w s := by
        simp only [consume, hw, Res.require_true, h3.1, h3.2, decide_true, Bool.and_self, Bool.not_true, Res.require_false]
      rw [e]; exact ⟨rfl, rfl, rfl, .inr ⟨rfl, h3⟩⟩
    · by_cases hr : s.InDmem s.rd.base.toNat s.rd.len.toNat
      · obtain ⟨v, hv, -⟩ := consume_ok h1.1 h1.2 h3 hr
        rw [hv]; exact ⟨h1.1, h1.2, rfl, h3⟩
      · have h3' : (!(decide (8 * s.rd.len.toNat < s.rd.cur.toNat + w) && s.cfg.rdOverrun)) = true := by
          cases hc : s.cfg.rdOverrun <;> simp_all
        unfold consume
        rw [hw, Res.require_true, h3', Res.require_true, Res.sat_access]
        exact ⟨fun _ => ⟨rfl, hr⟩, fun _ _ => ⟨h1.1, h1.2, rfl, h3⟩⟩
  · have hw : (decide (1 ≤ w) && decide (w ≤ Config.maxW)) = false := by
      simp only [Bool.and_eq_false_iff, decide_eq_false_iff_not]; omega
    unfold consume
    rw [hw, Res.require_false]
    exact ⟨rfl, rfl, rfl, .inl ⟨rfl, h1⟩⟩

theorem Writer.canAppend_iff (wr : Writer) (w : Nat) :
    wr.canAppend w = true ↔ w ≤ Config.maxW ∧ wr.cur.toNat + w < 8 * wr.len.toNat := by
  simp [Writer.canAppend]

/-- Everything `append` can do (R83). -/
theorem append_sat (v w : Nat) (s : State) :
    (append v w s).Sat
      (fun _ t => 1 ≤ w ∧ w ≤ Config.maxW ∧ s.wr.cur.toNat + w < 8 * s.wr.len.toNat ∧
        ∃ t', s.orCode s.wr.base.toNat v s.wr.cur.toNat w = some t' ∧ t = t'.setWrCur (s.wr.cur.toNat + w))
      (fun e i j t => t = s ∧ i = s.wr.cur.toNat ∧ j = w ∧
        (e = .width ∧ ¬(1 ≤ w ∧ w ≤ Config.maxW) ∨ e = .capacity ∧ 8 * s.wr.len.toNat ≤ s.wr.cur.toNat + w))
      (fun f => f = .dmemHole ∧ s.orCode s.wr.base.toNat v s.wr.cur.toNat w = none ∧ w ≤ Config.maxW ∧
        s.wr.cur.toNat + w < 8 * s.wr.len.toNat) := by
  by_cases h1 : 1 ≤ w ∧ w ≤ Config.maxW
  · have hw : (decide (1 ≤ w) && decide (w ≤ Config.maxW)) = true := by simp [h1.1, h1.2]
    unfold append
    by_cases h2 : s.wr.cur.toNat + w < 8 * s.wr.len.toNat
    · rw [hw, Res.require_true, (Writer.canAppend_iff _ _).mpr ⟨h1.2, h2⟩, Res.require_true, Res.sat_access]
      exact ⟨fun h => ⟨rfl, h, h1.2, h2⟩, fun t' ht => ⟨h1.1, h1.2, h2, t', ht, rfl⟩⟩
    · have hc : s.wr.canAppend w = false := by
        rw [Bool.eq_false_iff, Ne, Writer.canAppend_iff]; exact fun h => h2 h.2
      rw [hw, Res.require_true, hc, Res.require_false]
      exact ⟨rfl, rfl, rfl, .inr ⟨rfl, Nat.not_lt.mp h2⟩⟩
  · have hw : (decide (1 ≤ w) && decide (w ≤ Config.maxW)) = false := by
      simp only [Bool.and_eq_false_iff, decide_eq_false_iff_not]; omega
    unfold append
    rw [hw, Res.require_false]
    exact ⟨rfl, rfl, rfl, .inl ⟨rfl, h1⟩⟩

end Sys2Proof.Machine
end

