-- ==== Sys2Proof/Laws/Dictionary.lean ====
section
/-! SUPPORT. The laws of the dictionary unit: bit lengths and the width law, `find`, the invariant under initialisation, clear and
append; and of the decoder's output `emit`. -/

namespace Sys2Proof.Machine

/-! ## Values in 32-bit registers -/

theorem word_toNat {v : Nat} (h : v < 2 ^ 32) : (word v).toNat = v := by
  rw [word, BitVec.toNat_ofNat, Nat.mod_eq_of_lt h]

/-! ## Bit lengths (R10) -/

theorem bitlen_le_iff {c k : Nat} : bitlen c ≤ k ↔ c < 2 ^ k := by
  unfold bitlen
  split
  · subst_vars; simp
  · rename_i h
    rw [Nat.add_one_le_iff, Nat.log2_lt h]

theorem lt_bitlen_iff {c k : Nat} : k < bitlen c ↔ 2 ^ k ≤ c := by
  rw [← Nat.not_le, bitlen_le_iff, Nat.not_lt]

theorem bitlen_mono {a b : Nat} (h : a ≤ b) : bitlen a ≤ bitlen b :=
  bitlen_le_iff.mpr (Nat.lt_of_le_of_lt h (bitlen_le_iff.mp (Nat.le_refl _)))

/-- A count of `2^n` or more, below `2^(n+1)`, has `n + 1` bits. -/
theorem bitlen_eq {c n : Nat} (h1 : 2 ^ n ≤ c) (h2 : c < 2 ^ (n + 1)) : bitlen c = n + 1 :=
  Nat.le_antisymm (bitlen_le_iff.mpr h2) (lt_bitlen_iff.mpr h1)

/-- Counting on by one lengthens a count exactly at a power of two (R90). -/
theorem bitlen_succ (c : Nat) : bitlen (c + 1) = if 2 ^ bitlen c ≤ c + 1 then bitlen c + 1 else bitlen c := by
  have h0 : c < 2 ^ bitlen c := bitlen_le_iff.mp (Nat.le_refl _)
  split
  · rename_i h
    have : c + 1 = 2 ^ bitlen c := by omega
    exact bitlen_eq h (by rw [Nat.pow_succ]; omega)
  · rename_i h
    exact Nat.le_antisymm (bitlen_le_iff.mpr (by omega)) (bitlen_mono (by omega))

/-! ## The lookup by sequence (R113) -/

theorem findFrom_some {q : Seq} {l : List Seq} {k c : Nat} (h : findFrom q k l = some c) :
    k ≤ c ∧ l[c - k]? = some q ∧ ∀ j, j < c - k → l[j]? ≠ some q := by
  induction l generalizing k with
  | nil => cases h
  | cons p l ih =>
    rw [findFrom] at h
    split at h
    · cases h; subst_vars; simp
    · obtain ⟨h1, h2, h3⟩ := ih h
      have e : c - k = (c - (k + 1)) + 1 := by omega
      refine ⟨by omega, by rw [e]; simpa using h2, fun j hj => ?_⟩
      cases j with
      | zero => simpa using ‹¬p = q›
      | succ j => simpa using h3 j (by omega)

theorem findFrom_none {q : Seq} {l : List Seq} {k : Nat} : findFrom q k l = none ↔ q ∉ l := by
  induction l generalizing k with
  | nil => simp [findFrom]
  | cons p l ih =>
    rw [findFrom]
    split
    · subst_vars; simp
    · rw [ih]; simp [Ne.symm ‹¬p = q›]

/-- `find` gives the least code that holds the sequence (R113). -/
theorem Dict.find_some {d : Dict} {q : Seq} {c : Nat} (h : d.find q = some c) :
    d.lookup c = some q ∧ ∀ j, j < c → d.lookup j ≠ some q := by
  obtain ⟨-, h2, h3⟩ := findFrom_some h
  exact ⟨by simpa [Dict.lookup] using h2, by simpa [Dict.lookup] using h3⟩

theorem Dict.find_none {d : Dict} {q : Seq} : d.find q = none ↔ q ∉ d.slots := findFrom_none

theorem Dict.find_isSome {d : Dict} {q : Seq} : (∃ c, d.find q = some c) ↔ q ∈ d.slots := by
  rw [← Option.isSome_iff_exists, ← Option.ne_none_iff_isSome, Ne, Dict.find_none, Classical.not_not]

theorem Dict.lookup_lt {d : Dict} {c : Nat} {q : Seq} (h : d.lookup c = some q) : c < d.count :=
  (List.getElem?_eq_some_iff.mp h).1

theorem Dict.lookup_mem {d : Dict} {c : Nat} {q : Seq} (h : d.lookup c = some q) : q ∈ d.slots :=
  List.mem_of_getElem? h

theorem Dict.lookup_none {d : Dict} {c : Nat} : d.lookup c = none ↔ d.count ≤ c := List.getElem?_eq_none_iff

/-! ## Initialisation and clear (R88) -/

theorem initialSlots_length (n : Nat) : (initialSlots n).length = 2 ^ n + 2 := by simp [initialSlots]

theorem initialSlots_literal {n c : Nat} (h : c < 2 ^ n) : (initialSlots n)[c]? = some [byte c] := by
  rw [initialSlots, List.getElem?_append_left (by simpa using h)]; simp [h]

theorem initialSlots_clear (n : Nat) : (initialSlots n)[2 ^ n]? = some [] := by
  rw [initialSlots, List.getElem?_append_right (by simp)]; simp

theorem initialSlots_eoi (n : Nat) : (initialSlots n)[2 ^ n + 1]? = some [] := by
  rw [initialSlots, List.getElem?_append_right (by simp)]; simp

/-- The initial table of a legal symbol width keeps the dictionary's invariant. -/
theorem Dict.inv_initial {n : Nat} (h1 : 2 ≤ n) (h2 : n ≤ 11) (v : Bool) :
    Dict.Inv ⟨word n, word (n + 1), initialSlots n, v⟩ := by
  have hn : (word n).toNat = n := word_toNat (by omega)
  have hp : 2 ^ n ≤ 2 ^ 11 := Nat.pow_le_pow_right (by omega) h2
  have h4 : 2 ^ 2 ≤ 2 ^ n := Nat.pow_le_pow_right (by omega) h1
  constructor
  · simpa [hn] using h1
  · simpa [hn] using h2
  · intro c hc; rw [hn] at hc; exact initialSlots_literal hc
  · rw [hn]; exact initialSlots_clear n
  · rw [hn]; exact initialSlots_eoi n
  · simp only [hn, Dict.count, initialSlots_length]; omega
  · simp only [Dict.count, initialSlots_length, Config.dictMax]; omega
  · have : bitlen (2 ^ n + 2) = n + 1 := bitlen_eq (by omega) (by rw [Nat.pow_succ]; omega)
    simp only [hn, Dict.count, initialSlots_length, this, Nat.max_self]
    exact word_toNat (by omega)

theorem Dict.Inv.clear_tbl {d : Dict} (h : d.Inv) :
    Dict.Inv { d with slots := initialSlots d.n.toNat, width := word (d.n.toNat + 1) } := by
  have := Dict.inv_initial h.nMin h.nMax d.valid
  have hn : word d.n.toNat = d.n := by simp [word]
  rw [hn] at this
  exact this

/-- Everything `tblInit` can do (R88). -/
theorem tableInit_sat (n : Nat) (s : State) :
    (tableInit n s).Sat
      (fun _ t => 2 ≤ n ∧ n ≤ 11 ∧ t = { s with tbl := ⟨word n, word (n + 1), initialSlots n, true⟩ })
      (fun e i j t => ¬(2 ≤ n ∧ n ≤ 11) ∧ e = .symbolWidth ∧ i = 0 ∧ j = n ∧ t = s)
      (fun _ => False) := by
  unfold tableInit
  rw [Res.sat_require]
  refine ⟨fun h => ?_, fun h => ?_⟩
  · refine ⟨?_, rfl, rfl, rfl, rfl⟩
    rintro ⟨h1, h2⟩
    have h1' : Config.nMin ≤ n := h1
    have h2' : n ≤ Config.nMax := h2
    simp [h1', h2'] at h
  · have h := (Bool.and_eq_true_iff.mp h).imp of_decide_eq_true of_decide_eq_true
    refine ⟨h.1, h.2, ?_⟩
    have h2 : n ≤ 11 := h.2
    have hn : (word n).toNat = n := word_toNat (by omega)
    simp [State.tblClear, hn]

theorem tableInit_ok {n : Nat} (h1 : 2 ≤ n) (h2 : n ≤ 11) (s : State) :
    tableInit n s = .ok () { s with tbl := ⟨word n, word (n + 1), initialSlots n, true⟩ } := by
  have h := tableInit_sat n s
  generalize tableInit n s = r at h
  cases r with
  | ok a t => obtain ⟨-, -, rfl⟩ := h; rfl
  | raised e i j t => exact absurd ⟨h1, h2⟩ h.1
  | stop f => exact h.elim

/-! ## Append, and the growth control (R89, R90) -/

theorem Dict.push_count (d : Dict) (q : Seq) : (d.push q).count = d.count + 1 := by simp [Dict.push, Dict.count]

theorem Dict.push_lookup {d : Dict} {q : Seq} {c : Nat} (h : c < d.count) : (d.push q).lookup c = d.lookup c := by
  simp only [Dict.push, Dict.lookup]
  exact List.getElem?_append_left h

theorem Dict.push_lookup_last (d : Dict) (q : Seq) : (d.push q).lookup d.count = some q := by
  simp [Dict.push, Dict.lookup, Dict.count]

/-- An append keeps the dictionary's invariant, the width law of R90 included. -/
theorem Dict.Inv.push {d : Dict} (h : d.Inv) (hc : d.count < Config.dictMax) (q : Seq) : (d.push q).Inv := by
  have hmin := h.countMin
  have hcm : d.count ≤ 4096 := by have : d.count < 4097 := hc; omega
  have hwl : bitlen d.count ≤ 13 := bitlen_le_iff.mpr (by omega)
  have hw : d.width.toNat = bitlen d.count := by
    rw [h.width]
    refine Nat.max_eq_right (lt_bitlen_iff.mpr ?_)
    omega
  have hge : d.n.toNat + 1 ≤ bitlen (d.count + 1) := lt_bitlen_iff.mpr (by omega)
  constructor
  · exact h.nMin
  · exact h.nMax
  · intro c hlt
    rw [Dict.push_lookup (by have : c < 2 ^ d.n.toNat := hlt; omega)]; exact h.literals c hlt
  · rw [Dict.push_lookup]
    · exact h.clear
    · show 2 ^ d.n.toNat < d.count; omega
  · rw [Dict.push_lookup]
    · exact h.eoi
    · show 2 ^ d.n.toNat + 1 < d.count; omega
  · rw [Dict.push_count]; have : (d.push q).n = d.n := rfl; rw [this]; omega
  · rw [Dict.push_count]; exact hc
  · rw [Dict.push_count]
    have hn : (d.push q).n = d.n := rfl
    have hpw : (d.push q).width = grownWidth (d.count + 1) d.width := rfl
    rw [hn, hpw, Nat.max_eq_right hge, bitlen_succ, grownWidth, hw]
    split
    · rw [word_toNat (by omega)]
    · exact hw

/-- Everything `tblAppend` can do (R89). -/
theorem tableAppend_sat (q : Seq) (s : State) :
    (tableAppend q s).Sat
      (fun c t => s.tbl.count < Config.dictMax ∧ c = s.tbl.count ∧ t = { s with tbl := s.tbl.push q })
      (fun e i j t => Config.dictMax ≤ s.tbl.count ∧ e = .dictFull ∧ i = s.tbl.count ∧ j = q.length ∧ t = s)
      (fun _ => False) := by
  unfold tableAppend
  rw [Res.sat_require]
  exact ⟨fun h => ⟨by simpa using h, rfl, rfl, rfl, rfl⟩, fun h => ⟨by simpa using h, rfl, rfl⟩⟩

/-- While the width law holds, a table read at a width of 12 or less is far from full (R109). -/
theorem Dict.Inv.count_lt {d : Dict} (h : d.Inv) {w : Nat} (hw : d.width.toNat ≤ w) : d.count < 2 ^ w :=
  bitlen_le_iff.mp (Nat.le_trans (Nat.le_trans (Nat.le_max_right _ _) (Nat.le_of_eq h.width.symm)) hw)

theorem Dict.Inv.width_eq {d : Dict} (h : d.Inv) : d.width.toNat = bitlen d.count := by
  rw [h.width]
  exact Nat.max_eq_right (lt_bitlen_iff.mpr (by have := h.countMin; omega))

theorem Dict.Inv.width_min {d : Dict} (h : d.Inv) : 3 ≤ d.width.toNat := by
  rw [h.width]; have := h.nMin; omega

theorem Dict.Inv.width_max {d : Dict} (h : d.Inv) : d.width.toNat ≤ 13 := by
  rw [h.width_eq, bitlen_le_iff]; have h1 : d.count ≤ 4097 := h.countMax; omega

/-! ## The decoder's output (R99) -/

/-- Everything `emit` can do into DMEM, while the output region lies in DMEM: the bytes that fit are written in order, the others
are discarded. -/
theorem emit_dmem (q : Seq) {s : State} (hs : s.out.sink = .dmem) (hc : s.InDmem s.out.base.toNat s.out.cap.toNat)
    (hp : s.out.pos.toNat ≤ s.out.cap.toNat) :
    emit q s = .ok () { s with
      dmem := placeBytes s.dmem (s.out.base.toNat + s.out.pos.toNat) (q.take (s.out.cap.toNat - s.out.pos.toNat))
      out := { s.out with pos := word (min (s.out.pos.toNat + q.length) s.out.cap.toNat) } } := by
  have hcap := s.out.cap.isLt
  induction q generalizing s with
  | nil =>
    have : word (min (s.out.pos.toNat + ([] : Seq).length) s.out.cap.toNat) = s.out.pos := by
      simp [word, Nat.min_eq_left hp]
    rw [this, emit, List.take_nil, placeBytes]
  | cons b q ih =>
    rw [emit]
    by_cases hlt : s.out.pos.toNat < s.out.cap.toNat
    · have hin : s.out.base.toNat + s.out.pos.toNat < s.dmemSize := by unfold State.InDmem at hc; omega
      have hpos : (word (s.out.pos.toNat + 1)).toNat = s.out.pos.toNat + 1 := word_toNat (by omega)
      have hk : s.out.cap.toNat - s.out.pos.toNat = (s.out.cap.toNat - (s.out.pos.toNat + 1)) + 1 := by omega
      rw [if_pos hlt, State.sinkWrite, hs]
      simp only [State.memWrite_eq hin, Res.access_some]
      rw [ih (s := { s with
        dmem := s.dmem.write (s.out.base.toNat + s.out.pos.toNat) b
        out := { s.out with pos := word (s.out.pos.toNat + 1) } }) hs hc (by dsimp only; omega) hcap]
      simp only [hpos]
      rw [hk, List.take_succ_cons, placeBytes]
      simp only [List.length_cons, Nat.add_assoc, Nat.add_comm 1]
    · have h0 : s.out.cap.toNat - s.out.pos.toNat = 0 := by omega
      rw [if_neg hlt, ih hs hc hp hcap]
      simp only [h0, List.take_zero, placeBytes, List.length_cons]
      rw [Nat.min_eq_right (by omega), Nat.min_eq_right (by omega)]

/-- Write bytes to pixel cells from a cell on, as data. -/
def placePixels (m : Pixels) (a : Nat) : Seq → Pixels
  | [] => m
  | b :: t => placePixels (m.write a b) (a + 1) t

theorem placePixels_wf (q : Seq) {m : Pixels} (w : m.wf = true) (a : Nat) : (placePixels m a q).wf = true := by
  induction q generalizing m a with
  | nil => exact w
  | cons b q ih => exact ih (Pixels.wf_write w a b) (a + 1)

theorem placePixels_read (q : Seq) {m : Pixels} (w : m.wf = true) (a b : Nat) :
    (placePixels m a q).read b = if a ≤ b ∧ b < a + q.length then q[b - a]? else m.read b := by
  induction q generalizing m a with
  | nil => simp [placePixels]
  | cons v q ih =>
    rw [placePixels, ih (Pixels.wf_write w a v), Pixels.read_write w]
    by_cases h : a + 1 ≤ b
    · have e : b - a = (b - (a + 1)) + 1 := by omega
      by_cases h2 : b < a + 1 + q.length
      · simp [h, h2, show a ≤ b by omega, show b < a + (q.length + 1) by omega, e]
      · simp [h2, show ¬b < a + (q.length + 1) by omega, show b ≠ a by omega]
    · by_cases hb : b = a
      · subst hb; simp
      · simp [h, hb, show ¬a ≤ b by omega]

/-- Everything `emit` does into the pixels of the image being built. -/
theorem emit_pixels (q : Seq) {s : State} (hs : s.out.sink = .pixels) (hp : s.out.pos.toNat ≤ s.out.cap.toNat)
    (hf : s.par.img.filled = s.out.base.toNat + s.out.pos.toNat) :
    emit q s = .ok () { s with
      par := { s.par with img := { s.par.img with
        pixels := placePixels s.par.img.pixels s.par.img.filled (q.take (s.out.cap.toNat - s.out.pos.toNat))
        filled := s.out.base.toNat + min (s.out.pos.toNat + q.length) s.out.cap.toNat } }
      out := { s.out with pos := word (min (s.out.pos.toNat + q.length) s.out.cap.toNat) } } := by
  have hcap := s.out.cap.isLt
  induction q generalizing s with
  | nil =>
    have : word (min (s.out.pos.toNat + ([] : Seq).length) s.out.cap.toNat) = s.out.pos := by
      simp [word, Nat.min_eq_left hp]
    have h2 : s.out.base.toNat + min (s.out.pos.toNat + ([] : Seq).length) s.out.cap.toNat = s.par.img.filled := by
      simp [Nat.min_eq_left hp, hf]
    rw [h2, this, emit, List.take_nil, placePixels]
  | cons b q ih =>
    rw [emit]
    by_cases hlt : s.out.pos.toNat < s.out.cap.toNat
    · have hpos : (word (s.out.pos.toNat + 1)).toNat = s.out.pos.toNat + 1 := word_toNat (by omega)
      have hk : s.out.cap.toNat - s.out.pos.toNat = (s.out.cap.toNat - (s.out.pos.toNat + 1)) + 1 := by omega
      rw [if_pos hlt, State.sinkWrite, hs]
      simp only [Res.access_some]
      rw [ih (s := { s with
        par := { s.par with img := { s.par.img with
          pixels := s.par.img.pixels.write (s.out.base.toNat + s.out.pos.toNat) b
          filled := s.out.base.toNat + s.out.pos.toNat + 1 } }
        out := { s.out with pos := word (s.out.pos.toNat + 1) } }) hs (by dsimp only; omega)
        (by dsimp only; omega) hcap]
      simp only [hpos]
      rw [hk, List.take_succ_cons, placePixels, hf]
      simp only [List.length_cons, Nat.add_assoc, Nat.add_comm 1]
    · have h0 : s.out.cap.toNat - s.out.pos.toNat = 0 := by omega
      rw [if_neg hlt, ih hs hp hf hcap]
      simp only [h0, List.take_zero, placePixels, List.length_cons]
      rw [Nat.min_eq_right (by omega), Nat.min_eq_right (by omega)]

/-- What `emit` leaves alone, wherever it writes. -/
theorem emit_frame (q : Seq) (s : State) :
    (emit q s).Sat
      (fun _ t => ∃ m i p, t = { s with
        dmem := m, par := { s.par with img := i }, out := { s.out with pos := p } } ∧
        (s.dmem.wf = true → m.wf = true) ∧ (∀ c ∈ m, c.1 < s.dmemSize ∨ c ∈ s.dmem))
      (fun _ _ _ _ => False) (fun f => f = .dmemHole) := by
  induction q generalizing s with
  | nil => exact ⟨s.dmem, s.par.img, s.out.pos, rfl, id, fun c hc => .inr hc⟩
  | cons b q ih =>
    rw [emit]
    split
    · rw [Res.sat_access]
      refine ⟨fun _ => rfl, fun s' hs' => ?_⟩
      have h1 : ∃ m i, s' = { s with dmem := m, par := { s.par with img := i } } ∧
          (s.dmem.wf = true → m.wf = true) ∧ (∀ c ∈ m, c.1 < s.dmemSize ∨ c ∈ s.dmem) := by
        unfold State.sinkWrite at hs'
        split at hs'
        · obtain ⟨ha, rfl⟩ := State.memWrite_cases hs'
          refine ⟨_, s.par.img, rfl, fun w => Memory.wf_write w _ _, fun c hc => ?_⟩
          rcases Memory.mem_write hc with e | hc
          · exact .inl (by omega)
          · exact .inr hc
        · cases hs'; exact ⟨s.dmem, _, rfl, id, fun c hc => .inr hc⟩
      obtain ⟨m, i, rfl, hw, hc⟩ := h1
      refine (ih _).mono ?_ (fun _ _ _ _ h => h) (fun _ h => h)
      rintro _ t ⟨m', i', p', rfl, hw', hc'⟩
      refine ⟨m', i', p', rfl, fun w => hw' (hw w), fun c hc0 => ?_⟩
      rcases hc' c hc0 with h | h
      · exact .inl h
      · exact hc c h
    · exact ih s

end Sys2Proof.Machine
end

