-- ==== Sys2Proof/Laws/Relations.lean ====
section
/-! SUPPORT. The shared operations meet the relations the statements use: `codeAt`, `MeetsReader`, `Appends`, `Emits`,
`EmitsCode`, `Dict.First`, and the bytes of the parse region. -/

namespace Sys2Proof.Machine

theorem word_word (n : Nat) : word (word n).toNat = word n := by
  apply BitVec.eq_of_toNat_eq; simp [word]

theorem word_toNat_self (v : Word) : word v.toNat = v := by
  apply BitVec.eq_of_toNat_eq; simp [word]

/-! ## Codes of the stream -/

theorem State.codeAt_zero (s : State) (base limit p : Nat) : s.codeAt base limit p 0 = 0 := rfl

theorem State.codeAt_succ (s : State) (base limit p w : Nat) :
    s.codeAt base limit p (w + 1) =
      (decide (p < limit) && s.bitAt base p).toNat + 2 * s.codeAt base limit (p + 1) w := by
  unfold State.codeAt
  rw [List.range_succ_eq_map, List.map_cons, List.sum_cons, List.map_map]
  congr 1
  · by_cases h : p < limit <;> simp [h]
  · rw [← List.sum_map_mul_left]
    congr 1
    apply List.map_congr_left
    intro i _
    simp only [Function.comp, Nat.succ_eq_add_one, show p + (i + 1) = p + 1 + i by omega]
    split
    · rw [Nat.pow_succ]; ring
    · rfl

/-- What the reader reads is the sum of R41 and R77. -/
theorem State.streamCode_eq {s : State} {base limit : Nat} (h : ∀ p, p < limit → base + p / 8 < s.dmemSize)
    (w p : Nat) : s.streamCode base limit p w = some (s.codeAt base limit p w) := by
  induction w generalizing p with
  | zero => rfl
  | succ w ih =>
    have hb : (if p < limit then s.streamBit base p else some 0) =
        some (decide (p < limit) && s.bitAt base p).toNat := by
      by_cases hp : p < limit
      · simp [hp, State.streamBit_eq (h p hp)]
      · simp [hp]
    rw [State.streamCode, hb, ih, State.codeAt_succ]

theorem State.codeAt_lt (s : State) (base limit w p : Nat) : s.codeAt base limit p w < 2 ^ w := by
  induction w generalizing p with
  | zero => simp [State.codeAt_zero]
  | succ w ih =>
    rw [State.codeAt_succ, Nat.pow_succ]
    have := ih (p + 1)
    have := Bool.toNat_lt (decide (p < limit) && s.bitAt base p)
    omega

theorem State.codeAt_testBit (s : State) (base limit w p i : Nat) (hi : i < w) :
    (s.codeAt base limit p w).testBit i = (decide (p + i < limit) && s.bitAt base (p + i)) := by
  induction w generalizing p i with
  | zero => omega
  | succ w ih =>
    rw [State.codeAt_succ]
    cases i with
    | zero => rw [testBit_bit_zero]; rfl
    | succ i => rw [testBit_bit_succ, ih (p + 1) i (by omega), show p + 1 + i = p + (i + 1) by omega]

/-- `consume` where no fault arises (R77). -/
theorem consume_eq {s : State} {w : Nat} (h1 : 1 ≤ w) (h2 : w ≤ 12)
    (h3 : ¬(8 * s.rd.len.toNat < s.rd.cur.toNat + w ∧ s.cfg.rdOverrun = true))
    (hr : s.InDmem s.rd.base.toNat s.rd.len.toNat) :
    consume w s = .ok (s.nextCode w) (s.setRdCur (s.nextCur w)) := by
  have hw : (decide (1 ≤ w) && decide (w ≤ Config.maxW)) = true := by
    simp only [Bool.and_eq_true, decide_eq_true_eq]; exact ⟨h1, h2⟩
  have h3' : (!(decide (8 * s.rd.len.toNat < s.rd.cur.toNat + w) && s.cfg.rdOverrun)) = true := by
    cases hc : s.cfg.rdOverrun <;> simp_all
  unfold consume
  rw [hw, Res.require_true, h3', Res.require_true, State.streamCode_eq (by intro p hp; unfold State.InDmem at hr; omega)]
  rfl

theorem consume_width {s : State} {w : Nat} (h : w < 1 ∨ 12 < w) :
    consume w s = .raised .width s.rd.cur.toNat w s := by
  have hw : (decide (1 ≤ w) && decide (w ≤ Config.maxW)) = false := by
    have : ¬(1 ≤ w ∧ w ≤ Config.maxW) := by show ¬(1 ≤ w ∧ w ≤ 12); omega
    simp only [Bool.and_eq_false_iff, decide_eq_false_iff_not]; omega
  unfold consume
  rw [hw]; rfl

theorem consume_overrun {s : State} {w : Nat} (h1 : 1 ≤ w) (h2 : w ≤ 12)
    (h3 : 8 * s.rd.len.toNat < s.rd.cur.toNat + w) (h4 : s.cfg.rdOverrun = true) :
    consume w s = .raised .readOverrun s.rd.cur.toNat w s := by
  have hw : (decide (1 ≤ w) && decide (w ≤ Config.maxW)) = true := by
    simp only [Bool.and_eq_true, decide_eq_true_eq]; exact ⟨h1, h2⟩
  unfold consume
  rw [hw]
  simp [h3, h4]

/-! ## Regions -/

theorem overlap_iff (b1 l1 b2 l2 : Word) :
    overlap b1 l1 b2 l2 = true ↔ Meets b1.toNat l1.toNat b2.toNat l2.toNat := by
  simp [overlap, Meets, and_assoc]

theorem State.hitsReader_iff (s : State) (b l : Word) : s.hitsReader b l = true ↔ s.MeetsReader b.toNat l.toNat := by
  simp [State.hitsReader, State.MeetsReader, overlap_iff]

theorem State.hitsReader_false (s : State) (b l : Word) : s.hitsReader b l = false ↔ ¬s.MeetsReader b.toNat l.toNat := by
  rw [← State.hitsReader_iff]; simp

/-! ## The writer -/

/-- `append` where no fault arises (R83). -/
theorem append_eq {s : State} {v w : Nat} (h1 : 1 ≤ w) (h2 : w ≤ 12) (h3 : s.wr.cur.toNat + w < 8 * s.wr.len.toNat)
    (hr : s.InDmem s.wr.base.toNat s.wr.len.toNat) (hm : s.dmem.wf = true) :
    ∃ u, Appends v w s u ∧ append v w s = .ok () u ∧ u.dmem.wf = true := by
  have hin : ∀ i, i < w → s.wr.base.toNat + (s.wr.cur.toNat + i) / 8 < s.dmemSize := by
    intro i hi; unfold State.InDmem at hr; omega
  obtain ⟨m, hm', hbit, hlow⟩ := State.orCode_spec (v := v) hm hin
  obtain ⟨m', e, hwf, -⟩ := State.orCode_cases hm'
  have hmm : m = m' := congrArg State.dmem e
  subst hmm
  have hA : Appends v w s (({ s with dmem := m } : State).setWrCur (s.wr.cur.toNat + w)) :=
    ⟨rfl, hbit, fun a ha => State.orCode_keeps hm hin hm' a (by omega)⟩
  refine ⟨_, hA, ?_, hwf hm⟩
  · have hw : (decide (1 ≤ w) && decide (w ≤ Config.maxW)) = true := by
      simp only [Bool.and_eq_true, decide_eq_true_eq]; exact ⟨h1, h2⟩
    unfold append
    rw [hw, Res.require_true, (Writer.canAppend_iff _ _).mpr ⟨h2, h3⟩, Res.require_true, hm', Res.access_some]

theorem append_width {s : State} {v w : Nat} (h : w < 1 ∨ 12 < w) :
    append v w s = .raised .width s.wr.cur.toNat w s := by
  have hw : (decide (1 ≤ w) && decide (w ≤ Config.maxW)) = false := by
    have : ¬(1 ≤ w ∧ w ≤ Config.maxW) := by show ¬(1 ≤ w ∧ w ≤ 12); omega
    simp only [Bool.and_eq_false_iff, decide_eq_false_iff_not]; omega
  unfold append
  rw [hw]; rfl

theorem append_capacity {s : State} {v w : Nat} (h1 : 1 ≤ w) (h2 : w ≤ 12)
    (h3 : 8 * s.wr.len.toNat ≤ s.wr.cur.toNat + w) : append v w s = .raised .capacity s.wr.cur.toNat w s := by
  have hw : (decide (1 ≤ w) && decide (w ≤ Config.maxW)) = true := by
    simp only [Bool.and_eq_true, decide_eq_true_eq]; exact ⟨h1, h2⟩
  have hc : s.wr.canAppend w = false := by
    rw [Bool.eq_false_iff, Ne, Writer.canAppend_iff]; omega
  unfold append
  rw [hw, Res.require_true, hc]; rfl

/-! ## The output -/

/-- `emit` into DMEM meets `Emits` (R99). -/
theorem emit_dmem_emits (q : Seq) {s : State} (hs : s.out.sink = .dmem) (hc : s.InDmem s.out.base.toNat s.out.cap.toNat)
    (hp : s.out.pos.toNat ≤ s.out.cap.toNat) (hm : s.dmem.wf = true) :
    ∃ v, Emits q s v ∧ emit q s = .ok () v ∧ v.dmem.wf = true := by
  refine ⟨_, ?_, emit_dmem q hs hc hp, placeBytes_wf _ hm _⟩
  refine ⟨?_, fun _ => ⟨rfl, fun a => ?_⟩, fun h => ?_⟩
  · simp only
    congr 3
    omega
  · show (placeBytes _ _ _).read a = _
    rw [placeBytes_read _ hm]
    by_cases h1 : s.out.base.toNat + s.out.pos.toNat ≤ a
    · rw [if_pos h1, List.getElem?_take]
      by_cases h2 : a < s.out.base.toNat + s.out.pos.toNat + min q.length (s.out.cap.toNat - s.out.pos.toNat)
      · rw [if_pos (by omega), if_pos ⟨h1, h2⟩, List.getD_eq_getElem?_getD, List.getElem?_eq_getElem (by omega)]
        rfl
      · rw [if_neg (show ¬(_ ∧ _) by omega)]
        by_cases h3 : a - (s.out.base.toNat + s.out.pos.toNat) < s.out.cap.toNat - s.out.pos.toNat
        · rw [if_pos h3, List.getElem?_eq_none (by omega)]; rfl
        · rw [if_neg h3]; rfl
    · rw [if_neg h1, if_neg (by omega)]; rfl
  · rw [hs] at h; cases h

/-- `emit` into the pixels meets `Emits` (R99). -/
theorem emit_pixels_emits (q : Seq) {s : State} (hs : s.out.sink = .pixels) (hp : s.out.pos.toNat ≤ s.out.cap.toNat)
    (hf : s.par.img.filled = s.out.base.toNat + s.out.pos.toNat) (hm : s.par.img.pixels.wf = true) :
    ∃ v, Emits q s v ∧ emit q s = .ok () v ∧ v.dmem = s.dmem := by
  refine ⟨_, ?_, emit_pixels q hs hp hf, rfl⟩
  refine ⟨?_, fun h => ?_, fun _ => ⟨rfl, ?_, fun a => ?_⟩⟩
  · simp only
    congr 3
    omega
  · rw [hs] at h; cases h
  · show s.out.base.toNat + min _ _ = _
    omega
  · show (placePixels _ _ _).read a = _
    rw [placePixels_read _ hm, hf]
    by_cases h1 : s.out.base.toNat + s.out.pos.toNat ≤ a
    · by_cases h2 : a < s.out.base.toNat + s.out.pos.toNat + min q.length (s.out.cap.toNat - s.out.pos.toNat)
      · rw [if_pos ⟨h1, by rw [List.length_take]; omega⟩, if_pos ⟨h1, h2⟩, List.getElem?_take, if_pos (by omega)]
      · rw [if_neg (by rw [List.length_take]; omega), if_neg (by omega)]
    · rw [if_neg (by omega), if_neg (by omega)]

/-! ## The parse region -/

theorem State.parseByte_eq {s : State} (hr : s.InDmem s.par.base s.par.len) {i : Nat} (h : i < s.par.len) :
    s.parseByte i = some (s.byteAt i) := by
  unfold State.parseByte
  rw [State.memRead_eq (by unfold State.InDmem at hr; omega)]; rfl

theorem State.readParse_eq {s : State} (hr : s.InDmem s.par.base s.par.len) {i k : Nat} (h : i + k ≤ s.par.len) :
    s.readBytes (s.par.base + i) k = some (s.bytesAt i (i + k)) := by
  rw [State.readBytes_eq (by unfold State.InDmem at hr; omega), State.bytesAt, Nat.add_sub_cancel_left]
  simp only [State.byteAt, Nat.add_assoc]

theorem State.parseStream_eq {s : State} (hr : s.InDmem s.par.base s.par.len) (h : s.par.pos.toNat ≤ s.par.len) :
    s.parseStream = some (s.bytesAt s.par.pos.toNat s.par.len) := by
  rw [State.parseStream, State.readParse_eq hr (by omega), show s.par.pos.toNat + (s.par.len - s.par.pos.toNat) = s.par.len by omega]

theorem State.bytesAt_length (s : State) (i j : Nat) : (s.bytesAt i j).length = j - i := by simp [State.bytesAt]

theorem State.bytesAt_cons {s : State} {i j : Nat} (h : i < j) : s.bytesAt i j = s.byteAt i :: s.bytesAt (i + 1) j := by
  unfold State.bytesAt
  rw [show j - i = (j - (i + 1)) + 1 by omega, List.range_succ_eq_map]
  simp [Function.comp_def, Nat.add_assoc, Nat.add_comm 1]

theorem State.bytesAt_nil {s : State} {i j : Nat} (h : j ≤ i) : s.bytesAt i j = [] := by
  unfold State.bytesAt; rw [show j - i = 0 by omega]; rfl

theorem State.bytesAt_append {s : State} {i j k : Nat} (h1 : i ≤ j) (h2 : j ≤ k) :
    s.bytesAt i k = s.bytesAt i j ++ s.bytesAt j k := by
  unfold State.bytesAt
  rw [show k - i = (j - i) + (k - j) by omega, List.range_add, List.map_append, List.map_map]
  congr 1
  apply List.map_congr_left
  intro x _
  simp only [Function.comp]
  congr 1; omega

theorem State.bytesAt_getElem? {s : State} {i j e : Nat} (h : e < j - i) : (s.bytesAt i j)[e]? = some (s.byteAt (i + e)) := by
  simp [State.bytesAt, h]

/-- The triples of a table's bytes are its entries (R65). -/
theorem rgbTriples_spec (s : State) (i k : Nat) : s.TableAt i k (rgbTriples (s.bytesAt i (i + 3 * k))) := by
  induction k generalizing i with
  | zero => rw [State.bytesAt_nil (by omega)]; exact ⟨rfl, by omega⟩
  | succ k ih =>
    have e : i + 3 * (k + 1) = i + 3 + 3 * k := by omega
    rw [State.bytesAt_cons (by omega), State.bytesAt_cons (by omega), State.bytesAt_cons (by omega), rgbTriples, e,
      show i + 1 + 1 + 1 = i + 3 by omega]
    obtain ⟨h1, h2⟩ := ih (i + 3)
    refine ⟨by simp [h1], fun n hn => ?_⟩
    cases n with
    | zero => rfl
    | succ n =>
      rw [List.getElem?_cons_succ, h2 n (by omega), show i + 3 * (n + 1) = i + 3 + 3 * n by omega]

/-! ## Scans for the 0x00 terminator -/

theorem splitAtZero_none {l : List Byte} : splitAtZero l = none ↔ 0#8 ∉ l := by
  induction l with
  | nil => simp [splitAtZero]
  | cons b l ih =>
    rw [splitAtZero]
    split
    · subst_vars; simp
    · rename_i hb
      cases h : splitAtZero l with
      | none => simpa [Ne.symm hb] using ih.mp h
      | some x =>
        simp only [reduceCtorEq, false_iff, List.mem_cons, Classical.not_not]
        by_contra hn
        exact absurd (ih.mpr fun hm => hn (.inr hm)) (by simp [h])

theorem splitAtZero_some {l text rest : List Byte} :
    splitAtZero l = some (text, rest) ↔ zeroFree text = true ∧ l = text ++ 0#8 :: rest := by
  induction l generalizing text with
  | nil => simp [splitAtZero]
  | cons b l ih =>
    rw [splitAtZero]
    split
    · rename_i hb
      subst hb
      simp only [Option.some.injEq, Prod.mk.injEq]
      constructor
      · rintro ⟨rfl, rfl⟩; exact ⟨rfl, rfl⟩
      · rintro ⟨hz, he⟩
        cases text with
        | nil => simp at he; exact ⟨rfl, he⟩
        | cons c text =>
          simp only [List.cons_append, List.cons.injEq] at he
          obtain ⟨rfl, -⟩ := he
          simp [zeroFree] at hz
    · rename_i hb
      have key : (splitAtZero l = none ∨ ∃ x, splitAtZero l = some x) := by
        cases splitAtZero l <;> simp
      constructor
      · intro h
        rcases key with hn | ⟨⟨t, r⟩, hs⟩
        · rw [hn] at h; cases h
        · rw [hs] at h
          simp only [Option.some.injEq, Prod.mk.injEq] at h
          obtain ⟨rfl, rfl⟩ := h
          obtain ⟨hz, rfl⟩ := ih.mp hs
          exact ⟨by simpa [zeroFree, hb] using hz, rfl⟩
      · rintro ⟨hz, he⟩
        cases text with
        | nil => simp at he; exact absurd he.1 hb
        | cons c text =>
          simp only [List.cons_append, List.cons.injEq] at he
          obtain ⟨rfl, rfl⟩ := he
          have hz' : zeroFree text = true := by
            simp only [zeroFree, List.all_cons, Bool.and_eq_true] at hz; exact hz.2
          rw [ih.mpr ⟨hz', rfl⟩]

end Sys2Proof.Machine
end

