-- ==== Sys2Proof/Laws/Encoding.lean ====
section
/-! SUPPORT. The laws of the encodings' pieces: byte pairs, short vectors, opcodes, and bytes placed in a parse region. -/

namespace Sys2Proof.Machine

/-! ## Byte pairs (R40) -/

theorem u16Of_lo_hi (v : U16) : u16Of (u16Lo v) (u16Hi v) = v := by
  unfold u16Of u16Lo u16Hi
  apply BitVec.eq_of_getLsbD_eq
  intro i hi
  simp only [BitVec.getLsbD_append, BitVec.getLsbD_extractLsb']
  by_cases h : i < 8
  · simp [h]
  · simp [h, show i - 8 < 8 by omega, show 8 + (i - 8) = i by omega]

theorem u16Lo_u16Of (a b : Byte) : u16Lo (u16Of a b) = a := by
  unfold u16Of u16Lo
  apply BitVec.eq_of_getLsbD_eq
  intro i hi
  rw [BitVec.getLsbD_extractLsb', Nat.zero_add, BitVec.getLsbD_append]
  simp [hi]

theorem u16Hi_u16Of (a b : Byte) : u16Hi (u16Of a b) = b := by
  unfold u16Of u16Hi
  apply BitVec.eq_of_getLsbD_eq
  intro i hi
  rw [BitVec.getLsbD_extractLsb', BitVec.getLsbD_append]
  simp [hi]

/-! ## Vectors as their elements -/

theorem vector3 (v : Vector Byte 3) : ∃ a b c, v = #v[a, b, c] := by
  obtain ⟨⟨l⟩, h⟩ := v
  match l, h with
  | [a, b, c], _ => exact ⟨a, b, c, rfl⟩

theorem vector8 (v : Vector Byte 8) : ∃ a b c d e f g h, v = #v[a, b, c, d, e, f, g, h] := by
  obtain ⟨⟨l⟩, h⟩ := v
  match l, h with
  | [a, b, c, d, e, f, g, h], _ => exact ⟨a, b, c, d, e, f, g, h, rfl⟩

theorem vector12 (v : Vector Byte 12) : ∃ a b c d e f g h i j k l, v = #v[a, b, c, d, e, f, g, h, i, j, k, l] := by
  obtain ⟨⟨l⟩, h⟩ := v
  match l, h with
  | [a, b, c, d, e, f, g, h, i, j, k, l], _ => exact ⟨a, b, c, d, e, f, g, h, i, j, k, l, rfl⟩

/-! ## Commands (R54) -/

/-- The opcode the engine decodes is the one latched in `CMD`. -/
theorem opcodeOf_commandWords (s : State) : opcodeOf s.commandWords.cmd = s.cmd := by
  apply BitVec.eq_of_toNat_eq
  have := s.cmd.isLt
  simp [State.commandWords, opcodeOf]
  omega

/-- Bits 31:8 of `CMD` do not count. -/
theorem decodeCommand_congr {c d : CommandWords} (h : opcodeOf c.cmd = opcodeOf d.cmd) (h0 : c.a0 = d.a0) (h1 : c.a1 = d.a1)
    (h2 : c.a2 = d.a2) (h3 : c.a3 = d.a3) : decodeCommand c = decodeCommand d := by
  unfold decodeCommand
  rw [h, h0, h1, h2, h3]

/-! ## Blocks -/

theorem decodeBlock_ext (bs : List Byte) : decodeBlock (0x21#8 :: bs) = decodeExtension bs := rfl

theorem decodeBlock_image (bs : List Byte) : decodeBlock (0x2C#8 :: bs) = decodeImage bs := rfl

theorem tableBytes_length (n w : Nat) : (tableBytes n w).length = 15 := by simp [tableBytes, longestZeroBlock]

/-- Bytes placed at offset `i` of the parse region are what the region holds there. -/
theorem bytesAt_placeBytes {m : Memory} (hm : m.wf = true) (s : State) (q : Seq) (i : Nat)
    (hs : s.dmem = placeBytes m (s.par.base + i) q) : s.bytesAt i (i + q.length) = q := by
  apply List.ext_getElem?
  intro k
  by_cases hk : k < q.length
  · rw [State.bytesAt_getElem? (by omega)]
    unfold State.byteAt
    rw [State.peek_eq, hs, placeBytes_read _ hm, if_pos (by omega)]
    rw [show s.par.base + (i + k) - (s.par.base + i) = k by omega]
    simp [hk]
  · rw [List.getElem?_eq_none (by rw [State.bytesAt_length]; omega), List.getElem?_eq_none (by omega)]

end Sys2Proof.Machine
end

