-- ==== Sys2Proof/Laws/Engine.lean ====
section
/-! SUPPORT. The laws of the engine's pieces: which micro-step is next, and each shared piece of the state machines where it goes on
and where it faults. -/

namespace Sys2Proof.Machine

/-! ## Which micro-step is next -/

theorem engineStep_idle {s : State} (h : s.status.busy = false) : engineStep s = .next s := by simp [engineStep, h]

theorem engineStep_first {s : State} {i : Instr} (hb : s.status.busy = true) (hf : s.status.fsm = .idle)
    (h : decodeCommand s.commandWords = .ok i) : engineStep s = exec i s := by
  simp only [engineStep, microStep, hb, hf, if_true]
  split <;> (unfold firstStep; rw [h])

theorem engineStep_decode {s : State} {p : Bool} {st : DecState} (h : s.runs (.decode p st)) :
    engineStep s = decodeStep p st s := by
  obtain ⟨⟨h1, h2⟩, h3⟩ := h
  simp only [engineStep, microStep, h1, h2, h3, if_true, if_false]

theorem engineStep_compress {s : State} {st : EncState} (h : s.runs (.compress st)) : engineStep s = encodeStep st s := by
  obtain ⟨⟨h1, h2⟩, h3⟩ := h
  simp only [engineStep, microStep, h1, h2, h3, if_true, if_false]

theorem engineStep_parse {s : State} {st : ParState} (h : s.runs (.parse st)) : engineStep s = parseStep st s := by
  obtain ⟨⟨h1, h2⟩, h3⟩ := h
  simp only [engineStep, microStep, h1, h2, h3, if_true, if_false]

/-- A finished command stays as it is, however long the engine is let run. -/
theorem engineRun_idle {s : State} (h : s.status.busy = false) (k : Nat) : engineRun k s = .next s := by
  induction k with
  | zero => rfl
  | succ k ih => simp only [engineRun, engineStep_idle h]; exact ih

/-! ## The host -/

/-- Everything the host's move can be. -/
theorem hostStep_cases {s t : State} (h : hostStep s = .next t) :
    t = s ∨ ∃ op rest, s.host.script = op :: rest ∧
      hostAct op { s with host := { s.host with script := rest } } = .next t := by
  unfold hostStep at h
  split at h
  · cases h; exact .inl rfl
  · rename_i op rest hs; exact .inr ⟨op, rest, hs, h⟩

/-- Everything a step can be: a move of the engine or of the host, whichever's it is, after the turn is taken. -/
theorem step_cases {s t : State} (h : step s = .next t) :
    s.mover = .engine ∧ engineStep s.turned = .next t ∨ s.mover = .host ∧ hostStep s.turned = .next t := by
  obtain ⟨_, _, _, _, _, _, _, _, _, _, _, _, _, _, _, _, _, _, script, turns, got⟩ := s
  cases turns with
  | nil =>
    simp only [step, nextMove] at h
    split at h
    · exact .inl ⟨if_pos ‹_›, h⟩
    · exact .inr ⟨if_neg ‹_›, h⟩
  | cons a rest => cases a; exacts [.inr ⟨rfl, h⟩, .inl ⟨rfl, h⟩]

/-! ## The dictionary -/

theorem tableInit_raised {n : Nat} (h : n < 2 ∨ 11 < n) (s : State) : tableInit n s = .raised .symbolWidth 0 n s := by
  have hs := tableInit_sat n s
  generalize tableInit n s = r at *
  cases r with
  | ok a t => obtain ⟨a, b, c⟩ := hs; omega
  | raised e i j t => obtain ⟨-, rfl, rfl, rfl, rfl⟩ := hs; rfl
  | stop f => exact hs.elim

theorem tableAppend_full {q : Seq} {s : State} (h : 4097 ≤ s.tbl.count) :
    tableAppend q s = .raised .dictFull s.tbl.count q.length s := by
  have hc : (decide (s.tbl.count < Config.dictMax)) = false := decide_eq_false (Nat.not_lt.mpr h)
  unfold tableAppend
  rw [hc]; rfl

theorem tableAppend_ok {q : Seq} {s : State} (h : s.tbl.count < 4097) :
    tableAppend q s = .ok s.tbl.count { s with tbl := s.tbl.push q } := by
  have hc : (decide (s.tbl.count < Config.dictMax)) = true := decide_eq_true h
  unfold tableAppend
  rw [hc]; rfl

/-! ## The decoder and the compressor -/

theorem readCode_width {s : State} (h : 12 < s.tbl.width.toNat) :
    readCode s = .raised .width s.rd.cur.toNat s.tbl.width.toNat s := by
  have hc : (decide (s.tbl.width.toNat ≤ Config.maxW)) = false := decide_eq_false (Nat.not_le.mpr h)
  unfold readCode
  simp only [hc, Res.require_false]

theorem readCode_consume {s : State} (h : s.tbl.width.toNat ≤ 12) : readCode s = consume s.tbl.width.toNat s := by
  have hc : (decide (s.tbl.width.toNat ≤ Config.maxW)) = true := decide_eq_true h
  unfold readCode
  simp only [hc, Res.require_true]

theorem emitCode_width {s : State} (h : 12 < s.encWidth) (c : Nat) :
    emitCode c s = .raised .width s.wr.cur.toNat s.encWidth s := by
  unfold emitCode
  rw [append_width (.inr h)]; rfl

theorem emitCode_capacity {s : State} (h : s.encWidth ≤ 12) (h2 : 8 * s.wr.len.toNat ≤ s.wr.cur.toNat + s.encWidth) (c : Nat) :
    emitCode c s = .raised .capacity s.wr.cur.toNat s.encWidth s := by
  unfold emitCode
  rw [append_capacity (by unfold State.encWidth; omega) h h2]; rfl

/-- A code that fits is appended and counted (R115). -/
theorem emitCode_fits {s : State} (hf : s.CodeFits) (hr : s.InDmem s.wr.base.toNat s.wr.len.toNat) (hm : s.dmem.wf = true)
    (c : Nat) : ∃ v, EmitsCode c s v ∧ emitCode c s = .ok () v ∧ v.dmem.wf = true := by
  have h1 : 1 ≤ s.encWidth := by unfold State.encWidth; omega
  obtain ⟨u, hu, e, hw⟩ := append_eq (v := c) h1 hf.1 hf.2 hr hm
  exact ⟨_, ⟨u, hu, rfl⟩, by simp only [emitCode, e, Res.bind_ok], hw⟩

/-! ## The parser -/

theorem needing_go {s : State} {k : Nat} {r : Res Unit} (h : s.par.pos.toNat + k ≤ s.par.len) : Res.needing k s r = r := by
  simp [Res.needing, State.need, h]

theorem needing_truncate {s : State} {k : Nat} {r : Res Unit} (h : s.par.len < s.par.pos.toNat + k) :
    Res.needing k s r = .ok () s.truncate := by
  have hn : s.need k = false := decide_eq_false (Nat.not_le.mpr h)
  simp [Res.needing, hn]

theorem readColors_eq {s : State} (hr : s.InDmem s.par.base s.par.len) {k : Nat} (h : s.par.pos.toNat + 3 * k ≤ s.par.len) :
    s.readColors k = some (rgbTriples (s.bytesAt s.par.pos.toNat (s.par.pos.toNat + 3 * k))) := by
  unfold State.readColors
  rw [State.readParse_eq hr h]

/-- The first 0x00 of the region splits the bytes before it from those after it (R131, R133). -/
theorem splitAtZero_zeroAt {s : State} {i z : Nat} (h : s.ZeroAt i z) :
    splitAtZero (s.bytesAt i s.par.len) = some (s.bytesAt i z, s.bytesAt (z + 1) s.par.len) := by
  obtain ⟨h1, h2, h3, h4⟩ := h
  rw [splitAtZero_some]
  refine ⟨?_, ?_⟩
  · simp only [zeroFree, List.all_eq_true, State.bytesAt, List.mem_map, List.mem_range]
    rintro _ ⟨k, hk, rfl⟩
    simpa using h4 (i + k) (by omega) (by omega)
  · rw [State.bytesAt_append (j := z) h1 (by omega), State.bytesAt_cons (i := z) (by omega), h3]

theorem splitAtZero_noZero {s : State} {i : Nat} (h : s.NoZeroFrom i) : splitAtZero (s.bytesAt i s.par.len) = none := by
  rw [splitAtZero_none]
  simp only [State.bytesAt, List.mem_map, List.mem_range]
  rintro ⟨k, hk, e⟩
  exact h (i + k) (by omega) (by omega) e

/-! ## The accessors -/

theorem findColor_first {c : Rgb} {t : ColorTable} {k i : Nat} (h : t[i]? = some c) (hm : ∀ j, j < i → t[j]? ≠ some c) :
    findColor c k t = some (k + i) := by
  induction t generalizing k i with
  | nil => simp at h
  | cons d t ih =>
    rw [findColor]
    cases i with
    | zero => simp at h; simp [h]
    | succ i =>
      have hd : d ≠ c := by simpa using hm 0 (by omega)
      rw [if_neg hd, ih (by simpa using h) (fun j hj => by simpa using hm (j + 1) (by omega))]
      congr 1; omega

theorem findColor_none {c : Rgb} {t : ColorTable} {k : Nat} (h : ∀ i : Nat, t[i]? ≠ some c) : findColor c k t = none := by
  induction t generalizing k with
  | nil => rfl
  | cons d t ih =>
    rw [findColor, if_neg (by simpa using h 0)]
    exact ih fun i => by simpa using h (i + 1)

theorem headerField_none {c : Container} {f : Nat} (h : 9 ≤ f) : c.headerField f = .noField := by
  unfold Container.headerField
  split <;> first | omega | rfl

end Sys2Proof.Machine
end

