-- ==== Sys2Proof/Laws/PerInstr.lean ====
section
/-! SUPPORT. One statement per instruction about its encoding: the words it is encoded to match its row of the opcode table, and it
has one encoding only (R54, R56, R66, R67). -/

namespace Sys2Proof.Laws.EncodingPattern

/-- The value of a stream's first two bytes, the first in bits 7:0. -/
def firstTwo (bs : List Byte) : Nat := (bs.getD 0 0).toNat + 256 * (bs.getD 1 0).toNat

/-- A command is a `CMD` value that matches a row of the commands, which reads as many latches as the command has operands; a block
is bytes that match a row of the blocks. -/
def Statement (i : Instr) : Prop :=
  match i.format with
  | .command =>
    encodeBlock i = none ∧ ∃ r ∈ commandRows, ∃ c, encodeCommand i = some c ∧
      c.cmd.toNat &&& r.mask = r.pattern ∧ (commandOperands i).length = r.reads
  | .block =>
    encodeCommand i = none ∧ ∃ r ∈ blockRows, ∃ bs, encodeBlock i = some bs ∧ firstTwo bs &&& r.mask = r.pattern

/-- A command of row `k`, by its opcode. -/
theorem ofRow {i : Instr} (k : Nat) (op : Byte) (h1 : i.format = .command) (h2 : encodeBlock i = none)
    (h3 : commandOpcode i = some op) (hk : k < commandRows.length)
    (h4 : (op.setWidth 32).toNat &&& commandRows[k].mask = commandRows[k].pattern)
    (h5 : (commandOperands i).length = commandRows[k].reads) : Statement i := by
  unfold Statement
  rw [h1]
  have h6 : ∃ c, encodeCommand i = some c ∧ c.cmd = op.setWidth 32 := by
    simp only [encodeCommand, h3]
    exact ⟨_, rfl, rfl⟩
  obtain ⟨c, h6, h7⟩ := h6
  exact ⟨h2, _, List.getElem_mem hk, c, h6, by rw [h7]; exact h4, h5⟩

/-- A block of row `k`, by its first two bytes. -/
theorem ofBlockRow {i : Instr} (k : Nat) (b0 b1 : Byte) {bs : List Byte} (h1 : i.format = .block)
    (h2 : encodeCommand i = none) (h3 : encodeBlock i = some (b0 :: b1 :: bs)) (hk : k < blockRows.length)
    (h4 : b0.toNat + 256 * b1.toNat &&& blockRows[k].mask = blockRows[k].pattern) : Statement i := by
  unfold Statement
  rw [h1]
  exact ⟨h2, _, List.getElem_mem hk, _, h3, h4⟩

/-- The row of a label counts the first byte only. -/
theorem label_byte (b0 b1 : Byte) : b0.toNat + 256 * b1.toNat &&& 0xFF = b0.toNat := by
  have := b0.isLt
  show _ &&& (2 ^ 8 - 1) = _
  rw [Nat.and_two_pow_sub_one_eq_mod]
  omega

theorem nop : Statement .nop := ofRow 0 0x00#8 rfl rfl rfl (by decide) (by decide) rfl

theorem rdInit (base len bit : Word) : Statement (.rdInit base len bit) :=
  ofRow 1 0x01#8 rfl rfl rfl (by decide) (by decide) rfl

theorem rdConsume (width : Word) : Statement (.rdConsume width) :=
  ofRow 2 0x02#8 rfl rfl rfl (by decide) (by decide) rfl

theorem rdIsComplete (width : Word) : Statement (.rdIsComplete width) :=
  ofRow 3 0x03#8 rfl rfl rfl (by decide) (by decide) rfl

theorem wrInit (base len : Word) : Statement (.wrInit base len) :=
  ofRow 4 0x08#8 rfl rfl rfl (by decide) (by decide) rfl

theorem wrAppend (value width : Word) : Statement (.wrAppend value width) :=
  ofRow 5 0x09#8 rfl rfl rfl (by decide) (by decide) rfl

theorem wrCanAppend (width : Word) : Statement (.wrCanAppend width) :=
  ofRow 6 0x0A#8 rfl rfl rfl (by decide) (by decide) rfl

theorem wrWritten : Statement .wrWritten := ofRow 7 0x0B#8 rfl rfl rfl (by decide) (by decide) rfl

theorem tblInit (n : Word) : Statement (.tblInit n) := ofRow 8 0x10#8 rfl rfl rfl (by decide) (by decide) rfl

theorem tblAppend (base len : Word) : Statement (.tblAppend base len) :=
  ofRow 9 0x11#8 rfl rfl rfl (by decide) (by decide) rfl

theorem tblLookup (code base cap : Word) : Statement (.tblLookup code base cap) :=
  ofRow 10 0x12#8 rfl rfl rfl (by decide) (by decide) rfl

theorem tblCount : Statement .tblCount := ofRow 11 0x13#8 rfl rfl rfl (by decide) (by decide) rfl

theorem tblWidth : Statement .tblWidth := ofRow 12 0x14#8 rfl rfl rfl (by decide) (by decide) rfl

theorem tblClear : Statement .tblClear := ofRow 13 0x15#8 rfl rfl rfl (by decide) (by decide) rfl

theorem lzwDecompress (base cap flags : Word) : Statement (.lzwDecompress base cap flags) :=
  ofRow 14 0x20#8 rfl rfl rfl (by decide) (by decide) rfl

theorem lzwCompress (n base len flags : Word) : Statement (.lzwCompress n base len flags) :=
  ofRow 15 0x21#8 rfl rfl rfl (by decide) (by decide) rfl

theorem gifParse (base len : Word) : Statement (.gifParse base len) :=
  ofRow 16 0x30#8 rfl rfl rfl (by decide) (by decide) rfl

theorem ctSize (sel : Word) : Statement (.ctSize sel) := ofRow 17 0x38#8 rfl rfl rfl (by decide) (by decide) rfl

theorem ctIndex (sel index : Word) : Statement (.ctIndex sel index) :=
  ofRow 18 0x39#8 rfl rfl rfl (by decide) (by decide) rfl

theorem ctFind (sel rgb : Word) : Statement (.ctFind sel rgb) := ofRow 19 0x3A#8 rfl rfl rfl (by decide) (by decide) rfl

theorem contRead (block field element : Word) : Statement (.contRead block field element) :=
  ofRow 20 0x3B#8 rfl rfl rfl (by decide) (by decide) rfl

theorem softReset : Statement .softReset := ofRow 21 0xFF#8 rfl rfl rfl (by decide) (by decide) rfl

theorem gifExtension (label : Byte) : Statement (.gifExtension label) :=
  ofBlockRow 0 0x21#8 label rfl rfl rfl (by decide) (label_byte _ _)

theorem gifImage (left top width height : U16) (ipacked : Byte) : Statement (.gifImage left top width height ipacked) :=
  ofBlockRow 1 0x2C#8 (u16Lo left) rfl rfl rfl (by decide) (label_byte _ _)

theorem gifTrailer : Statement .gifTrailer :=
  ⟨rfl, blockRows[2], List.getElem_mem _, [0x3B#8], rfl, by decide⟩

theorem gifExtComment (text : Seq) : Statement (.gifExtComment text) :=
  ofBlockRow 3 0x21#8 0xFE#8 rfl rfl rfl (by decide) (by decide)

theorem gifExtGraphicsControl (size packed : Byte) (delay : U16) (transparent terminator : Byte) :
    Statement (.gifExtGraphicsControl size packed delay transparent terminator) :=
  ofBlockRow 4 0x21#8 0xF9#8 rfl rfl rfl (by decide) (by decide)

theorem gifExtApplication (size : Byte) (identifier : Vector Byte 8) (auth : Vector Byte 3) (payload : Seq) :
    Statement (.gifExtApplication size identifier auth payload) :=
  ofBlockRow 5 0x21#8 0xFF#8 rfl rfl rfl (by decide) (by decide)

theorem gifExtPlainText (size : Byte) (header : Vector Byte 12) : Statement (.gifExtPlainText size header) :=
  ofBlockRow 6 0x21#8 0x01#8 rfl rfl rfl (by decide) (by decide)

end Sys2Proof.Laws.EncodingPattern
end

