-- ==== Sys2Proof/Tests/Slice0.lean ====
section
/-! SUPPORT. The model's own tests: what the well-formedness check refuses, words decoded, one step on small states with the results
of 95_test_vectors.md, and, for each statement with hypotheses, a state that meets them. -/

namespace Sys2Proof.Tests

-- One theorem after the other: the package as one text then needs few threads.
set_option Elab.async false

open Sys2Proof.Machine

/-! ## Small states -/

/-- A block just reset, over 1024 bytes of zeros. -/
def quiet : State := State.hardwareReset 1024 [] HostAgent.idle

/-- DMEM of `quiet` with these bytes at `a`. -/
def holding (a : Nat) (bs : List Nat) : State := { quiet with dmem := placeBytes [] a (bs.map byte) }

/-- A reader over `len` bytes at 0x100, with its cursor at `cur`; the bytes are those of 95_test_vectors.md, section 2.1. -/
def reading (len cur : Nat) : State :=
  { holding 0x100 [0xB5, 0x3C, 0xE7] with rd := ⟨0x100, word len, word cur, true⟩ }

/-- A writer over `len` zeroed bytes at 0x200, with its cursor at `cur`. -/
def writing (len cur : Nat) : State := { quiet with wr := ⟨0x200, word len, word cur, true⟩ }

/-- A table of symbol width 2 with these entries after the initial ones. -/
def table (width : Nat) (rest : List Seq) : Dict := ⟨2, word width, initialSlots 2 ++ rest, true⟩

/-- `s` while the command `cmd` runs, in the state `f`. -/
def busyIn (cmd : Byte) (f : Fsm) (s : State) : State :=
  { s with cmd := cmd, status := { s.status with busy := true, fsm := f } }

/-- The state the outcome goes to satisfies `p`. -/
def after (o : Host.Outcome State Fault Refusal) (p : State → Bool) : Bool :=
  match o with
  | .next t => p t
  | .fault _ => false
  | .refused _ => false

/-- `STATUS`, `RES0` and `RES1` read as these values. -/
def shows (t : State) (status res0 res1 : Nat) : Bool :=
  t.status.word == word status && t.res0 == word res0 && t.res1 == word res1

/-! ## Well-formedness -/

theorem test_known_label_is_no_unknown_extension : (Instr.gifExtension 0xFE#8).wellFormed = false := by decide

theorem test_zero_in_comment_refused : (Instr.gifExtComment [0x68#8, 0x00#8]).wellFormed = false := by decide

theorem test_zero_in_payload_refused :
    (Instr.gifExtApplication 11#8 #v[1, 2, 3, 4, 5, 6, 7, 8] #v[1, 2, 3] [0x00#8]).wellFormed = false := by decide

/-! ## Decoding: words written out from R54 to R75 -/

theorem test_decode_bitstream :
    decodeCommand ⟨0x01#32, 1#32, 2#32, 3#32, 4#32⟩ = .ok (.rdInit 1#32 2#32 3#32) ∧
      decodeCommand ⟨0x02#32, 1#32, 2#32, 3#32, 4#32⟩ = .ok (.rdConsume 1#32) ∧
      decodeCommand ⟨0x03#32, 1#32, 2#32, 3#32, 4#32⟩ = .ok (.rdIsComplete 1#32) ∧
      decodeCommand ⟨0x08#32, 1#32, 2#32, 3#32, 4#32⟩ = .ok (.wrInit 1#32 2#32) ∧
      decodeCommand ⟨0x09#32, 1#32, 2#32, 3#32, 4#32⟩ = .ok (.wrAppend 1#32 2#32) ∧
      decodeCommand ⟨0x0A#32, 1#32, 2#32, 3#32, 4#32⟩ = .ok (.wrCanAppend 1#32) ∧
      decodeCommand ⟨0x0B#32, 1#32, 2#32, 3#32, 4#32⟩ = .ok .wrWritten := by decide

theorem test_decode_table :
    decodeCommand ⟨0x10#32, 1#32, 2#32, 3#32, 4#32⟩ = .ok (.tblInit 1#32) ∧
      decodeCommand ⟨0x11#32, 1#32, 2#32, 3#32, 4#32⟩ = .ok (.tblAppend 1#32 2#32) ∧
      decodeCommand ⟨0x12#32, 1#32, 2#32, 3#32, 4#32⟩ = .ok (.tblLookup 1#32 2#32 3#32) ∧
      decodeCommand ⟨0x13#32, 1#32, 2#32, 3#32, 4#32⟩ = .ok .tblCount ∧
      decodeCommand ⟨0x14#32, 1#32, 2#32, 3#32, 4#32⟩ = .ok .tblWidth ∧
      decodeCommand ⟨0x15#32, 1#32, 2#32, 3#32, 4#32⟩ = .ok .tblClear := by decide

theorem test_decode_composite :
    decodeCommand ⟨0x20#32, 1#32, 2#32, 3#32, 4#32⟩ = .ok (.lzwDecompress 1#32 2#32 3#32) ∧
      decodeCommand ⟨0x21#32, 1#32, 2#32, 3#32, 4#32⟩ = .ok (.lzwCompress 1#32 2#32 3#32 4#32) ∧
      decodeCommand ⟨0x30#32, 1#32, 2#32, 3#32, 4#32⟩ = .ok (.gifParse 1#32 2#32) := by decide

theorem test_decode_access :
    decodeCommand ⟨0x38#32, 1#32, 2#32, 3#32, 4#32⟩ = .ok (.ctSize 1#32) ∧
      decodeCommand ⟨0x39#32, 1#32, 2#32, 3#32, 4#32⟩ = .ok (.ctIndex 1#32 2#32) ∧
      decodeCommand ⟨0x3A#32, 1#32, 2#32, 3#32, 4#32⟩ = .ok (.ctFind 1#32 2#32) ∧
      decodeCommand ⟨0x3B#32, 1#32, 2#32, 3#32, 4#32⟩ = .ok (.contRead 1#32 2#32 3#32) := by decide

/-- Bits 31:8 of `CMD` are ignored (KC-5), and 0x04 is unassigned (KC-4). -/
theorem test_decode_control :
    decodeCommand ⟨0x00000100#32, 1#32, 2#32, 3#32, 4#32⟩ = .ok .nop ∧
      decodeCommand ⟨0x123456FF#32, 1#32, 2#32, 3#32, 4#32⟩ = .ok .softReset ∧
      decodeCommand ⟨0x04#32, 1#32, 2#32, 3#32, 4#32⟩ = .error (.badOpcode 0x04#8) := by decide

/-- The blocks of 44_container_parser.md, examples 1 and 3, and the extension of PA-9. -/
theorem test_decode_blocks :
    decodeBlock [0x2C#8, 1#8, 0#8, 2#8, 0#8, 3#8, 0#8, 4#8, 1#8, 0x81#8, 9#8] =
        .ok (.gifImage 1#16 2#16 3#16 0x104#16 0x81#8, [9#8]) ∧
      decodeBlock [0x3B#8, 7#8] = .ok (.gifTrailer, [7#8]) ∧
      decodeBlock [0x21#8, 0x99#8, 0x3B#8] = .ok (.gifExtension 0x99#8, [0x3B#8]) ∧
      decodeBlock [0x21#8, 0xFE#8, 0x68#8, 0x69#8, 0#8, 5#8] = .ok (.gifExtComment [0x68#8, 0x69#8], [5#8]) ∧
      decodeBlock [0x21#8, 0xF9#8, 4#8, 1#8, 0x0A#8, 2#8, 3#8, 0#8] =
        .ok (.gifExtGraphicsControl 4#8 1#8 0x20A#16 3#8 0#8, []) ∧
      decodeBlock [0x21#8, 0xFF#8, 0x0B#8, 0x4E#8, 0x45#8, 0x54#8, 0x53#8, 0x43#8, 0x41#8, 0x50#8, 0x45#8, 0x32#8, 0x2E#8,
          0x30#8, 3#8, 1#8, 0#8, 0#8] =
        .ok (.gifExtApplication 0x0B#8 #v[0x4E, 0x45, 0x54, 0x53, 0x43, 0x41, 0x50, 0x45] #v[0x32, 0x2E, 0x30] [3#8, 1#8],
          [0#8]) ∧
      decodeBlock [0x21#8, 0x01#8, 0x0C#8, 1#8, 2#8, 3#8, 4#8, 5#8, 6#8, 7#8, 8#8, 9#8, 10#8, 11#8, 12#8, 0x3B#8] =
        .ok (.gifExtPlainText 0x0C#8 #v[1, 2, 3, 4, 5, 6, 7, 8, 9, 10, 11, 12], [0x3B#8]) := by decide

/-- Reserved labels and short blocks are refused by name (R66, R124). -/
theorem test_decode_refuses :
    decodeBlock [0x00#8, 0x3B#8] = .error (.notALabel 0x00#8) ∧ decodeBlock [0x21#8] = .error .truncated ∧
      decodeBlock [0x21#8, 0xFE#8, 0x61#8, 0x62#8] = .error .truncated ∧ decodeBlock [] = .error .truncated := by decide

/-! ## The bit stream: 95_test_vectors.md, sections 2.1 and 2.2 -/

/-- RD-9's setup and RD-14. -/
theorem test_rdInit :
    after (exec (.rdInit 0x100 3 5) quiet) (fun t => shows t 0x2 0 0 && t.rd == ⟨0x100, 3, 5, true⟩) = true ∧
      after (exec (.rdInit 0x100 2 17) quiet) (fun t => shows t 0x806 0 17 && !t.rd.valid) = true := by decide +kernel

/-- RD-1, RD-2, RD-5 and RD-9: one byte, two bytes, past the end, three bytes. -/
theorem test_rdConsume :
    after (exec (.rdConsume 3) (reading 2 0)) (fun t => shows t 0x2 5 3) = true ∧
      after (exec (.rdConsume 7) (reading 2 3)) (fun t => shows t 0x2 22 10) = true ∧
      after (exec (.rdConsume 12) (reading 2 10)) (fun t => shows t 0x2 15 16) = true ∧
      after (exec (.rdConsume 12) (reading 3 5)) (fun t => shows t 0x2 2533 17) = true := by decide +kernel

/-- RD-8, RD-13 and RD-17. -/
theorem test_rdConsume_faults :
    after (exec (.rdConsume 12) { reading 2 10 with cfg := ⟨false, false, false, true⟩ })
        (fun t => shows t 0xE06 10 12 && t.rd.cur == 10) = true ∧
      after (exec (.rdConsume 13) (reading 2 0)) (fun t => shows t 0x206 0 13) = true ∧
      after (exec (.rdConsume 3) quiet) (fun t => shows t 0xC06 0 2) = true := by decide +kernel

/-- RD-3, RD-4 and RD-6. -/
theorem test_rdIsComplete :
    after (exec (.rdIsComplete 6) (reading 2 10)) (fun t => shows t 0x2 6 0) = true ∧
      after (exec (.rdIsComplete 7) (reading 2 10)) (fun t => shows t 0xA 6 0) = true ∧
      after (exec (.rdIsComplete 1) (reading 2 16)) (fun t => shows t 0xA 0 0) = true ∧
      after (exec (.rdIsComplete 0) (reading 2 16)) (fun t => shows t 0x2 0 0) = true := by decide +kernel

/-- The region is zeroed and nothing else (R84); WR-13. -/
theorem test_wrInit :
    after (exec (.wrInit 0x101 2) (holding 0x100 [1, 2, 3, 4]))
        (fun t => shows t 0x2 0 0 && t.dmem == [(0x100, 1#8), (0x103, 4#8)] && t.wr == ⟨0x101, 2, 0, true⟩) = true ∧
      after (exec (.wrInit 0x101 4) (reading 2 0)) (fun t => shows t 0x806 0 0x101 && t.dmem == (reading 2 0).dmem) = true := by
  decide +kernel

/-- WR-3 and WR-5: bits across two bytes, then bits ORed above them. -/
theorem test_wrAppend :
    after (exec (.wrAppend 0x5A3 12) (writing 2 0))
        (fun t => shows t 0x2 12 0 && t.dmem == [(0x200, 0xA3#8), (0x201, 0x05#8)]) = true ∧
      after (exec (.wrAppend 7 3) { writing 2 12 with dmem := [(0x200, 0xA3#8), (0x201, 0x05#8)] })
        (fun t => shows t 0x2 15 0 && t.dmem == [(0x200, 0xA3#8), (0x201, 0x75#8)]) = true := by decide +kernel

/-- WR-6, WR-12 (the width fault comes first) and WR-14. -/
theorem test_wrAppend_faults :
    after (exec (.wrAppend 1 1) (writing 2 15)) (fun t => shows t 0x306 15 1 && t.dmem == []) = true ∧
      after (exec (.wrAppend 1 13) (writing 2 0)) (fun t => shows t 0x206 0 13) = true ∧
      after (exec (.wrAppend 1 1) { writing 2 0 with rd := ⟨0x200, 2, 0, true⟩ }) (fun t => shows t 0x806 0 0x200) = true := by
  decide +kernel

/-- WR-2 and WR-4: the strict boundary. -/
theorem test_wrCanAppend :
    after (exec (.wrCanAppend 13) (writing 2 0)) (fun t => shows t 0x2 0 0) = true ∧
      after (exec (.wrCanAppend 0) (writing 2 0)) (fun t => shows t 0xA 0 0) = true ∧
      after (exec (.wrCanAppend 3) (writing 2 12)) (fun t => shows t 0xA 0 0) = true ∧
      after (exec (.wrCanAppend 4) (writing 2 12)) (fun t => shows t 0x2 0 0) = true := by decide +kernel

/-- WR-1, WR-5 and WR-8: the view at cursors 0, 15 and 8. -/
theorem test_wrWritten :
    after (exec .wrWritten (writing 2 0)) (fun t => shows t 0x2 1 0) = true ∧
      after (exec .wrWritten (writing 2 15)) (fun t => shows t 0x2 2 0) = true ∧
      after (exec .wrWritten (writing 3 8)) (fun t => shows t 0x2 2 0) = true := by decide +kernel

/-! ## The dictionary: section 2.3 -/

/-- TB-1 and TB-2. -/
theorem test_tblInit :
    after (exec (.tblInit 2) quiet) (fun t => shows t 0x2 6 3 && t.tbl == table 3 []) = true ∧
      after (exec (.tblInit 8) quiet) (fun t => shows t 0x2 258 9 && t.tbl.lookup 255 == some [0xFF#8]) = true := by
  decide +kernel

/-- TB-4. -/
theorem test_tblInit_faults :
    after (exec (.tblInit 1) quiet) (fun t => shows t 0x406 0 1) = true ∧
      after (exec (.tblInit 12) quiet) (fun t => shows t 0x406 0 12) = true := by decide +kernel

/-- TB-5 and TB-6: the width grows when the count reaches 8. -/
theorem test_tblAppend :
    after (exec (.tblAppend 0x100 2) { holding 0x100 [0, 1] with tbl := table 3 [] })
        (fun t => shows t 0x2 6 3 && t.tbl == table 3 [[0, 1]]) = true ∧
      after (exec (.tblAppend 0x100 2) { holding 0x100 [1, 0] with tbl := table 3 [[0, 1]] })
        (fun t => shows t 0x2 7 4 && t.tbl == table 4 [[0, 1], [1, 0]]) = true := by decide +kernel

/-- TB-13, TB-14 and TB-16: a copy, an empty sequence, and a copy cut short. -/
theorem test_tblLookup :
    after (exec (.tblLookup 3 0x300 4) { quiet with tbl := table 3 [] })
        (fun t => shows t 0xA 1 1 && t.dmem == [(0x300, 3#8)]) = true ∧
      after (exec (.tblLookup 4 0x300 4) { quiet with tbl := table 3 [] }) (fun t => shows t 0xA 0 0 && t.dmem == []) = true ∧
      after (exec (.tblLookup 6 0x300 1) { quiet with tbl := table 4 [[9, 1], [1, 0]] })
        (fun t => shows t 0xA 2 1 && t.dmem == [(0x300, 9#8)]) = true := by decide +kernel

/-- TB-15 and TB-19. -/
theorem test_tblLookup_misses :
    after (exec (.tblLookup 6 0x300 4) { quiet with tbl := table 3 [] }) (fun t => shows t 0x2 0 0 && t.dmem == []) = true ∧
      after (exec (.tblLookup 3 0x302 4) { quiet with tbl := table 3 [], rd := ⟨0x300, 4, 0, true⟩ })
        (fun t => shows t 0x806 0 0x302) = true := by decide +kernel

/-- TB-17. -/
theorem test_tblCount : after (exec .tblCount { quiet with tbl := table 3 [] }) (fun t => shows t 0x2 6 0) = true := by
  decide +kernel

/-- TB-17. -/
theorem test_tblWidth : after (exec .tblWidth { quiet with tbl := table 3 [] }) (fun t => shows t 0x2 3 0) = true := by
  decide +kernel

/-- TB-12: the initial table again. -/
theorem test_tblClear :
    after (exec .tblClear { quiet with tbl := table 4 [[0, 1], [1, 0]] }) (fun t => shows t 0x2 6 3 && t.tbl == table 3 []) =
      true := by decide +kernel

/-! ## The composite commands: sections 2.4, 2.5 and 2.6 -/

/-- DE-21 and DE-22. -/
theorem test_lzwDecompress_faults :
    after (exec (.lzwDecompress 0x300 64 0) (reading 3 0)) (fun t => shows t 0xC06 0 0x20) = true ∧
      after (exec (.lzwDecompress 0x101 4 0) { reading 3 0 with tbl := table 3 [] }) (fun t => shows t 0x806 0 0x101) = true := by
  decide +kernel

/-- DE-3's third code, 6@3 with the previous sequence `[1]`: the code right after the last one. -/
theorem test_decoder_undefined_code :
    after (engineStep (busyIn 0x20 (.decode false .loop)
        { holding 0x100 [0x8C, 0x0B] with
          rd := ⟨0x100, 2, 6, true⟩, tbl := table 3 [], out := ⟨0x300, 64, 1, .dmem⟩, dec := ⟨some [1], false⟩ }))
      (fun t => t.peek 0x301 == 1#8 && t.peek 0x302 == 1#8 && t.out.pos == 3 && t.rd.cur == 9 && t.tbl == table 3 [[1, 1]] &&
        t.dec.prev == some [1, 1]) = true := by decide +kernel

/-- EN-14 and EN-16. -/
theorem test_lzwCompress_faults :
    after (exec (.lzwCompress 12 0x100 1 0) (writing 8 0)) (fun t => shows t 0x406 0 12 && !t.tbl.valid) = true ∧
      after (exec (.lzwCompress 2 0x203 1 0) (writing 8 0)) (fun t => shows t 0x806 0 0x203) = true := by decide +kernel

/-- EN-1's third input byte, 0 after the buffer `[1]`: code 1 is emitted at width 3 and `[1, 0]` becomes code 7. -/
theorem test_encoder_scan :
    after (engineStep (busyIn 0x21 (.compress .scan)
        { holding 0x100 [0, 1, 0, 1, 0, 1, 0] with
          wr := ⟨0x200, 8, 6, true⟩, tbl := table 3 [[0, 1]], enc := ⟨2, 0x100, 7, 2, [1], 2, false, false⟩ }))
      (fun t => t.peek 0x200 == 0x40#8 && t.wr.cur == 9 && t.tbl == table 4 [[0, 1], [1, 0]] && t.enc.buf == [0] &&
        t.enc.codes == 3) = true := by decide +kernel

/-- PA-28. -/
theorem test_gifParse_range :
    after (exec (.gifParse 0x100 36) { quiet with dmemSize := 0x120 }) (fun t => shows t 0x806 0 0x100) = true := by
  decide +kernel

/-- PA-18: the local table has no size. -/
theorem test_parser_lct_size :
    after (engineStep (busyIn 0x30 (.parse .lct)
        { quiet with par := ⟨0x100, 42, 23, ⟨0, 0, 2, 2, 0x81, none, 0, [], 0⟩, 0, 0, 0, false⟩ }))
      (fun t => shows t 0x350B06 23 0x81) = true := by decide +kernel

/-! ## The accessors: section 2.7 -/

/-- The container of PA-1. -/
def parsed : State :=
  { quiet with cont := ⟨true, ⟨#v[0x47, 0x49, 0x46], #v[0x38, 0x39, 0x61], 2, 2, 0x80, 0, 0⟩,
      some [⟨0, 0, 0⟩, ⟨0xFF, 0xFF, 0xFF⟩],
      [.image ⟨0, 0, 2, 2, 0, none, 2, [(0, 0), (1, 1), (2, 1), (3, 0)], 4⟩]⟩ }

/-- AC-1, AC-2 and AC-3. -/
theorem test_ctSize :
    after (exec (.ctSize 0) parsed) (fun t => shows t 0xA 2 0) = true ∧
      after (exec (.ctSize 1) parsed) (fun t => shows t 0x2 0 0) = true ∧
      after (exec (.ctSize 2) parsed) (fun t => shows t 0xA06 0 2) = true := by decide +kernel

/-- AC-4, AC-5 and AC-6. -/
theorem test_ctIndex :
    after (exec (.ctIndex 0 1) parsed) (fun t => shows t 0x2 0xFFFFFF 0) = true ∧
      after (exec (.ctIndex 0 2) parsed) (fun t => shows t 0xA06 1 2) = true ∧
      after (exec (.ctIndex 1 0) parsed) (fun t => shows t 0xA06 0 1) = true := by decide +kernel

/-- AC-7, AC-8 and AC-9. -/
theorem test_ctFind :
    after (exec (.ctFind 0 0x00FFFFFF) parsed) (fun t => shows t 0xA 1 0) = true ∧
      after (exec (.ctFind 0 0xFF000000) parsed) (fun t => shows t 0xA 0 0) = true ∧
      after (exec (.ctFind 0 0x000000FF) parsed) (fun t => shows t 0x2 0xFFFFFFFF 0) = true := by decide +kernel

/-- AC-10, AC-11 and AC-12. -/
theorem test_contRead :
    after (exec (.contRead 0xFFFFFFFF 0 0) parsed) (fun t => shows t 0xA 0x464947 0) = true ∧
      after (exec (.contRead 0 3 0) parsed) (fun t => shows t 0xA 2 0) = true ∧
      after (exec (.contRead 0 8 1) parsed) (fun t => shows t 0xA 1 0) = true := by decide +kernel

/-- AC-13, AC-14 and AC-15. -/
theorem test_contRead_faults :
    after (exec (.contRead 0 8 4) parsed) (fun t => shows t 0xA06 2 4) = true ∧
      after (exec (.contRead 1 0 0) parsed) (fun t => shows t 0xA06 0 1) = true ∧
      after (exec (.contRead 0 10 0) parsed) (fun t => shows t 0xA06 1 10) = true := by decide +kernel

/-! ## Control and the host: section 2.8 -/

/-- KC-3. -/
theorem test_nop : after (exec .nop quiet) (fun t => shows t 0x2 0 0) = true := by decide +kernel

/-- KC-8. -/
theorem test_softReset :
    after (exec .softReset { parsed with arg := ⟨7, 0, 0, 0⟩, status := { quiet.status with fault := true, faultCode := 0xC } })
      (fun t => shows t 0x2 0 0 && t.cmd == 0xFF#8 && t.arg.a0 == 0 && t.validWord == 0) = true := by decide +kernel

/-- KC-4: an accepted 0x04 faults. -/
theorem test_bad_opcode :
    after (engineStep (quiet.csrWrite 0 4)) (fun t => shows t 0x906 0 4 && t.csrRead 0 == 4) = true := by decide +kernel

/-- KC-6 and KC-7: in the fault state a command is rejected and an operand write is performed. -/
theorem test_host_in_fault :
    let faulted := quiet.raise .notInit 0 0x20
    (faulted.csrWrite 0 0).csrRead 4 = 0xC16#32 ∧ ((faulted.csrWrite 0 0).csrWrite 8 7).csrRead 8 = 7#32 := by decide +kernel

/-- KC-9 to KC-11: policy bits, a read-only register, a reserved offset. -/
theorem test_host_registers :
    (quiet.csrWrite 0x20 0xFFFFFFFF#32).csrRead 0x20 = 0xF#32 ∧ (quiet.csrWrite 0x18 5).csrRead 0x18 = 0#32 ∧
      (quiet.csrWrite 0x60 5).csrRead 0x60 = 0#32 ∧ quiet.csrRead 0x5C = 0x4C5A5701#32 := by decide +kernel

/-! ## The blocks of the GIF stream: section 2.6 -/

/-- A parse in P_EXT, P_IMAGE or P_LABEL with these bytes at its cursor, offset 13 of its region. -/
def parsing (st : ParState) (bs : List Nat) : State :=
  busyIn 0x30 (.parse st)
    { holding 0x10D bs with par := ⟨0x100, 13 + bs.length, 13, Image.empty, 0, 0, 0, false⟩ }

/-- PA-9: an unknown extension is two bytes and records nothing. -/
theorem test_gifExtension :
    after (step (parsing .ext [0x21, 0x99, 0x3B])) (fun t => t.par.pos == 15 && t.cont.blocks == []) = true := by
  decide +kernel

/-- The image descriptor of PA-17. -/
theorem test_gifImage :
    after (step (parsing .image [0x2C, 0, 0, 0, 0, 2, 0, 2, 0, 0x81]))
      (fun t => t.par.pos == 23 && t.status.fsm == .parse .lct && t.par.img == ⟨0, 0, 2, 2, 0x81, none, 0, [], 0⟩) = true := by
  decide +kernel

/-- PA-7. -/
theorem test_gifTrailer : after (step (parsing .label [0x3B])) (fun t => shows t 0xA 0 14 && t.cont.valid) = true := by
  decide +kernel

/-- The comment of PA-3. -/
theorem test_gifExtComment :
    after (step (parsing .ext [0x21, 0xFE, 0x68, 0x69, 0])) (fun t => t.par.pos == 18 && t.cont.blocks == [.comment [0x68, 0x69]]) =
      true := by decide +kernel

/-- The graphics control block of PA-3. -/
theorem test_gifExtGraphicsControl :
    after (step (parsing .ext [0x21, 0xF9, 4, 1, 0x0A, 0, 1, 0]))
      (fun t => t.par.pos == 21 && t.cont.blocks == [.graphicsControl 1 10 1]) = true := by decide +kernel

/-- PA-12: the scan stops at the first 0x00. -/
theorem test_gifExtApplication :
    after (step (parsing .ext
        [0x21, 0xFF, 0x0B, 0x4E, 0x45, 0x54, 0x53, 0x43, 0x41, 0x50, 0x45, 0x32, 0x2E, 0x30, 3, 1, 0, 0, 0, 0x3B]))
      (fun t => t.par.pos == 30 && t.cont.blocks ==
        [.application #v[0x4E, 0x45, 0x54, 0x53, 0x43, 0x41, 0x50, 0x45] #v[0x32, 0x2E, 0x30] [3, 1]]) = true := by decide +kernel

/-- PA-13. -/
theorem test_gifExtPlainText :
    after (step (parsing .ext [0x21, 1, 0x0C, 1, 2, 3, 4, 5, 6, 7, 8, 9, 10, 11, 12, 0x3B]))
      (fun t => t.par.pos == 28 && t.cont.blocks == [.plainText #v[1, 2, 3, 4, 5, 6, 7, 8, 9, 10, 11, 12]]) = true := by
  decide +kernel

/-! ## Witnesses: states that meet the invariant -/

theorem after_next {o : Host.Outcome State Fault Refusal} {p : State → Bool} (h : after o p = true) :
    ∃ t, o = .next t ∧ p t = true := by
  cases o with
  | next t => exact ⟨t, rfl, h⟩
  | fault f => cases h
  | refused r => cases h

theorem goes {o : Host.Outcome State Fault Refusal} (h : after o (fun _ => true) = true) : ∃ t, o = .next t :=
  (after_next h).imp fun _ h => h.1

/-- The stored data of a state with no colour table, no block and no pixel is legal. -/
def dataOk (s : State) : Bool :=
  decide (1 ≤ s.dmemSize ∧ s.dmemSize ≤ 2 ^ 28) && s.dmem.wf && s.dmem.all (fun c => decide (c.1 < s.dmemSize)) &&
    decide (s.rd.cur.toNat ≤ 8 * s.rd.len.toNat) &&
    decide (s.rd.valid = true → s.rd.base.toNat + s.rd.len.toNat ≤ s.dmemSize) &&
    decide (s.wr.valid = true → s.wr.cur.toNat < 8 * s.wr.len.toNat) &&
    decide (s.wr.valid = true → s.wr.base.toNat + s.wr.len.toNat ≤ s.dmemSize) &&
    decide (s.out.pos.toNat ≤ s.out.cap.toNat) &&
    decide (s.par.img.pixels = [] ∧ s.par.img.filled = 0 ∧ s.par.img.lct = none ∧ s.cont.gct = none ∧ s.cont.blocks = [])

/-- What the running machine's rules need holds. -/
def runOk (s : State) : Bool :=
  match s.status.fsm with
  | .idle => true
  | .decode false _ =>
    s.rd.valid && s.tbl.valid && decide (s.out.sink = .dmem) &&
      decide (s.out.base.toNat + s.out.cap.toNat ≤ s.dmemSize) && !s.hitsReader s.out.base s.out.cap
  | .decode true _ =>
    s.rd.valid && s.tbl.valid && decide (s.out.sink = .pixels) &&
      decide (s.par.img.filled = s.out.base.toNat + s.out.pos.toNat) &&
      decide (s.out.base.toNat + s.out.cap.toNat = s.par.img.cells) && !s.cont.valid &&
      decide (s.par.base + s.par.len ≤ s.dmemSize) && decide (s.par.pos.toNat + s.par.subLen.toNat ≤ s.par.len)
  | .compress st =>
    s.wr.valid && s.tbl.valid && decide (s.tbl.n.toNat = s.enc.n) && decide (s.enc.src + s.enc.len ≤ s.dmemSize) &&
      !s.hitsReader s.wr.base s.wr.len && decide (st = .start → s.enc.idx = 0 ∧ s.enc.buf = []) &&
      decide (st = .scan → s.enc.idx < s.enc.len) && decide (st = .flush ∨ st = .eoi → s.enc.idx = s.enc.len) &&
      decide (s.enc.buf = [] ∧ s.enc.idx = 0 ∨ s.enc.buf ≠ [] ∧ (s.tbl.find s.enc.buf).isSome = true)
  | .parse st =>
    !s.cont.valid && decide (s.par.base + s.par.len ≤ s.dmemSize) && decide (s.par.pos.toNat ≤ s.par.len) &&
      decide (st = .header → s.par.pos.toNat = 0) && decide (st = .subLen ∨ st = .subData → s.tbl.valid = true)

/-- `STATUS` is legal. -/
def statusOk (s : State) : Bool :=
  decide (s.status.busy = true → s.status.done = false) &&
    decide (s.status.busy = false → s.status.fault = false → s.status.fsm = .idle) &&
    decide (s.status.busy = true → s.status.fault = true → s.cmd = 0xFF#8)

theorem inv_of {s : State} (h : (dataOk s && statusOk s && runOk s) = true) (ht : s.tbl.valid = true → s.tbl.Inv) : s.Inv := by
  obtain ⟨⟨hd, hs⟩, hr⟩ : (dataOk s = true ∧ statusOk s = true) ∧ runOk s = true := by simpa only [Bool.and_eq_true] using h
  simp only [dataOk, Bool.and_eq_true, decide_eq_true_eq, List.all_eq_true] at hd
  simp only [statusOk, Bool.and_eq_true, decide_eq_true_eq] at hs
  obtain ⟨⟨⟨⟨⟨⟨⟨⟨⟨d1, d2⟩, d3⟩, d4⟩, d5⟩, d6⟩, d7⟩, d8⟩, d9⟩, p1, p2, p3, p4, p5⟩ := hd
  refine { sizeMin := d1, sizeMax := d2, memory := d3, cells := d4, readerCursor := d5, readerRegion := d6,
           writerCursor := d7, writerRegion := d8, table := ht, output := d9, image := ?_, container := ?_,
           notDone := hs.1.1, ended := hs.1.2, faulted := hs.2, decoding := ?_, encoding := ?_, parsing := ?_ }
  · exact ⟨⟨by rw [p1]; rfl, fun k => by rw [p1, p2]; simp [Pixels.read], by rw [p2]; exact Nat.zero_le _⟩,
      by rw [p3]; simp⟩
  · exact ⟨by rw [p4]; simp, by rw [p5]; simp⟩
  · intro p st _ h
    cases p <;> simp only [runOk, h, Bool.and_eq_true, decide_eq_true_eq, Bool.not_eq_true'] at hr
    · obtain ⟨⟨⟨⟨a, b⟩, c⟩, d⟩, e⟩ := hr
      exact ⟨a, b, fun _ => ⟨c, d, e⟩, by simp, by simp⟩
    · obtain ⟨⟨⟨⟨⟨⟨⟨a, b⟩, c⟩, d⟩, e⟩, f⟩, g⟩, i⟩ := hr
      exact ⟨a, b, by simp, fun _ => ⟨c, d, e⟩, fun _ => ⟨f, g, i⟩⟩
  · intro st _ h
    simp only [runOk, h, Bool.and_eq_true, decide_eq_true_eq, Bool.not_eq_true'] at hr
    obtain ⟨⟨⟨⟨⟨⟨⟨⟨a, b⟩, c⟩, d⟩, e⟩, f⟩, g⟩, i⟩, j⟩ := hr
    exact ⟨a, b, c, d, e, f, g, i, j.imp id fun k => ⟨k.1, Option.isSome_iff_exists.mp k.2⟩⟩
  · intro st _ h
    simp only [runOk, h, Bool.and_eq_true, decide_eq_true_eq, Bool.not_eq_true'] at hr
    obtain ⟨⟨⟨⟨a, b⟩, c⟩, d⟩, e⟩ := hr
    exact ⟨a, b, c, d, e⟩

/-- A running state that meets the invariant, with a fact about it. -/
theorem meets {s : State} {f : Fsm} {P : Prop}
    (h : (dataOk s && statusOk s && runOk s && s.status.busy && decide (s.cmd ≠ 0xFF#8) && decide (s.status.fsm = f)) = true)
    (ht : s.tbl.valid = true → s.tbl.Inv) (hp : P) : s.Inv ∧ s.runs f ∧ P := by
  simp only [Bool.and_eq_true, decide_eq_true_eq] at h
  obtain ⟨⟨⟨h, d⟩, e⟩, g⟩ := h
  exact ⟨inv_of (by simpa only [Bool.and_eq_true] using h) ht, ⟨⟨d, e⟩, g⟩, hp⟩

theorem initialSlots_two : initialSlots 2 = [[0], [1], [2], [3], [], []] := by decide

theorem table_inv {w : Nat} {rest : List Seq} (hl : rest.length ≤ 4091)
    (hw : (word w).toNat = max 3 (bitlen (6 + rest.length))) : (table w rest).Inv := by
  have hc : (table w rest).count = 6 + rest.length := by
    simp only [Dict.count, table, initialSlots_two, List.length_append]; rfl
  refine ⟨show 2 ≤ (2#32).toNat by decide, show (2#32).toNat ≤ 11 by decide, ?_, ?_, ?_, ?_, ?_, ?_⟩
  · intro c hc
    have : c < 4 := hc
    simp only [Dict.lookup, table, initialSlots_two]
    interval_cases c <;> simp
  · simp [Dict.lookup, table, initialSlots_two]
  · simp [Dict.lookup, table, initialSlots_two]
  · rw [hc]; exact Nat.le_add_right 6 _
  · rw [hc]; show 6 + rest.length ≤ 4097; omega
  · rw [hc]; exact hw

/-- The initial table. -/
theorem table_initial : (table 3 []).Inv := table_inv (by decide) (by decide +kernel)

/-- A table of 4096 entries, at width 13. -/
abbrev wideTable : Dict := table 13 (List.replicate 4090 [0])

theorem table_wide : wideTable.Inv := table_inv (by rw [List.length_replicate]; omega) (by rw [List.length_replicate]; decide +kernel)

/-- A table of 4097 entries, which is full. -/
abbrev fullTable : Dict := table 13 (List.replicate 4091 [0])

theorem table_full : fullTable.Inv := table_inv List.length_replicate.le (by rw [List.length_replicate]; decide +kernel)

theorem noTable {d : Dict} (h : d.valid = false) : d.valid = true → d.Inv := by rw [h]; simp

/-! ## Witnesses: encodings and fetching -/

theorem witness_EncodedInstructionsDecode :
    (Instr.lzwCompress 2 0x100 7 1).wellFormed = true ∧ (Instr.gifExtension 0xFD#8).wellFormed = true ∧
      (Instr.gifExtApplication 0 #v[0, 0, 0, 0, 0, 0, 0, 0] #v[0, 0, 0] [1, 0xFF]).wellFormed = true := by decide

theorem witness_DecodedCommandsKeepTheirWords :
    decodeCommand ⟨0x21#32, 0#32, 1#32, 0xFFFFFFFF#32, 3#32⟩ = .ok (.lzwCompress 0#32 1#32 0xFFFFFFFF#32 3#32) := by decide

/-- Both ends of every unassigned range. -/
theorem witness_UnassignedOpcodesFault :
    ∀ op ∈ [0x04, 0x07, 0x0C, 0x0F, 0x16, 0x1F, 0x22, 0x2F, 0x31, 0x37, 0x3C, 0xFE],
      let s := busyIn (byte op) .idle quiet
      s.status.busy = true ∧ s.status.fsm = .idle ∧ s.cmd.toNat = op := by decide

theorem witness_FetchWordRunsTheRow :
    quiet.dmem.wf = true ∧ decodeTableWord 8 0x01 = some (.rdInit 0 0 0) ∧ decodeTableWord 8 0x2C = some (.gifImage 0 0 0 0 0) ∧
      decodeTableWord 16 0xFF21 = some (.gifExtApplication 0 #v[0, 0, 0, 0, 0, 0, 0, 0] #v[0, 0, 0] []) := by decide +kernel

theorem witness_NopOnlyFinishes :
    opcodeOf 0xFFFFFF00#32 = 0x00#8 ∧ (quiet.raise .range 0 0).status.fault = true := by decide

/-! ## Witnesses: the commands of the bit stream -/

/-- One byte too many, one bit too many, and a cursor at the end of a region that ends at the end of DMEM. -/
theorem witness_RdInitConstructsTheReader :
    opcodeOf 0x01#32 = 0x01#8 ∧
      quiet.dmemSize < (0x3FF#32).toNat + (2#32).toNat ∧
      ((0x3FE#32).toNat + (2#32).toNat ≤ quiet.dmemSize ∧ 8 * (2#32).toNat < (17#32).toNat) ∧
      ((0x3FE#32).toNat + (2#32).toNat ≤ quiet.dmemSize ∧ (16#32).toNat ≤ 8 * (2#32).toNat) := by decide

/-- No reader; widths 0 and 13; one bit past the end with `RD_OVERRUN`; the last bit with it, and one bit past without. -/
theorem witness_RdConsumeReadsACode :
    let pol : Policy := ⟨false, false, false, true⟩
    let s := { reading 2 10 with cfg := pol }
    quiet.rd.valid = false ∧ s.rd.valid = true ∧ ((0#32).toNat < 1 ∧ 12 < (13#32).toNat) ∧
      8 * s.rd.len.toNat < s.rd.cur.toNat + (7#32).toNat ∧ s.cfg.rdOverrun = true ∧
      s.rd.cur.toNat + (6#32).toNat ≤ 8 * s.rd.len.toNat ∧
      (8 * (reading 2 10).rd.len.toNat < (reading 2 10).rd.cur.toNat + (12#32).toNat ∧ (reading 2 10).cfg.rdOverrun = false) ∧
      s.InDmem s.rd.base.toNat s.rd.len.toNat ∧ (reading 2 10).InDmem (reading 2 10).rd.base.toNat (reading 2 10).rd.len.toNat := by
  unfold State.InDmem; decide +kernel

theorem witness_RdIsCompleteTestsExhaustion : quiet.rd.valid = false ∧ (reading 2 10).rd.valid = true := by decide +kernel

/-- Length 0; one byte too many; the last byte of the region is the reader's first; a region that touches the reader's. -/
theorem witness_WrInitZeroesTheRegion :
    let s := reading 2 0
    (0#32).toNat = 0 ∧ (1 ≤ (2#32).toNat ∧ s.dmemSize < (0x3FF#32).toNat + (2#32).toNat) ∧
      ((0xFF#32).toNat + (2#32).toNat ≤ s.dmemSize ∧ s.MeetsReader (0xFF#32).toNat (2#32).toNat) ∧
      (1 ≤ (2#32).toNat ∧ (0xFE#32).toNat + (2#32).toNat ≤ s.dmemSize ∧ ¬s.MeetsReader (0xFE#32).toNat (2#32).toNat ∧
        s.dmem.wf = true) := by
  unfold State.MeetsReader Meets; decide +kernel

/-- No writer; a reader over it; widths 0 and 13; a code that fills the last bit; a code that leaves it free. -/
theorem witness_WrAppendWritesACode :
    let s := writing 2 10
    let r := { s with rd := ⟨0x201, 2, 0, true⟩ }
    quiet.wr.valid = false ∧ (r.wr.valid = true ∧ r.MeetsReader r.wr.base.toNat r.wr.len.toNat) ∧
      (s.wr.valid = true ∧ ¬s.MeetsReader s.wr.base.toNat s.wr.len.toNat ∧ s.InDmem s.wr.base.toNat s.wr.len.toNat ∧
        s.dmem.wf = true) ∧
      ((0#32).toNat < 1 ∧ 12 < (13#32).toNat) ∧
      (1 ≤ (6#32).toNat ∧ (6#32).toNat ≤ 12 ∧ 8 * s.wr.len.toNat ≤ s.wr.cur.toNat + (6#32).toNat) ∧
      (1 ≤ (5#32).toNat ∧ (5#32).toNat ≤ 12 ∧ s.wr.cur.toNat + (5#32).toNat < 8 * s.wr.len.toNat) := by
  unfold State.MeetsReader Meets State.InDmem; decide +kernel

theorem witness_WriterTestsItsRoom : quiet.wr.valid = false ∧ (writing 2 0).wr.valid = true := by decide

/-! ## Witnesses: the commands of the dictionary -/

theorem witness_TblInitBuildsTheInitialTable :
    ((1#32).toNat < 2 ∧ 11 < (12#32).toNat) ∧ (2 ≤ (2#32).toNat ∧ (11#32).toNat ≤ 11) := by decide

/-- No table; a region one byte too long; a full table; the last free slot. -/
theorem witness_TblAppendGrowsTheTable :
    quiet.tbl.valid = false ∧ wideTable.valid = true ∧ ¬(0x3FF#32).toNat + (2#32).toNat ≤ quiet.dmemSize ∧
      (0x3FE#32).toNat + (2#32).toNat ≤ quiet.dmemSize ∧ 4097 ≤ fullTable.count ∧ wideTable.count < 4097 := by
  have h : wideTable.count = 4096 ∧ fullTable.count = 4097 := by
    simp only [Dict.count, table, initialSlots_two, List.length_append, List.length_replicate]; decide
  rw [h.1, h.2]; decide +kernel

/-- No table; a region one byte too long; a target that meets the reader; the first code not found; the last one found. -/
theorem witness_TblLookupCopiesTheSequence :
    let s := { reading 2 0 with tbl := table 3 [[7, 8]] }
    quiet.tbl.valid = false ∧ s.tbl.valid = true ∧ ¬(0x3FF#32).toNat + (2#32).toNat ≤ s.dmemSize ∧
      ((0xFF#32).toNat + (2#32).toNat ≤ s.dmemSize ∧ s.MeetsReader (0xFF#32).toNat (2#32).toNat) ∧
      ((0xFE#32).toNat + (2#32).toNat ≤ s.dmemSize ∧ ¬s.MeetsReader (0xFE#32).toNat (2#32).toNat ∧ s.dmem.wf = true) ∧
      s.tbl.count ≤ (7#32).toNat ∧ s.tbl.lookup (6#32).toNat = some [7, 8] := by
  unfold State.MeetsReader Meets; decide +kernel

theorem witness_TableReadsAndClear :
    quiet.tbl.valid = false ∧ (table 3 []).valid = true ∧ 2 ≤ (table 3 []).n.toNat ∧ (table 3 []).n.toNat ≤ 11 := by decide

/-! ## Witnesses: the composite commands' setup -/

theorem witness_LzwDecompressSetsUp :
    let s := { reading 2 0 with tbl := table 3 [] }
    quiet.rd.valid = false ∧ (reading 2 0).tbl.valid = false ∧ (s.rd.valid = true ∧ s.tbl.valid = true) ∧
      ¬(0x3FF#32).toNat + (2#32).toNat ≤ s.dmemSize ∧ s.MeetsReader (0x101#32).toNat (4#32).toNat ∧
      ((0x102#32).toNat + (4#32).toNat ≤ s.dmemSize ∧ ¬s.MeetsReader (0x102#32).toNat (4#32).toNat) := by
  unfold State.MeetsReader Meets; decide +kernel

theorem witness_LzwCompressSetsUp :
    let s := writing 8 0
    let r := { s with rd := ⟨0x207, 1, 0, true⟩ }
    quiet.wr.valid = false ∧ s.wr.valid = true ∧
      (¬(2 ≤ (1#32).toNat ∧ (1#32).toNat ≤ 11) ∧ ¬(2 ≤ (12#32).toNat ∧ (12#32).toNat ≤ 11)) ∧
      (2 ≤ (2#32).toNat ∧ (11#32).toNat ≤ 11) ∧
      (¬(0x3FF#32).toNat + (2#32).toNat ≤ s.dmemSize ∧
        ¬¬Meets (0x207#32).toNat (1#32).toNat s.wr.base.toNat s.wr.len.toNat) ∧
      ((0x208#32).toNat + (1#32).toNat ≤ r.dmemSize ∧ ¬Meets (0x208#32).toNat (1#32).toNat r.wr.base.toNat r.wr.len.toNat ∧
        r.MeetsReader r.wr.base.toNat r.wr.len.toNat) ∧ ¬s.MeetsReader s.wr.base.toNat s.wr.len.toNat := by
  unfold State.MeetsReader Meets; decide +kernel

theorem witness_GifParseSetsUp :
    quiet.dmemSize < (0x3FF#32).toNat + (2#32).toNat ∧ (0x3FE#32).toNat + (2#32).toNat ≤ quiet.dmemSize := by decide

/-! ## Witnesses: the accessors -/

/-- The table a selector names, as the statement says it. -/
def Names (s : State) (sel : Word) (t : Option ColorTable) : Prop :=
  sel.toNat = 0 ∧ t = s.cont.gct ∨ ∃ k img, sel.toNat = k + 1 ∧ s.cont.blocks[k]? = some (.image img) ∧ t = img.lct

/-- No container; a selector past the blocks; an image without a local table; the global table, an index at its end and its last,
a colour at index 1, and a colour it does not hold. -/
theorem witness_ColorTablesAreRead :
    quiet.cont.valid = false ∧ parsed.cont.valid = true ∧ (∀ t, ¬Names parsed 2 t) ∧ Names parsed 1 none ∧
      Names parsed 0 (some [⟨0, 0, 0⟩, ⟨0xFF, 0xFF, 0xFF⟩]) ∧
      (let tab : ColorTable := [⟨0, 0, 0⟩, ⟨0xFF, 0xFF, 0xFF⟩]
       tab.length ≤ (2#32).toNat ∧ tab[(1#32).toNat]? = some ⟨0xFF, 0xFF, 0xFF⟩ ∧
         (tab[1]? = some ⟨0xFF, 0xFF, 0xFF⟩ ∧ ∀ j, j < 1 → tab[j]? ≠ some ⟨0xFF, 0xFF, 0xFF⟩) ∧
         ∀ i : Nat, tab[i]? ≠ some ⟨0xFF, 0, 0⟩) := by
  refine ⟨rfl, rfl, ?_, .inr ⟨0, _, rfl, rfl, rfl⟩, .inl ⟨rfl, rfl⟩, by decide, by decide, ⟨by decide, by decide⟩, ?_⟩
  · rintro t (⟨h, -⟩ | ⟨k, img, h, hk, -⟩)
    · exact absurd h (by decide)
    · have : k = 1 := Nat.succ.inj h.symm
      subst this
      exact absurd hk (by simp [parsed])
  · rintro (_ | _ | i) <;> simp

/-- One block of each kind, the image last. -/
def oneOfEach : List Block :=
  [.comment [0x68], .graphicsControl 1 10 2, .application #v[1, 2, 3, 4, 5, 6, 7, 8] #v[1, 2, 3] [9],
   .plainText #v[1, 2, 3, 4, 5, 6, 7, 8, 9, 10, 11, 12], .image ⟨0, 0, 2, 1, 0, none, 2, [(0, 5)], 1⟩]

/-- A container of them. -/
def assorted : State := { parsed with cont := ⟨true, Header.zero, none, oneOfEach⟩ }

/-- A block past the last; each kind of block; a written cell, an unwritten one, and one past the image. -/
theorem witness_ContReadReadsTheContainer :
    quiet.cont.valid = false ∧ assorted.cont.valid = true ∧ assorted.cont.blocks.length ≤ (5#32).toNat ∧
      (∀ k, k < 6 → word k ≠ 0xFFFFFFFF#32) ∧
      assorted.cont.blocks[(0#32).toNat]? = some (.comment [0x68]) ∧
      assorted.cont.blocks[(1#32).toNat]? = some (.graphicsControl 1 10 2) ∧
      assorted.cont.blocks[(2#32).toNat]? = some (.application #v[1, 2, 3, 4, 5, 6, 7, 8] #v[1, 2, 3] [9]) ∧
      assorted.cont.blocks[(3#32).toNat]? = some (.plainText #v[1, 2, 3, 4, 5, 6, 7, 8, 9, 10, 11, 12]) ∧
      (let img : Image := ⟨0, 0, 2, 1, 0, none, 2, [(0, 5)], 1⟩
       assorted.cont.blocks[(4#32).toNat]? = some (.image img) ∧ img.width.toNat * img.height.toNat ≤ (2#32).toNat ∧
         ((1#32).toNat < img.width.toNat * img.height.toNat ∧ img.pixels.read (1#32).toNat = none) ∧
         img.pixels.read (0#32).toNat = some 5) ∧
      ([0x68#8][(0#32).toNat]? = some 0x68#8 ∧ [0x68#8].length ≤ (1#32).toNat) := by
  rw [show assorted.cont.blocks = oneOfEach from rfl]
  exact ⟨rfl, rfl, by decide, fun k hk h => by
    have := congrArg BitVec.toNat h
    simp at this; omega, rfl, rfl, rfl, rfl, ⟨rfl, by decide, ⟨by decide, rfl⟩, rfl⟩, rfl, by decide⟩

/-! ## Witnesses: the life of a command -/

theorem witness_HostWritesOfCsrs :
    (quiet.status.busy = false ∧ quiet.status.fault = false) ∧
      ((quiet.raise .range 0 0).status.busy = false ∧ opcodeOf 0x1FF#32 = 0xFF#8) ∧
      ((quiet.raise .range 0 0).status.fault = true ∧ opcodeOf 0xFE#32 ≠ 0xFF#8) ∧ (busyIn 0 .idle quiet).status.busy = true := by
  decide

/-- Accesses of another shape, and the first offset above the window. -/
theorem witness_HostReadsOfCsrs :
    ¬((1 : Nat) = 4 ∧ 0 % 4 = 0) ∧ ¬((4 : Nat) = 4 ∧ 2 % 4 = 0) ∧ 32 ≤ 32 := by decide

theorem witness_HostReachesDmemWhenIdle :
    (busyIn 0 .idle quiet).status.busy = true ∧ (quiet.status.busy = false ∧ quiet.dmemSize ≤ 1024) ∧
      1023 < quiet.dmemSize ∧ quiet.dmem.wf = true := by decide +kernel

theorem witness_StepRunsTheAcceptedCommand :
    let s := { busyIn 0x02 .idle (reading 2 0) with lat := ⟨3, 0, 0, 0⟩ }
    let after := busyIn 0xFF (.parse .ext) quiet
    s.host.turns = [] ∧ s.status.busy = true ∧ s.status.fsm = .idle ∧
      decodeCommand ⟨word s.cmd.toNat, s.lat.a0, s.lat.a1, s.lat.a2, s.lat.a3⟩ = .ok (.rdConsume 3) ∧
      (after.status.busy = true ∧ after.cmd = 0xFF#8) ∧
      decodeCommand ⟨word after.cmd.toNat, after.lat.a0, after.lat.a1, after.lat.a2, after.lat.a3⟩ = .ok .softReset ∧
      (∃ t : State, t.host.turns = .engine :: []) ∧ ∃ t : State, t.host.turns = .host :: [] := by
  refine ⟨rfl, rfl, rfl, by decide +kernel, ⟨rfl, rfl⟩, by decide +kernel, ⟨{ quiet with host := ⟨[], [.engine], []⟩ }, rfl⟩,
    { quiet with host := ⟨[], [.host], []⟩ }, rfl⟩

/-- The last block of a region, in each of the three states that fetch one. -/
theorem witness_StepRunsTheBlockAtTheCursor :
    ∀ p ∈ [(ParState.ext, Instr.gifExtComment [], [0x21, 0xFE, 0]), (.ext, .gifExtension 0x99, [0x21, 0x99]),
        (.image, .gifImage 0 0 2 2 0x81, [0x2C, 0, 0, 0, 0, 2, 0, 2, 0, 0x81]), (.label, .gifTrailer, [0x3B])],
      let s := parsing p.1 p.2.2
      s.runs (.parse p.1) ∧ s.host.turns = [] ∧ s.InDmem s.par.base s.par.len ∧ s.par.pos.toNat ≤ s.par.len ∧
        p.2.1.wellFormed = true ∧ encodeBlock p.2.1 = some (p.2.2.map byte) ∧
        s.par.pos.toNat + p.2.2.length = s.par.len ∧
        s.bytesAt s.par.pos.toNat (s.par.pos.toNat + p.2.2.length) = p.2.2.map byte := by
  unfold State.runs State.running State.InDmem; decide +kernel

theorem witness_AssembledCommandRuns :
    let s := quiet.withScript (assemble (.rdInit 0x100 2 0) ++ [.wait])
    let r := (quiet.raise .range 0 0).withScript (assemble .softReset)
    (Instr.rdInit 0x100 2 0).format = .command ∧ s.status.busy = false ∧ s.status.fsm = .idle ∧ s.status.fault = false ∧
      s.host.turns = [] ∧ s.host.script = assemble (.rdInit 0x100 2 0) ++ [.wait] ∧ r.status.busy = false ∧
      r.host.script = assemble .softReset ++ [] := by decide +kernel

/-- The row of RD_INIT, with no operand, with all three and with one too many, and a mnemonic of no row. -/
theorem witness_HostProgramsAssemble :
    (∃ r ∈ commandRows, commandOpcode (.rdInit 1 2 3) = some (byte r.pattern) ∧ ([] : List Word).length ≤ r.reads ∧
      [1#32, 2, 3].length ≤ r.reads ∧ r.reads < [1#32, 2, 3, 4].length) ∧
      ∀ r ∈ commandRows, r.mnemonic ≠ "HALT" := by decide +kernel

/-- R58: an omitted operand is written as 0, an operand too many is an error, and so is a mnemonic that R56 does not list. -/
theorem test_assemble_lines :
    assembleLine "RD_INIT" [0x100#32, 6#32] =
        some [.csrWrite 4 0x08 0x100, .csrWrite 4 0x0C 6, .csrWrite 4 0x10 0, .csrWrite 4 0x00 0x01] ∧
      assembleLine "NOP" [0#32] = none ∧ assembleLine "HALT" [] = none := by decide +kernel

/-! ## Witnesses: the decompress machine -/

/-- LZW_DECOMPRESS in state `st`: a reader over these bytes, with its cursor at `cur`; an output of `cap` bytes at 0x300 that holds
`pos`. -/
def decoding (st : DecState) (bytes : List Nat) (cur : Nat) (tbl : Dict) (cap pos : Nat) (prev : Option Seq) (cfg : Policy) : State :=
  busyIn 0x20 (.decode false st)
    { holding 0x100 bytes with
      rd := ⟨0x100, word bytes.length, word cur, true⟩
      tbl := tbl
      out := ⟨0x300, word cap, word pos, .dmem⟩
      dec := ⟨prev, false⟩
      cfg := cfg }

/-- The same inside GIF_PARSE: the bytes are a sub-block, the output the pixels of a 2 by 2 image. -/
def subBlock (st : DecState) (bytes : List Nat) (cur : Nat) (prev : Option Seq) : State :=
  busyIn 0x30 (.decode true st)
    { holding 0x100 bytes with
      rd := ⟨0x100, word bytes.length, word cur, true⟩
      tbl := table 3 []
      out := ⟨0, 4, 0, .pixels⟩
      dec := ⟨prev, false⟩
      par := ⟨0x100, bytes.length, 0, ⟨0, 0, 2, 2, 0, none, 2, [], 0⟩, 0, byte bytes.length, 0, false⟩ }

/-- `CONFIG` = 0x9: `BAD_CODE` and `RD_OVERRUN`. -/
abbrev strict : Policy := ⟨true, false, false, true⟩

/-- Width 13; an overrun by one bit; the clear code in the region's last three bits, under `RD_OVERRUN` = 1 and inside a parse; another
code. -/
theorem witness_DecoderChecksTheClearCode :
    (let s := decoding .checkClear [0, 0] 0 wideTable 4 0 none .zero
     s.Inv ∧ s.runs (.decode false .checkClear) ∧ 12 < s.tbl.width.toNat) ∧
    (let s := decoding .checkClear [0] 6 (table 3 []) 4 0 none strict
     s.Inv ∧ s.runs (.decode false .checkClear) ∧
       s.tbl.width.toNat ≤ 12 ∧ 8 * s.rd.len.toNat < s.rd.cur.toNat + s.tbl.width.toNat ∧ s.cfg.rdOverrun = true) ∧
    (let s := decoding .checkClear [0x80] 5 (table 3 []) 4 0 none strict
     s.Inv ∧ s.runs (.decode false .checkClear) ∧
       s.rd.cur.toNat + s.tbl.width.toNat = 8 * s.rd.len.toNat ∧ s.nextCode s.tbl.width.toNat = 2 ^ s.tbl.n.toNat) ∧
    (let s := subBlock .checkClear [0x44, 2] 0 none
     s.Inv ∧ s.runs (.decode true .checkClear) ∧
       s.rd.cur.toNat + s.tbl.width.toNat ≤ 8 * s.rd.len.toNat ∧ s.nextCode s.tbl.width.toNat = 2 ^ s.tbl.n.toNat) ∧
    (let s := decoding .checkClear [] 0 (table 3 []) 4 0 none .zero
     s.Inv ∧ s.runs (.decode false .checkClear) ∧
       8 * s.rd.len.toNat < s.rd.cur.toNat + s.tbl.width.toNat ∧ s.cfg.rdOverrun = false ∧
       s.nextCode s.tbl.width.toNat ≠ 2 ^ s.tbl.n.toNat) :=
  ⟨meets (by decide +kernel) (fun _ => table_wide) (by decide +kernel),
   meets (by decide +kernel) (fun _ => table_initial) (by decide +kernel),
   meets (by decide +kernel) (fun _ => table_initial) (by decide +kernel),
   meets (by decide +kernel) (fun _ => table_initial) (by decide +kernel),
   meets (by decide +kernel) (fun _ => table_initial) (by decide +kernel)⟩

/-- Width 13; an overrun by one bit; the first code the table does not hold; a literal; the clear code's empty sequence. -/
theorem witness_DecoderEmitsTheFirstCode :
    (let s := decoding .first [0, 0] 0 wideTable 4 0 none .zero
     s.Inv ∧ s.runs (.decode false .first) ∧ 12 < s.tbl.width.toNat) ∧
    (let s := decoding .first [0] 6 (table 3 []) 4 0 none strict
     s.Inv ∧ s.runs (.decode false .first) ∧
       s.tbl.width.toNat ≤ 12 ∧ 8 * s.rd.len.toNat < s.rd.cur.toNat + s.tbl.width.toNat ∧ s.cfg.rdOverrun = true) ∧
    (let s := decoding .first [6] 0 (table 3 []) 4 0 none strict
     s.Inv ∧ s.runs (.decode false .first) ∧
       s.rd.cur.toNat + s.tbl.width.toNat ≤ 8 * s.rd.len.toNat ∧ s.tbl.count ≤ s.nextCode s.tbl.width.toNat) ∧
    (let s := subBlock .first [3] 0 none
     s.Inv ∧ s.runs (.decode true .first) ∧
       s.rd.cur.toNat + s.tbl.width.toNat ≤ 8 * s.rd.len.toNat ∧ s.tbl.lookup (s.nextCode s.tbl.width.toNat) = some [3]) ∧
    (let s := decoding .first [4] 0 (table 3 []) 0 0 none .zero
     s.Inv ∧ s.runs (.decode false .first) ∧
       s.rd.cur.toNat + s.tbl.width.toNat ≤ 8 * s.rd.len.toNat ∧ s.tbl.lookup (s.nextCode s.tbl.width.toNat) = some []) :=
  ⟨meets (by decide +kernel) (fun _ => table_wide) (by decide +kernel),
   meets (by decide +kernel) (fun _ => table_initial) (by decide +kernel),
   meets (by decide +kernel) (fun _ => table_initial) (by decide +kernel),
   meets (by decide +kernel) (fun _ => table_initial) (by decide +kernel),
   meets (by decide +kernel) (fun _ => table_initial) (by decide +kernel)⟩

/-- A full output; two bits left, inside a parse; width 13; the end code; the clear code in the last three bits. -/
theorem witness_DecoderLoopEndsAndClears :
    (let s := decoding .loop [0, 0] 0 (table 3 []) 2 2 none .zero
     s.Inv ∧ s.runs (.decode false .loop) ∧ s.out.cap.toNat ≤ s.out.pos.toNat) ∧
    (let s := subBlock .loop [0] 6 none
     s.Inv ∧ s.runs (.decode true .loop) ∧ 8 * s.rd.len.toNat - s.rd.cur.toNat < s.tbl.width.toNat) ∧
    (let s := decoding .loop [0, 0] 3 wideTable 2 0 none .zero
     s.Inv ∧ s.runs (.decode false .loop) ∧
       ¬s.out.cap.toNat ≤ s.out.pos.toNat ∧ ¬8 * s.rd.len.toNat - s.rd.cur.toNat < s.tbl.width.toNat ∧
       12 < s.tbl.width.toNat) ∧
    (let s := subBlock .loop [5] 0 none
     s.Inv ∧ s.runs (.decode true .loop) ∧
       ¬s.out.cap.toNat ≤ s.out.pos.toNat ∧ ¬8 * s.rd.len.toNat - s.rd.cur.toNat < s.tbl.width.toNat ∧
       s.nextCode s.tbl.width.toNat = 2 ^ s.tbl.n.toNat + 1) ∧
    (let s := decoding .loop [0x80] 5 (table 3 []) 2 1 (some [1]) ⟨false, true, false, false⟩
     s.Inv ∧ s.runs (.decode false .loop) ∧
       ¬s.out.cap.toNat ≤ s.out.pos.toNat ∧ ¬8 * s.rd.len.toNat - s.rd.cur.toNat < s.tbl.width.toNat ∧
       s.nextCode s.tbl.width.toNat = 2 ^ s.tbl.n.toNat) :=
  ⟨meets (by decide +kernel) (fun _ => table_initial) (by decide +kernel),
   meets (by decide +kernel) (fun _ => table_initial) (by decide +kernel),
   meets (by decide +kernel) (fun _ => table_wide) (by decide +kernel),
   meets (by decide +kernel) (fun _ => table_initial) (by decide +kernel),
   meets (by decide +kernel) (fun _ => table_initial) (by decide +kernel)⟩

theorem table_empty_entry : (table 3 [[]]).Inv := table_inv (by decide) (by decide +kernel)

/-- One byte of room, and the code in the last three bits: an entry that is empty; a literal after no previous sequence, after an
empty one, and after one of two bytes. -/
theorem witness_DecoderHandlesAFoundCode :
    (let s := decoding .loop [0xC0] 5 (table 3 [[]]) 1 0 none .zero
     s.Inv ∧ s.runs (.decode false .loop) ∧ s.out.pos.toNat < s.out.cap.toNat ∧
       s.rd.cur.toNat + s.tbl.width.toNat ≤ 8 * s.rd.len.toNat ∧ s.nextCode s.tbl.width.toNat = 6 ∧ s.tbl.lookup 6 = some []) ∧
    (let s := decoding .loop [0x60] 5 (table 3 []) 1 0 none .zero
     s.Inv ∧ s.runs (.decode false .loop) ∧ s.out.pos.toNat < s.out.cap.toNat ∧
       s.rd.cur.toNat + s.tbl.width.toNat ≤ 8 * s.rd.len.toNat ∧ s.nextCode s.tbl.width.toNat = 3 ∧ s.tbl.lookup 3 = some [3] ∧
       s.dec.prev = none) ∧
    (let s := subBlock .loop [0x60] 5 (some [])
     s.Inv ∧ s.runs (.decode true .loop) ∧ s.out.pos.toNat < s.out.cap.toNat ∧
       s.rd.cur.toNat + s.tbl.width.toNat ≤ 8 * s.rd.len.toNat ∧ s.nextCode s.tbl.width.toNat = 3 ∧ s.tbl.lookup 3 = some [3] ∧
       s.dec.prev = some []) ∧
    (let s := decoding .loop [0x60] 5 (table 3 []) 1 0 (some [1, 2]) .zero
     s.Inv ∧ s.runs (.decode false .loop) ∧ s.out.pos.toNat < s.out.cap.toNat ∧
       s.rd.cur.toNat + s.tbl.width.toNat ≤ 8 * s.rd.len.toNat ∧ s.nextCode s.tbl.width.toNat = 3 ∧ s.tbl.lookup 3 = some [3] ∧
       s.dec.prev = some [1, 2]) :=
  ⟨meets (by decide +kernel) (fun _ => table_empty_entry) (by decide +kernel),
   meets (by decide +kernel) (fun _ => table_initial) (by decide +kernel),
   meets (by decide +kernel) (fun _ => table_initial) (by decide +kernel),
   meets (by decide +kernel) (fun _ => table_initial) (by decide +kernel)⟩

/-- Code 7 of a table of 6 under `BAD_CODE` = 1; code 6 under it, without a previous sequence; code 7 without it, after a sequence. -/
theorem witness_DecoderHandlesAnUndefinedCode :
    (let s := decoding .loop [0xE0] 5 (table 3 []) 1 0 (some [1]) strict
     s.Inv ∧ s.runs (.decode false .loop) ∧ s.out.pos.toNat < s.out.cap.toNat ∧
       s.rd.cur.toNat + s.tbl.width.toNat ≤ 8 * s.rd.len.toNat ∧ s.tbl.count < s.nextCode s.tbl.width.toNat ∧
       s.cfg.badCode = true) ∧
    (let s := decoding .loop [0xC0] 5 (table 3 []) 1 0 none strict
     s.Inv ∧ s.runs (.decode false .loop) ∧ s.out.pos.toNat < s.out.cap.toNat ∧
       s.rd.cur.toNat + s.tbl.width.toNat ≤ 8 * s.rd.len.toNat ∧ s.nextCode s.tbl.width.toNat = s.tbl.count ∧
       s.cfg.badCode = true ∧ s.dec.prev = none) ∧
    (let s := subBlock .loop [0xC0] 5 (some [])
     s.Inv ∧ s.runs (.decode true .loop) ∧ s.out.pos.toNat < s.out.cap.toNat ∧
       s.rd.cur.toNat + s.tbl.width.toNat ≤ 8 * s.rd.len.toNat ∧ s.nextCode s.tbl.width.toNat = s.tbl.count ∧
       s.dec.prev = some []) ∧
    (let s := decoding .loop [0xE0] 5 (table 3 []) 1 0 (some [1]) .zero
     s.Inv ∧ s.runs (.decode false .loop) ∧ s.out.pos.toNat < s.out.cap.toNat ∧
       s.rd.cur.toNat + s.tbl.width.toNat ≤ 8 * s.rd.len.toNat ∧ s.tbl.count < s.nextCode s.tbl.width.toNat ∧
       s.cfg.badCode = false ∧ s.dec.prev = some [1]) :=
  ⟨meets (by decide +kernel) (fun _ => table_initial) (by decide +kernel),
   meets (by decide +kernel) (fun _ => table_initial) (by decide +kernel),
   meets (by decide +kernel) (fun _ => table_initial) (by decide +kernel),
   meets (by decide +kernel) (fun _ => table_initial) (by decide +kernel)⟩

/-! ## Witnesses: the compress machine -/

/-- LZW_COMPRESS in state `st`: these input bytes, `idx` of them consumed; a writer of `len` bytes with its cursor at `cur`. -/
def encoding (st : EncState) (bytes : List Nat) (idx : Nat) (buf : Seq) (len cur : Nat) (tbl : Dict) (omits : Bool) : State :=
  busyIn 0x21 (.compress st)
    { holding 0x100 bytes with
      wr := ⟨0x200, word len, word cur, true⟩
      tbl := tbl
      enc := ⟨2, 0x100, bytes.length, idx, buf, 0, omits, omits⟩ }

theorem full_count : fullTable.count = 4097 := by
  simp only [Dict.count, table, initialSlots_two, List.length_append, List.length_replicate]; rfl

/-- A full table is written at width 13. -/
theorem encWidth_full {s : State} (h : s.tbl = fullTable) (hn : s.enc.n = 2) : 12 < s.encWidth := by
  unfold State.encWidth
  rw [h, hn, full_count]
  decide +kernel

/-- Each state with its code omitted or absent; then with the last code that fits, with the first that does not, and, on a full
table, at width 13. -/
theorem witness_EncoderStartsFlushesAndEnds :
    (let s := encoding .start [] 0 [] 1 0 (table 3 []) true
     s.Inv ∧ s.runs (.compress .start) ∧ s.enc.omitClear = true) ∧
    (let s := encoding .start [] 0 [] 1 4 (table 3 []) false
     s.Inv ∧ s.runs (.compress .start) ∧
       s.enc.omitClear = false ∧ s.encWidth ≤ 12 ∧ s.wr.cur.toNat + s.encWidth < 8 * s.wr.len.toNat) ∧
    (let s := encoding .start [1] 0 [] 1 0 fullTable false
     s.Inv ∧ s.runs (.compress .start) ∧ s.enc.omitClear = false ∧ 12 < s.encWidth) ∧
    (let s := encoding .start [1] 0 [] 1 5 (table 3 []) false
     s.Inv ∧ s.runs (.compress .start) ∧
       s.enc.omitClear = false ∧ s.encWidth ≤ 12 ∧ 8 * s.wr.len.toNat ≤ s.wr.cur.toNat + s.encWidth) ∧
    (let s := encoding .flush [] 0 [] 1 0 (table 3 []) false
     s.Inv ∧ s.runs (.compress .flush) ∧ s.enc.buf = []) ∧
    (let s := encoding .flush [1] 1 [1] 1 4 (table 3 []) false
     s.Inv ∧ s.runs (.compress .flush) ∧
       s.enc.buf ≠ [] ∧ s.encWidth ≤ 12 ∧ s.wr.cur.toNat + s.encWidth < 8 * s.wr.len.toNat) ∧
    (let s := encoding .eoi [1] 1 [1] 1 0 (table 3 []) true
     s.Inv ∧ s.runs (.compress .eoi) ∧ s.enc.omitEoi = true) ∧
    (let s := encoding .eoi [1] 1 [1] 1 4 (table 3 []) false
     s.Inv ∧ s.runs (.compress .eoi) ∧
       s.enc.omitEoi = false ∧ s.encWidth ≤ 12 ∧ s.wr.cur.toNat + s.encWidth < 8 * s.wr.len.toNat) :=
  ⟨meets (by decide +kernel) (fun _ => table_initial) (by decide +kernel),
   meets (by decide +kernel) (fun _ => table_initial) (by decide +kernel),
   meets (by decide +kernel) (fun _ => table_full)
     ⟨rfl, encWidth_full rfl rfl⟩,
   meets (by decide +kernel) (fun _ => table_initial) (by decide +kernel),
   meets (by decide +kernel) (fun _ => table_initial) (by decide +kernel),
   meets (by decide +kernel) (fun _ => table_initial) (by decide +kernel),
   meets (by decide +kernel) (fun _ => table_initial) (by decide +kernel),
   meets (by decide +kernel) (fun _ => table_initial) (by decide +kernel)⟩

/-- Which sequences the initial table does not hold. -/
theorem absent {w : Nat} {k : Nat} {q : Seq} (h : q ∉ initialSlots 2) (h0 : q ≠ [0]) (c : Nat) :
    (table w (List.replicate k [0])).lookup c ≠ some q := by
  intro hc
  have hm := List.mem_of_getElem? hc
  rcases List.mem_append.mp hm with hi | hr
  · exact h hi
  · exact h0 (List.eq_of_mem_replicate hr)

/-- The first value that is no literal; the last one, which the table holds; a pair it does not hold, with the last code that fits,
with the first that does not, and, on a full table, at width 13. -/
theorem witness_EncoderScansOneByte :
    (let s := encoding .scan [1, 4] 1 [1] 1 0 (table 3 []) false
     s.Inv ∧ s.runs (.compress .scan) ∧ 2 ^ s.enc.n ≤ (s.peek (s.enc.src + s.enc.idx)).toNat) ∧
    (let s := encoding .scan [3] 0 [] 1 0 (table 3 []) false
     s.Inv ∧ s.runs (.compress .scan) ∧ (s.peek (s.enc.src + s.enc.idx)).toNat < 2 ^ s.enc.n ∧
       s.tbl.lookup 3 = some (s.enc.buf ++ [s.peek (s.enc.src + s.enc.idx)])) ∧
    (let s := encoding .scan [0, 1] 1 [0] 1 4 (table 3 (List.replicate 0 [0])) false
     s.Inv ∧ s.runs (.compress .scan) ∧ (s.enc.buf ++ [s.peek (s.enc.src + s.enc.idx)] = [0, 1] ∧
       (∀ c, s.tbl.lookup c ≠ some [0, 1]) ∧ s.encWidth ≤ 12 ∧ s.wr.cur.toNat + s.encWidth < 8 * s.wr.len.toNat)) ∧
    (let s := encoding .scan [0, 1] 1 [0] 1 5 (table 3 (List.replicate 0 [0])) false
     s.Inv ∧ s.runs (.compress .scan) ∧ (s.enc.buf ++ [s.peek (s.enc.src + s.enc.idx)] = [0, 1] ∧
       (∀ c, s.tbl.lookup c ≠ some [0, 1]) ∧ s.encWidth ≤ 12 ∧ 8 * s.wr.len.toNat ≤ s.wr.cur.toNat + s.encWidth)) ∧
    (let s := encoding .scan [0, 1] 1 [0] 1 5 fullTable false
     s.Inv ∧ s.runs (.compress .scan) ∧ (s.enc.buf ++ [s.peek (s.enc.src + s.enc.idx)] = [0, 1] ∧
       (∀ c, s.tbl.lookup c ≠ some [0, 1]) ∧ 12 < s.encWidth)) :=
  ⟨meets (by decide +kernel) (fun _ => table_initial) (by decide +kernel),
   meets (by decide +kernel) (fun _ => table_initial) (by decide +kernel),
   meets (by decide +kernel) (fun _ => table_initial)
     ⟨by decide +kernel, absent (by decide) (by decide), by decide +kernel, by decide +kernel⟩,
   meets (by decide +kernel) (fun _ => table_initial)
     ⟨by decide +kernel, absent (by decide) (by decide), by decide +kernel, by decide +kernel⟩,
   meets (by decide +kernel) (fun _ => table_full)
     ⟨by decide +kernel, absent (by decide) (by decide),
      encWidth_full rfl rfl⟩⟩

/-! ## Witnesses: the parser -/

/-- GIF_PARSE in state `st`, over a region of these bytes, with its cursor at `pos`: the image being built is `width` by 1 with the
local table's size bits 0; the last sub-block's length is 2. -/
def parseAt (st : ParState) (bytes : List Nat) (pos width : Nat) (gctFlag lctSizing : Bool) : State :=
  busyIn 0x30 (.parse st)
    { holding 0x100 bytes with
      tbl := table 3 []
      par := ⟨0x100, bytes.length, word pos, ⟨0, 0, BitVec.ofNat 16 width, 1, 0x80, none, 0, [], 0⟩, 0, 2, 0, gctFlag⟩
      cfg := ⟨false, false, lctSizing, false⟩ }

/-- A header of exactly 13 bytes, and a global table of 2 entries that ends the region. -/
theorem witness_ParserReadsHeaderAndGlobalTable :
    (let s := parseAt .header [0x47, 0x49, 0x46, 0x38, 0x39, 0x61, 2, 0, 2, 0, 0x80, 0, 0] 0 1 false false
     s.Inv ∧ s.runs (.parse .header) ∧ 13 ≤ s.par.len) ∧
    (let s := parseAt .gct [7, 0, 0, 0, 255, 255, 255] 1 1 true false
     s.Inv ∧ s.runs (.parse .gct) ∧ s.par.pos.toNat + 3 * 2 ^ (s.par.gSize.toNat + 1) ≤ s.par.len) :=
  ⟨meets (by decide +kernel) (fun _ => table_initial) (by decide +kernel),
   meets (by decide +kernel) (fun _ => table_initial) (by decide +kernel)⟩

/-- Each label, and another byte, as the last byte of the region. -/
theorem witness_ParserDispatchesOnLabels (b : Nat) (hb : b ∈ [0x21, 0x2C, 0x3B, 0x00]) :
    let s := parseAt .label [9, b] 1 1 false false
    s.Inv ∧ s.runs (.parse .label) ∧ s.par.pos.toNat < s.par.len ∧ s.byteAt s.par.pos.toNat = byte b := by
  simp only [List.mem_cons, List.not_mem_nil, or_false] at hb
  rcases hb with rfl | rfl | rfl | rfl <;> exact meets (by decide +kernel) (fun _ => table_initial) (by decide +kernel)

/-- Each kind of extension, as short as it can be, at the end of the region. -/
theorem witness_ParserReadsExtensions :
    (let s := parseAt .ext [0x21, 0xFE, 0] 0 1 false false
     s.Inv ∧ s.runs (.parse .ext) ∧ s.par.pos.toNat + 2 ≤ s.par.len ∧ s.byteAt 1 = 0xFE#8 ∧ s.ZeroAt 2 2) ∧
    (let s := parseAt .ext [0x21, 0xF9, 4, 1, 10, 0, 1, 0] 0 1 false false
     s.Inv ∧ s.runs (.parse .ext) ∧ s.par.pos.toNat + 8 ≤ s.par.len ∧ s.byteAt 1 = 0xF9#8) ∧
    (let s := parseAt .ext [0x21, 0xFF, 11, 1, 2, 3, 4, 5, 6, 7, 8, 0, 0, 0, 9, 0] 0 1 false false
     s.Inv ∧ s.runs (.parse .ext) ∧ s.par.pos.toNat + 14 ≤ s.par.len ∧ s.byteAt 1 = 0xFF#8 ∧ s.ZeroAt 14 15) ∧
    (let s := parseAt .ext [0x21, 1, 12, 1, 2, 3, 4, 5, 6, 7, 8, 9, 10, 11, 12] 0 1 false false
     s.Inv ∧ s.runs (.parse .ext) ∧ s.par.pos.toNat + 15 ≤ s.par.len ∧ s.byteAt 1 = 0x01#8) ∧
    (let s := parseAt .ext [0x21, 0x99] 0 1 false false
     s.Inv ∧ s.runs (.parse .ext) ∧ s.par.pos.toNat + 2 ≤ s.par.len ∧ s.byteAt 1 = 0x99#8) :=
  ⟨meets (by decide +kernel) (fun _ => table_initial) (by unfold State.ZeroAt; decide +kernel),
   meets (by decide +kernel) (fun _ => table_initial) (by decide +kernel),
   meets (by decide +kernel) (fun _ => table_initial) (by unfold State.ZeroAt; decide +kernel),
   meets (by decide +kernel) (fun _ => table_initial) (by decide +kernel),
   meets (by decide +kernel) (fun _ => table_initial) (by decide +kernel)⟩

/-- A descriptor that ends the region; a local table of 2 entries by its own size, by the global one's, and without a size; and the
code sizes at both ends of the legal range. -/
theorem witness_ParserReadsImageHeads :
    (let s := parseAt .image [0x2C, 0, 0, 0, 0, 2, 0, 2, 0, 0x80] 0 1 false false
     s.Inv ∧ s.runs (.parse .image) ∧ s.par.pos.toNat + 10 ≤ s.par.len) ∧
    (let s := parseAt .lct [1, 2, 3, 4, 5, 6] 0 1 false true
     s.Inv ∧ s.runs (.parse .lct) ∧ s.cfg.lctSizing = true ∧
       s.par.pos.toNat + 3 * 2 ^ ((s.par.img.ipacked.extractLsb' 0 3).toNat + 1) ≤ s.par.len) ∧
    (let s := parseAt .lct [1, 2, 3, 4, 5, 6] 0 1 true false
     s.Inv ∧ s.runs (.parse .lct) ∧ s.cfg.lctSizing = false ∧ s.par.gctFlag = true ∧
       s.par.pos.toNat + 3 * 2 ^ (s.par.gSize.toNat + 1) ≤ s.par.len) ∧
    (let s := parseAt .lct [] 0 1 false false
     s.Inv ∧ s.runs (.parse .lct) ∧ s.cfg.lctSizing = false ∧ s.par.gctFlag = false) ∧
    ∀ cs ∈ [1, 2, 11, 12],
      let s := parseAt .codeSize [cs] 0 1 false false
      s.Inv ∧ s.runs (.parse .codeSize) ∧ s.par.pos.toNat + 1 ≤ s.par.len ∧ (s.byteAt s.par.pos.toNat).toNat = cs := by
  refine ⟨meets (by decide +kernel) (fun _ => table_initial) (by decide +kernel),
    meets (by decide +kernel) (fun _ => table_initial) (by decide +kernel),
    meets (by decide +kernel) (fun _ => table_initial) (by decide +kernel),
    meets (by decide +kernel) (fun _ => table_initial) (by decide +kernel), ?_⟩
  intro cs hc
  simp only [List.mem_cons, List.not_mem_nil, or_false] at hc
  rcases hc with rfl | rfl | rfl | rfl <;> exact meets (by decide +kernel) (fun _ => table_initial) (by decide +kernel)

/-- The terminator and a length, each the last byte of the region; the sub-block's two bytes at its end, with one pixel to fill and
with none. -/
theorem witness_ParserFeedsSubBlocks :
    (let s := parseAt .subLen [7, 0] 1 1 false false
     s.Inv ∧ s.runs (.parse .subLen) ∧ s.par.pos.toNat + 1 ≤ s.par.len ∧ s.byteAt s.par.pos.toNat = 0#8) ∧
    (let s := parseAt .subLen [7, 255] 1 1 false false
     s.Inv ∧ s.runs (.parse .subLen) ∧ s.par.pos.toNat + 1 ≤ s.par.len ∧ s.byteAt s.par.pos.toNat ≠ 0#8) ∧
    (let s := parseAt .subData [2, 9, 9] 1 1 false false
     s.Inv ∧ s.runs (.parse .subData) ∧ s.par.pos.toNat + s.par.subLen.toNat ≤ s.par.len ∧
       s.par.img.filled < s.par.img.width.toNat * s.par.img.height.toNat) ∧
    (let s := parseAt .subData [2, 9, 9] 1 0 false false
     s.Inv ∧ s.runs (.parse .subData) ∧ s.par.pos.toNat + s.par.subLen.toNat ≤ s.par.len ∧
       s.par.img.width.toNat * s.par.img.height.toNat ≤ s.par.img.filled) :=
  ⟨meets (by decide +kernel) (fun _ => table_initial) (by decide +kernel),
   meets (by decide +kernel) (fun _ => table_initial) (by decide +kernel),
   meets (by decide +kernel) (fun _ => table_initial) (by decide +kernel),
   meets (by decide +kernel) (fun _ => table_initial) (by decide +kernel)⟩

/-- Each parser state one byte short, and each text without a terminator. -/
theorem witness_TruncationEndsTheParse :
    (let s := parseAt .header [0, 0, 0, 0, 0, 0, 0, 0, 0, 0, 0, 0] 0 1 false false
     s.Inv ∧ s.runs (.parse .header) ∧ s.par.len < 13) ∧
    (let s := parseAt .gct [1, 2, 3, 4, 5] 0 1 true false
     s.Inv ∧ s.runs (.parse .gct) ∧ s.par.len < s.par.pos.toNat + 3 * 2 ^ (s.par.gSize.toNat + 1)) ∧
    (let s := parseAt .label [1] 1 1 true false
     s.Inv ∧ s.runs (.parse .label) ∧ s.par.len < s.par.pos.toNat + 1) ∧
    (let s := parseAt .ext [0x21] 0 1 true false
     s.Inv ∧ s.runs (.parse .ext) ∧ s.par.len < s.par.pos.toNat + 2) ∧
    (let s := parseAt .ext [0x21, 0xFE, 1] 0 1 true false
     s.Inv ∧ s.runs (.parse .ext) ∧ s.byteAt 1 = 0xFE#8 ∧ s.NoZeroFrom 2) ∧
    (let s := parseAt .ext [0x21, 0xF9, 4, 1, 10, 0, 1] 0 1 true false
     s.Inv ∧ s.runs (.parse .ext) ∧ s.byteAt 1 = 0xF9#8 ∧ s.par.len < s.par.pos.toNat + 8) ∧
    (let s := parseAt .ext [0x21, 0xFF, 11, 1, 2, 3, 4, 5, 6, 7, 8, 0, 0] 0 1 true false
     s.Inv ∧ s.runs (.parse .ext) ∧ s.byteAt 1 = 0xFF#8 ∧ s.par.len < s.par.pos.toNat + 14) ∧
    (let s := parseAt .ext [0x21, 0xFF, 11, 1, 2, 3, 4, 5, 6, 7, 8, 0, 0, 0, 9] 0 1 true false
     s.Inv ∧ s.runs (.parse .ext) ∧ s.byteAt 1 = 0xFF#8 ∧ s.NoZeroFrom 14) ∧
    (let s := parseAt .ext [0x21, 1, 12, 1, 2, 3, 4, 5, 6, 7, 8, 9, 10, 11] 0 1 true false
     s.Inv ∧ s.runs (.parse .ext) ∧ s.byteAt 1 = 0x01#8 ∧ s.par.len < s.par.pos.toNat + 15) ∧
    (let s := parseAt .image [0x2C, 0, 0, 0, 0, 2, 0, 2, 0] 0 1 true false
     s.Inv ∧ s.runs (.parse .image) ∧ s.par.len < s.par.pos.toNat + 10) ∧
    (let s := parseAt .lct [1, 2, 3, 4, 5] 0 1 true false
     s.Inv ∧ s.runs (.parse .lct) ∧ s.cfg.lctSizing = false ∧ s.par.gctFlag = true ∧
       s.par.len < s.par.pos.toNat + 3 * 2 ^ (s.par.gSize.toNat + 1)) ∧
    (let s := parseAt .lct [1, 2, 3, 4, 5] 0 1 false true
     s.Inv ∧ s.runs (.parse .lct) ∧ s.cfg.lctSizing = true ∧
       s.par.len < s.par.pos.toNat + 3 * 2 ^ ((s.par.img.ipacked.extractLsb' 0 3).toNat + 1)) ∧
    (let s := parseAt .codeSize [] 0 1 true false
     s.Inv ∧ s.runs (.parse .codeSize) ∧ s.par.len < s.par.pos.toNat + 1) ∧
    (let s := parseAt .subLen [] 0 1 true false
     s.Inv ∧ s.runs (.parse .subLen) ∧ s.par.len < s.par.pos.toNat + 1) ∧
    (let s := parseAt .subData [1] 0 1 true false
     s.Inv ∧ s.runs (.parse .subData) ∧ s.par.len < s.par.pos.toNat + s.par.subLen.toNat) := by
  refine ⟨?_, ?_, ?_, ?_, ?_, ?_, ?_, ?_, ?_, ?_, ?_, ?_, ?_, ?_, ?_⟩ <;>
    exact meets (by decide +kernel) (fun _ => table_initial) (by (try unfold State.NoZeroFrom); decide +kernel)

/-! ## Witnesses: the whole machine -/

theorem quiet_inv : quiet.Inv := inv_of (by decide +kernel) (noTable rfl)

/-- A step of the host, and one of the engine. -/
theorem witness_StepKeepsTheInvariant :
    (let s := quiet.withScript [.csrWrite 4 0 0x30]
     s.Inv ∧ ∃ t, step s = .next t) ∧
    (let s := parseAt .subLen [0] 0 1 true false
     s.Inv ∧ ∃ t, step s = .next t) :=
  ⟨⟨inv_of (by decide +kernel) (noTable rfl), goes (by decide +kernel)⟩,
   inv_of (by decide +kernel) (fun _ => table_initial), goes (by decide +kernel)⟩

/-- The least and the greatest DMEM. -/
theorem witness_ResetMeetsTheInvariant :
    (1 ≤ 1 ∧ (1 : Nat) ≤ 2 ^ 28 ∧ Memory.wf [(0, 5#8)] = true ∧ ∀ c ∈ [((0 : Nat), 5#8)], c.1 < 1) ∧
      (2 ^ 28 ≤ 2 ^ 28 ∧ Memory.wf [(2 ^ 28 - 1, 5#8)] = true ∧ ∀ c ∈ [(2 ^ 28 - 1, 5#8)], c.1 < 2 ^ 28) := by decide +kernel

theorem witness_EngineAlwaysHasAMicroStep :
    (parseAt .lct [] 0 1 false false).Inv ∧ (parseAt .lct [] 0 1 false false).status.busy = true :=
  ⟨inv_of (by decide +kernel) (fun _ => table_initial), rfl⟩

/-- Steps that write DMEM, one beside a valid reader. -/
theorem witness_EngineWritesOnlyItsTarget :
    (let s := encoding .start [1] 0 [] 1 0 (table 3 []) false
     s.Inv ∧ ∃ t, engineStep s = .next t ∧ (t.dmem != s.dmem) = true) ∧
    (let s := decoding .first [3] 0 (table 3 []) 1 0 none .zero
     s.Inv ∧ s.rd.valid = true ∧ ∃ t, engineStep s = .next t ∧ (t.dmem != s.dmem) = true) :=
  ⟨⟨inv_of (by decide +kernel) (fun _ => table_initial), after_next (p := fun t => t.dmem != _) (by decide +kernel)⟩,
   inv_of (by decide +kernel) (fun _ => table_initial), rfl, after_next (p := fun t => t.dmem != _) (by decide +kernel)⟩

theorem witness_ReaderRegionIsImmutable :
    let s := decoding .first [3] 0 (table 3 []) 1 0 none .zero
    s.Inv ∧ (∃ t, engineStep s = .next t) ∧ s.rd.valid = true ∧ s.rd.base.toNat ≤ 0x100 ∧
      0x100 < s.rd.base.toNat + s.rd.len.toNat :=
  ⟨inv_of (by decide +kernel) (fun _ => table_initial), goes (by decide +kernel), rfl, by decide +kernel⟩

/-- A command, a state of the parser, and a state of its decoder that writes a pixel. -/
theorem witness_ParsingWritesNoMemory :
    (∃ t, exec (.tblInit 2) quiet = .next t) ∧
    (let s := parseAt .subLen [0] 0 1 true false
     s.Inv ∧ s.runs (.parse .subLen) ∧ ∃ t, engineStep s = .next t) ∧
    (let s := subBlock .first [3] 0 none
     s.Inv ∧ s.runs (.decode true .first) ∧ ∃ t, engineStep s = .next t ∧ (t.par.img.filled == 1) = true) :=
  ⟨goes (by decide +kernel),
   meets (by decide +kernel) (fun _ => table_initial) (goes (by decide +kernel)),
   meets (by decide +kernel) (fun _ => table_initial) (after_next (p := fun t => t.par.img.filled == 1) (by decide +kernel))⟩

/-- A step that appends an entry. -/
theorem witness_DictionaryIsWrittenOnce :
    let s := decoding .loop [6] 0 (table 3 []) 2 0 (some [1]) .zero
    s.Inv ∧ ∃ t, engineStep s = .next t ∧ (t.tbl.slots == initialSlots 2 ++ [[1, 1]]) = true :=
  ⟨inv_of (by decide +kernel) (fun _ => table_initial),
   after_next (p := fun t => t.tbl.slots == initialSlots 2 ++ [[1, 1]]) (by decide +kernel)⟩

/-- In the fault state: a write of `CMD` that is dropped, a hardware reset, and an accepted SOFT_RESET. -/
theorem witness_FaultStateIsSticky :
    let faulted := (quiet.raise .range 0 0).rejectWrite
    (let s := faulted.withScript [.csrWrite 4 0 0]
     s.Inv ∧ (∃ t, step s = .next t) ∧ s.status.fault = true ∧ s.status.reject = true) ∧
    (let s := faulted.withScript [.hardwareReset [(3, 7)]]
     s.Inv ∧ (∃ t, step s = .next t ∧ s.HardwareResets t) ∧ s.status.fault = true ∧ s.status.reject = true) ∧
    (let s := faulted.csrWrite 0 0xFF
     s.Inv ∧ (∃ t, step s = .next t ∧ s.SoftResets t) ∧ s.status.fault = true ∧ s.status.reject = true) :=
  ⟨⟨inv_of (by decide +kernel) (noTable rfl), goes (by decide +kernel), rfl, rfl⟩,
   ⟨inv_of (by decide +kernel) (noTable rfl), ⟨_, rfl, rfl, _, _, rfl, rfl⟩, rfl, rfl⟩,
   ⟨inv_of (by decide +kernel) (noTable rfl), ⟨_, rfl, rfl, rfl, rfl, rfl⟩, rfl, rfl⟩⟩

/-- The host writes `ARG0` in the middle of a parse, or gives a hardware reset there. -/
theorem witness_LatchesHoldDuringARun :
    (let s := { parseAt .subLen [0] 0 1 true false with host := ⟨[.csrWrite 4 8 9], [.host], []⟩ }
     s.running ∧ ∃ t, step s = .next t ∧ t.status.reject = true) ∧
    (let s := { parseAt .subLen [0] 0 1 true false with host := ⟨[.hardwareReset []], [.host], []⟩ }
     s.running ∧ ∃ t, step s = .next t ∧ s.HardwareResets t) :=
  ⟨⟨⟨rfl, by decide⟩, after_next (p := fun t => t.status.reject) (by decide +kernel)⟩,
   ⟨rfl, by decide⟩, _, rfl, rfl, _, _, rfl, rfl⟩

/-- An overrun of the decoder, a byte that is no literal, and a local table without a size. -/
theorem witness_ParseRaisesOnlyItsFaults :
    (let s := decoding .loop [0xC0] 5 (table 3 []) 1 0 none .zero
     s.Inv ∧ s.runs (.decode false .loop) ∧ ∃ t, engineStep s = .next t ∧ t.status.fault = true) ∧
    (let s := encoding .scan [4] 0 [] 1 0 (table 3 []) false
     s.Inv ∧ s.runs (.compress .scan) ∧ ∃ t, engineStep s = .next t ∧ t.status.fault = true) ∧
    (let s := parseAt .lct [] 0 1 false false
     s.Inv ∧ s.runs (.parse .lct) ∧ ∃ t, engineStep s = .next t ∧ t.status.fault = true) :=
  ⟨meets (by decide +kernel) (fun _ => table_initial) (after_next (p := fun t => t.status.fault) (by decide +kernel)),
   meets (by decide +kernel) (fun _ => table_initial) (after_next (p := fun t => t.status.fault) (by decide +kernel)),
   meets (by decide +kernel) (fun _ => table_initial) (after_next (p := fun t => t.status.fault) (by decide +kernel))⟩

/-- A decompress of DE-3's stream, just accepted. -/
theorem witness_DecompressEnds :
    let s := { busyIn 0x20 .idle (holding 0x100 [0x8C, 0x0B]) with
      rd := ⟨0x100, 2, 0, true⟩, tbl := table 3 [], lat := ⟨0x300, 64, 0, 0⟩ }
    s.Inv ∧ s.status.busy = true ∧ s.status.fsm = .idle ∧
      decodeCommand s.commandWords = .ok (.lzwDecompress 0x300 64 0) :=
  ⟨inv_of (by decide +kernel) (fun _ => table_initial), rfl, rfl, by decide +kernel⟩

/-- A compress of no byte, just accepted. -/
theorem witness_CompressEnds :
    let s := { busyIn 0x21 .idle (writing 8 0) with lat := ⟨2, 0x100, 0, 0⟩ }
    s.Inv ∧ s.status.busy = true ∧ s.status.fsm = .idle ∧ decodeCommand s.commandWords = .ok (.lzwCompress 2 0x100 0 0) ∧
      0 < (0#32).toNat + 4 ∧ engineRun 0 s = .next s ∧ s.status.fault = false :=
  ⟨inv_of (by decide +kernel) (noTable rfl), rfl, rfl, by decide +kernel, by decide, rfl, rfl⟩

/-- A parse of no byte, just accepted. -/
theorem witness_ParseEnds :
    let s := { busyIn 0x30 .idle quiet with lat := ⟨0x100, 0, 0, 0⟩ }
    s.Inv ∧ s.status.busy = true ∧ s.status.fsm = .idle ∧ decodeCommand s.commandWords = .ok (.gifParse 0x100 0) :=
  ⟨inv_of (by decide +kernel) (noTable rfl), rfl, rfl, by decide +kernel⟩

/-- The round trip of WR-15, over a region no byte of which is listed. -/
theorem witness_BitStreamRoundTrips :
    let s := writing 8 0
    s.Inv ∧ (∀ p, s.wr.cur.toNat ≤ p → p < 8 * s.wr.len.toNat → s.bitAt s.wr.base.toNat p = false) ∧
      ∃ results t, execResults ([(0x5A3#32, 12#32), (7, 3), (0xFFF, 12)].map fun c => .wrAppend c.1 c.2) s =
        some (results, t) := by
  refine ⟨inv_of (by decide +kernel) (noTable rfl), fun p _ _ => ?_, ?_⟩
  · simp [State.bitAt, State.peek, writing, quiet, State.hardwareReset, Memory.read, Config.unlistedByte]
  · have h : (execResults ([(0x5A3#32, 12#32), (7, 3), (0xFFF, 12)].map fun c => Instr.wrAppend c.1 c.2) (writing 8 0)).isSome =
        true := by decide +kernel
    obtain ⟨x, hx⟩ := Option.isSome_iff_exists.mp h
    exact ⟨x.1, x.2, hx⟩

end Sys2Proof.Tests
end

section
/-! ## Where a micro-step leads

A predicate on the next state, carried through the pieces of a micro-step, whichever way it ends. -/

namespace Sys2Proof.Machine

/-- `P` holds of the next state, be it the one the micro-step goes on to or the fault state (R155). -/
def Res.Leads (r : Res Unit) (P : State → Prop) : Prop :=
  r.Sat (fun _ t => P t) (fun e i j t => P (t.raise e i j)) fun _ => True

theorem Res.Leads.next {r : Res Unit} {P : State → Prop} (h : r.Leads P) {t : State} (ht : r.outcome = .next t) : P t :=
  Res.Sat.next h ht

theorem Res.leads_ok {s : State} {P : State → Prop} (h : P s) : (Res.ok () s).Leads P := h

theorem Res.leads_require {c : Bool} {e : Exc} {i j : Nat} {s : State} {k : Res Unit} {P : State → Prop}
    (hr : P (s.raise e i j)) (hk : c = true → k.Leads P) : (Res.require c e i j s k).Leads P :=
  Res.sat_require.mpr ⟨fun _ => hr, hk⟩

theorem Res.leads_access {α : Type} {o : Option α} {k : α → Res Unit} {P : State → Prop}
    (hk : ∀ a, o = some a → (k a).Leads P) : (Res.access o k).Leads P :=
  Res.sat_access.mpr ⟨fun _ => trivial, hk⟩

theorem Res.leads_bind {α : Type} {r : Res α} {k : α → State → Res Unit} {P : State → Prop} {Q : α → State → Prop}
    {R : Exc → Nat → Nat → State → Prop} {S : Fault → Prop} (h : r.Sat Q R S)
    (hk : ∀ a t, Q a t → (k a t).Leads P) (hr : ∀ e i j t, R e i j t → P (t.raise e i j)) : (r.bind k).Leads P :=
  Res.Sat.bind (h.mono hk hr fun _ _ => trivial)

theorem Res.bind_assoc {α β : Type} (r : Res α) (f : α → State → Res β) (g : β → State → Res Unit) :
    (r.bind f).bind g = r.bind fun a s => (f a s).bind g := by
  cases r <;> rfl

theorem Res.leads_needing {s : State} {k : Nat} {r : Res Unit} {P : State → Prop} (ht : P s.truncate)
    (hk : s.par.pos.toNat + k ≤ s.par.len → r.Leads P) : (Res.needing k s r).Leads P := by
  by_cases h : s.par.pos.toNat + k ≤ s.par.len
  · rw [needing_go h]; exact hk h
  · rw [needing_truncate (by omega)]; exact ht

/-! ## Shared pieces, without any invariant -/

/-- Everything `readCode` can do: the reader's cursor moves inside its region (R77, R100). -/
theorem readCode_sat (s : State) :
    (readCode s).Sat (fun _ t => ∃ n, n ≤ 8 * s.rd.len.toNat ∧ t = s.setRdCur n) (fun _ _ _ t => t = s)
      fun _ => True := by
  refine Res.sat_require.mpr ⟨fun _ => rfl, fun _ => (consume_sat _ s).mono ?_ ?_ fun _ _ => trivial⟩
  · rintro _ _ ⟨-, -, rfl, -⟩; exact ⟨_, Nat.min_le_right _ _, rfl⟩
  · rintro _ _ _ _ ⟨rfl, -⟩; rfl

/-- A data memory all of whose listed bytes are below `size`, in canonical form. -/
structure Memory.Legal (size : Nat) (m : Memory) : Prop where
  wf : m.wf = true
  bound : ∀ c ∈ m, c.1 < size

theorem Memory.Legal.write {size : Nat} {m : Memory} (h : m.Legal size) {a : Nat} (ha : a < size) (v : Byte) :
    (m.write a v).Legal size where
  wf := Memory.wf_write h.wf a v
  bound c hc := (Memory.mem_write hc).elim (fun e => e ▸ ha) (h.bound c)

theorem Memory.Legal.place {size : Nat} {m : Memory} (h : m.Legal size) {a : Nat} {q : Seq} (hq : a + q.length ≤ size) :
    (placeBytes m a q).Legal size where
  wf := placeBytes_wf q h.wf a
  bound c hc := (placeBytes_mem q hc).elim (fun e => by omega) (h.bound c)

/-- The state an append to the writer region leaves: some bytes of DMEM and the cursor differ. -/
def State.appended (s : State) (m : Memory) (cur : Nat) : State := ({ s with dmem := m } : State).setWrCur cur

/-- Everything `append` can do, as a frame (R83). -/
theorem append_frame (v w : Nat) (s : State) :
    (append v w s).Sat
      (fun _ t => ∃ m cur, t = s.appended m cur ∧ cur < 8 * s.wr.len.toNat ∧
        (s.dmem.Legal s.dmemSize → m.Legal s.dmemSize))
      (fun _ _ _ t => t = s) fun _ => True := by
  refine (append_sat v w s).mono ?_ (fun _ _ _ _ h => h.1) fun _ _ => trivial
  rintro _ _ ⟨-, -, hlt, t, ht, rfl⟩
  obtain ⟨m, rfl, hwf, hc⟩ := State.orCode_cases ht
  exact ⟨m, _, rfl, hlt, fun hm => ⟨hwf hm.wf, fun c h => (hc c h).elim id (hm.bound c)⟩⟩

/-- The state that one emitted code leaves (R115). -/
def State.emitted (s : State) (m : Memory) (cur : Nat) : State :=
  { s.appended m cur with enc := { s.enc with codes := s.enc.codes + 1 } }

/-- Everything `emitCode` can do, as a frame (R114, R115). -/
theorem emitCode_frame (c : Nat) (s : State) :
    (emitCode c s).Sat
      (fun _ t => ∃ m cur, t = s.emitted m cur ∧ cur < 8 * s.wr.len.toNat ∧
        (s.dmem.Legal s.dmemSize → m.Legal s.dmemSize))
      (fun _ _ _ t => t = s) fun _ => True := by
  refine Res.Sat.bind ((append_frame c s.encWidth s).mono ?_ (fun _ _ _ _ h => h) fun _ h => h)
  rintro _ _ ⟨m, cur, rfl, hcur, hm⟩
  exact ⟨m, cur, rfl, hcur, hm⟩

/-- Everything `emitBuffer` can do, as a frame (R117, R118). -/
theorem emitBuffer_frame (s : State) :
    (emitBuffer s).Sat
      (fun _ t => ∃ m cur, t = s.emitted m cur ∧ cur < 8 * s.wr.len.toNat ∧
        (s.dmem.Legal s.dmemSize → m.Legal s.dmemSize))
      (fun _ _ _ t => t = s) fun _ => True := by
  unfold emitBuffer
  split
  · trivial
  · exact emitCode_frame _ s

/-- A command that only reads: its one micro-step ends in results (R31) or a fault (R155), and writes nothing else. -/
def State.EndsIn (s t : State) : Prop := (∃ f a b, t = s.finish f a b) ∨ ∃ e i j, t = s.raise e i j

theorem State.endsIn_finish (s : State) (f : Bool) (a b : Nat) : s.EndsIn (s.finish f a b) := .inl ⟨f, a, b, rfl⟩

theorem State.endsIn_raise (s : State) (e : Exc) (i j : Nat) : s.EndsIn (s.raise e i j) := .inr ⟨e, i, j, rfl⟩

theorem leads_selecting {s : State} {sel : Word} {k : Option ColorTable → Res Unit} (hk : ∀ t, (k t).Leads s.EndsIn) :
    (Res.selecting sel s k).Leads s.EndsIn := by
  unfold Res.selecting
  split
  · exact s.endsIn_raise _ _ _
  · exact hk _

theorem leads_contReadField (s : State) (block field element : Word) (r : FieldRead) :
    (contReadField block field element r s).Leads s.EndsIn := by
  cases r with
  | value v => exact s.endsIn_finish _ _ _
  | noField => exact s.endsIn_raise _ _ _
  | noElement => exact s.endsIn_raise _ _ _
  | unwritten => exact s.endsIn_raise _ _ _

/-- The commands that only read. -/
def readsOnly : Instr → Bool
  | .nop | .rdIsComplete .. | .wrCanAppend .. | .wrWritten | .tblCount | .tblWidth | .ctSize .. | .ctIndex ..
  | .ctFind .. | .contRead .. => true
  | _ => false

theorem exec_endsIn {i : Instr} {s t : State} (hi : readsOnly i = true) (ht : exec i s = .next t) : s.EndsIn t := by
  have hfin := s.endsIn_finish
  have hraise := s.endsIn_raise
  cases i with
  | nop => cases ht; exact hfin _ _ _
  | rdIsComplete | wrCanAppend | wrWritten | tblCount | tblWidth =>
    exact (Res.leads_require (hraise _ _ _) fun _ => Res.leads_ok (hfin _ _ _)).next ht
  | ctSize sel =>
    refine (Res.leads_require (hraise _ _ _) fun _ => leads_selecting fun t => ?_).next ht
    cases t <;> exact hfin _ _ _
  | ctIndex sel index =>
    refine (Res.leads_require (hraise _ _ _) fun _ => leads_selecting fun t => ?_).next ht
    cases t with
    | none => exact hraise _ _ _
    | some t => dsimp only; split <;> [exact hraise _ _ _; exact hfin _ _ _]
  | ctFind sel rgb =>
    refine (Res.leads_require (hraise _ _ _) fun _ => leads_selecting fun t => ?_).next ht
    cases t with
    | none => exact hraise _ _ _
    | some t => dsimp only; split <;> exact hfin _ _ _
  | contRead block field element =>
    refine (Res.leads_require (hraise _ _ _) fun _ => ?_).next ht
    split
    · exact leads_contReadField _ _ _ _ _
    · split <;> [exact hraise _ _ _; exact leads_contReadField _ _ _ _ _]
  | _ => cases hi

end Sys2Proof.Machine
end

section
/-! ## The invariant: what each update of the state keeps -/

namespace Sys2Proof.Machine

/-! ### From the data's invariants to the machine's -/

/-- A command runs that has not ended and has raised nothing. -/
structure Status.Active (st : Status) : Prop where
  busy : st.busy = true
  notDone : st.done = false
  noFault : st.fault = false

variable {s : State}

theorem State.Inv.active (h : s.Inv) (hr : s.running) : s.status.Active where
  busy := hr.1
  notDone := h.notDone hr.1
  noFault := by
    cases hf : s.status.fault with
    | false => rfl
    | true => exact absurd (h.faulted hr.1 hf) hr.2

/-- While nothing runs, the machine's invariants are those of its data. -/
theorem State.DataInv.inv_of_idle (h : s.DataInv) (hb : s.status.busy = false)
    (he : s.status.fault = false → s.status.fsm = .idle) : s.Inv :=
  have hr : ¬s.running := fun hr => absurd hr.1 (by simp [hb])
  { h with
    notDone := fun hb' => by simp [hb] at hb'
    ended := fun _ => he
    faulted := fun hb' => by simp [hb] at hb'
    decoding := fun _ _ hr' => absurd hr' hr
    encoding := fun _ hr' => absurd hr' hr
    parsing := fun _ hr' => absurd hr' hr }

theorem State.DataInv.finish_inv (h : s.DataInv) (f : Bool) (a b : Nat) : (s.finish f a b).Inv :=
  State.DataInv.inv_of_idle { h with } rfl fun _ => rfl

theorem State.DataInv.raise_inv (h : s.DataInv) (e : Exc) (i j : Nat) : (s.raise e i j).Inv :=
  State.DataInv.inv_of_idle { h with } rfl nofun

theorem State.EndsIn.inv {t : State} (he : s.EndsIn t) (h : s.DataInv) : t.Inv := by
  rcases he with ⟨f, a, b, rfl⟩ | ⟨e, i, j, rfl⟩
  · exact h.finish_inv f a b
  · exact h.raise_inv e i j

/-- A running command goes on in a state of the decompress machine. -/
theorem State.Decoding.inv {p : Bool} (hd : s.Decoding p) (h : s.DataInv) (ha : s.status.Active) (st : DecState) :
    (s.setFsm (.decode p st)).Inv :=
  { h with
    notDone := fun _ => ha.notDone
    ended := fun hb => by simp [ha.busy] at hb
    faulted := fun _ hf => by simp [ha.noFault] at hf
    decoding := fun _ _ _ hf => by cases hf; exact { hd with }
    encoding := fun _ _ hf => nomatch hf
    parsing := fun _ _ hf => nomatch hf }

/-- A running command goes on in a state of the compress machine. -/
theorem State.Encoding.inv {st : EncState} (he : s.Encoding st) (h : s.DataInv) (ha : s.status.Active) :
    (s.setFsm (.compress st)).Inv :=
  { h with
    notDone := fun _ => ha.notDone
    ended := fun hb => by simp [ha.busy] at hb
    faulted := fun _ hf => by simp [ha.noFault] at hf
    decoding := fun _ _ _ hf => nomatch hf
    encoding := fun _ _ hf => by cases hf; exact { he with }
    parsing := fun _ _ hf => nomatch hf }

/-- A running command goes on in a state of the parser. -/
theorem State.Parsing.inv {st : ParState} (hp : s.Parsing st) (h : s.DataInv) (ha : s.status.Active) :
    (s.setFsm (.parse st)).Inv :=
  { h with
    notDone := fun _ => ha.notDone
    ended := fun hb => by simp [ha.busy] at hb
    faulted := fun _ hf => by simp [ha.noFault] at hf
    decoding := fun _ _ _ hf => nomatch hf
    encoding := fun _ _ hf => nomatch hf
    parsing := fun _ _ hf => by cases hf; exact { hp with } }

/-! ### Updates of the data -/

theorem inDmem_of_legalRegion {base len : Word} (h : s.legalRegion base len = true) : s.InDmem base.toNat len.toNat :=
  of_decide_eq_true (p := base.toNat + len.toNat ≤ s.dmemSize) h

theorem hitsReader_eq_false {base len : Word} (h : (!s.hitsReader base len) = true) : s.hitsReader base len = false := by
  simpa using h

theorem State.DataInv.legal (h : s.DataInv) : s.dmem.Legal s.dmemSize := ⟨h.memory, h.cells⟩

theorem State.DataInv.setMem (h : s.DataInv) {m : Memory} (hm : m.Legal s.dmemSize) :
    ({ s with dmem := m } : State).DataInv :=
  { h with memory := hm.wf, cells := hm.bound }

/-- A region in DMEM is at most `2^28` bytes long. -/
theorem State.DataInv.region_bound (h : s.DataInv) {base len : Nat} (hr : s.InDmem base len) : base + len ≤ 2 ^ 28 :=
  Nat.le_trans hr h.sizeMax

theorem State.DataInv.setRdCur (h : s.DataInv) (hv : s.rd.valid = true) {n : Nat} (hn : n ≤ 8 * s.rd.len.toNat) :
    (s.setRdCur n).DataInv := by
  have hr := h.region_bound (h.readerRegion hv)
  refine { h with readerCursor := ?_ }
  rw [State.setRdCur_rd, word_toNat (by omega)]
  exact hn

theorem State.DataInv.setRd (h : s.DataInv) {base len cur : Word} (hr : s.InDmem base.toNat len.toNat)
    (hc : cur.toNat ≤ 8 * len.toNat) : ({ s with rd := ⟨base, len, cur, true⟩ } : State).DataInv :=
  { h with readerCursor := hc, readerRegion := fun _ => hr }

theorem State.DataInv.setWr (h : s.DataInv) {base len cur : Word} (hr : s.InDmem base.toNat len.toNat)
    (hc : cur.toNat < 8 * len.toNat) : ({ s with wr := ⟨base, len, cur, true⟩ } : State).DataInv :=
  { h with writerCursor := fun _ => hc, writerRegion := fun _ => hr }

theorem State.DataInv.appended (h : s.DataInv) (hv : s.wr.valid = true) {m : Memory} (hm : m.Legal s.dmemSize) {n : Nat}
    (hn : n < 8 * s.wr.len.toNat) : (s.appended m n).DataInv := by
  have hr := h.region_bound (h.writerRegion hv)
  refine { h.setMem hm with writerCursor := fun _ => ?_ }
  show (word n).toNat < _
  rw [word_toNat (by omega)]
  exact hn

theorem State.DataInv.emitted (h : s.DataInv) (hv : s.wr.valid = true) {m : Memory} (hm : m.Legal s.dmemSize) {n : Nat}
    (hn : n < 8 * s.wr.len.toNat) : (s.emitted m n).DataInv :=
  { h.appended hv hm hn with }

theorem State.DataInv.setTbl (h : s.DataInv) {d : Dict} (hd : d.valid = true → d.Inv) :
    ({ s with tbl := d } : State).DataInv :=
  { h with table := hd }

theorem State.DataInv.tblClear (h : s.DataInv) (hv : s.tbl.valid = true) : s.tblClear.DataInv :=
  h.setTbl fun _ => (h.table hv).clear_tbl

theorem State.DataInv.push (h : s.DataInv) (hv : s.tbl.valid = true) (hc : s.tbl.count < Config.dictMax) (q : Seq) :
    ({ s with tbl := s.tbl.push q } : State).DataInv :=
  h.setTbl fun _ => (h.table hv).push hc q

theorem State.DataInv.initTable (h : s.DataInv) {n : Nat} (h1 : 2 ≤ n) (h2 : n ≤ 11) :
    ({ s with tbl := ⟨word n, word (n + 1), initialSlots n, true⟩ } : State).DataInv :=
  h.setTbl fun _ => Dict.inv_initial h1 h2 true

theorem State.DataInv.setOut (h : s.DataInv) {o : Output} (ho : o.pos.toNat ≤ o.cap.toNat) :
    ({ s with out := o } : State).DataInv :=
  { h with output := ho }

theorem State.DataInv.setImg (h : s.DataInv) {img : Image} (hi : img.Legal) :
    ({ s with par := { s.par with img := img } } : State).DataInv :=
  { h with image := hi }

theorem State.DataInv.addBlock (h : s.DataInv) {b : Block} (hb : ∀ img, b = .image img → img.Legal) :
    (s.addBlock b).DataInv :=
  { h with
    container :=
      { gct := h.container.gct
        images := fun img hi => by
          rcases List.mem_append.mp hi with hi | hi
          · exact h.container.images img hi
          · exact hb img (List.mem_singleton.mp hi).symm } }

theorem State.DataInv.truncate_inv (h : s.DataInv) : s.truncate.Inv := by
  refine State.DataInv.finish_inv (s := ({ s with cont := { s.cont with valid := false } } : State).dropUnits) ?_ _ _ _
  exact { h with readerRegion := nofun, table := nofun, container := { h.container with } }

end Sys2Proof.Machine
end

section
/-! ## The invariant: the commands' first micro-steps -/

namespace Sys2Proof.Machine

variable {s t : State}

theorem execRdInit_inv (h : s.DataInv) {base len bit : Word} (ht : execRdInit base len bit s = .next t) : t.Inv :=
  (Res.leads_require (h.raise_inv _ _ _) fun hl =>
    Res.leads_require (h.raise_inv _ _ _) fun hb =>
      Res.leads_ok ((h.setRd (inDmem_of_legalRegion hl) (of_decide_eq_true hb)).finish_inv _ _ _)).next ht

theorem execRdConsume_inv (h : s.DataInv) {width : Word} (ht : execRdConsume width s = .next t) : t.Inv := by
  refine (Res.leads_require (h.raise_inv _ _ _) fun hv =>
    Res.leads_bind (consume_sat width.toNat s) ?_ ?_).next ht
  · rintro v _ ⟨-, -, rfl, -⟩
    exact (h.setRdCur hv (Nat.min_le_right _ _)).finish_inv _ _ _
  · rintro _ _ _ _ ⟨rfl, -⟩
    exact h.raise_inv _ _ _

theorem execWrInit_inv (h : s.DataInv) {base len : Word} (ht : execWrInit base len s = .next t) : t.Inv := by
  refine (Res.leads_require (h.raise_inv _ _ _) fun hlen =>
    Res.leads_require (h.raise_inv _ _ _) fun hl =>
      Res.leads_require (h.raise_inv _ _ _) fun _ => Res.leads_access fun u hu => ?_).next ht
  have hlen : 1 ≤ len.toNat := of_decide_eq_true hlen
  have hl := inDmem_of_legalRegion hl
  obtain ⟨-, rfl⟩ := State.writeBytes_cases _ hu
  have hm := h.setMem (h.legal.place (q := List.replicate len.toNat 0#8) (by rw [List.length_replicate]; exact hl))
  exact (hm.setWr (cur := 0) hl (show 0 < _ by omega)).finish_inv _ _ _

theorem execWrAppend_inv (h : s.DataInv) {value width : Word} (ht : execWrAppend value width s = .next t) : t.Inv := by
  refine (Res.leads_require (h.raise_inv _ _ _) fun hv =>
    Res.leads_require (h.raise_inv _ _ _) fun _ =>
      Res.leads_bind (append_frame value.toNat width.toNat s) ?_ ?_).next ht
  · rintro _ _ ⟨m, cur, rfl, hcur, hm⟩
    exact (h.appended hv (hm h.legal) hcur).finish_inv _ _ _
  · rintro _ _ _ _ rfl
    exact h.raise_inv _ _ _

theorem execTblInit_inv (h : s.DataInv) {n : Word} (ht : execTblInit n s = .next t) : t.Inv := by
  refine (Res.leads_bind (tableInit_sat n.toNat s) ?_ ?_).next ht
  · rintro _ _ ⟨h1, h2, rfl⟩
    exact (h.initTable h1 h2).finish_inv _ _ _
  · rintro _ _ _ _ ⟨-, -, -, -, rfl⟩
    exact h.raise_inv _ _ _

theorem execTblAppend_inv (h : s.DataInv) {base len : Word} (ht : execTblAppend base len s = .next t) : t.Inv := by
  refine (Res.leads_require (h.raise_inv _ _ _) fun hv =>
    Res.leads_require (h.raise_inv _ _ _) fun _ => Res.leads_access fun q _ =>
      Res.leads_bind (tableAppend_sat q s) ?_ ?_).next ht
  · rintro _ _ ⟨hc, -, rfl⟩
    exact (h.push hv hc q).finish_inv _ _ _
  · rintro _ _ _ _ ⟨-, -, -, -, rfl⟩
    exact h.raise_inv _ _ _

theorem execTblLookup_inv (h : s.DataInv) {code base cap : Word} (ht : execTblLookup code base cap s = .next t) :
    t.Inv := by
  refine (Res.leads_require (h.raise_inv _ _ _) fun _ =>
    Res.leads_require (h.raise_inv _ _ _) fun hl =>
      Res.leads_require (h.raise_inv _ _ _) fun _ => ?_).next ht
  have hl := inDmem_of_legalRegion hl
  split
  · rename_i q _
    refine Res.leads_access fun u hu => ?_
    obtain ⟨-, rfl⟩ := State.writeBytes_cases _ hu
    refine (h.setMem (h.legal.place ?_)).finish_inv _ _ _
    have : (q.take (min q.length cap.toNat)).length ≤ cap.toNat := by rw [List.length_take]; omega
    exact Nat.le_trans (Nat.add_le_add_left this _) hl
  · exact h.finish_inv _ _ _

theorem execTblClear_inv (h : s.DataInv) (ht : execTblClear s = .next t) : t.Inv :=
  (Res.leads_require (h.raise_inv _ _ _) fun hv => Res.leads_ok ((h.tblClear hv).finish_inv _ _ _)).next ht

theorem execLzwDecompress_inv (h : s.DataInv) (ha : s.status.Active) {base cap flags : Word}
    (ht : execLzwDecompress base cap flags s = .next t) : t.Inv := by
  refine (Res.leads_require (h.raise_inv _ _ _) fun hrd =>
    Res.leads_require (h.raise_inv _ _ _) fun htbl =>
      Res.leads_require (h.raise_inv _ _ _) fun hl =>
        Res.leads_require (h.raise_inv _ _ _) fun hhit => Res.leads_ok ?_).next ht
  have hd : State.Decoding
      { s with out := ⟨base, cap, 0, .dmem⟩, dec := ⟨none, flagOmitInitialClear flags⟩ } false :=
    { reader := hrd
      table := htbl
      dmemSink := fun _ => ⟨rfl, inDmem_of_legalRegion hl, hitsReader_eq_false hhit⟩
      pixelSink := nofun
      parser := nofun }
  exact hd.inv { h.setOut (o := ⟨base, cap, 0, .dmem⟩) (Nat.zero_le _) with } ha _

theorem execLzwCompress_inv (h : s.DataInv) (ha : s.status.Active) {n base len flags : Word}
    (ht : execLzwCompress n base len flags s = .next t) : t.Inv := by
  refine (Res.leads_require (h.raise_inv _ _ _) fun hwr =>
    Res.leads_require (h.raise_inv _ _ _) fun _ =>
      Res.leads_require (h.raise_inv _ _ _) fun hl =>
        Res.leads_require (h.raise_inv _ _ _) fun _ =>
          Res.leads_require (h.raise_inv _ _ _) fun hhit =>
            Res.leads_bind (tableInit_sat n.toNat s) ?_ ?_).next ht
  · rintro _ _ ⟨h1, h2, rfl⟩
    have he : State.Encoding
        { s with
          tbl := ⟨word n.toNat, word (n.toNat + 1), initialSlots n.toNat, true⟩
          enc := Encoder.setup n base len flags } .start :=
      { writer := hwr
        table := rfl
        symbolWidth := word_toNat n.isLt
        source := inDmem_of_legalRegion hl
        reader := hitsReader_eq_false hhit
        started := fun _ => ⟨rfl, rfl⟩
        scanning := nofun
        scanned := nofun
        buffer := .inl ⟨rfl, rfl⟩ }
    exact he.inv { h.initTable h1 h2 with } ha
  · rintro _ _ _ _ ⟨-, -, -, -, rfl⟩
    exact h.raise_inv _ _ _

theorem Container.inv_empty : Container.empty.Inv where
  gct := nofun
  images := nofun

theorem execGifParse_inv (h : s.DataInv) (ha : s.status.Active) {base len : Word}
    (ht : execGifParse base len s = .next t) : t.Inv := by
  refine (Res.leads_require (h.raise_inv _ _ _) fun hl => Res.leads_ok ?_).next ht
  have hp : State.Parsing
      { s with par := { s.par with base := base.toNat, len := len.toNat, pos := 0 }, cont := Container.empty } .header :=
    { invalid := rfl
      region := inDmem_of_legalRegion hl
      cursor := Nat.zero_le _
      header := fun _ => rfl
      table := nofun }
  exact hp.inv { h with container := Container.inv_empty } ha

theorem Image.legal_empty : Image.empty.Legal :=
  ⟨⟨rfl, by simp [Image.empty, Pixels.read], Nat.zero_le _⟩, nofun⟩

/-- The invariants of the data hold after a reset over a legal data memory (R164). -/
theorem State.hardwareReset_dataInv {size : Nat} (h1 : 1 ≤ size) (h2 : size ≤ Config.dmemSizeMax) {m : Memory}
    (hm : m.Legal size) (host : HostAgent) : (State.hardwareReset size m host).DataInv where
  sizeMin := h1
  sizeMax := h2
  memory := hm.wf
  cells := hm.bound
  readerCursor := Nat.zero_le _
  readerRegion := nofun
  writerCursor := nofun
  writerRegion := nofun
  table := nofun
  output := Nat.zero_le _
  image := Image.legal_empty
  container := Container.inv_empty

theorem State.DataInv.softReset_inv (h : s.DataInv) : s.softReset.Inv :=
  State.DataInv.inv_of_idle { State.hardwareReset_dataInv h.sizeMin h.sizeMax h.legal s.host with } rfl fun _ => rfl

/-- The first micro-step of a command keeps the invariants (R30). -/
theorem exec_command_inv {i : Instr} (hi : i.format = .command) (h : s.DataInv) (ha : s.status.Active)
    (ht : exec i s = .next t) : t.Inv := by
  cases i with
  | nop | rdIsComplete | wrCanAppend | wrWritten | tblCount | tblWidth | ctSize | ctIndex | ctFind | contRead =>
    exact (exec_endsIn rfl ht).inv h
  | rdInit => exact execRdInit_inv h ht
  | rdConsume => exact execRdConsume_inv h ht
  | wrInit => exact execWrInit_inv h ht
  | wrAppend => exact execWrAppend_inv h ht
  | tblInit => exact execTblInit_inv h ht
  | tblAppend => exact execTblAppend_inv h ht
  | tblLookup => exact execTblLookup_inv h ht
  | tblClear => exact execTblClear_inv h ht
  | lzwDecompress => exact execLzwDecompress_inv h ha ht
  | lzwCompress => exact execLzwCompress_inv h ha ht
  | gifParse => exact execGifParse_inv h ha ht
  | softReset => cases ht; exact h.softReset_inv
  | gifExtension | gifImage | gifTrailer | gifExtComment | gifExtGraphicsControl | gifExtApplication
  | gifExtPlainText => cases hi

end Sys2Proof.Machine
end

section
/-! ## The invariant: the micro-steps of the parser -/

namespace Sys2Proof.Machine

variable {s t : State}

/-- The parser goes on in another state at an offset of its region (R122). -/
theorem State.goto_inv (h : s.DataInv) (ha : s.status.Active) (hv : s.cont.valid = false)
    (hr : s.InDmem s.par.base s.par.len) {p : Nat} (hp : p ≤ s.par.len) {st : ParState} (hst : st ≠ .header)
    (ht : st = .subLen ∨ st = .subData → s.tbl.valid = true) : ((s.setPos p).setFsm (.parse st)).Inv := by
  have hb := h.region_bound hr
  have hpos : (s.setPos p).Parsing st :=
    { invalid := hv
      region := hr
      cursor := by rw [State.setPos_par, word_toNat (by omega)]; exact hp
      header := fun e => absurd e hst
      table := ht }
  exact hpos.inv { h with } ha

/-- The parser goes on in another state and stays at `P_POS`. -/
theorem State.Parsing.inv_at {st st' : ParState} (hp : s.Parsing st) (h : s.DataInv) (ha : s.status.Active)
    (hst : st' ≠ .header) (ht : st' = .subLen ∨ st' = .subData → s.tbl.valid = true) :
    (s.setFsm (.parse st')).Inv :=
  State.Parsing.inv { hp with header := fun e => absurd e hst, table := ht } h ha

/-! ### The blocks of the stream -/

theorem execGifTrailer_inv (h : s.DataInv) (ht : execGifTrailer s = .next t) : t.Inv := by
  cases ht
  refine State.DataInv.finish_inv ?_ _ _ _
  exact { h with readerRegion := nofun, table := nofun, container := { h.container with } }

theorem recordBlock_inv {st : ParState} (hp : s.Parsing st) (h : s.DataInv) (ha : s.status.Active) {b : Block}
    (hb : ∀ img, b ≠ .image img) {p : Nat} (hle : p ≤ s.par.len) : (s.recordBlock b p).Inv :=
  State.goto_inv (s := s.addBlock b) (h.addBlock fun img e => absurd e (hb img)) ha hp.invalid hp.region hle nofun nofun

theorem execGifImage_inv {st : ParState} (hp : s.Parsing st) (h : s.DataInv) (ha : s.status.Active)
    {left top width height : U16} {ipacked : Byte} (hle : s.par.pos.toNat + 10 ≤ s.par.len)
    (ht : execGifImage left top width height ipacked s = .next t) : t.Inv := by
  cases ht
  have hi : Image.Legal ⟨left, top, width, height, ipacked, none, 0, [], 0⟩ :=
    ⟨⟨rfl, by simp [Pixels.read], Nat.zero_le _⟩, nofun⟩
  refine State.goto_inv (h.setImg hi) ha hp.invalid hp.region hle ?_ ?_ <;> split <;> simp

/-- How many bytes of an extension follow its introducer (R66 to R71): none for any other instruction. -/
def extensionLength : Instr → Option Nat
  | .gifExtComment text => some (text.length + 2)
  | .gifExtGraphicsControl .. => some 7
  | .gifExtApplication _ _ _ payload => some (payload.length + 14)
  | .gifExtPlainText .. => some 14
  | .gifExtension _ => some 1
  | _ => none

theorem extensionLength_pos {i : Instr} {n : Nat} (h : extensionLength i = some n) : 0 < n := by
  cases i <;> cases h <;> exact Nat.succ_pos _

theorem splitAtZero_length {bs text rest : Seq} (h : splitAtZero bs = some (text, rest)) :
    text.length + 1 ≤ bs.length := by
  obtain ⟨-, rfl⟩ := splitAtZero_some.mp h
  simp only [List.length_append, List.length_cons]
  omega

/-- What is decoded as an extension is one of its five rows, and the stream holds all its bytes. -/
theorem decodeExtension_length {bs rest : Seq} {i : Instr} (h : decodeExtension bs = .ok (i, rest)) :
    ∃ n, extensionLength i = some n ∧ n ≤ bs.length := by
  unfold decodeExtension at h
  split at h
  · cases h
  rename_i label bs
  split at h
  · unfold decodeComment at h
    split at h
    · cases h
    · rename_i hz; cases h
      exact ⟨_, rfl, Nat.succ_le_succ (splitAtZero_length hz)⟩
  split at h
  · unfold decodeGraphicsControl at h
    split at h <;> cases h
    exact ⟨_, rfl, by simp⟩
  split at h
  · unfold decodeApplication at h
    split at h
    · split at h
      · cases h
      · rename_i hz; cases h
        refine ⟨_, rfl, ?_⟩
        have := splitAtZero_length hz
        simp only [List.length_cons]; omega
    · cases h
  split at h
  · unfold decodePlainText at h
    split at h <;> cases h
    exact ⟨_, rfl, by simp⟩
  · cases h
    exact ⟨_, rfl, by simp⟩

theorem exec_extension_inv {st : ParState} (hp : s.Parsing st) (h : s.DataInv) (ha : s.status.Active) {i : Instr}
    {n : Nat} (hi : extensionLength i = some n) (hle : s.par.pos.toNat + 1 + n ≤ s.par.len)
    (ht : exec i s = .next t) : t.Inv := by
  cases i with
  | gifExtComment | gifExtGraphicsControl | gifExtApplication | gifExtPlainText =>
    cases hi; cases ht
    exact recordBlock_inv hp h ha (by rintro _ ⟨⟩) (by omega)
  | gifExtension label =>
    cases hi; cases ht
    exact State.goto_inv h ha hp.invalid hp.region hle nofun nofun
  | _ => cases hi

/-- What is decoded as an image descriptor is one, and the stream holds the nine bytes after its label (R72). -/
theorem decodeImage_length {bs rest : Seq} {i : Instr} (h : decodeImage bs = .ok (i, rest)) :
    (∃ left top width height ipacked, i = .gifImage left top width height ipacked) ∧ 9 ≤ bs.length := by
  unfold decodeImage at h
  split at h <;> cases h
  exact ⟨⟨_, _, _, _, _, rfl⟩, by simp⟩

/-! ### The parser's states -/

theorem parseStream_tail_length {st : ParState} (hp : s.Parsing st) {bs : Seq} (hb : s.parseStream = some bs) :
    bs.tail.length = s.par.len - s.par.pos.toNat - 1 := by
  rw [State.parseStream_eq hp.region hp.cursor] at hb
  cases hb
  rw [List.length_tail, State.bytesAt_length]

theorem stepExt_inv {st : ParState} (hp : s.Parsing st) (h : s.DataInv) (ha : s.status.Active)
    (ht : stepExt s = .next t) : t.Inv := by
  unfold stepExt at ht
  split at ht
  · cases ht
  · rename_i bs hb
    have hlen := parseStream_tail_length hp hb
    unfold runBlock at ht
    split at ht
    · rename_i hd
      obtain ⟨n, hi, hn⟩ := decodeExtension_length hd
      have hpos := extensionLength_pos hi
      exact exec_extension_inv hp h ha hi (by omega) ht
    · cases ht
      exact h.truncate_inv

theorem stepImage_inv {st : ParState} (hp : s.Parsing st) (h : s.DataInv) (ha : s.status.Active)
    (ht : stepImage s = .next t) : t.Inv := by
  unfold stepImage at ht
  split at ht
  · cases ht
  · rename_i bs hb
    have hlen := parseStream_tail_length hp hb
    unfold runBlock at ht
    split at ht
    · rename_i hd
      obtain ⟨⟨_, _, _, _, _, rfl⟩, hn⟩ := decodeImage_length hd
      exact execGifImage_inv hp h ha (by omega) ht
    · cases ht
      exact h.truncate_inv

theorem stepLabel_inv {st : ParState} (hp : s.Parsing st) (h : s.DataInv) (ha : s.status.Active)
    (ht : stepLabel s = .next t) : t.Inv := by
  unfold stepLabel at ht
  split at ht
  · rename_i hneed
    have hneed : s.par.pos.toNat + 1 ≤ s.par.len := of_decide_eq_true hneed
    split at ht
    · cases ht
    · split at ht
      · cases ht; exact hp.inv_at h ha nofun nofun
      · split at ht
        · cases ht; exact hp.inv_at h ha nofun nofun
        · split at ht
          · exact execGifTrailer_inv h ht
          · cases ht; exact State.goto_inv h ha hp.invalid hp.region hneed nofun nofun
  · cases ht; exact h.truncate_inv

theorem stepHeader_inv (hp : s.Parsing .header) (h : s.DataInv) (ha : s.status.Active) :
    (stepHeader s).Leads State.Inv := by
  refine Res.leads_needing h.truncate_inv fun hneed => Res.leads_access fun bs _ => Res.leads_ok ?_
  have hlen : 13 ≤ s.par.len := by have := hp.header rfl; omega
  refine State.goto_inv (s := { s with
      cont := { s.cont with hdr := headerOf bs }
      par := { s.par with gctFlag := (headerOf bs).spacked.getLsbD 7, gSize := (headerOf bs).spacked.extractLsb' 0 3 } })
    { h with container := { h.container with } } ha hp.invalid hp.region hlen ?_ ?_ <;> split <;> simp

/-- A colour table read for a 3-bit size field has a legal size (R65, R126, R137). -/
theorem readColors_inv {st : ParState} (hp : s.Parsing st) {v : BitVec 3} {c : ColorTable}
    (hle : s.par.pos.toNat + 3 * 2 ^ (v.toNat + 1) ≤ s.par.len) (hc : s.readColors (2 ^ (v.toNat + 1)) = some c) :
    c.Inv := by
  rw [readColors_eq hp.region hle] at hc
  cases hc
  exact ⟨v.toNat + 1, by omega, by have := v.isLt; omega, (rgbTriples_spec s _ _).1⟩

theorem stepGct_inv {st : ParState} (hp : s.Parsing st) (h : s.DataInv) (ha : s.status.Active) :
    (stepGct s).Leads State.Inv := by
  refine Res.leads_needing h.truncate_inv fun hneed => Res.leads_access fun c hc => Res.leads_ok ?_
  have hc := readColors_inv hp hneed hc
  exact State.goto_inv (s := { s with cont := { s.cont with gct := some c } })
    { h with container := { h.container with gct := fun _ e => by cases e; exact hc } } ha hp.invalid hp.region hneed
    nofun nofun

/-- The size of a local colour table comes from a 3-bit field under either sizing (R137). -/
theorem lctSize_eq {k : Nat} (hk : s.lctSize = some k) : ∃ v : BitVec 3, k = 2 ^ (v.toNat + 1) := by
  unfold State.lctSize at hk
  split at hk
  · cases hk; exact ⟨_, rfl⟩
  · split at hk <;> cases hk
    exact ⟨_, rfl⟩

theorem stepLct_inv {st : ParState} (hp : s.Parsing st) (h : s.DataInv) (ha : s.status.Active) :
    (stepLct s).Leads State.Inv := by
  unfold stepLct
  split
  · exact h.raise_inv _ _ _
  · rename_i k hk
    obtain ⟨v, rfl⟩ := lctSize_eq hk
    refine Res.leads_needing h.truncate_inv fun hneed => Res.leads_access fun c hc => Res.leads_ok ?_
    have hc := readColors_inv hp hneed hc
    have hi : Image.Legal { s.par.img with lct := some c } := ⟨{ h.image.1 with }, fun _ e => by cases e; exact hc⟩
    exact State.goto_inv (h.setImg hi) ha hp.invalid hp.region hneed nofun nofun

theorem stepCodeSize_inv {st : ParState} (hp : s.Parsing st) (h : s.DataInv) (ha : s.status.Active) :
    (stepCodeSize s).Leads State.Inv := by
  refine Res.leads_needing h.truncate_inv fun hneed => Res.leads_access fun cs _ =>
    Res.leads_bind (tableInit_sat cs.toNat (s.setPos (s.par.pos.toNat + 1))) ?_ ?_
  · rintro _ _ ⟨h1, h2, rfl⟩
    have hi : Image.Legal { s.par.img with codeSize := cs } := ⟨{ h.image.1 with }, h.image.2⟩
    exact State.goto_inv
      (s := { s with
        tbl := ⟨word cs.toNat, word (cs.toNat + 1), initialSlots cs.toNat, true⟩
        par := { s.par with img := { s.par.img with codeSize := cs }, subIdx := 0 } })
      { (h.initTable h1 h2).setImg hi with } ha hp.invalid hp.region hneed nofun fun _ => rfl
  · rintro _ _ _ _ ⟨-, -, -, -, rfl⟩
    exact State.DataInv.raise_inv (s := s.setPos _) { h with } _ _ _

theorem stepSubLen_inv (hp : s.Parsing .subLen) (h : s.DataInv) (ha : s.status.Active) :
    (stepSubLen s).Leads State.Inv := by
  refine Res.leads_needing h.truncate_inv fun hneed => Res.leads_access fun l _ => ?_
  dsimp only
  split
  · exact State.goto_inv (s := s.addBlock (.image s.par.img)) (h.addBlock fun img e => by cases e; exact h.image) ha
      hp.invalid hp.region hneed nofun nofun
  · exact State.goto_inv (s := { s with par := { s.par with subLen := l } }) { h with } ha hp.invalid hp.region hneed
      nofun fun _ => hp.table (.inl rfl)

/-- The parser resumes after a sub-block inside its region (R140). -/
theorem resumeParse_inv (h : s.DataInv) (ha : s.status.Active) (hv : s.cont.valid = false)
    (hr : s.InDmem s.par.base s.par.len) (hle : s.par.pos.toNat + s.par.subLen.toNat ≤ s.par.len)
    (ht : s.tbl.valid = true) : s.resumeParse.Inv :=
  State.goto_inv (s := { s with par := { s.par with subIdx := s.par.subIdx + 1 } }) { h with } ha hv hr hle nofun
    fun _ => ht

theorem Image.cells_lt (img : Image) : img.cells < 2 ^ 32 :=
  Nat.lt_of_lt_of_eq (Nat.mul_lt_mul'' img.width.isLt img.height.isLt) (by norm_num)

theorem startSubBlock_inv (hp : s.Parsing .subData) (h : s.DataInv) (ha : s.status.Active)
    (hle : s.par.pos.toNat + s.par.subLen.toNat ≤ s.par.len) : s.startSubBlock.Inv := by
  have hb := h.region_bound hp.region
  have hcells := s.par.img.cells_lt
  have hfilled := h.image.1.bound
  have hbase : (word (s.par.base + s.par.pos.toNat)).toNat = s.par.base + s.par.pos.toNat := word_toNat (by omega)
  have hlen : (word s.par.subLen.toNat).toNat = s.par.subLen.toNat := word_toNat (by omega)
  have hout : (word s.par.img.filled).toNat = s.par.img.filled := word_toNat (by omega)
  have hcap : (word (s.par.img.cells - s.par.img.filled)).toNat = s.par.img.cells - s.par.img.filled :=
    word_toNat (by omega)
  have hreader : s.InDmem (word (s.par.base + s.par.pos.toNat)).toNat (word s.par.subLen.toNat).toNat := by
    rw [hbase, hlen]
    exact Nat.le_trans (by omega) hp.region
  have hd : State.Decoding
      { s with
        rd := ⟨word (s.par.base + s.par.pos.toNat), word s.par.subLen.toNat, 0, true⟩
        out := ⟨word s.par.img.filled, word (s.par.img.cells - s.par.img.filled), 0, .pixels⟩
        dec := ⟨none, decide (0 < s.par.subIdx)⟩ } true :=
    { reader := rfl
      table := hp.table (.inr rfl)
      dmemSink := nofun
      pixelSink := fun _ => ⟨rfl, hout.symm, by simp only [hout, hcap]; omega⟩
      parser := fun _ => ⟨hp.invalid, hp.region, hle⟩ }
  exact hd.inv { (h.setRd (cur := 0) hreader (Nat.zero_le _)).setOut
    (o := ⟨word s.par.img.filled, word (s.par.img.cells - s.par.img.filled), 0, .pixels⟩) (Nat.zero_le _) with } ha _

theorem stepSubData_inv (hp : s.Parsing .subData) (h : s.DataInv) (ha : s.status.Active) :
    (stepSubData s).Leads State.Inv := by
  refine Res.leads_needing h.truncate_inv fun hneed => ?_
  split
  · exact startSubBlock_inv hp h ha hneed
  · exact resumeParse_inv h ha hp.invalid hp.region hneed (hp.table (.inr rfl))

/-- Every micro-step of the parser keeps the invariants. -/
theorem parseStep_inv {st : ParState} (hp : s.Parsing st) (h : s.DataInv) (ha : s.status.Active)
    (ht : parseStep st s = .next t) : t.Inv := by
  cases st with
  | header => exact (stepHeader_inv hp h ha).next ht
  | gct => exact (stepGct_inv hp h ha).next ht
  | label => exact stepLabel_inv hp h ha ht
  | ext => exact stepExt_inv hp h ha ht
  | image => exact stepImage_inv hp h ha ht
  | lct => exact (stepLct_inv hp h ha).next ht
  | codeSize => exact (stepCodeSize_inv hp h ha).next ht
  | subLen => exact (stepSubLen_inv hp h ha).next ht
  | subData => exact (stepSubData_inv hp h ha).next ht

end Sys2Proof.Machine
end

section
/-! ## The invariant: the micro-steps of the decompress machine -/

namespace Sys2Proof.Machine

variable {s t : State} {p : Bool}

/-- A code read while the decoder runs moves the reader's cursor inside its region (R100). -/
theorem leads_readCode (h : s.DataInv) (hd : s.Decoding p) {k : Nat → State → Res Unit}
    (hk : ∀ c n, (s.setRdCur n).DataInv → (k c (s.setRdCur n)).Leads State.Inv) :
    ((readCode s).bind k).Leads State.Inv := by
  refine Res.leads_bind (readCode_sat s) ?_ ?_
  · rintro c _ ⟨n, hn, rfl⟩
    exact hk c n (h.setRdCur hd.reader hn)
  · rintro _ _ _ _ rfl
    exact h.raise_inv _ _ _

/-- An append while the decoder runs keeps the table's invariant (R89). -/
theorem leads_tableAppend (h : s.DataInv) (hd : s.Decoding p) {q : Seq} {k : Nat → State → Res Unit}
    (hk : ∀ c, ({ s with tbl := s.tbl.push q } : State).DataInv → (k c { s with tbl := s.tbl.push q }).Leads State.Inv) :
    ((tableAppend q s).bind k).Leads State.Inv := by
  refine Res.leads_bind (tableAppend_sat q s) ?_ ?_
  · rintro c _ ⟨hc, -, rfl⟩
    exact hk c (h.push hd.table hc q)
  · rintro _ _ _ _ ⟨-, -, -, -, rfl⟩
    exact h.raise_inv _ _ _

/-- Bytes emitted to DMEM stay inside the output region (R99). -/
theorem emit_dmem_inv (h : s.DataInv) (hd : s.Decoding false) (q : Seq) :
    ∃ u, emit q s = .ok () u ∧ u.DataInv ∧ u.Decoding false ∧ u.status = s.status := by
  obtain ⟨hsink, hregion, hhit⟩ := hd.dmemSink rfl
  have hcap := s.out.cap.isLt
  refine ⟨_, emit_dmem q hsink hregion h.output, ?_,
    { hd with dmemSink := fun _ => ⟨hsink, hregion, hhit⟩, pixelSink := nofun }, rfl⟩
  have hm : (placeBytes s.dmem (s.out.base.toNat + s.out.pos.toNat)
      (q.take (s.out.cap.toNat - s.out.pos.toNat))).Legal s.dmemSize := by
    refine h.legal.place ?_
    have := h.output
    unfold State.InDmem at hregion
    rw [List.length_take]; omega
  refine (h.setMem hm).setOut (o := { s.out with pos := _ }) ?_
  rw [word_toNat (by omega)]
  exact Nat.min_le_right _ _

/-- Bytes written from the first UNWRITTEN cell on keep the image's invariant (R27). -/
theorem Image.Legal.fill {img : Image} (h : img.Legal) {q : Seq} (hq : img.filled + q.length ≤ img.cells) :
    Image.Legal { img with pixels := placePixels img.pixels img.filled q, filled := img.filled + q.length } := by
  obtain ⟨⟨hwf, hwritten, -⟩, hlct⟩ := h
  refine ⟨⟨placePixels_wf q hwf _, fun k => ?_, hq⟩, hlct⟩
  rw [placePixels_read q hwf]
  dsimp only
  split
  · rw [List.getElem?_eq_getElem (by omega)]
    simp only [Option.isSome_some, true_iff]
    omega
  · rw [hwritten]
    omega

/-- Bytes emitted to the pixels fill the image from the front, inside its cells (R27, R99). -/
theorem emit_pixels_inv (h : s.DataInv) (hd : s.Decoding true) (q : Seq) :
    ∃ u, emit q s = .ok () u ∧ u.DataInv ∧ u.Decoding true ∧ u.status = s.status := by
  obtain ⟨hsink, hfilled, hcells⟩ := hd.pixelSink rfl
  have hcap := s.out.cap.isLt
  have hpos := h.output
  have hword : (word (min (s.out.pos.toNat + q.length) s.out.cap.toNat)).toNat =
      min (s.out.pos.toNat + q.length) s.out.cap.toNat := word_toNat (by omega)
  have hlen : s.out.base.toNat + min (s.out.pos.toNat + q.length) s.out.cap.toNat =
      s.par.img.filled + (q.take (s.out.cap.toNat - s.out.pos.toNat)).length := by
    rw [List.length_take]
    omega
  refine ⟨_, emit_pixels q hsink hpos hfilled, ?_, ?_, rfl⟩
  · rw [hlen]
    exact (h.setImg (h.image.fill (by omega))).setOut (o := { s.out with pos := _ })
      (by rw [hword]; exact Nat.min_le_right _ _)
  · exact { hd with
      dmemSink := nofun
      pixelSink := fun _ => ⟨hsink, by rw [hword], hcells⟩ }

/-- Emitting bytes keeps what the decoder needs, whichever the sink, then the rest (R99). -/
theorem leads_emit (h : s.DataInv) (hd : s.Decoding p) (q : Seq) {k : Unit → State → Res Unit}
    (hk : ∀ u : State, u.DataInv → u.Decoding p → u.status = s.status → (k () u).Leads State.Inv) :
    ((emit q s).bind k).Leads State.Inv := by
  have he : ∃ u, emit q s = .ok () u ∧ u.DataInv ∧ u.Decoding p ∧ u.status = s.status := by
    cases p with
    | false => exact emit_dmem_inv h hd q
    | true => exact emit_pixels_inv h hd q
  obtain ⟨u, hu, h', hd', hs⟩ := he
  rw [hu]
  exact hk u h' hd' hs

theorem decodeFinish_inv (h : s.DataInv) (ha : s.status.Active) (hd : s.Decoding p) :
    (decodeFinish p s).Leads State.Inv := by
  cases p with
  | false => exact h.finish_inv _ _ _
  | true =>
    obtain ⟨hv, hr, hle⟩ := hd.parser rfl
    exact resumeParse_inv h ha hv hr hle hd.table

theorem State.Decoding.setPrev_inv (hd : s.Decoding p) (h : s.DataInv) (ha : s.status.Active) (q : Option Seq)
    (st : DecState) : ((s.setPrev q).setFsm (.decode p st)).Inv :=
  State.Decoding.inv (s := s.setPrev q) { hd with } { h with } ha st

theorem stepCheckClear_inv (h : s.DataInv) (ha : s.status.Active) (hd : s.Decoding p) :
    (stepCheckClear p s).Leads State.Inv :=
  leads_readCode h hd fun _ n h' => Res.leads_require (h'.raise_inv _ _ _) fun _ =>
    Res.leads_ok (State.Decoding.inv (s := s.setRdCur n) { hd with } h' ha _)

theorem stepFirst_inv (h : s.DataInv) (ha : s.status.Active) (hd : s.Decoding p) :
    (stepFirst p s).Leads State.Inv := by
  refine leads_readCode h hd fun c n h' => ?_
  split
  · exact h'.raise_inv _ _ _
  · exact leads_emit h' { hd with } _ fun u hu hdu hs => Res.leads_ok (hdu.setPrev_inv hu (hs ▸ ha) _ _)

theorem stepClear_inv (h : s.DataInv) (ha : s.status.Active) (hd : s.Decoding p) :
    (stepClear p s).Leads State.Inv := by
  have hc := h.tblClear hd.table
  have hdc : s.tblClear.Decoding p := { hd with }
  dsimp only [stepClear]
  split
  · exact hdc.setPrev_inv hc ha _ _
  · exact hdc.inv hc ha _

theorem stepFound_inv (h : s.DataInv) (ha : s.status.Active) (hd : s.Decoding p) (c : Nat) (q : Seq) :
    (stepFound p c q s).Leads State.Inv := by
  cases q with
  | nil => exact h.raise_inv _ _ _
  | cons b q =>
    refine leads_emit h hd _ fun u hu hdu hs => ?_
    have hau : u.status.Active := hs ▸ ha
    unfold appendAfterPrev
    split
    · rw [Res.bind_assoc]
      exact leads_tableAppend hu hdu fun _ hp =>
        Res.leads_ok (State.Decoding.setPrev_inv (s := { u with tbl := u.tbl.push _ }) { hdu with } hp hau _ _)
    · exact Res.leads_ok (hdu.setPrev_inv hu hau _ _)

theorem stepUndefined_inv (h : s.DataInv) (ha : s.status.Active) (hd : s.Decoding p) (c : Nat) :
    (stepUndefined p c s).Leads State.Inv := by
  refine Res.leads_require (h.raise_inv _ _ _) fun _ => ?_
  split
  · exact leads_tableAppend h hd fun _ hp => leads_emit hp { hd with } _ fun u hu hdu hs =>
      Res.leads_ok (hdu.setPrev_inv hu (hs ▸ ha) _ _)
  · exact h.raise_inv _ _ _

theorem stepCode_inv (h : s.DataInv) (ha : s.status.Active) (hd : s.Decoding p) (c : Nat) :
    (stepCode p c s).Leads State.Inv := by
  unfold stepCode
  split
  · exact decodeFinish_inv h ha hd
  · split
    · exact stepClear_inv h ha hd
    · split
      · exact stepFound_inv h ha hd c _
      · exact stepUndefined_inv h ha hd c

theorem stepLoop_inv (h : s.DataInv) (ha : s.status.Active) (hd : s.Decoding p) :
    (stepLoop p s).Leads State.Inv := by
  unfold stepLoop
  split
  · exact decodeFinish_inv h ha hd
  · split
    · exact decodeFinish_inv h ha hd
    · exact leads_readCode h hd fun c n h' => stepCode_inv (s := s.setRdCur n) h' ha { hd with } c

/-- Every micro-step of the decompress machine keeps the invariants. -/
theorem decodeStep_inv {st : DecState} (hd : s.Decoding p) (h : s.DataInv) (ha : s.status.Active)
    (ht : decodeStep p st s = .next t) : t.Inv := by
  cases st with
  | checkClear => exact (stepCheckClear_inv h ha hd).next ht
  | first => exact (stepFirst_inv h ha hd).next ht
  | loop => exact (stepLoop_inv h ha hd).next ht

end Sys2Proof.Machine
end

section
/-! ## The invariant: the micro-steps of the compress machine -/

namespace Sys2Proof.Machine

variable {s t : State} {st : EncState}

/-- One emitted code keeps what the compress machine needs (R115). -/
theorem State.Encoding.emitted (he : s.Encoding st) (m : Memory) (n : Nat) : (s.emitted m n).Encoding st :=
  { he with }

/-- A step of the compress machine that emits codes through `r`, then goes on. -/
theorem leads_emits (h : s.DataInv) (he : s.Encoding st) {r : Res Unit}
    (hr : r.Sat (fun _ t => ∃ m cur, t = s.emitted m cur ∧ cur < 8 * s.wr.len.toNat ∧
      (s.dmem.Legal s.dmemSize → m.Legal s.dmemSize)) (fun _ _ _ t => t = s) fun _ => True)
    {k : Unit → State → Res Unit}
    (hk : ∀ m n, (s.emitted m n).DataInv → (k () (s.emitted m n)).Leads State.Inv) : (r.bind k).Leads State.Inv := by
  refine Res.leads_bind hr ?_ ?_
  · rintro _ _ ⟨m, n, rfl, hn, hm⟩
    exact hk m n (h.emitted he.writer (hm h.legal) hn)
  · rintro _ _ _ _ rfl
    exact h.raise_inv _ _ _

/-- C_START goes on to the input's bytes, or past them when there is none (R116). -/
theorem State.Encoding.start_inv (he : s.Encoding .start) (h : s.DataInv) (ha : s.status.Active) :
    (s.setFsm (.compress (if s.enc.len = 0 then .flush else .scan))).Inv := by
  obtain ⟨hidx, hbuf⟩ := he.started rfl
  refine State.Encoding.inv ?_ h ha
  exact { he with
    started := fun _ => ⟨hidx, hbuf⟩
    scanning := fun e => by split at e <;> [cases e; omega]
    scanned := fun e => by split at e <;> [omega; simp at e] }

theorem stepStart_inv (h : s.DataInv) (ha : s.status.Active) (he : s.Encoding .start) :
    (stepStart s).Leads State.Inv := by
  unfold stepStart
  split
  · exact he.start_inv h ha
  · exact leads_emits h he (emitCode_frame _ s) fun m n h' => (he.emitted m n).start_inv h' ha

/-- C_SCAN goes on with a buffer that the dictionary holds (R117). -/
theorem scanNext_inv (he : s.Encoding .scan) (h : s.DataInv) (ha : s.status.Active) {buf : Seq} (hb : buf ≠ [])
    (hf : ∃ c, s.tbl.find buf = some c) : (scanNext buf s).Inv := by
  have hlt := he.scanning rfl
  have hnext : State.Encoding { s with enc := { s.enc with buf := buf, idx := s.enc.idx + 1 } }
      (if s.enc.idx + 1 = s.enc.len then .flush else .scan) :=
    { he with
      started := fun e => by split at e <;> cases e
      scanning := fun e => by
        show s.enc.idx + 1 < s.enc.len
        split at e <;> [cases e; omega]
      scanned := fun e => by
        show s.enc.idx + 1 = s.enc.len
        split at e <;> [assumption; simp at e]
      buffer := .inr ⟨hb, hf⟩ }
  exact hnext.inv { h with } ha

theorem find_push {d : Dict} {p : Seq} (hp : ∃ c, d.find p = some c) (q : Seq) : ∃ c, (d.push q).find p = some c :=
  Dict.find_isSome.mpr (List.mem_append_left _ (Dict.find_isSome.mp hp))

/-- The one-byte sequence of a legal symbol is in the dictionary (R23). -/
theorem find_literal {d : Dict} (hd : d.Inv) {b : Byte} (hb : b.toNat < 2 ^ d.n.toNat) : ∃ c, d.find [b] = some c := by
  have hlit := Dict.lookup_mem (hd.literals b.toNat hb)
  rw [byte, BitVec.ofNat_toNat, BitVec.setWidth_eq] at hlit
  exact Dict.find_isSome.mpr hlit

/-- An append keeps what the compress machine needs: a buffer the dictionary holds, it still holds (R117). -/
theorem State.Encoding.push (he : s.Encoding st) (q : Seq) : State.Encoding { s with tbl := s.tbl.push q } st :=
  { he with buffer := he.buffer.imp_right fun ⟨hne, hf⟩ => ⟨hne, find_push hf q⟩ }

theorem stepScan_inv (h : s.DataInv) (ha : s.status.Active) (he : s.Encoding .scan) :
    (stepScan s).Leads State.Inv := by
  refine Res.leads_access fun b _ => Res.leads_require (h.raise_inv _ _ _) fun hb => ?_
  have hb : b.toNat < 2 ^ s.tbl.n.toNat := by rw [he.symbolWidth]; exact of_decide_eq_true hb
  dsimp only
  split
  · rename_i c hc
    exact scanNext_inv he h ha (by simp) ⟨c, hc⟩
  · refine leads_emits h he (emitBuffer_frame s) fun m n h' => Res.leads_bind (tableAppend_sat _ _) ?_ ?_
    · rintro _ _ ⟨hc, -, rfl⟩
      exact scanNext_inv ((he.emitted m n).push _) (h'.push he.table hc _) ha (List.cons_ne_nil _ _)
        (find_push (find_literal (h.table he.table) hb) _)
    · rintro _ _ _ _ ⟨-, -, -, -, rfl⟩
      exact h'.raise_inv _ _ _

/-- C_FLUSH goes on to C_EOI (R118). -/
theorem State.Encoding.flush_inv (he : s.Encoding .flush) (h : s.DataInv) (ha : s.status.Active) :
    (s.setFsm (.compress .eoi)).Inv :=
  State.Encoding.inv
    { he with started := nofun, scanning := nofun, scanned := fun _ => he.scanned (.inl rfl) } h ha

theorem stepFlush_inv (h : s.DataInv) (ha : s.status.Active) (he : s.Encoding .flush) :
    (stepFlush s).Leads State.Inv := by
  unfold stepFlush
  split
  · exact he.flush_inv h ha
  · exact leads_emits h he (emitBuffer_frame s) fun m n h' => (he.emitted m n).flush_inv h' ha

theorem stepEoi_inv (h : s.DataInv) (he : s.Encoding .eoi) : (stepEoi s).Leads State.Inv := by
  unfold stepEoi
  split
  · exact h.finish_inv _ _ _
  · exact leads_emits h he (emitCode_frame _ s) fun m n h' => h'.finish_inv _ _ _

/-- Every micro-step of the compress machine keeps the invariants. -/
theorem encodeStep_inv (he : s.Encoding st) (h : s.DataInv) (ha : s.status.Active)
    (ht : encodeStep st s = .next t) : t.Inv := by
  cases st with
  | start => exact (stepStart_inv h ha he).next ht
  | scan => exact (stepScan_inv h ha he).next ht
  | flush => exact (stepFlush_inv h ha he).next ht
  | eoi => exact (stepEoi_inv h he).next ht

end Sys2Proof.Machine
end
section
/-! ## The invariant: every step -/

namespace Sys2Proof.Machine

variable {s t : State}

/-- What the engine decodes is a command (R54). -/
theorem format_of_decodeCommand {c : CommandWords} {i : Instr} (h : decodeCommand c = .ok i) : i.format = .command := by
  unfold decodeCommand at h
  split at h <;> cases h <;> rfl

theorem decodeCommand_softReset {c : CommandWords} (h : opcodeOf c.cmd = 0xFF#8) : decodeCommand c = .ok .softReset := by
  unfold decodeCommand
  rw [h]
  rfl

theorem firstStep_inv (h : s.DataInv) (ha : s.status.Active) (ht : firstStep s = .next t) : t.Inv := by
  unfold firstStep at ht
  split at ht
  · rename_i i hi
    exact exec_command_inv (format_of_decodeCommand hi) h ha ht
  · cases ht
    exact h.raise_inv _ _ _

/-- The micro-step of SOFT_RESET, whatever `FSM` a fault has kept (R151). -/
theorem firstStep_softReset (hc : s.cmd = 0xFF#8) : firstStep s = .next s.softReset := by
  unfold firstStep
  rw [decodeCommand_softReset ((opcodeOf_commandWords s).trans hc)]
  rfl

theorem engineStep_inv (h : s.Inv) (ht : engineStep s = .next t) : t.Inv := by
  unfold engineStep at ht
  split at ht
  · rename_i hb
    unfold microStep at ht
    split at ht
    · rename_i hc
      rw [firstStep_softReset hc] at ht
      cases ht
      exact h.softReset_inv
    · rename_i hc
      have hr : s.running := ⟨hb, hc⟩
      have ha := h.active hr
      split at ht
      · exact firstStep_inv h.toDataInv ha ht
      · rename_i hf; exact decodeStep_inv (h.decoding _ _ hr hf) h.toDataInv ha ht
      · rename_i hf; exact encodeStep_inv (h.encoding _ hr hf) h.toDataInv ha ht
      · rename_i hf; exact parseStep_inv (h.parsing _ hr hf) h.toDataInv ha ht
  · cases ht
    exact h

/-! ### The host -/

/-- The invariants say nothing of the host. -/
theorem State.Inv.setHost (h : s.Inv) (a : HostAgent) : ({ s with host := a } : State).Inv :=
  { h with
    decoding := fun p st hr hf => { h.decoding p st hr hf with }
    encoding := fun st hr hf => { h.encoding st hr hf with }
    parsing := fun st hr hf => { h.parsing st hr hf with } }

theorem State.Inv.rejectWrite (h : s.Inv) : s.rejectWrite.Inv :=
  { h with
    decoding := fun p st hr hf => { h.decoding p st hr hf with }
    encoding := fun st hr hf => { h.encoding st hr hf with }
    parsing := fun st hr hf => { h.parsing st hr hf with } }

/-- A write the host makes while `BUSY` = 0 keeps the invariants when it keeps those of the data and `STATUS`. -/
theorem State.Inv.writeIdle (h : s.Inv) {u : State} (hu : u.DataInv) (hs : u.status = s.status) :
    (s.writeIdle u).Inv := by
  unfold State.writeIdle
  split
  · exact h.rejectWrite
  · rename_i hb
    have hb : s.status.busy = false := by simpa using hb
    exact hu.inv_of_idle (hs ▸ hb) (hs ▸ h.ended hb)

/-- An accepted command finds no state machine running, or is SOFT_RESET (R28). -/
theorem State.Inv.writeCmd (h : s.Inv) (v : Word) : (s.writeCmd v).Inv := by
  unfold State.writeCmd
  split
  · rename_i hc
    obtain ⟨hb, hf⟩ : s.status.busy = false ∧ (s.status.fault = false ∨ opcodeOf v = 0xFF#8) := by simpa using hc
    have hidle : (s.accept v).running → s.status.fsm = .idle := fun hr => h.ended hb (hf.resolve_right hr.2)
    exact { h with
      notDone := fun _ => rfl
      ended := nofun
      faulted := fun _ hft => hf.resolve_left (by simp_all)
      decoding := fun p st hr e => by cases (hidle hr).symm.trans e
      encoding := fun st hr e => by cases (hidle hr).symm.trans e
      parsing := fun st hr e => by cases (hidle hr).symm.trans e }
  · exact h.rejectWrite

theorem State.Inv.csrWrite (h : s.Inv) (off : Nat) (v : Word) : (s.csrWrite off v).Inv := by
  unfold State.csrWrite
  split
  · exact h.writeCmd v
  · exact h.writeIdle { h.toDataInv with } rfl
  · exact h.writeIdle { h.toDataInv with } rfl
  · exact h.writeIdle { h.toDataInv with } rfl
  · exact h.writeIdle { h.toDataInv with } rfl
  · exact h.writeIdle { h.toDataInv with } rfl
  · exact h

/-- Everything a CSR access can do (R45). -/
theorem csrAccess_next {bytes off : Nat} {u : State} (h : csrAccess bytes off (.next u) = .next t) : t = u := by
  unfold csrAccess at h
  split at h
  · split at h <;> cases h
    rfl
  · cases h

theorem State.DataInv.hardwareReset_inv (h : s.DataInv) (init : List Host.Cell) (a : HostAgent) :
    (State.hardwareReset s.dmemSize (Memory.ofCells s.dmemSize init) a).Inv :=
  (State.hardwareReset_dataInv h.sizeMin h.sizeMax ⟨Memory.ofCells_wf _ _, Memory.ofCells_bound _ _⟩ a).inv_of_idle rfl
    fun _ => rfl

theorem hostAct_inv (h : s.Inv) {op : HostOp} (ht : hostAct op s = .next t) : t.Inv := by
  cases op with
  | csrRead bytes off => rw [csrAccess_next ht]; exact h.setHost _
  | csrWrite bytes off v => rw [csrAccess_next ht]; exact h.csrWrite off v
  | dmemRead a =>
    simp only [hostAct, dmemAccess] at ht
    split at ht
    · cases ht
    · split at ht <;> cases ht
      exact h.setHost _
  | dmemWrite a v =>
    simp only [hostAct, dmemAccess] at ht
    split at ht
    · cases ht
    · split at ht <;> cases ht
      rename_i hb _ hw
      obtain ⟨ha, rfl⟩ := State.memWrite_cases hw
      have hb : s.status.busy = false := by simpa using hb
      exact (h.setMem (h.legal.write ha v)).inv_of_idle hb (h.ended hb)
  | wait =>
    cases ht
    split <;> exact h.setHost _
  | hardwareReset init => cases ht; exact h.hardwareReset_inv init _

theorem hostStep_inv (h : s.Inv) (ht : hostStep s = .next t) : t.Inv := by
  rcases hostStep_cases ht with rfl | ⟨op, rest, -, ht⟩
  · exact h
  · exact hostAct_inv (h.setHost _) ht

/-- Settles O47: each micro-step, and each action of the host, keeps the invariants of the data and establishes what the state
machine it goes on to needs. -/
theorem stepKeepsTheInvariant : Obligations.StepKeepsTheInvariant := by
  intro s t h ht
  rcases step_cases ht with ⟨-, ht⟩ | ⟨-, ht⟩
  · exact engineStep_inv (h.setHost _) ht
  · exact hostStep_inv (h.setHost _) ht

end Sys2Proof.Machine
end

section
/-! ## What one micro-step leaves of the latches and the dictionary

No invariant is needed: every piece of a micro-step names the state it leaves. -/

namespace Sys2Proof.Machine

/-- What a command is accepted with, and the registers the host may write for the next one (R17, R18, R28). -/
def State.latches (s : State) : Byte × Operands × Policy × Operands × Policy :=
  (s.cmd, s.lat, s.cfg, s.arg, s.config)

/-- From `d` to `e` the slots are unchanged, or one longer with the same symbol width, or those of the initial table (R23). -/
def Dict.WrittenOnce (d e : Dict) : Prop :=
  e.slots = d.slots ∨ (∃ q, e.slots = d.slots ++ [q] ∧ e.n = d.n) ∨ e.slots = initialSlots e.n.toNat

theorem Dict.writtenOnce_push (d : Dict) (q : Seq) : d.WrittenOnce (d.push q) := .inr (.inl ⟨q, rfl, rfl⟩)

/-- What every micro-step but that of SOFT_RESET leaves: the latches, and the dictionary but for one write. -/
structure State.Frame (s t : State) : Prop where
  latches : t.latches = s.latches
  table : s.tbl.WrittenOnce t.tbl

variable {s t : State}

/-- A state that differs in nothing of the latches and the dictionary. -/
theorem State.Frame.of_eq (hl : t.latches = s.latches) (ht : t.tbl.slots = s.tbl.slots) : s.Frame t := ⟨hl, .inl ht⟩

theorem State.Frame.raise (h : s.Frame t) (e : Exc) (i j : Nat) : s.Frame (t.raise e i j) := ⟨h.latches, h.table⟩

theorem State.frame_raise (s : State) (e : Exc) (i j : Nat) : s.Frame (s.raise e i j) := .of_eq rfl rfl

theorem State.frame_finish (s : State) (f : Bool) (a b : Nat) : s.Frame (s.finish f a b) := .of_eq rfl rfl

theorem State.frame_truncate (s : State) : s.Frame s.truncate := .of_eq rfl rfl

/-! ### The commands -/

theorem State.EndsIn.frame (h : s.EndsIn t) : s.Frame t := by
  rcases h with ⟨f, a, b, rfl⟩ | ⟨e, i, j, rfl⟩
  · exact s.frame_finish f a b
  · exact s.frame_raise e i j

/-- An initialised table, whatever else the state then gets. -/
theorem frame_initTable {n : Nat} (h : n ≤ 11) (hl : t.latches = s.latches)
    (ht : t.tbl = ⟨word n, word (n + 1), initialSlots n, true⟩) : s.Frame t := by
  refine ⟨hl, .inr (.inr ?_)⟩
  rw [ht, word_toNat (show n < 2 ^ 32 by omega)]

/-- Initialising the table is one write of it, then the rest (R88). -/
theorem leads_tableInit {n : Nat} {u : State} {k : Unit → State → Res Unit} (hu : s.Frame u)
    (hk : n ≤ 11 → (k () { u with tbl := ⟨word n, word (n + 1), initialSlots n, true⟩ }).Leads s.Frame) :
    ((tableInit n u).bind k).Leads s.Frame := by
  refine Res.leads_bind (tableInit_sat n u) ?_ ?_
  · rintro _ _ ⟨-, h2, rfl⟩; exact hk h2
  · rintro e i j _ ⟨-, -, -, -, rfl⟩; exact hu.raise e i j

/-- Appending an entry is one write of the table, then the rest (R89). -/
theorem leads_tableAppend_frame {q : Seq} {u : State} {k : Nat → State → Res Unit} (hu : s.Frame u)
    (hk : ∀ c, (k c { u with tbl := u.tbl.push q }).Leads s.Frame) : ((tableAppend q u).bind k).Leads s.Frame := by
  refine Res.leads_bind (tableAppend_sat q u) ?_ ?_
  · rintro c _ ⟨-, -, rfl⟩; exact hk c
  · rintro e i j _ ⟨-, -, -, -, rfl⟩; exact hu.raise e i j

/-- The first micro-step of a command other than SOFT_RESET writes the dictionary at most once and no latch. -/
theorem exec_command_frame {i : Instr} (hi : i.format = .command) (hs : i ≠ .softReset) (ht : exec i s = .next t) :
    s.Frame t := by
  have hfin := s.frame_finish
  have hraise := s.frame_raise
  cases i with
  | nop | rdIsComplete | wrCanAppend | wrWritten | tblCount | tblWidth | ctSize | ctIndex | ctFind | contRead =>
    exact (exec_endsIn rfl ht).frame
  | rdInit =>
    refine Res.Leads.next ?_ ht
    exact Res.leads_require (hraise _ _ _) fun _ => Res.leads_require (hraise _ _ _) fun _ =>
      Res.leads_ok (.of_eq rfl rfl)
  | rdConsume width =>
    refine (Res.leads_require (hraise _ _ _) fun _ => Res.leads_bind (consume_sat width.toNat s) ?_ ?_).next ht
    · rintro v _ ⟨-, -, rfl, -⟩; exact .of_eq rfl rfl
    · rintro e i j _ ⟨rfl, -⟩; exact hraise e i j
  | wrInit base len =>
    refine (Res.leads_require (hraise _ _ _) fun _ => Res.leads_require (hraise _ _ _) fun _ =>
      Res.leads_require (hraise _ _ _) fun _ => Res.leads_access fun u hu => ?_).next ht
    obtain ⟨-, rfl⟩ := State.writeBytes_cases _ hu
    exact .of_eq rfl rfl
  | wrAppend value width =>
    refine (Res.leads_require (hraise _ _ _) fun _ => Res.leads_require (hraise _ _ _) fun _ =>
      Res.leads_bind (append_frame value.toNat width.toNat s) ?_ ?_).next ht
    · rintro _ _ ⟨m, cur, rfl, -⟩; exact .of_eq rfl rfl
    · rintro e i j _ rfl; exact hraise e i j
  | tblInit n =>
    refine Res.Leads.next ?_ ht
    exact leads_tableInit (.of_eq rfl rfl) fun h2 => Res.leads_ok (frame_initTable h2 rfl rfl)
  | tblAppend base len =>
    refine Res.Leads.next ?_ ht
    exact Res.leads_require (hraise _ _ _) fun _ => Res.leads_require (hraise _ _ _) fun _ =>
      Res.leads_access fun q _ => leads_tableAppend_frame (.of_eq rfl rfl) fun _ =>
        Res.leads_ok ⟨rfl, s.tbl.writtenOnce_push q⟩
  | tblLookup code base cap =>
    refine (Res.leads_require (hraise _ _ _) fun _ => Res.leads_require (hraise _ _ _) fun _ =>
      Res.leads_require (hraise _ _ _) fun _ => ?_).next ht
    split
    · refine Res.leads_access fun u hu => ?_
      obtain ⟨-, rfl⟩ := State.writeBytes_cases _ hu
      exact .of_eq rfl rfl
    · exact hfin _ _ _
  | tblClear =>
    refine Res.Leads.next ?_ ht
    exact Res.leads_require (hraise _ _ _) fun _ => Res.leads_ok ⟨rfl, .inr (.inr rfl)⟩
  | lzwDecompress =>
    refine Res.Leads.next ?_ ht
    exact Res.leads_require (hraise _ _ _) fun _ => Res.leads_require (hraise _ _ _) fun _ =>
      Res.leads_require (hraise _ _ _) fun _ => Res.leads_require (hraise _ _ _) fun _ =>
        Res.leads_ok (.of_eq rfl rfl)
  | lzwCompress =>
    refine Res.Leads.next ?_ ht
    exact Res.leads_require (hraise _ _ _) fun _ => Res.leads_require (hraise _ _ _) fun _ =>
      Res.leads_require (hraise _ _ _) fun _ => Res.leads_require (hraise _ _ _) fun _ =>
        Res.leads_require (hraise _ _ _) fun _ => leads_tableInit (.of_eq rfl rfl) fun h2 =>
          Res.leads_ok (frame_initTable h2 rfl rfl)
  | gifParse =>
    refine Res.Leads.next ?_ ht
    exact Res.leads_require (hraise _ _ _) fun _ => Res.leads_ok (.of_eq rfl rfl)
  | softReset => exact absurd rfl hs
  | gifExtension | gifImage | gifTrailer | gifExtComment | gifExtGraphicsControl | gifExtApplication
  | gifExtPlainText => cases hi

theorem exec_block_frame {i : Instr} (hi : i.format = .block) (ht : exec i s = .next t) : s.Frame t := by
  cases i with
  | gifExtension | gifImage | gifTrailer | gifExtComment | gifExtGraphicsControl | gifExtApplication
  | gifExtPlainText => cases ht; exact .of_eq rfl rfl
  | _ => cases hi

/-! ### The decompress machine -/

/-- Reading a code keeps the latches and the table, then the rest (R100). -/
theorem leads_readCode_frame {k : Nat → State → Res Unit} (hk : ∀ c n, (k c (s.setRdCur n)).Leads s.Frame) :
    ((readCode s).bind k).Leads s.Frame := by
  refine Res.leads_bind (readCode_sat s) ?_ ?_
  · rintro c _ ⟨n, -, rfl⟩; exact hk c n
  · rintro e i j u rfl; exact u.frame_raise e i j

/-- Emitting bytes keeps the latches and the table, then the rest. -/
theorem leads_emit_frame {q : Seq} {u : State} {k : Unit → State → Res Unit}
    (hk : ∀ v : State, v.latches = u.latches → v.tbl = u.tbl → (k () v).Leads s.Frame) :
    ((emit q u).bind k).Leads s.Frame := by
  refine Res.leads_bind (emit_frame q u) ?_ fun _ _ _ _ => False.elim
  rintro _ _ ⟨m, img, pos, rfl, -⟩
  exact hk _ rfl rfl

theorem decodeFinish_frame {p : Bool} {u : State} (hu : s.Frame u) : (decodeFinish p u).Leads s.Frame := by
  cases p <;> exact ⟨hu.latches, hu.table⟩

theorem stepFound_frame {p : Bool} {c : Nat} {q : Seq} {u : State} (hl : u.latches = s.latches) (htbl : u.tbl = s.tbl) :
    (stepFound p c q u).Leads s.Frame := by
  cases q with
  | nil => exact .of_eq hl (htbl ▸ rfl)
  | cons b q =>
    refine leads_emit_frame fun v hvl hvt => ?_
    have hv : s.Frame v := .of_eq (hvl.trans hl) (congrArg Dict.slots (hvt.trans htbl))
    unfold appendAfterPrev
    split
    · rw [Res.bind_assoc]
      refine leads_tableAppend_frame hv fun _ => ⟨hv.latches, ?_⟩
      rw [← hvt.trans htbl]
      exact v.tbl.writtenOnce_push _
    · exact ⟨hv.latches, hv.table⟩

theorem stepUndefined_frame {p : Bool} {c : Nat} {u : State} (hl : u.latches = s.latches) (htbl : u.tbl = s.tbl) :
    (stepUndefined p c u).Leads s.Frame := by
  have hu : s.Frame u := .of_eq hl (congrArg Dict.slots htbl)
  refine Res.leads_require (hu.raise _ _ _) fun _ => ?_
  split
  · refine leads_tableAppend_frame hu fun _ => leads_emit_frame fun v hvl hvt => ⟨hvl.trans hl, ?_⟩
    rw [← htbl]
    exact (congrArg u.tbl.WrittenOnce hvt).mpr (u.tbl.writtenOnce_push _)
  · exact hu.raise _ _ _

theorem stepCode_frame {p : Bool} {c : Nat} {u : State} (hl : u.latches = s.latches) (htbl : u.tbl = s.tbl) :
    (stepCode p c u).Leads s.Frame := by
  unfold stepCode
  split
  · exact decodeFinish_frame (.of_eq hl (congrArg Dict.slots htbl))
  · split
    · unfold stepClear
      dsimp only
      split <;> exact ⟨hl, .inr (.inr rfl)⟩
    · split
      · exact stepFound_frame hl htbl
      · exact stepUndefined_frame hl htbl

theorem decodeStep_frame {p : Bool} {st : DecState} (ht : decodeStep p st s = .next t) : s.Frame t := by
  refine Res.Leads.next ?_ ht
  cases st with
  | checkClear =>
    exact leads_readCode_frame fun _ _ => Res.leads_require (.of_eq rfl rfl) fun _ => Res.leads_ok (.of_eq rfl rfl)
  | first =>
    refine leads_readCode_frame fun c n => ?_
    split
    · exact .of_eq rfl rfl
    · exact leads_emit_frame fun v hvl hvt => .of_eq hvl (congrArg Dict.slots hvt)
  | loop =>
    dsimp only [stepLoop]
    split
    · exact decodeFinish_frame (.of_eq rfl rfl)
    · split
      · exact decodeFinish_frame (.of_eq rfl rfl)
      · exact leads_readCode_frame fun c n => stepCode_frame rfl rfl

/-! ### The compress machine -/

/-- Emitting a code keeps the latches and the table, then the rest. -/
theorem leads_emits_frame {r : Res Unit} {S : Memory → Nat → Prop}
    (hr : r.Sat (fun _ t => ∃ m cur, t = s.emitted m cur ∧ S m cur) (fun _ _ _ t => t = s) fun _ => True)
    {k : Unit → State → Res Unit} (hk : ∀ m n, (k () (s.emitted m n)).Leads s.Frame) : (r.bind k).Leads s.Frame := by
  refine Res.leads_bind hr ?_ ?_
  · rintro _ _ ⟨m, n, rfl, -⟩; exact hk m n
  · rintro e i j u rfl; exact u.frame_raise e i j

theorem encodeStep_frame {st : EncState} (ht : encodeStep st s = .next t) : s.Frame t := by
  refine Res.Leads.next ?_ ht
  cases st with
  | start =>
    dsimp only [stepStart]
    split
    · exact .of_eq rfl rfl
    · exact leads_emits_frame (emitCode_frame _ s) fun m n => .of_eq rfl rfl
  | scan =>
    refine Res.leads_access fun b _ => Res.leads_require (s.frame_raise _ _ _) fun _ => ?_
    dsimp only
    split
    · exact .of_eq rfl rfl
    · exact leads_emits_frame (emitBuffer_frame s) fun m n => leads_tableAppend_frame (.of_eq rfl rfl) fun _ =>
        Res.leads_ok ⟨rfl, s.tbl.writtenOnce_push _⟩
  | flush =>
    dsimp only [stepFlush]
    split
    · exact .of_eq rfl rfl
    · exact leads_emits_frame (emitBuffer_frame s) fun m n => .of_eq rfl rfl
  | eoi =>
    dsimp only [stepEoi]
    split
    · exact .of_eq rfl rfl
    · exact leads_emits_frame (emitCode_frame _ s) fun m n => .of_eq rfl rfl

/-! ### The parser -/

theorem decodeExtension_format {bs rest : Seq} {i : Instr} (h : decodeExtension bs = .ok (i, rest)) :
    i.format = .block := by
  obtain ⟨n, hi, -⟩ := decodeExtension_length h
  cases i <;> cases hi <;> rfl

theorem decodeImage_format {bs rest : Seq} {i : Instr} (h : decodeImage bs = .ok (i, rest)) : i.format = .block := by
  obtain ⟨⟨_, _, _, _, _, rfl⟩, -⟩ := decodeImage_length h
  rfl

theorem runBlock_frame {d : Except DecodeError (Instr × List Byte)} (hd : ∀ i rest, d = .ok (i, rest) → i.format = .block)
    (ht : runBlock d s = .next t) : s.Frame t := by
  unfold runBlock at ht
  split at ht
  · exact exec_block_frame (hd _ _ rfl) ht
  · cases ht; exact s.frame_truncate

theorem stepLabel_frame (ht : stepLabel s = .next t) : s.Frame t := by
  unfold stepLabel at ht
  split at ht
  · split at ht
    · cases ht
    · split at ht
      · cases ht; exact .of_eq rfl rfl
      · split at ht
        · cases ht; exact .of_eq rfl rfl
        · split at ht
          · exact exec_block_frame (i := .gifTrailer) rfl ht
          · cases ht; exact .of_eq rfl rfl
  · cases ht; exact s.frame_truncate

theorem parseStep_frame {st : ParState} (ht : parseStep st s = .next t) : s.Frame t := by
  cases st with
  | header | gct =>
    refine Res.Leads.next ?_ ht
    exact Res.leads_needing s.frame_truncate fun _ => Res.leads_access fun _ _ => Res.leads_ok (.of_eq rfl rfl)
  | label => exact stepLabel_frame ht
  | ext =>
    simp only [parseStep, stepExt] at ht
    split at ht
    · cases ht
    · exact runBlock_frame (fun _ _ => decodeExtension_format) ht
  | image =>
    simp only [parseStep, stepImage] at ht
    split at ht
    · cases ht
    · exact runBlock_frame (fun _ _ => decodeImage_format) ht
  | lct =>
    refine Res.Leads.next ?_ ht
    unfold stepLct
    split
    · exact s.frame_raise _ _ _
    · exact Res.leads_needing s.frame_truncate fun _ => Res.leads_access fun _ _ => Res.leads_ok (.of_eq rfl rfl)
  | codeSize =>
    refine Res.Leads.next ?_ ht
    exact Res.leads_needing s.frame_truncate fun _ => Res.leads_access fun _ _ =>
      leads_tableInit (.of_eq rfl rfl) fun h2 => Res.leads_ok (frame_initTable h2 rfl rfl)
  | subLen =>
    refine Res.Leads.next (Res.leads_needing s.frame_truncate fun _ => Res.leads_access fun l _ => ?_) ht
    dsimp only
    split <;> exact .of_eq rfl rfl
  | subData =>
    refine Res.Leads.next (Res.leads_needing s.frame_truncate fun _ => ?_) ht
    split <;> exact .of_eq rfl rfl

/-! ### Every micro-step -/

theorem opcode_of_decodeCommand_softReset {c : CommandWords} (h : decodeCommand c = .ok .softReset) :
    opcodeOf c.cmd = 0xFF#8 := by
  unfold decodeCommand at h
  split at h <;> cases h
  assumption

theorem firstStep_frame (hc : s.cmd ≠ 0xFF#8) (ht : firstStep s = .next t) : s.Frame t := by
  unfold firstStep at ht
  split at ht
  · rename_i i hi
    refine exec_command_frame (format_of_decodeCommand hi) ?_ ht
    rintro rfl
    exact hc ((opcodeOf_commandWords s).symm.trans (opcode_of_decodeCommand_softReset hi))
  · cases ht; exact s.frame_raise _ _ _

theorem microStep_frame (hc : s.cmd ≠ 0xFF#8) (ht : microStep s = .next t) : s.Frame t := by
  unfold microStep at ht
  rw [if_neg hc] at ht
  split at ht
  · exact firstStep_frame hc ht
  · exact decodeStep_frame ht
  · exact encodeStep_frame ht
  · exact parseStep_frame ht

/-- Settles O53: the micro-step of SOFT_RESET empties the table, and every other one writes it at most once. -/
theorem dictionaryIsWrittenOnce : Obligations.DictionaryIsWrittenOnce := by
  intro s t _ ht
  unfold engineStep at ht
  split at ht
  · by_cases hc : s.cmd = 0xFF#8
    · rw [microStep, if_pos hc, firstStep_softReset hc] at ht
      cases ht
      exact .inr (.inr (.inr ⟨hc, rfl⟩))
    · rcases (microStep_frame hc ht).table with h | h | h
      · exact .inl h
      · exact .inr (.inl h)
      · exact .inr (.inr (.inl h))
  · cases ht
    exact .inl rfl

/-! ### The host's moves while a command runs -/

/-- While `BUSY` = 1 a host write of a CSR leaves everything but `STATUS` (R29). -/
theorem csrWrite_busy (hb : s.status.busy = true) (off : Nat) (v : Word) :
    s.csrWrite off v = s.rejectWrite ∨ s.csrWrite off v = s := by
  unfold State.csrWrite State.writeCmd State.writeIdle
  split <;> simp [hb]

/-- While `BUSY` = 1 an action of the host keeps the latches, but for a hardware reset (R29, R164). -/
theorem hostAct_latches (hb : s.status.busy = true) {op : HostOp} (ht : hostAct op s = .next t) :
    t.latches = s.latches ∨ ∃ init, op = .hardwareReset init := by
  cases op with
  | csrRead bytes off => rw [csrAccess_next ht]; exact .inl rfl
  | csrWrite bytes off v =>
    rw [csrAccess_next ht]
    rcases csrWrite_busy hb off v with e | e <;> rw [e] <;> exact .inl rfl
  | dmemRead a => simp [hostAct, dmemAccess, hb] at ht
  | dmemWrite a v => simp [hostAct, dmemAccess, hb] at ht
  | wait => cases ht; left; split <;> rfl
  | hardwareReset init => exact .inr ⟨init, rfl⟩

theorem hostStep_latches (hm : s.mover = .host) (hb : s.status.busy = true) (ht : hostStep s.turned = .next t) :
    t.latches = s.latches ∨ s.HardwareResets t := by
  rcases hostStep_cases ht with rfl | ⟨op, rest, hscript, ht⟩
  · exact .inl rfl
  · rcases hostAct_latches (s := { s.turned with host := { s.turned.host with script := rest } }) hb ht with h | ⟨init, rfl⟩
    · exact .inl h
    · cases ht
      exact .inr ⟨hm, init, rest, hscript, rfl⟩

/-- Settles O55: a micro-step but that of SOFT_RESET keeps the latches, and so does an action of the host while `BUSY` = 1, but for
a hardware reset. -/
theorem latchesHoldDuringARun : Obligations.LatchesHoldDuringARun := by
  intro s t ⟨hb, hc⟩ ht
  have key : t.latches = s.latches ∨ s.HardwareResets t := by
    rcases step_cases ht with ⟨-, ht⟩ | ⟨hm, ht⟩
    · have hbt : s.turned.status.busy = true := hb
      rw [engineStep, if_pos hbt] at ht
      exact .inl (microStep_frame (s := s.turned) hc ht).latches
    · exact hostStep_latches hm hb ht
  exact key.imp_left fun h => by simpa only [State.latches, Prod.mk.injEq] using h

end Sys2Proof.Machine
end

section
/-! ## A table word is the instruction the next step runs -/

namespace Sys2Proof.Machine

variable {s : State}

/-! ### A block is decoded from the front of the stream, whatever follows it -/

theorem splitAtZero_append {bs text rest : Seq} (h : splitAtZero bs = some (text, rest)) (more : Seq) :
    splitAtZero (bs ++ more) = some (text, rest ++ more) := by
  obtain ⟨hz, rfl⟩ := splitAtZero_some.mp h
  exact splitAtZero_some.mpr ⟨hz, by simp⟩

theorem decodeComment_append {bs rest : Seq} {i : Instr} (h : decodeComment bs = .ok (i, rest)) (more : Seq) :
    decodeComment (bs ++ more) = .ok (i, rest ++ more) := by
  unfold decodeComment at h ⊢
  split at h
  · cases h
  · rename_i hz
    cases h
    rw [splitAtZero_append hz]

theorem decodeGraphicsControl_append {bs rest : Seq} {i : Instr} (h : decodeGraphicsControl bs = .ok (i, rest))
    (more : Seq) : decodeGraphicsControl (bs ++ more) = .ok (i, rest ++ more) := by
  unfold decodeGraphicsControl at h
  split at h <;> cases h
  rfl

theorem decodeApplication_append {bs rest : Seq} {i : Instr} (h : decodeApplication bs = .ok (i, rest)) (more : Seq) :
    decodeApplication (bs ++ more) = .ok (i, rest ++ more) := by
  unfold decodeApplication at h
  split at h
  · split at h
    · cases h
    · rename_i hz
      cases h
      simp only [List.cons_append, decodeApplication, splitAtZero_append hz]
  · cases h

theorem decodePlainText_append {bs rest : Seq} {i : Instr} (h : decodePlainText bs = .ok (i, rest)) (more : Seq) :
    decodePlainText (bs ++ more) = .ok (i, rest ++ more) := by
  unfold decodePlainText at h
  split at h <;> cases h
  rfl

theorem decodeExtension_append {bs rest : Seq} {i : Instr} (h : decodeExtension bs = .ok (i, rest)) (more : Seq) :
    decodeExtension (bs ++ more) = .ok (i, rest ++ more) := by
  cases bs with
  | nil => cases h
  | cons label bs =>
    simp only [List.cons_append, decodeExtension] at h ⊢
    split_ifs at h ⊢
    · exact decodeComment_append h more
    · exact decodeGraphicsControl_append h more
    · exact decodeApplication_append h more
    · exact decodePlainText_append h more
    · cases h; rfl

theorem decodeImage_append {bs rest : Seq} {i : Instr} (h : decodeImage bs = .ok (i, rest)) (more : Seq) :
    decodeImage (bs ++ more) = .ok (i, rest ++ more) := by
  unfold decodeImage at h
  split at h <;> cases h
  rfl

/-! ### Whose step it is -/

theorem step_engine (ht : s.host.turns = []) (hb : s.status.busy = true) : step s = engineStep s := by
  simp [step, nextMove, ht, hb]

/-- The first micro-step of an accepted command is `exec` of it, before `FSM` is looked at for SOFT_RESET (R28, R30; log 6). -/
theorem engineStep_accepted {i : Instr} (hb : s.status.busy = true) (hf : s.status.fsm = .idle ∨ s.cmd = 0xFF#8)
    (hi : decodeCommand s.commandWords = .ok i) : engineStep s = exec i s := by
  rcases hf with hf | hc
  · exact engineStep_first hb hf hi
  · simp only [engineStep, hb, microStep, hc, firstStep, hi, if_true]

/-! ### The parser over a stream that starts with a block -/

theorem stepExt_eq {b : Byte} {t more rest : Seq} {i : Instr} (hs : s.parseStream = some (b :: t ++ more))
    (hd : decodeExtension t = .ok (i, rest)) : stepExt s = exec i s := by
  simp only [stepExt, hs, List.cons_append, List.tail_cons, decodeExtension_append hd more, runBlock]

theorem stepImage_eq {b : Byte} {t more rest : Seq} {i : Instr} (hs : s.parseStream = some (b :: t ++ more))
    (hd : decodeImage t = .ok (i, rest)) : stepImage s = exec i s := by
  simp only [stepImage, hs, List.cons_append, List.tail_cons, decodeImage_append hd more, runBlock]

theorem stepLabel_trailer (hneed : s.need 1 = true) (hb : s.parseByte s.par.pos.toNat = some 0x3B#8) :
    stepLabel s = exec .gifTrailer s := by
  simp [stepLabel, hneed, hb]

/-- With a block's bytes at `P_POS` and the parser in the state of their label, the micro-step is `exec` of the block. -/
theorem engineStep_block {b : Byte} {t rest : Seq} {i : Instr} (hr : s.runs (blockFsm b))
    (hregion : s.InDmem s.par.base s.par.len) (hle : s.par.pos.toNat + (b :: t).length ≤ s.par.len)
    (hbytes : s.bytesAt s.par.pos.toNat (s.par.pos.toNat + (b :: t).length) = b :: t)
    (hd : decodeBlock (b :: t) = .ok (i, rest)) : engineStep s = exec i s := by
  have hstream : s.parseStream = some (b :: t ++ s.bytesAt (s.par.pos.toNat + (b :: t).length) s.par.len) := by
    rw [State.parseStream_eq hregion (by omega), State.bytesAt_append (Nat.le_add_right _ _) hle, hbytes]
  simp only [decodeBlock] at hd
  split at hd
  · rename_i hb; subst hb
    rw [engineStep_parse (st := .ext) hr]
    exact stepExt_eq hstream hd
  · split at hd
    · rename_i hb; subst hb
      rw [engineStep_parse (st := .image) hr]
      exact stepImage_eq hstream hd
    · split at hd
      · rename_i hb; subst hb; cases hd
        rw [engineStep_parse (st := .label) hr]
        have hlt : s.par.pos.toNat < s.par.len := by rw [List.length_cons] at hle; omega
        refine stepLabel_trailer (decide_eq_true hlt) ?_
        rw [State.bytesAt_cons (by simp)] at hbytes
        rw [State.parseByte_eq hregion hlt, (List.cons.inj hbytes).1]
      · cases hd

/-- A table word's stream begins with its low byte. -/
theorem tableBytes_cons (nbits w : Nat) : ∃ t, tableBytes nbits w = byte (w % 2 ^ nbits) :: t := by
  rw [tableBytes, longestZeroBlock, List.range_succ_eq_map, List.map_cons, Nat.mul_zero, pow_zero, Nat.div_one]
  exact ⟨_, rfl⟩

theorem step_withBlock {nbits w : Nat} {i : Instr} {rest : Seq} (hm : s.dmem.wf = true)
    (hd : decodeBlock (tableBytes nbits w) = .ok (i, rest)) :
    step (s.withBlock nbits w) = exec i (s.withBlock nbits w) := by
  obtain ⟨t, ht⟩ := tableBytes_cons nbits w
  rw [step_engine rfl rfl]
  have hbytes := bytesAt_placeBytes hm (s.withBlock nbits w) (tableBytes nbits w) s.par.pos.toNat rfl
  rw [ht] at hd hbytes
  refine engineStep_block ⟨⟨rfl, (by decide : (0x30#8 : Byte) ≠ 0xFF#8)⟩, rfl⟩ ?_ ?_ hbytes hd
  · show _ + max _ _ ≤ max _ (_ + max _ _)
    exact Nat.le_max_right _ _
  · rw [← ht]
    exact Nat.le_max_right _ _

theorem step_withCommand {nbits w : Nat} {i : Instr} (hd : decodeCommand (tableCommand nbits w) = .ok i) :
    step (s.withCommand nbits w) = exec i (s.withCommand nbits w) := by
  rw [step_engine rfl rfl]
  refine engineStep_accepted rfl (.inl rfl) ?_
  rw [← hd]
  exact decodeCommand_congr (opcodeOf_commandWords _) rfl rfl rfl rfl

/-- Settles O6: the engine decodes the placed words, or the parser the placed bytes, to the instruction of the word. -/
theorem fetchWordRunsTheRow : Obligations.FetchWordRunsTheRow := by
  intro s nbits w i hm hd
  unfold decodeTableWord at hd
  unfold State.withFetchWord
  split at hd
  · rename_i hc
    rw [if_pos hc]
    split at hd <;> cases hd
    rename_i hi
    exact step_withCommand hi
  · rename_i hc
    rw [if_neg hc]
    split at hd <;> cases hd
    rename_i hi
    exact step_withBlock hm hi

/-- Settles O30: the turns name the agent, and the first micro-step decodes the latched words. -/
theorem stepRunsTheAcceptedCommand : Obligations.StepRunsTheAcceptedCommand := by
  intro s
  refine ⟨fun ht => ?_, fun turns ht => ?_, fun turns ht => ?_, fun i ht hb hf hi => ?_⟩
  · simp only [step, nextMove, ht]
  · simp only [step, nextMove, ht]
  · simp only [step, nextMove, ht]
  · rw [word, BitVec.ofNat_toNat] at hi
    rw [step_engine ht hb]
    exact engineStep_accepted hb hf hi

/-! ## The host's accesses to CSRs -/

/-- A host write of 32 bits inside the window is `csrWrite` (R14, R45). -/
theorem hostStep_csrWrite {off : Nat} (h4 : off % 4 = 0) (h : off ≤ 0x7C) (rest : List HostOp) (v : Word) :
    hostStep (s.withScript (.csrWrite 4 off v :: rest)) = .next ((s.withScript rest).csrWrite off v) := by
  show csrAccess 4 off (.next ((s.withScript rest).csrWrite off v)) = _
  rw [csrAccess, if_pos ⟨rfl, h4⟩, if_pos h]

/-- A host read of 32 bits inside the window gives `csrRead` (R14, R45). -/
theorem hostStep_csrRead {off : Nat} (h4 : off % 4 = 0) (h : off ≤ 0x7C) (rest : List HostOp) :
    hostStep (s.withScript (.csrRead 4 off :: rest)) =
      .next { s with host := { s.host with script := rest, got := s.host.got ++ [.csr (s.csrRead off)] } } := by
  show csrAccess 4 off (.next ((s.withScript rest).give (.csr ((s.withScript rest).csrRead off)))) = _
  rw [csrAccess, if_pos ⟨rfl, h4⟩, if_pos h]
  rfl

theorem writeCmd_accepts {v : Word} (hb : s.status.busy = false) (hf : s.status.fault = false ∨ opcodeOf v = 0xFF#8) :
    s.writeCmd v = s.accept v := by
  refine if_pos ?_
  rcases hf with hf | hf <;> simp [hb, hf]

theorem writeCmd_rejects {v : Word} (h : s.status.busy = true ∨ s.status.fault = true ∧ opcodeOf v ≠ 0xFF#8) :
    s.writeCmd v = s.rejectWrite := by
  refine if_neg ?_
  rcases h with hb | ⟨hf, ho⟩ <;> simp [*]

theorem writeIdle_busy (hb : s.status.busy = true) (u : State) : s.writeIdle u = s.rejectWrite := if_pos hb

theorem writeIdle_idle (hb : s.status.busy = false) (u : State) : s.writeIdle u = u := if_neg (by simp [hb])

/-- Every offset but those of the six registers the host may write ignores a write (R15). -/
theorem csrWrite_ignored {off : Nat} (h : off ∉ [0x00, 0x08, 0x0C, 0x10, 0x14, 0x20]) (v : Word) :
    s.csrWrite off v = s := by
  unfold State.csrWrite
  split <;> simp at h
  rfl

/-- Settles O27, by the offset written. -/
theorem hostWritesOfCsrs : Obligations.HostWritesOfCsrs := by
  intro s rest v u writes dropped
  have hw : ∀ {off : Nat} {t : State}, off % 4 = 0 → off ≤ 0x7C → u.csrWrite off v = t → writes off t :=
    fun h4 h ht => ht ▸ hostStep_csrWrite h4 h rest v
  refine ⟨fun hb hf => ?_, fun h => ?_, fun hb off hoff => ?_, fun hb => ?_, fun k hk hoff => ?_⟩
  · exact hw rfl (by decide) (writeCmd_accepts (s := u) hb hf)
  · exact hw rfl (by decide) (writeCmd_rejects (s := u) h)
  · simp only [List.mem_cons, List.not_mem_nil, or_false] at hoff
    rcases hoff with rfl | rfl | rfl | rfl | rfl <;> exact hw rfl (by decide) (writeIdle_busy (s := u) hb _)
  · have hi := writeIdle_idle (s := u) hb
    exact ⟨hw rfl (by decide) (hi _), hw rfl (by decide) (hi _), hw rfl (by decide) (hi _), hw rfl (by decide) (hi _),
      hw rfl (by decide) (hi _)⟩
  · exact hw (Nat.mul_mod_right 4 k) (by omega) (csrWrite_ignored hoff v)

/-! ### The words composed of fields -/

/-- A word put together of two parts is their sum, the high part shifted. -/
theorem toNat_append_eq_add {m n : Nat} (x : BitVec m) (y : BitVec n) : (x ++ y).toNat = 2 ^ n * x.toNat + y.toNat := by
  rw [BitVec.toNat_append, ← Nat.shiftLeft_add_eq_or_of_lt y.isLt, Nat.shiftLeft_eq, Nat.mul_comm]

/-- A flag at bit `k` of a register word. -/
theorem flag_eq_mul (b : Bool) (k : Nat) : (if b then 2 ^ k else 0) = 2 ^ k * b.toNat := by
  cases b <;> simp

theorem Status.word_eq (st : Status) :
    st.word = Sys2Proof.word (2 ^ 0 * st.busy.toNat + 2 ^ 1 * st.done.toNat + 2 ^ 2 * st.fault.toNat +
      2 ^ 3 * st.flag.toNat + 2 ^ 4 * st.reject.toNat + 2 ^ 8 * st.faultCode.toNat + 2 ^ 16 * st.fsm.code.toNat) := by
  have := st.busy.toNat_le
  have := st.done.toNat_le
  have := st.fault.toNat_le
  have := st.flag.toNat_le
  have := st.reject.toNat_le
  apply BitVec.eq_of_toNat_eq
  rw [word_toNat (by omega)]
  simp only [Status.word, toNat_append_eq_add, BitVec.toNat_ofBool, BitVec.toNat_ofNat]
  omega

theorem Policy.word_eq (p : Policy) :
    p.word = Sys2Proof.word (2 ^ 0 * p.badCode.toNat + 2 ^ 1 * p.clearPrev.toNat + 2 ^ 2 * p.lctSizing.toNat +
      2 ^ 3 * p.rdOverrun.toNat) := by
  have := p.badCode.toNat_le
  have := p.clearPrev.toNat_le
  have := p.lctSizing.toNat_le
  have := p.rdOverrun.toNat_le
  apply BitVec.eq_of_toNat_eq
  rw [word_toNat (by omega)]
  simp only [Policy.word, toNat_append_eq_add, BitVec.toNat_ofBool, BitVec.toNat_ofNat]
  omega

theorem State.validWord_eq (s : State) :
    s.validWord = word (2 ^ 0 * s.rd.valid.toNat + 2 ^ 1 * s.wr.valid.toNat + 2 ^ 2 * s.tbl.valid.toNat +
      2 ^ 3 * s.cont.valid.toNat) := by
  have := s.rd.valid.toNat_le
  have := s.wr.valid.toNat_le
  have := s.tbl.valid.toNat_le
  have := s.cont.valid.toNat_le
  apply BitVec.eq_of_toNat_eq
  rw [word_toNat (by omega)]
  simp only [State.validWord, toNat_append_eq_add, BitVec.toNat_ofBool, BitVec.toNat_ofNat]
  omega

/-! ### Reads -/

theorem csrRead_reserved {off : Nat} (h : 0x60 ≤ off) : s.csrRead off = 0 := by
  unfold State.csrRead
  split <;> try omega
  rfl

/-- A host access to a CSR that is not 32 bits wide at a multiple of 4 is refused (R45; log 8). -/
theorem csrAccess_shape {bytes off : Nat} (h : ¬(bytes = 4 ∧ off % 4 = 0)) (k : Host.Outcome State Fault Refusal) :
    csrAccess bytes off k = .refused .csrAccessShape := if_neg h

/-- A host access to a CSR above the window is refused (R14; log 8). -/
theorem csrAccess_outside {k : Nat} (h : 32 ≤ k) (o : Host.Outcome State Fault Refusal) :
    csrAccess 4 (4 * k) o = .refused .csrOutsideWindow := by
  rw [csrAccess, if_pos ⟨rfl, Nat.mul_mod_right 4 k⟩, if_neg (by omega)]

/-- Settles O28, by the offset read. -/
theorem hostReadsOfCsrs : Obligations.HostReadsOfCsrs := by
  intro s rest gives bit
  have hr : ∀ {off : Nat} {v : Word}, off % 4 = 0 → off ≤ 0x7C → s.csrRead off = v → gives off v :=
    fun h4 h hv => hv ▸ hostStep_csrRead h4 h rest
  have hbit : ∀ b k, bit b k = 2 ^ k * b.toNat := flag_eq_mul
  refine ⟨?_, fun k hk => ?_, ?_, ?_, ?_, fun bytes off h => ?_, fun k hk => ?_⟩
  · intro p hp
    obtain ⟨h4, h, hv⟩ : p.1 % 4 = 0 ∧ p.1 ≤ 0x7C ∧ s.csrRead p.1 = p.2 := by
      revert p
      simp [State.csrRead, Config.identity]
    exact hr h4 h hv
  · exact hr (by omega) (by omega) (csrRead_reserved (Nat.le_add_right _ _))
  · simp only [hbit]
    exact hr rfl (by decide) s.status.word_eq
  · simp only [hbit]
    exact hr rfl (by decide) s.config.word_eq
  · simp only [hbit]
    exact hr rfl (by decide) s.validWord_eq
  · exact ⟨csrAccess_shape h _, fun v => csrAccess_shape h _⟩
  · exact ⟨csrAccess_outside hk _, fun v => csrAccess_outside hk _⟩

end Sys2Proof.Machine
end

section
/-! ## Where DMEM is written: the pieces

DMEM is written by sequences of bytes, by the appends of the writer and by the emissions of the decoder, each inside its region. -/

namespace Sys2Proof.Machine

variable {s t u : State}

/-! ### Keeping DMEM, whole or outside a region -/

theorem KeepsMemory.of_dmem (h : t.dmem = s.dmem) : KeepsMemory s t := fun a => congrArg (·.read a) h

theorem KeepsMemory.outside (h : KeepsMemory s t) (base len : Nat) : KeepsMemoryOutside base len s t := fun a _ => h a

theorem keepsMemoryOutside_refl (base len : Nat) (s : State) : KeepsMemoryOutside base len s s := fun _ _ => rfl

/-- What a sequence leaves that fits a region it is written to the front of. -/
theorem writeBytes_outside (hm : s.dmem.wf = true) {base len : Nat} {q : Seq} (hq : q.length ≤ len)
    (hu : s.writeBytes base q = some u) : KeepsMemoryOutside base len s u := by
  obtain ⟨-, rfl⟩ := State.writeBytes_cases q hu
  intro a ha
  rw [State.peek_eq, placeBytes_read q hm]
  split
  · rw [List.getElem?_eq_none (by omega)]; rfl
  · rfl

/-- An append stays inside the writer's region (R83). -/
theorem append_outside (hm : s.dmem.wf = true) (hr : s.InDmem s.wr.base.toNat s.wr.len.toNat) (v w : Nat) :
    (append v w s).Sat (fun _ => KeepsMemoryOutside s.wr.base.toNat s.wr.len.toNat s)
      (fun _ _ _ => KeepsMemoryOutside s.wr.base.toNat s.wr.len.toNat s) fun _ => True := by
  unfold State.InDmem at hr
  refine (append_sat v w s).mono ?_ ?_ fun _ _ => trivial
  · rintro _ _ ⟨-, -, hlt, u, hu, rfl⟩ a ha
    exact State.orCode_keeps hm (fun i hi => by omega) hu a (by omega)
  · rintro _ _ _ _ ⟨rfl, -⟩
    exact keepsMemoryOutside_refl _ _ _

/-- The region of DMEM the decoder's output goes to: none inside GIF_PARSE, where it goes to the pixels (R99, R140). -/
def State.outRegion (s : State) (inParse : Bool) : Nat × Nat :=
  if inParse then (0, 0) else (s.out.base.toNat, s.out.cap.toNat)

/-- Emitted bytes stay inside the output region (R99). -/
theorem emit_outside {p : Bool} (h : s.DataInv) (hd : s.Decoding p) (q : Seq) :
    ∃ u, emit q s = .ok () u ∧ KeepsMemoryOutside (s.outRegion p).1 (s.outRegion p).2 s u := by
  cases p with
  | false =>
    obtain ⟨hsink, hregion, -⟩ := hd.dmemSink rfl
    obtain ⟨u, ⟨-, hmem, -⟩, hu, -⟩ := emit_dmem_emits q hsink hregion h.output h.memory
    refine ⟨u, hu, fun a ha => ((hmem hsink).2 a).trans (if_neg ?_)⟩
    simp only [State.outRegion, Bool.false_eq_true, if_false] at ha
    omega
  | true =>
    obtain ⟨hsink, hfilled, -⟩ := hd.pixelSink rfl
    obtain ⟨u, -, hu, hmem⟩ := emit_pixels_emits q hsink h.output hfilled h.image.1.canonical
    exact ⟨u, hu, (KeepsMemory.of_dmem hmem).outside _ _⟩

/-! ### Pieces that write no DMEM, then the rest -/

theorem Res.leads_readCode {P : State → Prop} {k : Nat → State → Res Unit} (hr : ∀ e i j, P (s.raise e i j))
    (hk : ∀ c n, n ≤ 8 * s.rd.len.toNat → (k c (s.setRdCur n)).Leads P) : ((readCode s).bind k).Leads P := by
  refine Res.leads_bind (readCode_sat s) ?_ ?_
  · rintro c _ ⟨n, hn, rfl⟩; exact hk c n hn
  · rintro e i j _ rfl; exact hr e i j

theorem Res.leads_tableInit {P : State → Prop} {n : Nat} {k : Unit → State → Res Unit} (hr : ∀ e i j, P (s.raise e i j))
    (hk : ∀ d, (k () { s with tbl := d }).Leads P) : ((tableInit n s).bind k).Leads P := by
  refine Res.leads_bind (tableInit_sat n s) ?_ ?_
  · rintro _ _ ⟨-, -, rfl⟩; exact hk _
  · rintro e i j _ ⟨-, -, -, -, rfl⟩; exact hr e i j

theorem Res.leads_tableAppend {P : State → Prop} {q : Seq} {k : Nat → State → Res Unit}
    (hr : ∀ e i j, P (s.raise e i j))
    (hk : ∀ c, s.tbl.count < Config.dictMax → (k c { s with tbl := s.tbl.push q }).Leads P) :
    ((tableAppend q s).bind k).Leads P := by
  refine Res.leads_bind (tableAppend_sat q s) ?_ ?_
  · rintro c _ ⟨hc, -, rfl⟩; exact hk c hc
  · rintro e i j _ ⟨-, -, -, -, rfl⟩; exact hr e i j

end Sys2Proof.Machine
end

section
/-! ## Where DMEM is written: the instructions and the machines -/

namespace Sys2Proof.Machine

variable {s t u : State}

/-! ### The instructions -/

/-- The instructions that write DMEM in their own micro-step. -/
def writesDmem : Instr → Bool
  | .wrInit .. | .wrAppend .. | .tblLookup .. => true
  | _ => false

/-- Every other instruction keeps DMEM, the setups of the composite commands included. -/
theorem exec_keepsMemory {i : Instr} (hi : writesDmem i = false) (ht : exec i s = .next t) : KeepsMemory s t := by
  have hraise : ∀ e i j, KeepsMemory s (s.raise e i j) := fun _ _ _ => .of_dmem rfl
  have hfin : ∀ f a b, KeepsMemory s (s.finish f a b) := fun _ _ _ => .of_dmem rfl
  cases i with
  | wrInit | wrAppend | tblLookup => cases hi
  | nop | rdIsComplete | wrCanAppend | wrWritten | tblCount | tblWidth | ctSize | ctIndex | ctFind | contRead =>
    rcases exec_endsIn rfl ht with ⟨f, a, b, rfl⟩ | ⟨e, i, j, rfl⟩
    · exact hfin f a b
    · exact hraise e i j
  | rdInit =>
    refine Res.Leads.next ?_ ht
    exact Res.leads_require (hraise _ _ _) fun _ => Res.leads_require (hraise _ _ _) fun _ =>
      Res.leads_ok (.of_dmem rfl)
  | rdConsume width =>
    refine (Res.leads_require (hraise _ _ _) fun _ => Res.leads_bind (consume_sat width.toNat s) ?_ ?_).next ht
    · rintro v _ ⟨-, -, rfl, -⟩; exact .of_dmem rfl
    · rintro e i j _ ⟨rfl, -⟩; exact hraise e i j
  | tblInit =>
    refine Res.Leads.next ?_ ht
    exact Res.leads_tableInit hraise fun _ => Res.leads_ok (.of_dmem rfl)
  | tblAppend =>
    refine Res.Leads.next ?_ ht
    exact Res.leads_require (hraise _ _ _) fun _ => Res.leads_require (hraise _ _ _) fun _ =>
      Res.leads_access fun _ _ => Res.leads_tableAppend hraise fun _ _ => Res.leads_ok (.of_dmem rfl)
  | tblClear =>
    refine Res.Leads.next ?_ ht
    exact Res.leads_require (hraise _ _ _) fun _ => Res.leads_ok (.of_dmem rfl)
  | lzwDecompress =>
    refine Res.Leads.next ?_ ht
    exact Res.leads_require (hraise _ _ _) fun _ => Res.leads_require (hraise _ _ _) fun _ =>
      Res.leads_require (hraise _ _ _) fun _ => Res.leads_require (hraise _ _ _) fun _ =>
        Res.leads_ok (.of_dmem rfl)
  | lzwCompress =>
    refine Res.Leads.next ?_ ht
    exact Res.leads_require (hraise _ _ _) fun _ => Res.leads_require (hraise _ _ _) fun _ =>
      Res.leads_require (hraise _ _ _) fun _ => Res.leads_require (hraise _ _ _) fun _ =>
        Res.leads_require (hraise _ _ _) fun _ => Res.leads_tableInit hraise fun _ => Res.leads_ok (.of_dmem rfl)
  | gifParse =>
    refine Res.Leads.next ?_ ht
    exact Res.leads_require (hraise _ _ _) fun _ => Res.leads_ok (.of_dmem rfl)
  | softReset | gifExtension | gifImage | gifTrailer | gifExtComment | gifExtGraphicsControl | gifExtApplication
  | gifExtPlainText => cases ht; exact .of_dmem rfl

/-- DMEM is kept, or all of it but a region is that does not overlap the valid reader's (R36). -/
def State.WritesOnly (s : State) (region : Nat × Nat) (t : State) : Prop :=
  KeepsMemory s t ∨ ¬s.MeetsReader region.1 region.2 ∧ KeepsMemoryOutside region.1 region.2 s t

theorem State.writesOnly_raise (s : State) (region : Nat × Nat) (e : Exc) (i j : Nat) :
    s.WritesOnly region (s.raise e i j) := .inl (.of_dmem rfl)

theorem State.writesOnly_finish (s : State) (region : Nat × Nat) (f : Bool) (a b : Nat) :
    s.WritesOnly region (s.finish f a b) := .inl (.of_dmem rfl)

theorem not_meetsReader_of_require {base len : Word} (h : (!s.hitsReader base len) = true) :
    ¬s.MeetsReader base.toNat len.toNat :=
  (s.hitsReader_false base len).mp (hitsReader_eq_false h)

theorem execWrInit_writesOnly (h : s.DataInv) {base len : Word} (ht : execWrInit base len s = .next t) :
    s.WritesOnly (base.toNat, len.toNat) t := by
  have hraise := s.writesOnly_raise (base.toNat, len.toNat)
  refine (Res.leads_require (hraise _ _ _) fun _ => Res.leads_require (hraise _ _ _) fun _ =>
    Res.leads_require (hraise _ _ _) fun hhit => Res.leads_access fun u hu => Res.leads_ok ?_).next ht
  have hout : KeepsMemoryOutside base.toNat len.toNat s u :=
    writeBytes_outside h.memory List.length_replicate.le hu
  exact .inr ⟨not_meetsReader_of_require hhit, hout⟩

theorem execWrAppend_writesOnly (h : s.DataInv) {value width : Word} (ht : execWrAppend value width s = .next t) :
    s.WritesOnly (s.wr.base.toNat, s.wr.len.toNat) t := by
  have hraise := s.writesOnly_raise (s.wr.base.toNat, s.wr.len.toNat)
  refine (Res.leads_require (hraise _ _ _) fun hv => Res.leads_require (hraise _ _ _) fun hhit =>
    Res.leads_bind (append_outside h.memory (h.writerRegion hv) value.toNat width.toNat) ?_ ?_).next ht
  · exact fun _ _ ho => .inr ⟨not_meetsReader_of_require hhit, ho⟩
  · exact fun _ _ _ _ ho => .inr ⟨not_meetsReader_of_require hhit, ho⟩

theorem execTblLookup_writesOnly (h : s.DataInv) {code base cap : Word}
    (ht : execTblLookup code base cap s = .next t) : s.WritesOnly (base.toNat, cap.toNat) t := by
  have hraise := s.writesOnly_raise (base.toNat, cap.toNat)
  refine (Res.leads_require (hraise _ _ _) fun _ => Res.leads_require (hraise _ _ _) fun _ =>
    Res.leads_require (hraise _ _ _) fun hhit => ?_).next ht
  split
  · refine Res.leads_access fun u hu => Res.leads_ok ?_
    have hout : KeepsMemoryOutside base.toNat cap.toNat s u :=
      writeBytes_outside h.memory ((List.length_take_le _ _).trans (Nat.min_le_right _ _)) hu
    exact .inr ⟨not_meetsReader_of_require hhit, hout⟩
  · exact s.writesOnly_finish _ _ _ _

/-- The region that an instruction's own micro-step may write. -/
def State.execTarget (s : State) : Instr → Nat × Nat
  | .wrInit base len => (base.toNat, len.toNat)
  | .wrAppend .. => (s.wr.base.toNat, s.wr.len.toNat)
  | .tblLookup _ base cap => (base.toNat, cap.toNat)
  | _ => (0, 0)

theorem exec_writesOnly (h : s.DataInv) {i : Instr} (ht : exec i s = .next t) : s.WritesOnly (s.execTarget i) t := by
  cases hw : writesDmem i with
  | false => exact .inl (exec_keepsMemory hw ht)
  | true =>
    cases i with
    | wrInit => exact execWrInit_writesOnly h ht
    | wrAppend => exact execWrAppend_writesOnly h ht
    | tblLookup => exact execTblLookup_writesOnly h ht
    | _ => cases hw

/-! ### The decompress machine -/

/-- What the decoder's micro-steps keep: all of DMEM but the output region. -/
def State.OutsideOut (s : State) (p : Bool) (t : State) : Prop :=
  KeepsMemoryOutside (s.outRegion p).1 (s.outRegion p).2 s t

variable {p : Bool}

theorem State.OutsideOut.of_dmem (h : t.dmem = s.dmem) : s.OutsideOut p t := (KeepsMemory.of_dmem h).outside _ _

theorem leads_emit_outside (h : s.DataInv) (hd : s.Decoding p) (q : Seq) {k : Unit → State → Res Unit}
    (hk : ∀ u, s.OutsideOut p u → (k () u).Leads (s.OutsideOut p)) :
    ((emit q s).bind k).Leads (s.OutsideOut p) := by
  obtain ⟨u, hu, ho⟩ := emit_outside h hd q
  rw [hu]
  exact hk u ho

theorem decodeFinish_outside (s : State) : (decodeFinish p s).Leads (s.OutsideOut p) := by
  cases p <;> exact .of_dmem rfl

theorem stepFound_outside (h : s.DataInv) (hd : s.Decoding p) (c : Nat) (q : Seq) :
    (stepFound p c q s).Leads (s.OutsideOut p) := by
  cases q with
  | nil => exact .of_dmem rfl
  | cons b q =>
    refine leads_emit_outside h hd _ fun u hu => ?_
    unfold appendAfterPrev
    split
    · rw [Res.bind_assoc]
      exact Res.leads_tableAppend (fun _ _ _ => hu) fun _ _ => Res.leads_ok hu
    · exact Res.leads_ok hu

theorem stepUndefined_outside (h : s.DataInv) (hd : s.Decoding p) (c : Nat) :
    (stepUndefined p c s).Leads (s.OutsideOut p) := by
  refine Res.leads_require (.of_dmem rfl) fun _ => ?_
  split
  · refine Res.leads_tableAppend (fun _ _ _ => .of_dmem rfl) fun _ hc => ?_
    exact leads_emit_outside (s := { s with tbl := s.tbl.push _ }) (h.push hd.table hc _) { hd with } _
      fun _ hu => Res.leads_ok hu
  · exact .of_dmem rfl

theorem stepCode_outside (h : s.DataInv) (hd : s.Decoding p) (c : Nat) :
    (stepCode p c s).Leads (s.OutsideOut p) := by
  unfold stepCode
  split
  · exact decodeFinish_outside s
  · split
    · unfold stepClear
      dsimp only
      split <;> exact .of_dmem rfl
    · split
      · exact stepFound_outside h hd c _
      · exact stepUndefined_outside h hd c

/-- Every micro-step of the decompress machine writes only the output region. -/
theorem decodeStep_outside {st : DecState} (h : s.DataInv) (hd : s.Decoding p) (ht : decodeStep p st s = .next t) :
    s.OutsideOut p t := by
  have hraise : ∀ e i j, s.OutsideOut p (s.raise e i j) := fun _ _ _ => .of_dmem rfl
  refine Res.Leads.next ?_ ht
  cases st with
  | checkClear =>
    exact Res.leads_readCode hraise fun _ _ _ => Res.leads_require (.of_dmem rfl) fun _ =>
      Res.leads_ok (.of_dmem rfl)
  | first =>
    refine Res.leads_readCode hraise fun c n hn => ?_
    split
    · exact .of_dmem rfl
    · exact leads_emit_outside (s := s.setRdCur n) (h.setRdCur hd.reader hn) { hd with } _
        fun _ hu => Res.leads_ok hu
  | loop =>
    dsimp only [stepLoop]
    split
    · exact decodeFinish_outside s
    · split
      · exact decodeFinish_outside s
      · exact Res.leads_readCode hraise fun c n hn =>
          stepCode_outside (s := s.setRdCur n) (h.setRdCur hd.reader hn) { hd with } c

theorem decodeStep_writesOnly {st : DecState} (h : s.DataInv) (hd : s.Decoding p)
    (ht : decodeStep p st s = .next t) : s.WritesOnly (s.outRegion p) t := by
  refine .inr ⟨?_, decodeStep_outside h hd ht⟩
  cases p with
  | false => exact (s.hitsReader_false _ _).mp (hd.dmemSink rfl).2.2
  | true => exact fun hmeets => absurd hmeets.2.1 (Nat.lt_irrefl 0)

/-! ### The compress machine -/

/-- What the compressor's micro-steps keep: all of DMEM but the writer's region. -/
def State.OutsideWriter (s t : State) : Prop := KeepsMemoryOutside s.wr.base.toNat s.wr.len.toNat s t

theorem State.OutsideWriter.of_dmem (h : t.dmem = s.dmem) : s.OutsideWriter t := (KeepsMemory.of_dmem h).outside _ _

theorem emitCode_outside (h : s.DataInv) (hv : s.wr.valid = true) (c : Nat) :
    (emitCode c s).Sat (fun _ => s.OutsideWriter) (fun _ _ _ => s.OutsideWriter) fun _ => True :=
  Res.Sat.bind ((append_outside h.memory (h.writerRegion hv) c s.encWidth).mono (fun _ _ ho => ho)
    (fun _ _ _ _ ho => ho) fun _ h => h)

theorem emitBuffer_outside (h : s.DataInv) (hv : s.wr.valid = true) :
    (emitBuffer s).Sat (fun _ => s.OutsideWriter) (fun _ _ _ => s.OutsideWriter) fun _ => True := by
  unfold emitBuffer
  split
  · trivial
  · exact emitCode_outside h hv _

/-- A micro-step of the compressor that may emit a code through `r`, then goes on to a state with the same DMEM. -/
theorem leads_emits_outside {c : Prop} [Decidable c] {r : Res Unit} {f : State → State}
    (hr : r.Sat (fun _ => s.OutsideWriter) (fun _ _ _ => s.OutsideWriter) fun _ => True)
    (hf : ∀ u, (f u).dmem = u.dmem) :
    ((if c then .ok () s else r).bind fun _ u => .ok () (f u)).Leads s.OutsideWriter := by
  have hite : (if c then .ok () s else r).Sat (fun _ => s.OutsideWriter) (fun _ _ _ => s.OutsideWriter)
      fun _ => True := by
    split
    · exact State.OutsideWriter.of_dmem rfl
    · exact hr
  exact Res.leads_bind hite (fun _ u hu a ha => (KeepsMemory.of_dmem (hf u) a).trans (hu a ha))
    fun _ _ _ _ hu => hu

/-- Every micro-step of the compress machine writes only the writer's region. -/
theorem encodeStep_outside {st : EncState} (h : s.DataInv) (hv : s.wr.valid = true)
    (ht : encodeStep st s = .next t) : s.OutsideWriter t := by
  refine Res.Leads.next ?_ ht
  cases st with
  | start => exact leads_emits_outside (emitCode_outside h hv _) fun _ => rfl
  | scan =>
    refine Res.leads_access fun b _ => Res.leads_require (.of_dmem rfl) fun _ => ?_
    dsimp only
    split
    · exact .of_dmem rfl
    · refine Res.leads_bind (emitBuffer_outside h hv) (fun _ u hu => ?_) fun _ _ _ _ hu => hu
      exact Res.leads_tableAppend (fun _ _ _ => hu) fun _ _ => Res.leads_ok hu
  | flush => exact leads_emits_outside (emitBuffer_outside h hv) fun _ => rfl
  | eoi => exact leads_emits_outside (emitCode_outside h hv _) fun _ => rfl

theorem encodeStep_writesOnly {st : EncState} (h : s.DataInv) (he : s.Encoding st)
    (ht : encodeStep st s = .next t) : s.WritesOnly (s.wr.base.toNat, s.wr.len.toNat) t :=
  .inr ⟨(s.hitsReader_false _ _).mp he.reader, encodeStep_outside h he.writer ht⟩

/-! ### The parser -/

theorem truncate_keepsMemory (s : State) : KeepsMemory s s.truncate := .of_dmem rfl

theorem writesDmem_block {i : Instr} (hi : i.format = .block) : writesDmem i = false := by
  cases i <;> cases hi <;> rfl

theorem runBlock_keepsMemory {d : Except DecodeError (Instr × List Byte)}
    (hd : ∀ i rest, d = .ok (i, rest) → i.format = .block) (ht : runBlock d s = .next t) : KeepsMemory s t := by
  unfold runBlock at ht
  split at ht
  · exact exec_keepsMemory (writesDmem_block (hd _ _ rfl)) ht
  · cases ht; exact truncate_keepsMemory s

theorem stepLabel_keepsMemory (ht : stepLabel s = .next t) : KeepsMemory s t := by
  unfold stepLabel at ht
  split at ht
  · split at ht
    · cases ht
    · split at ht
      · cases ht; exact .of_dmem rfl
      · split at ht
        · cases ht; exact .of_dmem rfl
        · split at ht
          · exact exec_keepsMemory (i := .gifTrailer) rfl ht
          · cases ht; exact .of_dmem rfl
  · cases ht; exact truncate_keepsMemory s

/-- The parser's micro-steps write no DMEM. -/
theorem parseStep_keepsMemory {st : ParState} (ht : parseStep st s = .next t) : KeepsMemory s t := by
  have htrunc := truncate_keepsMemory s
  cases st with
  | header | gct =>
    refine Res.Leads.next ?_ ht
    exact Res.leads_needing htrunc fun _ => Res.leads_access fun _ _ => Res.leads_ok (.of_dmem rfl)
  | label => exact stepLabel_keepsMemory ht
  | ext =>
    simp only [parseStep, stepExt] at ht
    split at ht
    · cases ht
    · exact runBlock_keepsMemory (fun _ _ => decodeExtension_format) ht
  | image =>
    simp only [parseStep, stepImage] at ht
    split at ht
    · cases ht
    · exact runBlock_keepsMemory (fun _ _ => decodeImage_format) ht
  | lct =>
    refine Res.Leads.next ?_ ht
    unfold stepLct
    split
    · exact .of_dmem rfl
    · exact Res.leads_needing htrunc fun _ => Res.leads_access fun _ _ => Res.leads_ok (.of_dmem rfl)
  | codeSize =>
    refine Res.Leads.next ?_ ht
    exact Res.leads_needing htrunc fun _ => Res.leads_access fun _ _ =>
      Res.leads_tableInit (fun _ _ _ => .of_dmem rfl) fun _ => Res.leads_ok (.of_dmem rfl)
  | subLen =>
    refine Res.Leads.next (Res.leads_needing htrunc fun _ => Res.leads_access fun l _ => ?_) ht
    dsimp only
    split <;> exact .of_dmem rfl
  | subData =>
    refine Res.Leads.next (Res.leads_needing htrunc fun _ => ?_) ht
    split <;> exact .of_dmem rfl

end Sys2Proof.Machine
end

section
/-! ## Where DMEM is written: every micro-step -/

namespace Sys2Proof.Machine

variable {s t : State}

/-! ### The target region, by what runs next -/

theorem State.target_first {i : Instr} (hc : s.cmd ≠ 0xFF#8) (hf : s.status.fsm = .idle)
    (hi : decodeCommand s.commandWords = .ok i) : s.target = s.execTarget i := by
  simp only [State.target, hc, hf, hi, if_false]
  cases i <;> rfl

theorem State.target_decode {p : Bool} {st : DecState} (hc : s.cmd ≠ 0xFF#8) (hf : s.status.fsm = .decode p st) :
    s.target = s.outRegion p := by
  simp only [State.target, hc, hf, if_false]
  cases p <;> rfl

theorem State.target_compress {st : EncState} (hc : s.cmd ≠ 0xFF#8) (hf : s.status.fsm = .compress st) :
    s.target = (s.wr.base.toNat, s.wr.len.toNat) := by
  simp only [State.target, hc, hf, if_false]

/-! ### The micro-step -/

theorem firstStep_writesOnly (h : s.DataInv) (hc : s.cmd ≠ 0xFF#8) (hf : s.status.fsm = .idle)
    (ht : firstStep s = .next t) : s.WritesOnly s.target t := by
  unfold firstStep at ht
  split at ht
  · rename_i i hi
    rw [State.target_first hc hf hi]
    exact exec_writesOnly h ht
  · cases ht; exact s.writesOnly_raise _ _ _ _

/-- The engine writes the running command's target region and no other byte, and then only when that region does not overlap the
valid reader's (R36, R38). -/
theorem engineStep_writesOnly (h : s.Inv) (ht : engineStep s = .next t) : s.WritesOnly s.target t := by
  unfold engineStep at ht
  split at ht
  · rename_i hb
    unfold microStep at ht
    split at ht
    · rename_i hc
      rw [firstStep_softReset hc] at ht
      cases ht
      exact .inl (.of_dmem rfl)
    · rename_i hc
      have hr : s.running := ⟨hb, hc⟩
      split at ht
      · rename_i hf; exact firstStep_writesOnly h.toDataInv hc hf ht
      · rename_i hf
        rw [State.target_decode hc hf]
        exact decodeStep_writesOnly h.toDataInv (h.decoding _ _ hr hf) ht
      · rename_i hf
        rw [State.target_compress hc hf]
        exact encodeStep_writesOnly h.toDataInv (h.encoding _ hr hf) ht
      · exact .inl (parseStep_keepsMemory ht)
  · cases ht
    exact .inl (.of_dmem rfl)

/-- Settles O50: the part of `engineStep_writesOnly` that speaks of the target region. -/
theorem engineWritesOnlyItsTarget : Obligations.EngineWritesOnlyItsTarget := by
  intro s t h ht
  rcases engineStep_writesOnly h ht with hkeep | ⟨-, hout⟩
  · exact hkeep.outside _ _
  · exact hout

/-- Settles O51: a byte of the reader's region that a micro-step changed would lie in the target region too, and the two would
overlap. -/
theorem readerRegionIsImmutable : Obligations.ReaderRegionIsImmutable := by
  intro s t h ht hv a hlo hhi
  rcases engineStep_writesOnly h ht with hkeep | ⟨hdisjoint, hout⟩
  · exact hkeep a
  · refine hout a fun ha => hdisjoint ⟨hv, ?_⟩
    unfold Meets
    omega

/-! ### The host's accesses to DMEM -/

theorem dmemAccess_busy (hb : s.status.busy = true) (k : Host.Outcome State Fault Refusal) :
    dmemAccess s k = .refused .dmemWhileBusy := if_pos hb

theorem dmemAccess_idle (hb : s.status.busy = false) (k : Host.Outcome State Fault Refusal) : dmemAccess s k = k :=
  if_neg (by simp [hb])

theorem State.memWrite_none {a : Nat} (h : s.dmemSize ≤ a) (v : Byte) : s.memWrite a v = none :=
  if_neg (Nat.not_lt.mpr h)

/-- Settles O29, by `BUSY` and by whether the address exists. -/
theorem hostReachesDmemWhenIdle : Obligations.HostReachesDmemWhenIdle := by
  intro s rest a v
  let u := s.withScript rest
  show (_ → hostAct (.dmemRead a) u = _ ∧ hostAct (.dmemWrite a v) u = _) ∧
    (_ → _ → hostAct (.dmemRead a) u = _ ∧ hostAct (.dmemWrite a v) u = _) ∧
    (_ → _ → _ → hostAct (.dmemRead a) u = _ ∧ ∃ t, hostAct (.dmemWrite a v) u = _ ∧ _)
  refine ⟨fun hb => ?_, fun hb ha => ?_, fun hb ha hm => ?_⟩
  · exact ⟨dmemAccess_busy (s := u) hb _, dmemAccess_busy (s := u) hb _⟩
  · simp only [hostAct, dmemAccess_idle (s := u) hb, State.memRead_none (s := u) ha, State.memWrite_none (s := u) ha,
      and_self]
  · simp only [hostAct, dmemAccess_idle (s := u) hb, State.memRead_eq (s := u) ha, State.memWrite_eq (s := u) ha]
    refine ⟨rfl, _, rfl, ?_, fun b hne => ?_, rfl⟩
    · exact (Memory.read_write hm a a v).trans (if_pos rfl)
    · exact (Memory.read_write hm a b v).trans (if_neg hne)

end Sys2Proof.Machine
end

section
/-! ## Encodings: the commands (R54 to R57) -/

namespace Sys2Proof.Machine

variable {s : State} {c : CommandWords} {i : Instr}

/-- `CMD` and the latches decode to a command exactly when `CMD` holds its opcode and the first latches hold its operands (R54 to
R56). -/
theorem decodeCommand_iff : decodeCommand c = .ok i ↔
    commandOpcode i = some (opcodeOf c.cmd) ∧
      commandOperands i = [c.a0, c.a1, c.a2, c.a3].take (commandOperands i).length := by
  unfold decodeCommand
  generalize opcodeOf c.cmd = op
  constructor
  · intro h
    split at h <;> cases h <;> exact ⟨rfl, rfl⟩
  · rintro ⟨ho, ha⟩
    cases i <;> cases ho <;> cases ha <;> rfl

theorem wellFormed_of_command (h : i.format = .command) : i.wellFormed = true := by
  cases i <;> cases h <;> rfl

/-- Settles O3, by `decodeCommand_iff`. -/
theorem decodedCommandsKeepTheirWords : Obligations.DecodedCommandsKeepTheirWords := by
  intro c i h
  have hformat := format_of_decodeCommand h
  obtain ⟨hop, hargs⟩ := decodeCommand_iff.mp h
  exact ⟨wellFormed_of_command hformat, hformat, hop, hargs⟩

/-! ### The rows of the opcode table (R56) -/

theorem exists_row {op : Byte} (h : commandOpcode i = some op) :
    ∃ r ∈ commandRows, op = byte r.pattern ∧ (commandOperands i).length = r.reads := by
  cases i <;> cases h <;> simp only [commandOperands, List.length_cons, List.length_nil] <;> decide

theorem exists_decodeCommand {r : Row} (hr : r ∈ commandRows) (h : opcodeOf c.cmd = byte r.pattern) :
    ∃ i, decodeCommand c = .ok i := by
  unfold decodeCommand
  rw [h]
  clear h
  revert r
  simp only [commandRows, List.forall_mem_cons, List.not_mem_nil, false_imp_iff, implies_true, and_true]
  and_intros <;> exact ⟨_, rfl⟩

/-- The opcodes of R57. -/
def Unassigned (op : Nat) : Prop :=
  4 ≤ op ∧ op ≤ 7 ∨ 0x0C ≤ op ∧ op ≤ 0x0F ∨ 0x16 ≤ op ∧ op ≤ 0x1F ∨ 0x22 ≤ op ∧ op ≤ 0x2F ∨
    0x31 ≤ op ∧ op ≤ 0x37 ∨ 0x3C ≤ op ∧ op ≤ 0xFE

/-- The ranges of R57 are what the rows of R56 leave. -/
theorem unassigned_iff_no_row (op : Byte) : Unassigned op.toNat ↔ ∀ r ∈ commandRows, op ≠ byte r.pattern := by
  have := op.isLt
  simp only [commandRows, List.forall_mem_cons, List.not_mem_nil, false_imp_iff, implies_true, and_true, ne_eq,
    ← BitVec.toNat_inj, BitVec.toNat_ofNat]
  unfold Unassigned
  omega

theorem unassigned_iff_no_command (c : CommandWords) :
    Unassigned (opcodeOf c.cmd).toNat ↔ ∀ i, decodeCommand c ≠ .ok i := by
  rw [unassigned_iff_no_row]
  constructor
  · intro h i hi
    obtain ⟨r, hr, hop, -⟩ := exists_row (decodeCommand_iff.mp hi).1
    exact h r hr hop
  · intro h r hr hop
    obtain ⟨i, hi⟩ := exists_decodeCommand hr hop
    exact h i hi

theorem engineStep_idleFsm (hb : s.status.busy = true) (hf : s.status.fsm = .idle) : engineStep s = firstStep s := by
  simp only [engineStep, microStep, hb, hf, if_true, ite_self]

theorem firstStep_badOpcode (h : ∀ i, decodeCommand s.commandWords ≠ .ok i) :
    firstStep s = .next (s.raise .badOpcode 0 s.cmd.toNat) := by
  unfold firstStep
  split
  · rename_i i hi; exact absurd hi (h i)
  · rfl

/-- Settles O4: the ranges of R57 hold the opcodes of no row, and without a row the first micro-step has nothing to run. -/
theorem unassignedOpcodesFault : Obligations.UnassignedOpcodesFault := by
  refine ⟨unassigned_iff_no_command, fun s hb hf hu => ?_⟩
  rw [← opcodeOf_commandWords s] at hu
  rw [engineStep_idleFsm hb hf]
  exact firstStep_badOpcode ((unassigned_iff_no_command _).mp hu)

/-! ### Encoding a command -/

theorem opcodeOf_setWidth (op : Byte) : opcodeOf (op.setWidth 32) = op := by
  apply BitVec.eq_of_toNat_eq
  have := op.isLt
  simp [opcodeOf]
  omega

theorem commandOperands_length_le (i : Instr) : (commandOperands i).length ≤ 4 := by
  cases i <;> simp [commandOperands]

/-- Operands placed in the four latches are their leading part. -/
theorem eq_take_getD {l : List Word} (h : l.length ≤ 4) :
    l = [l.getD 0 0, l.getD 1 0, l.getD 2 0, l.getD 3 0].take l.length := by
  match l, h with
  | [], _ | [_], _ | [_, _], _ | [_, _, _], _ | [_, _, _, _], _ => rfl

theorem decodeCommand_encodeCommand (h : encodeCommand i = some c) : decodeCommand c = .ok i := by
  unfold encodeCommand at h
  split at h <;> cases h
  rename_i op hop
  exact decodeCommand_iff.mpr
    ⟨hop.trans (congrArg some (opcodeOf_setWidth op).symm), eq_take_getD (commandOperands_length_le i)⟩

end Sys2Proof.Machine
end

section
/-! ## Encodings: the blocks of the GIF stream (R66 to R75) -/

namespace Sys2Proof.Machine

variable {i : Instr} {bs rest : Seq}

/-! ### What is decoded stands at the front of the stream -/

/-- A stream that starts with the bytes of a well-formed block, and goes on with `rest`. -/
def BlockAhead (bs : Seq) (i : Instr) (rest : Seq) : Prop :=
  i.wellFormed = true ∧ ∃ bytes, encodeBlock i = some bytes ∧ bs = bytes ++ rest

theorem decodeComment_ahead (h : decodeComment bs = .ok (i, rest)) : BlockAhead (0x21#8 :: 0xFE#8 :: bs) i rest := by
  unfold decodeComment at h
  split at h <;> cases h
  rename_i hz
  obtain ⟨hfree, rfl⟩ := splitAtZero_some.mp hz
  exact ⟨hfree, _, rfl, by simp⟩

theorem decodeGraphicsControl_ahead (h : decodeGraphicsControl bs = .ok (i, rest)) :
    BlockAhead (0x21#8 :: 0xF9#8 :: bs) i rest := by
  unfold decodeGraphicsControl at h
  split at h <;> cases h
  exact ⟨rfl, _, rfl, by simp [u16Lo_u16Of, u16Hi_u16Of]⟩

theorem decodeApplication_ahead (h : decodeApplication bs = .ok (i, rest)) :
    BlockAhead (0x21#8 :: 0xFF#8 :: bs) i rest := by
  unfold decodeApplication at h
  split at h
  · split at h <;> cases h
    rename_i hz
    obtain ⟨hfree, rfl⟩ := splitAtZero_some.mp hz
    exact ⟨hfree, _, rfl, by simp⟩
  · cases h

theorem decodePlainText_ahead (h : decodePlainText bs = .ok (i, rest)) :
    BlockAhead (0x21#8 :: 0x01#8 :: bs) i rest := by
  unfold decodePlainText at h
  split at h <;> cases h
  exact ⟨rfl, _, rfl, rfl⟩

theorem decodeExtension_ahead (h : decodeExtension bs = .ok (i, rest)) : BlockAhead (0x21#8 :: bs) i rest := by
  cases bs with
  | nil => cases h
  | cons label bs =>
    simp only [decodeExtension] at h
    split_ifs at h with hc hg ha hp
    · exact hc ▸ decodeComment_ahead h
    · exact hg ▸ decodeGraphicsControl_ahead h
    · exact ha ▸ decodeApplication_ahead h
    · exact hp ▸ decodePlainText_ahead h
    · cases h
      exact ⟨by simp [Instr.wellFormed, knownExtensionLabels, hc, hg, ha, hp], _, rfl, rfl⟩

theorem decodeImage_ahead (h : decodeImage bs = .ok (i, rest)) : BlockAhead (0x2C#8 :: bs) i rest := by
  unfold decodeImage at h
  split at h <;> cases h
  exact ⟨rfl, _, rfl, by simp [u16Lo_u16Of, u16Hi_u16Of]⟩

theorem decodeBlock_ahead (h : decodeBlock bs = .ok (i, rest)) : BlockAhead bs i rest := by
  cases bs with
  | nil => cases h
  | cons b bs =>
    simp only [decodeBlock] at h
    split_ifs at h with he hi ht
    · exact he ▸ decodeExtension_ahead h
    · exact hi ▸ decodeImage_ahead h
    · cases h
      exact ⟨rfl, _, rfl, congrArg (· :: _) ht⟩

/-! ### A block's bytes decode to it -/

theorem decodeComment_text {text : Seq} (h : zeroFree text = true) :
    decodeComment (text ++ [0#8]) = .ok (.gifExtComment text, []) := by
  rw [decodeComment, splitAtZero_some.mpr ⟨h, rfl⟩]

theorem decodeGraphicsControl_fields (size packed : Byte) (delay : U16) (transparent terminator : Byte) :
    decodeGraphicsControl [size, packed, u16Lo delay, u16Hi delay, transparent, terminator] =
      .ok (.gifExtGraphicsControl size packed delay transparent terminator, []) := by
  rw [decodeGraphicsControl, u16Of_lo_hi]

theorem decodeApplication_fields (size : Byte) (identifier : Vector Byte 8) (auth : Vector Byte 3) {payload : Seq}
    (h : zeroFree payload = true) :
    decodeApplication (size :: (identifier.toList ++ auth.toList ++ payload ++ [0#8])) =
      .ok (.gifExtApplication size identifier auth payload, []) := by
  obtain ⟨_, _, _, _, _, _, _, _, rfl⟩ := vector8 identifier
  obtain ⟨_, _, _, rfl⟩ := vector3 auth
  have hz : splitAtZero (payload ++ [0#8]) = some (payload, []) := splitAtZero_some.mpr ⟨h, rfl⟩
  simp [decodeApplication, hz]

theorem decodePlainText_fields (size : Byte) (header : Vector Byte 12) :
    decodePlainText (size :: header.toList) = .ok (.gifExtPlainText size header, []) := by
  obtain ⟨_, _, _, _, _, _, _, _, _, _, _, _, rfl⟩ := vector12 header
  rfl

theorem decodeExtension_unknown {label : Byte} (h : (Instr.gifExtension label).wellFormed = true) :
    decodeExtension [label] = .ok (.gifExtension label, []) := by
  simp only [Instr.wellFormed, knownExtensionLabels, Bool.not_eq_true', List.contains_eq_mem, decide_eq_false_iff_not,
    List.mem_cons, List.not_mem_nil, or_false, not_or] at h
  obtain ⟨hc, hg, ha, hp⟩ := h
  simp only [decodeExtension, hc, hg, ha, hp, if_false]

theorem decodeImage_fields (left top width height : U16) (ipacked : Byte) :
    decodeImage [u16Lo left, u16Hi left, u16Lo top, u16Hi top, u16Lo width, u16Hi width, u16Lo height, u16Hi height,
      ipacked] = .ok (.gifImage left top width height ipacked, []) := by
  simp only [decodeImage, u16Of_lo_hi]

theorem decodeBlock_encodeBlock (hw : i.wellFormed = true) (h : encodeBlock i = some bs) :
    decodeBlock bs = .ok (i, []) := by
  cases i with
  | gifExtension => cases h; exact decodeExtension_unknown hw
  | gifImage => cases h; exact decodeImage_fields ..
  | gifTrailer => cases h; rfl
  | gifExtComment => cases h; exact decodeComment_text hw
  | gifExtGraphicsControl => cases h; exact decodeGraphicsControl_fields ..
  | gifExtApplication => cases h; exact decodeApplication_fields _ _ _ hw
  | gifExtPlainText => cases h; exact decodePlainText_fields ..
  | _ => cases h

theorem decodeBlock_append (h : decodeBlock bs = .ok (i, rest)) (more : Seq) :
    decodeBlock (bs ++ more) = .ok (i, rest ++ more) := by
  cases bs with
  | nil => cases h
  | cons b bs =>
    simp only [List.cons_append, decodeBlock] at h ⊢
    split_ifs at h ⊢
    · exact decodeExtension_append h more
    · exact decodeImage_append h more
    · cases h; rfl

/-- Settles O2: `decodeBlock_ahead` one way; the other way, the block's bytes alone decode to it, and so they do before `rest`. -/
theorem blocksAreTheirBytes : Obligations.BlocksAreTheirBytes := by
  intro bs rest i
  refine ⟨decodeBlock_ahead, ?_⟩
  rintro ⟨hw, bytes, hbytes, rfl⟩
  exact decodeBlock_append (decodeBlock_encodeBlock hw hbytes) rest

theorem exists_encodeBlock (h : encodeCommand i = none) : ∃ bs, encodeBlock i = some bs := by
  cases i <;> cases h <;> exact ⟨_, rfl⟩

/-- Settles O1, by the instruction's format. -/
theorem encodedInstructionsDecode : Obligations.EncodedInstructionsDecode := by
  intro i hw
  unfold encode
  split
  · rename_i c hc
    rw [decode, decodeCommand_encodeCommand hc]
  · rename_i hc
    obtain ⟨bs, hbs⟩ := exists_encodeBlock hc
    rw [hbs]
    exact decodeBlock_encodeBlock hw hbs

end Sys2Proof.Machine
end

section
/-! ## Host programs (R58, R59) -/

namespace Sys2Proof.Machine

variable {s : State} {i : Instr} {r : Row}

/-! ### What a line assembles to -/

/-- A command's opcode names its row. -/
theorem row_eq_of_pattern :
    ∀ r ∈ commandRows, ∀ q ∈ commandRows, byte r.pattern = byte q.pattern → r = q := by decide

/-- A row's pattern is one byte, so that the word written to `CMD` is the opcode alone. -/
theorem row_pattern_word : ∀ r ∈ commandRows, (byte r.pattern).setWidth 32 = word r.pattern := by decide

/-- A mnemonic names one row. -/
theorem find_mnemonic : ∀ r ∈ commandRows, commandRows.find? (·.mnemonic == r.mnemonic) = some r := by decide

theorem commandOperands_length (hr : r ∈ commandRows) (h : commandOpcode i = some (byte r.pattern)) :
    (commandOperands i).length = r.reads := by
  obtain ⟨q, hq, hop, hlen⟩ := exists_row h
  rwa [row_eq_of_pattern r hr q hq hop]

theorem assembleLine_row (hr : r ∈ commandRows) (ops : List Word) :
    assembleLine r.mnemonic ops = if ops.length ≤ r.reads then
      some (assembleArgs 0 (ops ++ List.replicate (r.reads - ops.length) 0) ++ [.csrWrite 4 0x00 (word r.pattern)])
    else none := by
  simp only [assembleLine, find_mnemonic r hr]

theorem assembleLine_unknown {mnemonic : String} (h : ∀ r ∈ commandRows, r.mnemonic ≠ mnemonic) (ops : List Word) :
    assembleLine mnemonic ops = none := by
  have hfind : commandRows.find? (·.mnemonic == mnemonic) = none := by simpa using h
  rw [assembleLine, hfind]

theorem assembleLine_full (hr : r ∈ commandRows) (h : commandOpcode i = some (byte r.pattern)) :
    assembleLine r.mnemonic (commandOperands i) = some (assemble i) := by
  have hlen := commandOperands_length hr h
  simp only [assembleLine_row hr, assemble, h, hlen, row_pattern_word r hr, Nat.le_refl, if_true, Nat.sub_self,
    List.replicate_zero, List.append_nil]

theorem assembleArgs_eq_map (k : Nat) (l : List Word) :
    assembleArgs k l = (List.range l.length).map fun j => .csrWrite 4 (argOffset (k + j)) (l.getD j 0) := by
  induction l generalizing k with
  | nil => rfl
  | cons v l ih =>
    rw [assembleArgs, ih, List.length_cons, List.range_succ_eq_map, List.map_cons, List.map_map]
    refine congrArg (_ :: ·) (List.map_congr_left fun j _ => ?_)
    simp only [Function.comp_apply, List.getD_cons_succ, Nat.succ_eq_add_one, Nat.add_right_comm, Nat.add_assoc]

/-- An operand that a line omits is as good as one it gives as 0. -/
theorem getD_append_replicate (l : List Word) (n j : Nat) : (l ++ List.replicate n 0).getD j 0 = l.getD j 0 := by
  rcases Nat.lt_or_ge j l.length with h | h
  · exact List.getD_append _ _ _ _ h
  · rw [List.getD_append_right _ _ _ _ h, List.getD_eq_default _ _ h, List.getD_eq_getElem?_getD,
      List.getElem?_replicate]
    split <;> rfl

theorem assembleLine_short (hr : r ∈ commandRows) {ops : List Word} (h : ops.length ≤ r.reads) :
    assembleLine r.mnemonic ops = some
      (((List.range r.reads).map fun k => HostOp.csrWrite 4 (0x08 + 4 * k) (ops.getD k 0)) ++
        [.csrWrite 4 0x00 (word r.pattern)]) := by
  have hlen : (ops ++ List.replicate (r.reads - ops.length) 0).length = r.reads := by
    rw [List.length_append, List.length_replicate]; omega
  rw [assembleLine_row hr, if_pos h, assembleArgs_eq_map, hlen]
  simp only [getD_append_replicate, argOffset, Nat.zero_add]

theorem assembleLine_long (hr : r ∈ commandRows) {ops : List Word} (h : r.reads < ops.length) :
    assembleLine r.mnemonic ops = none := by
  rw [assembleLine_row hr, if_neg (Nat.not_le.mpr h)]

/-- WAIT polls `STATUS` once, and stays in the script while `BUSY` = 1 (R59; log 16). -/
theorem hostStep_wait (rest : List HostOp) :
    hostStep (s.withScript (.wait :: rest)) = .next { s with host := { s.host with
      script := if s.status.busy then .wait :: rest else rest
      got := s.host.got ++ [.csr s.status.word] } } := by
  cases hb : s.status.busy <;> simp [hostStep, hostAct, State.withScript, State.give, hb]

/-- Settles O33, by the rows; the pseudo-instructions are what R59 lists by definition. -/
theorem hostProgramsAssemble : Obligations.HostProgramsAssemble :=
  ⟨fun _ _ hr h => ⟨commandOperands_length hr h, assembleLine_full hr h⟩,
    fun _ hr _ => ⟨assembleLine_short hr, assembleLine_long hr⟩,
    fun _ ops h => assembleLine_unknown h ops,
    fun _ _ _ _ _ => ⟨rfl, rfl, rfl, rfl, rfl, rfl⟩,
    fun _ rest => hostStep_wait rest⟩

/-! ### The run of an assembled line -/

theorem step_host (ht : s.host.turns = []) (hb : s.status.busy = false) : step s = hostStep s := by
  simp [step, nextMove, ht, hb]

theorem stepRun_next {u : State} (h : step s = .next u) (k : Nat) : stepRun (k + 1) s = stepRun k u := by
  simp only [stepRun, h]

theorem step_csrWrite {off : Nat} {v : Word} {ops : List HostOp} (ht : s.host.turns = []) (hb : s.status.busy = false)
    (hs : s.host.script = .csrWrite 4 off v :: ops) (h4 : off % 4 = 0) (h : off ≤ 0x7C) :
    step s = .next ((s.withScript ops).csrWrite off v) := by
  rw [step_host ht hb, ← hostStep_csrWrite h4 h, ← hs]
  rfl

/-- The operands as a list, in the order commands read them (R55). -/
def Operands.toList (a : Operands) : List Word := [a.a0, a.a1, a.a2, a.a3]

/-- A write of `ARGk` keeps the operands before it. -/
theorem csrWrite_arg {k : Nat} (hb : s.status.busy = false) (hk : k < 4) (v : Word) :
    ∃ a : Operands, s.csrWrite (argOffset k) v = { s with arg := a } ∧
      a.toList.take (k + 1) = s.arg.toList.take k ++ [v] := by
  have hidle := writeIdle_idle hb
  match k, hk with
  | 0, _ | 1, _ | 2, _ | 3, _ => exact ⟨_, hidle _, rfl⟩

/-- The writes of a line's operands, from `ARGk` on, run to a state that differs in `ARG0` to `ARG3` and the script alone. -/
theorem stepRun_assembleArgs {l : List Word} {ops : List HostOp} {k : Nat} (n : Nat) (ht : s.host.turns = [])
    (hb : s.status.busy = false) (hs : s.host.script = assembleArgs k l ++ ops) (hk : k + l.length ≤ 4) :
    ∃ a : Operands, stepRun ((assembleArgs k l).length + n) s = stepRun n ({ s with arg := a }.withScript ops) ∧
      a.toList.take (k + l.length) = s.arg.toList.take k ++ l := by
  induction l generalizing s k with
  | nil =>
    refine ⟨s.arg, ?_, (List.append_nil _).symm⟩
    rw [assembleArgs, List.length_nil, Nat.zero_add, ← show s.host.script = ops from hs]
    rfl
  | cons v l ih =>
    let left := assembleArgs (k + 1) l ++ ops
    have hk' : k + 1 + l.length ≤ 4 := by rw [List.length_cons] at hk; omega
    obtain ⟨a, hwrite, ha⟩ := csrWrite_arg (s := s.withScript left) hb (show k < 4 by omega) v
    have hstep : step s = .next ({ s with arg := a }.withScript left) :=
      (step_csrWrite ht hb hs (by unfold argOffset; omega) (by unfold argOffset; omega)).trans (congrArg _ hwrite)
    obtain ⟨b, hrun, hlead⟩ := ih (s := { s with arg := a }.withScript left) ht hb rfl hk'
    refine ⟨b, ?_, ?_⟩
    · rw [assembleArgs, List.length_cons, Nat.add_right_comm, stepRun_next hstep]
      exact hrun
    · calc b.toList.take (k + (l.length + 1)) = b.toList.take (k + 1 + l.length) := by congr 1; omega
        _ = a.toList.take (k + 1) ++ l := hlead
        _ = s.arg.toList.take k ++ v :: l := by rw [ha, List.append_assoc]; rfl

/-- Once a command is accepted whose operands are the registers' leading part, the next step is `exec` of it (R28, R30). -/
theorem step_accept {op : Byte} (ht : s.host.turns = []) (hf : s.status.fsm = .idle ∨ op = 0xFF#8)
    (hop : commandOpcode i = some op)
    (hargs : s.arg.toList.take (commandOperands i).length = commandOperands i) :
    step (s.accept (op.setWidth 32)) = exec i (s.accept (op.setWidth 32)) := by
  have hcmd : (s.accept (op.setWidth 32)).cmd = op := opcodeOf_setWidth op
  rw [step_engine (s := s.accept _) ht rfl]
  refine engineStep_accepted rfl (hf.imp_right hcmd.trans) (decodeCommand_iff.mpr ⟨?_, hargs.symm⟩)
  rw [opcodeOf_commandWords, hcmd, hop]

theorem exists_commandOpcode (h : i.format = .command) : ∃ op, commandOpcode i = some op := by
  cases i <;> cases h <;> exact ⟨_, rfl⟩

/-- Settles O32: the writes of the operands, then the write of `CMD`, which is accepted. -/
theorem assembledCommandRuns : Obligations.AssembledCommandRuns := by
  intro i s rest hi hb hf hfault ht hs
  obtain ⟨op, hop⟩ := exists_commandOpcode hi
  have hreset : i = .softReset → op = 0xFF#8 := by rintro rfl; cases hop; rfl
  have hasm : assemble i = assembleArgs 0 (commandOperands i) ++ [.csrWrite 4 0x00 (op.setWidth 32)] := by
    rw [assemble, hop]
  rw [hasm, List.append_assoc] at hs
  obtain ⟨a, hrun, hargs⟩ := stepRun_assembleArgs 1 ht hb hs (by simpa using commandOperands_length_le i)
  rw [Nat.zero_add] at hargs
  let u : State := { s with arg := a }.withScript rest
  have haccept : u.csrWrite 0x00 (op.setWidth 32) = u.accept (op.setWidth 32) :=
    writeCmd_accepts hb (hfault.imp_right fun h => (opcodeOf_setWidth op).trans (hreset h))
  have hcmd := (step_csrWrite (s := { s with arg := a }.withScript (.csrWrite 4 0x00 (op.setWidth 32) :: rest))
    ht hb rfl rfl (by decide)).trans (congrArg _ haccept)
  refine ⟨u.accept (op.setWidth 32), ?_, step_accept ht (hf.imp_right hreset) hop hargs, rfl, rfl, rfl, rfl, fun _ => rfl⟩
  rw [hasm, List.length_append, List.length_singleton, hrun]
  exact stepRun_next hcmd 0

end Sys2Proof.Machine
end

section
/-! ## The commands of the bit stream (40_bitstream.md): what a precondition and an end leave -/

namespace Sys2Proof.Machine

variable {s : State}

/-- An opcode encodes the commands that its decoder makes of the leading latches (R54 to R56). -/
theorem encodes_of_operands {op : Byte} {f : CommandWords → Instr} (hop : ∀ c, commandOpcode (f c) = some op)
    (hargs : ∀ c, commandOperands (f c) = [c.a0, c.a1, c.a2, c.a3].take (commandOperands (f c)).length) :
    Encodes op f := fun c hc => decodeCommand_iff.mpr ⟨hc ▸ hop c, hargs c⟩

/-- A precondition that holds goes on (R11). -/
theorem Res.require_pos {α : Type} {c : Bool} (h : c = true) (e : Exc) (i j : Nat) (s : State) (k : Res α) :
    Res.require c e i j s k = k := if_pos h

/-- A precondition that fails is the micro-step's fault (R155). -/
theorem Res.outcome_require_neg {c : Bool} (h : c = false) (e : Exc) (i j : Nat) (s : State) (k : Res Unit) :
    (Res.require c e i j s k).outcome = .next (s.raise e i j) := by rw [h]; rfl

theorem ends_finish (s : State) (f : Bool) (a b : Nat) : Ends s (s.finish f a b) f a b := ⟨rfl, rfl, rfl⟩

theorem onlyResults_finish (s : State) (f : Bool) (a b : Nat) : OnlyResults s (s.finish f a b) := rfl

/-- What a command leaves that only reports results (R31). -/
theorem next_finish_reports {o : Host.Outcome State Fault Refusal} {f : Bool} {a b : Nat}
    (h : o = .next (s.finish f a b)) : ∃ t, o = .next t ∧ Ends s t f a b ∧ OnlyResults s t ∧ KeepsMemory s t :=
  ⟨_, h, ends_finish s f a b, onlyResults_finish s f a b, .of_dmem rfl⟩

/-! ### Regions (R35, R36) -/

theorem State.legalRegion_iff {base len : Word} : s.legalRegion base len = true ↔ base.toNat + len.toNat ≤ s.dmemSize :=
  decide_eq_true_iff

theorem State.legalRegion_eq_false {base len : Word} (h : s.dmemSize < base.toNat + len.toNat) :
    s.legalRegion base len = false := decide_eq_false (Nat.not_le.mpr h)

theorem not_hitsReader {base len : Word} (h : ¬s.MeetsReader base.toNat len.toNat) :
    (!s.hitsReader base len) = true := by
  rw [(s.hitsReader_false base len).mpr h]; rfl

theorem hitsReader_of_meets {base len : Word} (h : s.MeetsReader base.toNat len.toNat) :
    (!s.hitsReader base len) = false := by
  rw [(s.hitsReader_iff base len).mpr h]; rfl

/-! ### The tests of the reader and the writer -/

/-- Settles O10: without a reader its precondition fails, with one it reports the two tests of R78. -/
theorem rdIsCompleteTestsExhaustion : Obligations.RdIsCompleteTestsExhaustion := by
  refine ⟨encodes_of_operands (fun _ => rfl) fun _ => rfl, fun width s => ⟨fun hv => ?_, fun hv => ?_⟩⟩
  · exact Res.outcome_require_neg hv _ _ _ _ _
  · exact next_finish_reports (congrArg Res.outcome (Res.require_pos hv _ _ _ _ _))

theorem Writer.canAppend_eq (wr : Writer) (w : Nat) :
    wr.canAppend w = decide (w ≤ 12 ∧ wr.cur.toNat + w < 8 * wr.len.toNat) := by
  rw [Bool.eq_iff_iff, Writer.canAppend_iff, decide_eq_true_iff]; rfl

/-- Settles O13: without a writer both preconditions fail, with one each reports its result. -/
theorem writerTestsItsRoom : Obligations.WriterTestsItsRoom := by
  refine ⟨encodes_of_operands (fun _ => rfl) fun _ => rfl, encodes_of_operands (fun _ => rfl) fun _ => rfl,
    fun width s => ⟨fun hv => ?_, fun hv => ?_⟩⟩
  · exact ⟨Res.outcome_require_neg hv _ _ _ _ _, Res.outcome_require_neg hv _ _ _ _ _⟩
  · rw [← Writer.canAppend_eq]
    exact ⟨next_finish_reports (congrArg Res.outcome (Res.require_pos hv _ _ _ _ _)),
      next_finish_reports (congrArg Res.outcome (Res.require_pos hv _ _ _ _ _))⟩

end Sys2Proof.Machine
end

section
/-! ## The reader's commands (R79, R80) -/

namespace Sys2Proof.Machine

variable {s : State}

/-- Settles O8, by the two preconditions of R79. -/
theorem rdInitConstructsTheReader : Obligations.RdInitConstructsTheReader := by
  refine ⟨encodes_of_operands (fun _ => rfl) fun _ => rfl, fun base len bit s => ?_⟩
  show (_ → execRdInit base len bit s = _) ∧ (_ → _ → execRdInit base len bit s = _) ∧
    (_ → _ → ∃ t, execRdInit base len bit s = .next t ∧ _)
  unfold execRdInit
  refine ⟨fun hl => ?_, fun hl hb => ?_, fun hl hb => ?_⟩
  · exact Res.outcome_require_neg (State.legalRegion_eq_false hl) _ _ _ _ _
  · rw [Res.require_pos (State.legalRegion_iff.mpr hl)]
    exact Res.outcome_require_neg (decide_eq_false (Nat.not_le.mpr hb)) _ _ _ _ _
  · rw [Res.require_pos (State.legalRegion_iff.mpr hl), Res.require_pos (decide_eq_true hb)]
    exact ⟨_, rfl, ends_finish _ _ _ _, rfl, rfl, .of_dmem rfl⟩

theorem execRdConsume_valid (hv : s.rd.valid = true) (width : Word) : execRdConsume width s =
    ((consume width.toNat s).bind fun v s => .ok () (s.finish false v s.rd.cur.toNat)).outcome := by
  rw [execRdConsume, Res.require_pos hv]

/-- RD_CONSUME where no fault arises: the next code, and the cursor past it (R77, R80). -/
theorem execRdConsume_ok {width : Word} (hv : s.rd.valid = true) (h1 : 1 ≤ width.toNat) (h2 : width.toNat ≤ 12)
    (ho : s.rd.cur.toNat + width.toNat ≤ 8 * s.rd.len.toNat ∨ s.cfg.rdOverrun = false)
    (hr : s.InDmem s.rd.base.toNat s.rd.len.toNat) :
    execRdConsume width s = .next ((s.setRdCur (s.nextCur width.toNat)).finish false (s.nextCode width.toNat)
      (word (s.nextCur width.toNat)).toNat) := by
  have hno : ¬(8 * s.rd.len.toNat < s.rd.cur.toNat + width.toNat ∧ s.cfg.rdOverrun = true) := by
    rintro ⟨hlt, hon⟩
    rcases ho with hle | hoff
    · omega
    · rw [hon] at hoff; cases hoff
  rw [execRdConsume_valid hv, consume_eq h1 h2 hno hr]
  rfl

/-- Settles O9, by the faults of `consume` and by `execRdConsume_ok`. -/
theorem rdConsumeReadsACode : Obligations.RdConsumeReadsACode := by
  refine ⟨encodes_of_operands (fun _ => rfl) fun _ => rfl, fun width s => ?_⟩
  show (_ → execRdConsume width s = _) ∧ (_ → _ → execRdConsume width s = _) ∧
    (_ → _ → _ → _ → _ → execRdConsume width s = _) ∧
    (_ → _ → _ → _ → _ → ∃ t, execRdConsume width s = .next t ∧ _)
  refine ⟨fun hv => ?_, fun hv hw => ?_, fun hv h1 h2 h3 h4 => ?_, fun hv h1 h2 ho hr => ?_⟩
  · exact Res.outcome_require_neg hv _ _ _ _ _
  · rw [execRdConsume_valid hv, consume_width hw]; rfl
  · rw [execRdConsume_valid hv, consume_overrun h1 h2 h3 h4]; rfl
  · have hends := ends_finish (s.setRdCur (s.nextCur width.toNat)) false (s.nextCode width.toNat)
      (word (s.nextCur width.toNat)).toNat
    rw [Ends, word_word] at hends
    exact ⟨_, execRdConsume_ok hv h1 h2 ho hr, State.codeAt_lt _ _ _ _ _, hends, rfl, rfl, .of_dmem rfl⟩

end Sys2Proof.Machine
end

section
/-! ## The writer's commands (R84, R85) -/

namespace Sys2Proof.Machine

variable {s t : State}

/-- What a run of zeros leaves where it is written. -/
theorem placeBytes_zeros_read {m : Memory} (hm : m.wf = true) {base len a : Nat} (h1 : base ≤ a) (h2 : a < base + len) :
    (placeBytes m base (List.replicate len 0#8)).read a = 0 := by
  rw [placeBytes_read _ hm, if_pos h1, List.getElem?_replicate, if_pos (by omega)]
  rfl

/-- Settles O11, by the three preconditions of R84 and what the zeros leave. -/
theorem wrInitZeroesTheRegion : Obligations.WrInitZeroesTheRegion := by
  refine ⟨encodes_of_operands (fun _ => rfl) fun _ => rfl, fun base len s => ?_⟩
  show (_ → execWrInit base len s = _) ∧ (_ → _ → execWrInit base len s = _) ∧
    (_ → _ → _ → execWrInit base len s = _) ∧ (_ → _ → _ → _ → ∃ t, execWrInit base len s = .next t ∧ _)
  unfold execWrInit
  refine ⟨fun h0 => ?_, fun h1 hl => ?_, fun h1 hl hhit => ?_, fun h1 hl hhit hm => ?_⟩
  · exact Res.outcome_require_neg (decide_eq_false (by omega)) _ _ _ _ _
  · rw [Res.require_pos (decide_eq_true h1)]
    exact Res.outcome_require_neg (State.legalRegion_eq_false hl) _ _ _ _ _
  · rw [Res.require_pos (decide_eq_true h1), Res.require_pos (State.legalRegion_iff.mpr hl)]
    exact Res.outcome_require_neg (hitsReader_of_meets hhit) _ _ _ _ _
  · have hwrite := s.writeBytes_eq (a := base.toNat) (List.replicate len.toNat 0#8) (by rwa [List.length_replicate])
    have hout := writeBytes_outside hm List.length_replicate.le hwrite
    rw [Res.require_pos (decide_eq_true h1), Res.require_pos (State.legalRegion_iff.mpr hl),
      Res.require_pos (not_hitsReader hhit), hwrite]
    exact ⟨_, rfl, ends_finish _ _ _ _, rfl, rfl, fun a => placeBytes_zeros_read hm, hout⟩

theorem execWrAppend_valid (hv : s.wr.valid = true) (hhit : ¬s.MeetsReader s.wr.base.toNat s.wr.len.toNat)
    (value width : Word) : execWrAppend value width s =
      ((append value.toNat width.toNat s).bind fun _ s => .ok () (s.finish false s.wr.cur.toNat 0)).outcome := by
  rw [execWrAppend, Res.require_pos hv, Res.require_pos (not_hitsReader hhit)]

/-- Settles O12, by the faults of `append` and by `append_eq`. -/
theorem wrAppendWritesACode : Obligations.WrAppendWritesACode := by
  refine ⟨encodes_of_operands (fun _ => rfl) fun _ => rfl, fun value width s => ?_⟩
  show (_ → execWrAppend value width s = _) ∧ (_ → _ → execWrAppend value width s = _) ∧
    (_ → _ → _ → execWrAppend value width s = _) ∧ (_ → _ → _ → _ → _ → execWrAppend value width s = _) ∧
    (_ → _ → _ → _ → _ → _ → _ → ∃ u t, _ ∧ execWrAppend value width s = .next t ∧ _)
  refine ⟨fun hv => ?_, fun hv hhit => ?_, fun hv hhit hw => ?_, fun hv hhit h1 h2 h3 => ?_,
    fun hv hhit h1 h2 h3 hr hm => ?_⟩
  · exact Res.outcome_require_neg hv _ _ _ _ _
  · rw [execWrAppend, Res.require_pos hv]
    exact Res.outcome_require_neg (hitsReader_of_meets hhit) _ _ _ _ _
  · rw [execWrAppend_valid hv hhit, append_width hw]; rfl
  · rw [execWrAppend_valid hv hhit, append_capacity h1 h2 h3]; rfl
  · obtain ⟨u, hu, happend, -⟩ := append_eq (v := value.toNat) h1 h2 h3 hr hm
    rw [execWrAppend_valid hv hhit, happend]
    exact ⟨u, _, hu, rfl, ends_finish _ _ _ _, onlyResults_finish _ _ _ _⟩

/-- Everything `append` can do over a region in DMEM (R83). -/
theorem append_sat_appends (hr : s.InDmem s.wr.base.toNat s.wr.len.toNat) (hm : s.dmem.wf = true) (v w : Nat) :
    (append v w s).Sat
      (fun _ u => 1 ≤ w ∧ w ≤ 12 ∧ s.wr.cur.toNat + w < 8 * s.wr.len.toNat ∧ Appends v w s u)
      (fun _ _ _ u => u = s) fun _ => False := by
  by_cases hw : 1 ≤ w ∧ w ≤ 12
  · rcases Nat.lt_or_ge (s.wr.cur.toNat + w) (8 * s.wr.len.toNat) with hc | hc
    · obtain ⟨u, hu, happend, -⟩ := append_eq (v := v) hw.1 hw.2 hc hr hm
      rw [happend]
      exact ⟨hw.1, hw.2, hc, hu⟩
    · rw [append_capacity hw.1 hw.2 hc]; rfl
  · rw [append_width (by omega)]; rfl

/-- `t` is what a WR_APPEND without a fault leaves (R85). -/
def State.WrAppended (s : State) (value width : Word) (t : State) : Prop :=
  s.wr.valid = true ∧ 1 ≤ width.toNat ∧ width.toNat ≤ 12 ∧ s.wr.cur.toNat + width.toNat < 8 * s.wr.len.toNat ∧
    ∃ u, Appends value.toNat width.toNat s u ∧ t = u.finish false u.wr.cur.toNat 0

/-- Everything a WR_APPEND can do. -/
theorem execWrAppend_cases (h : s.DataInv) {value width : Word} (ht : execWrAppend value width s = .next t) :
    t.status.fault = true ∨ s.WrAppended value width t := by
  refine Res.Leads.next (P := fun t => t.status.fault = true ∨ s.WrAppended value width t) ?_ ht
  refine Res.leads_require (.inl rfl) fun hv => Res.leads_require (.inl rfl) fun _ =>
    Res.leads_bind (append_sat_appends (h.writerRegion hv) h.memory value.toNat width.toNat) ?_ ?_
  · rintro _ u ⟨h1, h2, hc, hu⟩
    exact .inr ⟨hv, h1, h2, hc, u, hu, rfl⟩
  · exact fun _ _ _ _ _ => .inl rfl

end Sys2Proof.Machine
end

section
/-! ## The round trip of the bit stream (R41, R77, R80, R83, R85)

By induction over the codes: the appends after the first leave the bits of the first alone, and the reads after it start where it
ends. -/

namespace Sys2Proof.Machine

variable {s t u : State} {codes : List (Word × Word)}

theorem execResults_cons {i : Instr} {is : List Instr} {results : List Word} :
    execResults (i :: is) s = some (results, u) ↔
      ∃ t rest, exec i s = .next t ∧ t.status.fault = false ∧ execResults is t = some (rest, u) ∧
        results = t.res0 :: rest := by
  rw [execResults]
  constructor
  · intro h
    split at h
    · rename_i t ht
      split at h
      · cases h
      · rename_i hf
        split at h
        · cases h
        · rename_i rest _ hrest
          cases h
          exact ⟨t, rest, ht, Bool.eq_false_iff.mpr hf, hrest, rfl⟩
    · cases h
    · cases h
  · rintro ⟨t, rest, ht, hf, hrest, rfl⟩
    simp only [ht, hf, hrest, Bool.false_eq_true, if_false]

/-- A code depends on no bit from its end on. -/
theorem State.codeAt_congr {base limit p w : Nat} (h : ∀ q, q < p + w → t.bitAt base q = s.bitAt base q) :
    t.codeAt base limit p w = s.codeAt base limit p w := by
  unfold State.codeAt
  refine congrArg List.sum (List.map_congr_left fun i hi => ?_)
  rw [h (p + i) (by have := List.mem_range.mp hi; omega)]

/-- An append to zeroed bits leaves the code itself there (R83). -/
theorem Appends.codeAt {v w limit : Nat} (h : Appends v w s u) (hl : s.wr.cur.toNat + w ≤ limit)
    (hz : ∀ p, s.wr.cur.toNat ≤ p → p < s.wr.cur.toNat + w → s.bitAt s.wr.base.toNat p = false) :
    u.codeAt s.wr.base.toNat limit s.wr.cur.toNat w = v % 2 ^ w := by
  obtain ⟨-, hbit, -⟩ := h
  refine Nat.eq_of_testBit_eq fun i => ?_
  rw [Nat.testBit_mod_two_pow]
  by_cases hi : i < w
  · rw [State.codeAt_testBit _ _ _ _ _ _ hi, hbit, hz _ (by omega) (by omega), Nat.add_sub_cancel_left]
    have hlim : s.wr.cur.toNat + i < limit := by omega
    simp [hi, hlim]
  · rw [Nat.testBit_lt_two_pow, decide_eq_false hi, Bool.false_and]
    exact (State.codeAt_lt _ _ _ _ _).trans_le (Nat.pow_le_pow_right (by decide) (by omega))

/-- An append leaves the bits around its code alone (R83). -/
theorem Appends.bitAt_eq {v w p : Nat} (h : Appends v w s u) (hp : p < s.wr.cur.toNat ∨ s.wr.cur.toNat + w ≤ p) :
    u.bitAt s.wr.base.toNat p = s.bitAt s.wr.base.toNat p := by
  obtain ⟨-, hbit, -⟩ := h
  have hout : (decide (s.wr.cur.toNat ≤ p) && decide (p < s.wr.cur.toNat + w)) = false := by
    rw [Bool.and_eq_false_iff, decide_eq_false_iff_not, decide_eq_false_iff_not]; omega
  rw [hbit, hout, Bool.false_and, Bool.or_false]

/-- The writer after an append: its region, and the cursor past the code (R83). -/
theorem Appends.wr_eq {v w : Nat} (h : Appends v w s u) :
    u.wr = { s.wr with cur := word (s.wr.cur.toNat + w) } := congrArg State.wr h.1

theorem Appends.dmemSize_eq {v w : Nat} (h : Appends v w s u) : u.dmemSize = s.dmemSize :=
  congrArg (·.dmemSize) h.1

/-- Every reader over the region of `wr`, at its cursor, in a state with the DMEM of `t`, reads the codes, each as its low bits. -/
def State.ReadsBack (t : State) (wr : Writer) (codes : List (Word × Word)) : Prop :=
  ∀ r : State, r.dmem = t.dmem → r.dmemSize = t.dmemSize → r.rd = ⟨wr.base, wr.len, wr.cur, true⟩ →
    r.status.fault = false →
    ∃ v, execResults (codes.map fun c => .rdConsume c.2) r =
      some (codes.map fun c => word (c.1.toNat % 2 ^ c.2.toNat), v)

/-- What appends of the codes, one after the other, leave: the bits before the first code, and the codes to read. -/
structure State.Wrote (s : State) (codes : List (Word × Word)) (t : State) : Prop where
  size : t.dmemSize = s.dmemSize
  below : ∀ p, p < s.wr.cur.toNat → t.bitAt s.wr.base.toNat p = s.bitAt s.wr.base.toNat p
  readsBack : t.ReadsBack s.wr codes

/-- The first code is read back, and then the rest from where it ends. -/
theorem State.ReadsBack.cons {wr : Writer} {c : Word × Word} (h1 : 1 ≤ c.2.toNat) (h2 : c.2.toNat ≤ 12)
    (hr : t.InDmem wr.base.toNat wr.len.toNat) (hl : wr.cur.toNat + c.2.toNat ≤ 8 * wr.len.toNat)
    (hcode : t.codeAt wr.base.toNat (8 * wr.len.toNat) wr.cur.toNat c.2.toNat = c.1.toNat % 2 ^ c.2.toNat)
    (h : t.ReadsBack { wr with cur := word (wr.cur.toNat + c.2.toNat) } codes) :
    t.ReadsBack wr (c :: codes) := by
  intro r hmem hsize hrd hf
  have hnext : r.nextCode c.2.toNat = c.1.toNat % 2 ^ c.2.toNat := by
    rw [State.nextCode, hrd, ← hcode]
    exact State.codeAt_congr fun q _ => by rw [State.bitAt, State.bitAt, State.peek_eq, State.peek_eq, hmem]
  have hcur : r.nextCur c.2.toNat = wr.cur.toNat + c.2.toNat := by
    rw [State.nextCur, hrd]; exact Nat.min_eq_left hl
  have hexec := execRdConsume_ok (s := r) (by rw [hrd]) h1 h2 (.inl (by rw [hrd]; exact hl))
    (by rw [hrd, State.InDmem, hsize]; exact hr)
  rw [hnext, hcur] at hexec
  let next := (r.setRdCur (wr.cur.toNat + c.2.toNat)).finish false (c.1.toNat % 2 ^ c.2.toNat)
    (word (wr.cur.toNat + c.2.toNat)).toNat
  obtain ⟨v, hv⟩ := h next hmem hsize (by rw [State.finish_rd, State.setRdCur_rd, hrd]) hf
  exact ⟨v, execResults_cons.mpr ⟨_, _, hexec, hf, hv, rfl⟩⟩

/-- The appends after the first keep its bits, so that it is read back as `Appends.codeAt` says. -/
theorem execResults_wrAppends {results : List Word} (h : s.DataInv)
    (hz : ∀ p, s.wr.cur.toNat ≤ p → p < 8 * s.wr.len.toNat → s.bitAt s.wr.base.toNat p = false)
    (hrun : execResults (codes.map fun c => .wrAppend c.1 c.2) s = some (results, t)) : s.Wrote codes t := by
  induction codes generalizing s results with
  | nil =>
    cases hrun
    exact ⟨rfl, fun _ _ => rfl, fun r _ _ _ _ => ⟨r, rfl⟩⟩
  | cons c codes ih =>
    obtain ⟨_, rest, hexec, hf, hrest, -⟩ := execResults_cons.mp hrun
    have hinv := (execWrAppend_inv h hexec).toDataInv
    obtain ⟨hv, h1, h2, hc, u, hu, rfl⟩ := (execWrAppend_cases h hexec).resolve_left (Bool.eq_false_iff.mp hf)
    have hregion := h.region_bound (h.writerRegion hv)
    have hcur : (word (s.wr.cur.toNat + c.2.toNat)).toNat = s.wr.cur.toNat + c.2.toNat := word_toNat (by omega)
    have hzero : ∀ p, u.wr.cur.toNat ≤ p → p < 8 * u.wr.len.toNat → u.bitAt u.wr.base.toNat p = false := by
      rw [hu.wr_eq, hcur]
      exact fun p hp hlt => (hu.bitAt_eq (.inr hp)).trans (hz p (by omega) hlt)
    obtain ⟨hsize, hbelow, hreads⟩ := ih hinv hzero hrest
    rw [State.finish_wr, hu.wr_eq] at hreads hbelow
    rw [hcur] at hbelow
    replace hsize := hsize.trans hu.dmemSize_eq
    refine ⟨hsize, fun p hp => ?_, .cons h1 h2 ?_ (Nat.le_of_lt hc) ?_ hreads⟩
    · exact (hbelow p (by omega)).trans (hu.bitAt_eq (.inl hp))
    · rw [State.InDmem, hsize]; exact h.writerRegion hv
    · rw [State.codeAt_congr hbelow]
      exact hu.codeAt (Nat.le_of_lt hc) fun p hp hlt => hz p hp (by omega)

/-- A run of commands that ends with results never leaves the fault state it is not in. -/
theorem execResults_fault {is : List Instr} {results : List Word} (h : execResults is s = some (results, t))
    (hf : s.status.fault = false) : t.status.fault = false := by
  induction is generalizing s results with
  | nil => cases h; exact hf
  | cons i is ih =>
    obtain ⟨_, _, -, hnext, hrest, -⟩ := execResults_cons.mp h
    exact ih hrest hnext

/-- Settles O60: `execResults_wrAppends`, for the one reader it names. -/
theorem bitStreamRoundTrips : Obligations.BitStreamRoundTrips := by
  intro codes s t results h hz hrun
  cases codes with
  | nil => exact ⟨_, rfl⟩
  | cons c codes =>
    obtain ⟨u, _, -, hf, hrest, -⟩ := execResults_cons.mp hrun
    have hfault : t.status.fault = false := execResults_fault hrest hf
    exact (execResults_wrAppends h.toDataInv hz hrun).readsBack _ rfl rfl rfl hfault

end Sys2Proof.Machine
end

section
/-! ## The dictionary's commands (R92 to R97) -/

namespace Sys2Proof.Machine

variable {s : State}

/-! ### The initial table (R88) -/

/-- The dictionary right after `tblInit(n)`, and after `tblClear()` of a table of symbol width `n` (R88). -/
def Dict.initial (n : Word) : Dict := ⟨n, word (n.toNat + 1), initialSlots n.toNat, true⟩

theorem Dict.initial_count (n : Word) : (Dict.initial n).count = 2 ^ n.toNat + 2 := initialSlots_length _

theorem Dict.initial_width {n : Word} (h : n.toNat ≤ 11) : (Dict.initial n).width.toNat = n.toNat + 1 :=
  word_toNat (by omega)

theorem tableInit_initial {n : Word} (h1 : 2 ≤ n.toNat) (h2 : n.toNat ≤ 11) (s : State) :
    tableInit n.toNat s = .ok () { s with tbl := .initial n } := by
  rw [tableInit_ok h1 h2, word_toNat_self, Dict.initial]

theorem State.tblClear_initial (hv : s.tbl.valid = true) : s.tblClear = { s with tbl := .initial s.tbl.n } := by
  rw [Dict.initial, ← hv, State.tblClear]

/-- What TBL_INIT of `n` leaves, and TBL_CLEAR of a table of symbol width `n` (R92, R97). -/
def State.startTable (s : State) (n : Word) : State :=
  { s with tbl := .initial n }.finish false (2 ^ n.toNat + 2) (n.toNat + 1)

theorem State.startTable_eq {n : Word} (h : n.toNat ≤ 11) (s : State) : s.startTable n =
    { s with tbl := .initial n }.finish false (Dict.initial n).count (Dict.initial n).width.toNat := by
  rw [Dict.initial_count, Dict.initial_width h, State.startTable]

theorem execTblInit_ok {n : Word} (h1 : 2 ≤ n.toNat) (h2 : n.toNat ≤ 11) (s : State) :
    execTblInit n s = .next (s.startTable n) := by
  rw [execTblInit, tableInit_initial h1 h2, State.startTable_eq h2]
  rfl

theorem execTblClear_ok (hv : s.tbl.valid = true) (h : s.tbl.n.toNat ≤ 11) :
    execTblClear s = .next (s.startTable s.tbl.n) := by
  rw [execTblClear, Res.require_pos hv, State.tblClear_initial hv, State.startTable_eq h]
  rfl

/-- Settles O14, by the precondition of `tblInit` and by the laws of the initial slots. -/
theorem tblInitBuildsTheInitialTable : Obligations.TblInitBuildsTheInitialTable := by
  refine ⟨encodes_of_operands (fun _ => rfl) fun _ => rfl, fun n s => ⟨fun h => ?_, fun h1 h2 => ?_⟩⟩
  · show execTblInit n s = _
    rw [execTblInit, tableInit_raised h]
    rfl
  · refine ⟨_, execTblInit_ok h1 h2 s, ends_finish _ _ _ _, rfl, Dict.initial_width h2, rfl, Dict.initial_count n,
      fun c => initialSlots_literal, initialSlots_clear _, initialSlots_eoi _, rfl, fun c hc => ?_, rfl, .of_dmem rfl⟩
    exact Dict.lookup_none.mpr ((Dict.initial_count n).trans_le hc)

/-- Settles O17: without a table each precondition fails; with one, the two reads report, and TBL_CLEAR and TBL_INIT leave the
same state. -/
theorem tableReadsAndClear : Obligations.TableReadsAndClear := by
  refine ⟨encodes_of_operands (fun _ => rfl) fun _ => rfl, encodes_of_operands (fun _ => rfl) fun _ => rfl,
    encodes_of_operands (fun _ => rfl) fun _ => rfl,
    fun s => ⟨fun hv => ⟨?_, ?_, ?_⟩, fun hv => ⟨?_, ?_, fun h1 h2 => ?_⟩⟩⟩
  · exact Res.outcome_require_neg hv _ _ _ _ _
  · exact Res.outcome_require_neg hv _ _ _ _ _
  · exact Res.outcome_require_neg hv _ _ _ _ _
  · exact next_finish_reports (congrArg Res.outcome (Res.require_pos hv _ _ _ _ _))
  · exact next_finish_reports (congrArg Res.outcome (Res.require_pos hv _ _ _ _ _))
  · exact ⟨_, execTblClear_ok hv h2, ends_finish _ _ _ _, execTblInit_ok h1 h2 s, rfl, .of_dmem rfl⟩

/-! ### Append (R89, R93) -/

/-- The growth control in natural numbers: a width that grows stays at or below 32, far from the top of its register (R89). -/
theorem grownWidth_toNat {count : Nat} (h : count < 2 ^ 32) (width : Word) :
    (grownWidth count width).toNat = if 2 ^ width.toNat ≤ count then width.toNat + 1 else width.toNat := by
  unfold grownWidth
  split
  case isTrue hle =>
    have hlt : width.toNat < 32 := (Nat.pow_lt_pow_iff_right (by decide)).mp (hle.trans_lt h)
    exact word_toNat (by omega)
  case isFalse => rfl

/-- TBL_APPEND over a valid table and a legal region: `tblAppend` of the region's bytes (R93). -/
theorem execTblAppend_valid {base len : Word} (hv : s.tbl.valid = true)
    (hl : base.toNat + len.toNat ≤ s.dmemSize) : execTblAppend base len s =
      ((tableAppend ((List.range len.toNat).map fun i => s.peek (base.toNat + i)) s).bind fun c s =>
        .ok () (s.finish false c s.tbl.width.toNat)).outcome := by
  rw [execTblAppend, Res.require_pos hv, Res.require_pos (State.legalRegion_iff.mpr hl), State.readBytes_eq hl]
  rfl

/-- Settles O15, by `execTblAppend_valid` and by the laws of `Dict.push`. -/
theorem tblAppendGrowsTheTable : Obligations.TblAppendGrowsTheTable := by
  refine ⟨encodes_of_operands (fun _ => rfl) fun _ => rfl, fun base len s => ?_⟩
  show (_ → execTblAppend base len s = _) ∧ (_ → _ → execTblAppend base len s = _) ∧
    (_ → _ → _ → execTblAppend base len s = _) ∧ (_ → _ → _ → ∃ t, execTblAppend base len s = .next t ∧ _)
  refine ⟨fun hv => ?_, fun hv hl => ?_, fun hv hl hfull => ?_, fun hv hl hroom => ?_⟩
  · exact Res.outcome_require_neg hv _ _ _ _ _
  · rw [execTblAppend, Res.require_pos hv]
    exact Res.outcome_require_neg (State.legalRegion_eq_false (Nat.lt_of_not_le hl)) _ _ _ _ _
  · rw [execTblAppend_valid hv hl, tableAppend_full hfull, List.length_map, List.length_range]
    rfl
  · have hwidth := grownWidth_toNat (count := s.tbl.count + 1) (by omega) s.tbl.width
    rw [execTblAppend_valid hv hl, tableAppend_ok hroom, ← hwidth]
    exact ⟨_, rfl, ends_finish _ _ _ _, Dict.push_count _ _, Dict.push_lookup_last _ _, fun c => Dict.push_lookup, rfl, rfl,
      hv, rfl, .of_dmem rfl⟩

/-! ### Lookup (R91, R94) -/

/-- A miss writes nothing (R94). -/
theorem execTblLookup_miss {code base cap : Word} (hv : s.tbl.valid = true)
    (hl : base.toNat + cap.toNat ≤ s.dmemSize) (hhit : ¬s.MeetsReader base.toNat cap.toNat)
    (hc : s.tbl.count ≤ code.toNat) : execTblLookup code base cap s = .next (s.finish false 0 0) := by
  rw [execTblLookup, Res.require_pos hv, Res.require_pos (State.legalRegion_iff.mpr hl),
    Res.require_pos (not_hitsReader hhit), Dict.lookup_none.mpr hc]
  rfl

theorem length_take_min (q : Seq) (k : Nat) : (q.take (min q.length k)).length = min q.length k := by
  rw [List.length_take, Nat.min_eq_left (Nat.min_le_left _ _)]

/-- The copy of an entry to DMEM, as far as it fits (R94). -/
def State.copyEntry (s : State) (base cap : Nat) (q : Seq) : State :=
  { s with dmem := placeBytes s.dmem base (q.take (min q.length cap)) }

theorem State.writeBytes_copyEntry {base cap : Nat} (hl : base + cap ≤ s.dmemSize) (q : Seq) :
    s.writeBytes base (q.take (min q.length cap)) = some (s.copyEntry base cap q) := by
  refine State.writeBytes_eq _ ?_
  rw [length_take_min]
  omega

theorem State.copyEntry_peek (hm : s.dmem.wf = true) {base cap i : Nat} {q : Seq} (hi : i < min q.length cap) :
    some ((s.copyEntry base cap q).peek (base + i)) = q[i]? := by
  have hq : i < q.length := by omega
  rw [State.peek_eq, State.copyEntry, placeBytes_read _ hm, if_pos (Nat.le_add_right _ _), Nat.add_sub_cancel_left,
    List.getElem?_take_of_lt hi, List.getElem?_eq_getElem hq, Option.getD_some]

theorem execTblLookup_found {code base cap : Word} {q : Seq} (hv : s.tbl.valid = true)
    (hl : base.toNat + cap.toNat ≤ s.dmemSize) (hhit : ¬s.MeetsReader base.toNat cap.toNat)
    (hq : s.tbl.lookup code.toNat = some q) : execTblLookup code base cap s =
      .next ((s.copyEntry base.toNat cap.toNat q).finish true q.length (min q.length cap.toNat)) := by
  rw [execTblLookup, Res.require_pos hv, Res.require_pos (State.legalRegion_iff.mpr hl),
    Res.require_pos (not_hitsReader hhit), hq]
  simp only [State.writeBytes_copyEntry hl]
  rfl

/-- Settles O16: the three preconditions of R94, then the miss, then the copy of the entry that is found. -/
theorem tblLookupCopiesTheSequence : Obligations.TblLookupCopiesTheSequence := by
  refine ⟨encodes_of_operands (fun _ => rfl) fun _ => rfl, fun code base cap s => ?_⟩
  show (_ → execTblLookup code base cap s = _) ∧ (_ → _ → execTblLookup code base cap s = _) ∧
    (_ → _ → _ → execTblLookup code base cap s = _) ∧
    (_ → _ → _ → _ → ∃ t, execTblLookup code base cap s = .next t ∧ _) ∧
    (_ → _ → _ → _ → ∀ q, _ → ∃ t, execTblLookup code base cap s = .next t ∧ _)
  refine ⟨fun hv => ?_, fun hv hl => ?_, fun hv hl hhit => ?_, fun hv hl hhit hc => ?_, fun hv hl hhit hm q hq => ?_⟩
  · exact Res.outcome_require_neg hv _ _ _ _ _
  · rw [execTblLookup, Res.require_pos hv]
    exact Res.outcome_require_neg (State.legalRegion_eq_false (Nat.lt_of_not_le hl)) _ _ _ _ _
  · rw [execTblLookup, Res.require_pos hv, Res.require_pos (State.legalRegion_iff.mpr hl)]
    exact Res.outcome_require_neg (hitsReader_of_meets hhit) _ _ _ _ _
  · exact next_finish_reports (execTblLookup_miss hv hl hhit hc)
  · have hout : KeepsMemoryOutside base.toNat (min q.length cap.toNat) s (s.copyEntry base.toNat cap.toNat q) :=
      writeBytes_outside hm (length_take_min q _).le (State.writeBytes_copyEntry hl q)
    exact ⟨_, execTblLookup_found hv hl hhit hq, ends_finish _ _ _ _, fun i => State.copyEntry_peek hm, hout, rfl⟩

end Sys2Proof.Machine
end

section
/-! ## The decompress machine (42_lzw_decompress.md): reading a code and emitting a sequence -/

namespace Sys2Proof.Machine

variable {s v : State} {p : Bool}

/-! ### The command (R98) -/

theorem execLzwDecompress_valid (hr : s.rd.valid = true) (ht : s.tbl.valid = true) (base cap flags : Word) :
    execLzwDecompress base cap flags s =
      (Res.require (s.legalRegion base cap) .range 0 base.toNat s <|
        Res.require (!s.hitsReader base cap) .range 0 base.toNat s <|
        .ok () { s with
          out := ⟨base, cap, 0, .dmem⟩
          dec := ⟨none, flags.getLsbD 0⟩
          status := { s.status with
            fsm := .decode false (if flags.getLsbD 0 then .first else .checkClear) } }).outcome := by
  rw [execLzwDecompress, Res.require_pos hr, Res.require_pos ht]
  rfl

/-- Settles O18, by the four preconditions of R98. -/
theorem lzwDecompressSetsUp : Obligations.LzwDecompressSetsUp := by
  refine ⟨encodes_of_operands (fun _ => rfl) fun _ => rfl, fun base cap flags s => ?_⟩
  show (_ → execLzwDecompress base cap flags s = _) ∧ (_ → _ → _ → execLzwDecompress base cap flags s = _) ∧
    (_ → _ → _ → _ → execLzwDecompress base cap flags s = _)
  refine ⟨?_, fun hr ht hbad => ?_, fun hr ht hl hhit => ?_⟩
  · cases hr : s.rd.valid with
    | false => exact fun _ => Res.outcome_require_neg hr _ _ _ _ _
    | true =>
      rintro (hr' | ht)
      · cases hr'
      · rw [execLzwDecompress, Res.require_pos hr]
        exact Res.outcome_require_neg ht _ _ _ _ _
  · rw [execLzwDecompress_valid hr ht]
    by_cases hl : base.toNat + cap.toNat ≤ s.dmemSize
    · rw [Res.require_pos (State.legalRegion_iff.mpr hl)]
      exact Res.outcome_require_neg (hitsReader_of_meets (hbad.resolve_left (not_not_intro hl))) _ _ _ _ _
    · exact Res.outcome_require_neg (State.legalRegion_eq_false (Nat.lt_of_not_le hl)) _ _ _ _ _
  · rw [execLzwDecompress_valid hr ht, Res.require_pos (State.legalRegion_iff.mpr hl),
      Res.require_pos (not_hitsReader hhit)]
    rfl

/-! ### Reading a code (R100) -/

/-- The code the decoder reads next, at the dictionary's width. -/
def State.code (s : State) : Nat := s.nextCode s.tbl.width.toNat

/-- The state once that code is read. -/
def State.pastCode (s : State) : State := s.setRdCur (s.nextCur s.tbl.width.toNat)

/-- That code passes the end of the reader's region, and `RD_OVERRUN` = 1 makes this a fault (R77). -/
def State.Overruns (s : State) : Prop :=
  8 * s.rd.len.toNat < s.rd.cur.toNat + s.tbl.width.toNat ∧ s.cfg.rdOverrun = true

theorem readCode_overrun (h : s.DataInv) (hd : s.Decoding p) (hw : s.tbl.width.toNat ≤ 12) (ho : s.Overruns) :
    readCode s = .raised .readOverrun s.rd.cur.toNat s.tbl.width.toNat s := by
  have hmin := (h.table hd.table).width_min
  rw [readCode_consume hw, consume_overrun (by omega) hw ho.1 ho.2]

theorem readCode_code (h : s.DataInv) (hd : s.Decoding p) (hw : s.tbl.width.toNat ≤ 12) (ho : ¬s.Overruns) :
    readCode s = .ok s.code s.pastCode := by
  have hmin := (h.table hd.table).width_min
  rw [readCode_consume hw, consume_eq (by omega) hw ho (h.readerRegion hd.reader), State.code, State.pastCode]

@[simp] theorem State.pastCode_tbl (s : State) : s.pastCode.tbl = s.tbl := rfl

theorem State.DataInv.pastCode (h : s.DataInv) (hd : s.Decoding p) : s.pastCode.DataInv :=
  h.setRdCur hd.reader (Nat.min_le_right _ _)

theorem State.Decoding.pastCode (hd : s.Decoding p) : s.pastCode.Decoding p := { hd with }

theorem State.pastCode_cur (h : s.DataInv) (hd : s.Decoding p) :
    s.pastCode.rd.cur.toNat = s.nextCur s.tbl.width.toNat := by
  have hregion := h.region_bound (h.readerRegion hd.reader)
  have hcur : s.nextCur s.tbl.width.toNat ≤ 8 * s.rd.len.toNat := Nat.min_le_right _ _
  exact word_toNat (by omega)

/-! ### Emitting a sequence (R99) -/

theorem emit_emits (h : s.DataInv) (hd : s.Decoding p) (q : Seq) : ∃ v, Emits q s v ∧ emit q s = .ok () v := by
  cases p with
  | false =>
    obtain ⟨hsink, hregion, -⟩ := hd.dmemSink rfl
    obtain ⟨v, hv, he, -⟩ := emit_dmem_emits q hsink hregion h.output h.memory
    exact ⟨v, hv, he⟩
  | true =>
    obtain ⟨hsink, hfilled, -⟩ := hd.pixelSink rfl
    obtain ⟨v, hv, he, -⟩ := emit_pixels_emits q hsink h.output hfilled h.image.1.canonical
    exact ⟨v, hv, he⟩

theorem Emits.tbl_eq {q : Seq} (h : Emits q s v) : v.tbl = s.tbl := (congrArg State.tbl h.1).trans rfl

theorem Emits.dec_eq {q : Seq} (h : Emits q s v) : v.dec = s.dec := (congrArg State.dec h.1).trans rfl

theorem Emits.status_eq {q : Seq} (h : Emits q s v) : v.status = s.status := (congrArg State.status h.1).trans rfl

theorem Emits.rd_eq {q : Seq} (h : Emits q s v) : v.rd = s.rd := (congrArg State.rd h.1).trans rfl

theorem Emits.cmd_eq {q : Seq} (h : Emits q s v) : v.cmd = s.cmd := (congrArg State.cmd h.1).trans rfl

/-! ### The next state of the machine -/

theorem State.setPrev_setFsm (hd : v.dec = s.dec) (hs : v.status = s.status) (q : Option Seq) (f : Fsm) :
    (v.setPrev q).setFsm f =
      { v with dec := { s.dec with prev := q }, status := { s.status with fsm := f } } := by
  rw [← hd, ← hs]; rfl

/-- The machine goes on in the state it is in. -/
theorem State.setFsm_same {f : Fsm} (h : s.status.fsm = f) : s.setFsm f = s := by
  rw [← h]; rfl

end Sys2Proof.Machine
end

section
/-! ## The decompress machine: its first two states (R101, R102) -/

namespace Sys2Proof.Machine

/-- Settles O34, by the three results of `readCode` and the test of the code. -/
theorem decoderChecksTheClearCode : Obligations.DecoderChecksTheClearCode := by
  intro s p h hr
  have hd := h.decoding p .checkClear hr.1 hr.2
  show (_ → engineStep s = _) ∧ (_ → s.Overruns → engineStep s = _) ∧
    (_ → ¬s.Overruns → s.code = _ → engineStep s = .next (s.pastCode.setFsm _)) ∧
    (_ → ¬s.Overruns → s.code ≠ _ → engineStep s = .next (s.pastCode.raise _ _ s.code))
  rw [engineStep_decode hr, decodeStep, stepCheckClear, ← State.pastCode_cur h.toDataInv hd]
  refine ⟨fun hw => ?_, fun hw ho => ?_, fun hw ho hc => ?_, fun hw ho hc => ?_⟩
  · rw [readCode_width hw]; rfl
  · rw [readCode_overrun h.toDataInv hd hw ho]; rfl
  · rw [readCode_code h.toDataInv hd hw ho, Res.bind_ok, State.pastCode_tbl, Res.require_pos (beq_iff_eq.mpr hc)]; rfl
  · rw [readCode_code h.toDataInv hd hw ho, Res.bind_ok]
    exact Res.outcome_require_neg (beq_eq_false_iff_ne.mpr hc) _ _ _ _ _

/-- Settles O35, by the three results of `readCode` and the lookup of the code. -/
theorem decoderEmitsTheFirstCode : Obligations.DecoderEmitsTheFirstCode := by
  intro s p h hr
  have hd := h.decoding p .first hr.1 hr.2
  show (_ → engineStep s = _) ∧ (_ → s.Overruns → engineStep s = _) ∧
    (_ → ¬s.Overruns → _ ≤ s.code → engineStep s = .next (s.pastCode.raise _ _ s.code)) ∧
    (_ → ¬s.Overruns → ∀ q, s.tbl.lookup s.code = some q → ∃ v, Emits q s.pastCode v ∧ engineStep s = _)
  rw [engineStep_decode hr, decodeStep, stepFirst, ← State.pastCode_cur h.toDataInv hd]
  refine ⟨fun hw => ?_, fun hw ho => ?_, fun hw ho hc => ?_, fun hw ho q hq => ?_⟩
  · rw [readCode_width hw]; rfl
  · rw [readCode_overrun h.toDataInv hd hw ho]; rfl
  · rw [readCode_code h.toDataInv hd hw ho, Res.bind_ok, State.pastCode_tbl, Dict.lookup_none.mpr hc]; rfl
  · obtain ⟨v, hv, he⟩ := emit_emits (h.toDataInv.pastCode hd) hd.pastCode q
    refine ⟨v, hv, ?_⟩
    rw [readCode_code h.toDataInv hd hw ho, Res.bind_ok, State.pastCode_tbl, hq]
    dsimp only
    rw [he, Res.bind_ok, State.setPrev_setFsm hv.dec_eq hv.status_eq]
    rfl

end Sys2Proof.Machine
end

section
/-! ## The decompress machine: D_LOOP (R103 to R107) -/

namespace Sys2Proof.Machine

variable {s v : State} {p : Bool}

/-! ### Which action a loop step takes (R103) -/

theorem stepLoop_ends
    (h : s.out.cap.toNat ≤ s.out.pos.toNat ∨ 8 * s.rd.len.toNat - s.rd.cur.toNat < s.tbl.width.toNat) :
    stepLoop p s = decodeFinish p s := by
  unfold stepLoop
  split
  case isTrue => rfl
  case isFalse hfull => exact if_pos (decide_eq_true (h.resolve_left hfull))

theorem stepLoop_reads (hfull : ¬s.out.cap.toNat ≤ s.out.pos.toNat)
    (hleft : ¬8 * s.rd.len.toNat - s.rd.cur.toNat < s.tbl.width.toNat) :
    stepLoop p s = (readCode s).bind fun c s => stepCode p c s := by
  have hc : s.rd.isComplete s.tbl.width.toNat = false := decide_eq_false hleft
  rw [stepLoop, if_neg hfull, hc, if_neg Bool.false_ne_true]

/-- A loop step that reads a code reads a whole one, so it cannot overrun (R103). -/
theorem engineStep_loop_code (h : s.Inv) (hr : s.runs (.decode p .loop)) (hfull : ¬s.out.cap.toNat ≤ s.out.pos.toNat)
    (hleft : ¬8 * s.rd.len.toNat - s.rd.cur.toNat < s.tbl.width.toNat) (hw : s.tbl.width.toNat ≤ 12) :
    engineStep s = (stepCode p s.code s.pastCode).outcome := by
  have hd := h.decoding p .loop hr.1 hr.2
  have hwhole : ¬s.Overruns := by
    rintro ⟨hover, -⟩
    have := (h.table hd.table).width_min
    omega
  rw [engineStep_decode hr, decodeStep, stepLoop_reads hfull hleft, readCode_code h.toDataInv hd hw hwhole, Res.bind_ok]

theorem stepCode_eoi {c : Nat} (hc : c = 2 ^ s.tbl.n.toNat + 1) : stepCode p c s = decodeFinish p s := if_pos hc

theorem stepCode_clear {c : Nat} (hc : c = 2 ^ s.tbl.n.toNat) : stepCode p c s = stepClear p s := by
  rw [stepCode, if_neg (by omega), if_pos hc]

theorem stepCode_found {c : Nat} {q : Seq} (h1 : c ≠ 2 ^ s.tbl.n.toNat) (h2 : c ≠ 2 ^ s.tbl.n.toNat + 1)
    (hq : s.tbl.lookup c = some q) : stepCode p c s = stepFound p c q s := by
  rw [stepCode, if_neg h2, if_neg h1, hq]

/-- A code the table does not hold is above its clear and end-of-information codes. -/
theorem stepCode_undefined {c : Nat} (h : s.tbl.Inv) (hc : s.tbl.count ≤ c) : stepCode p c s = stepUndefined p c s := by
  have := h.countMin
  rw [stepCode, if_neg (by omega), if_neg (by omega), Dict.lookup_none.mpr hc]

/-! ### The actions -/

theorem stepClear_eq (hf : s.status.fsm = .decode p .loop) : stepClear p s = .ok () { s with
    tbl := { s.tbl with slots := initialSlots s.tbl.n.toNat, width := word (s.tbl.n.toNat + 1) }
    dec := { s.dec with prev := if s.cfg.clearPrev then none else s.dec.prev } } := by
  cases hc : s.cfg.clearPrev with
  | true =>
    simp only [stepClear, State.tblClear_cfg, hc, if_true]
    exact congrArg (Res.ok ()) (State.setFsm_same (s := s.tblClear.setPrev none) hf)
  | false =>
    simp only [stepClear, State.tblClear_cfg, hc, Bool.false_eq_true, if_false]
    exact congrArg (Res.ok ()) (State.setFsm_same (s := s.tblClear) hf)

/-- `q` becomes the previous sequence, and the machine stays in D_LOOP. -/
theorem State.setPrev_loop (hd : v.dec = s.dec) (hf : v.status.fsm = .decode p .loop) (q : Option Seq) :
    (v.setPrev q).setFsm (.decode p .loop) = { v with dec := { s.dec with prev := q } } := by
  rw [State.setFsm_same (s := v.setPrev q) hf, ← hd]; rfl

theorem stepFound_first {b : Byte} {q : Seq} (hf : s.status.fsm = .decode p .loop) (hv : Emits (b :: q) s v)
    (he : emit (b :: q) s = .ok () v) (hprev : s.dec.prev = none ∨ s.dec.prev = some []) (c : Nat) :
    stepFound p c (b :: q) s = .ok () { v with dec := { s.dec with prev := some (b :: q) } } := by
  have happend : appendAfterPrev b v = .ok () v := by
    rcases hprev with h | h <;> rw [appendAfterPrev, hv.dec_eq, h]
  rw [stepFound, he, Res.bind_ok, happend, Res.bind_ok, State.setPrev_loop hv.dec_eq (hv.status_eq ▸ hf)]

theorem stepFound_appends {b x : Byte} {q prev : Seq} (hf : s.status.fsm = .decode p .loop)
    (hv : Emits (b :: q) s v) (he : emit (b :: q) s = .ok () v) (hprev : s.dec.prev = some (x :: prev))
    (hroom : s.tbl.count < 4097) (c : Nat) : stepFound p c (b :: q) s = .ok () { v with
      tbl := s.tbl.push (x :: prev ++ [b])
      dec := { s.dec with prev := some (b :: q) } } := by
  have hprev' : v.dec.prev = some (x :: prev) := hv.dec_eq ▸ hprev
  have happend : appendAfterPrev b v = .ok () { v with tbl := s.tbl.push (x :: prev ++ [b]) } := by
    rw [appendAfterPrev, hprev', ← hv.tbl_eq]
    dsimp only
    rw [tableAppend_ok (hv.tbl_eq ▸ hroom), Res.bind_ok]
  rw [stepFound, he, Res.bind_ok, happend, Res.bind_ok,
    State.setPrev_loop (v := { v with tbl := s.tbl.push (x :: prev ++ [b]) }) hv.dec_eq (hv.status_eq ▸ hf)]

theorem stepUndefined_bad {c : Nat} (hbad : s.tbl.count < c ∧ s.cfg.badCode = true) :
    stepUndefined p c s = .raised .badCode s.rd.cur.toNat c s := by
  rw [stepUndefined, decide_eq_true hbad.1, hbad.2]; rfl

/-- A code that R107 does not refuse meets the step's precondition. -/
theorem require_not_bad {c : Nat} (hbad : ¬(s.tbl.count < c ∧ s.cfg.badCode = true)) :
    (!(decide (s.tbl.count < c) && s.cfg.badCode)) = true := by
  rw [← decide_eq_true_iff (p := s.tbl.count < c), ← Bool.and_eq_true, Bool.not_eq_true] at hbad
  rw [hbad]; rfl

theorem stepUndefined_noPrev {c : Nat} (hbad : ¬(s.tbl.count < c ∧ s.cfg.badCode = true))
    (hprev : s.dec.prev = none ∨ s.dec.prev = some []) :
    stepUndefined p c s = .raised .noSeq s.rd.cur.toNat c s := by
  rw [stepUndefined, Res.require_pos (require_not_bad hbad)]
  rcases hprev with h | h <;> rw [h]

theorem stepUndefined_synthesises {c : Nat} {x : Byte} {prev : Seq} (hf : s.status.fsm = .decode p .loop)
    (hbad : ¬(s.tbl.count < c ∧ s.cfg.badCode = true)) (hprev : s.dec.prev = some (x :: prev))
    (hroom : s.tbl.count < 4097) (hv : Emits (x :: prev ++ [x]) { s with tbl := s.tbl.push (x :: prev ++ [x]) } v)
    (he : emit (x :: prev ++ [x]) { s with tbl := s.tbl.push (x :: prev ++ [x]) } = .ok () v) :
    stepUndefined p c s = .ok () { v with dec := { s.dec with prev := some (x :: prev ++ [x]) } } := by
  rw [stepUndefined, Res.require_pos (require_not_bad hbad), hprev]
  dsimp only
  rw [tableAppend_ok hroom, Res.bind_ok, he, Res.bind_ok, State.setPrev_loop hv.dec_eq (hv.status_eq ▸ hf)]

end Sys2Proof.Machine
end

section
/-! ## The decompress machine: what each loop step does (R104 to R107) -/

namespace Sys2Proof.Machine

/-- Settles O36: the tests of R103 in order, then the two codes that are no data. -/
theorem decoderLoopEndsAndClears : Obligations.DecoderLoopEndsAndClears := by
  intro s p h hr w u n full complete ends
  have hends {v : State} (hv : engineStep s = (decodeFinish p v).outcome) : ends v := by
    refine ⟨fun hp => ?_, fun hp => ?_⟩ <;> rw [hv, hp] <;> rfl
  refine ⟨fun hstop => hends ?_, fun hfull hleft hw => ?_, fun hfull hleft hw hc => hends ?_,
    fun hfull hleft hw hc => ?_⟩
  · rw [engineStep_decode hr, decodeStep, stepLoop_ends hstop]
  · rw [engineStep_decode hr, decodeStep, stepLoop_reads hfull hleft, readCode_width hw]; rfl
  · exact (engineStep_loop_code h hr hfull hleft hw).trans (congrArg Res.outcome (stepCode_eoi hc))
  · rw [engineStep_loop_code h hr hfull hleft hw, stepCode_clear (s := s.pastCode) (c := s.code) hc,
      stepClear_eq (s := s.pastCode) hr.2]
    rfl

/-- A table read at a width of 12 or less has room for an entry (R109). -/
theorem Dict.Inv.room {d : Dict} (h : d.Inv) (hw : d.width.toNat ≤ 12) : d.count < 4097 :=
  (h.count_lt hw).trans (by decide)

/-- Settles O37, by the entry and by whether there is a previous sequence. -/
theorem decoderHandlesAFoundCode : Obligations.DecoderHandlesAFoundCode := by
  intro s p h hr w u c hpos hin hw hclear heoi
  have hd := h.decoding p .loop hr.1 hr.2
  have hroom := (h.table hd.table).room hw
  have hfound {q : Seq} (hq : s.tbl.lookup c = some q) : engineStep s = (stepFound p s.code q s.pastCode).outcome :=
    (engineStep_loop_code h hr (by omega) (by omega) hw).trans
      (congrArg Res.outcome (stepCode_found (s := s.pastCode) hclear heoi hq))
  refine ⟨fun hq => ?_, fun b q hq => ?_⟩
  · rw [hfound hq, ← State.pastCode_cur h.toDataInv hd]; rfl
  · obtain ⟨v, hv, he⟩ := emit_emits (h.toDataInv.pastCode hd) hd.pastCode (b :: q)
    refine ⟨v, hv, fun hprev => ?_, fun x prev hprev => ?_⟩
    · rw [hfound hq, stepFound_first (s := s.pastCode) hr.2 hv he hprev]; rfl
    · rw [hfound hq, stepFound_appends (s := s.pastCode) hr.2 hv he hprev hroom]; rfl

/-- Settles O38: the two faults of R107, then the synthesised entry. -/
theorem decoderHandlesAnUndefinedCode : Obligations.DecoderHandlesAnUndefinedCode := by
  intro s p h hr w u c bad hpos hin hw hc
  have hd := h.decoding p .loop hr.1 hr.2
  have htbl := h.table hd.table
  have hundef : engineStep s = (stepUndefined p s.code s.pastCode).outcome :=
    (engineStep_loop_code h hr (by omega) (by omega) hw).trans
      (congrArg Res.outcome (stepCode_undefined (s := s.pastCode) htbl hc))
  rw [hundef, ← State.pastCode_cur h.toDataInv hd]
  refine ⟨fun hbad => ?_, fun hbad hprev => ?_, fun x prev hbad hprev => ?_⟩
  · rw [stepUndefined_bad (s := s.pastCode) (c := s.code) hbad]; rfl
  · rw [stepUndefined_noPrev (s := s.pastCode) (c := s.code) hbad hprev]; rfl
  · have hu := (h.toDataInv.pastCode hd).push hd.table (htbl.room hw) (x :: prev ++ [x])
    obtain ⟨v, hv, he⟩ := emit_emits hu (p := p) { hd with } (x :: prev ++ [x])
    refine ⟨v, hv, ?_⟩
    rw [stepUndefined_synthesises (s := s.pastCode) (c := s.code) hr.2 hbad hprev (htbl.room hw) hv he]; rfl

end Sys2Proof.Machine
end

section
/-! ## The end of a decompress (R110)

A step of D_LOOP that goes on reads a whole code, of at least three bits, so the bits that are left bound the steps. -/

namespace Sys2Proof.Machine

variable {s t : State} {k m : Nat}

/-! ### Runs of the engine that end the command -/

/-- At most `k` micro-steps of the engine end the command. -/
def State.EndsWithin (s : State) (k : Nat) : Prop :=
  ∃ j t, j ≤ k ∧ engineRun j s = .next t ∧ t.status.busy = false

theorem State.endsWithin_of_not_busy (h : s.status.busy = false) (k : Nat) : s.EndsWithin k :=
  ⟨0, s, Nat.zero_le k, rfl, h⟩

theorem State.EndsWithin.mono (h : s.EndsWithin k) (hk : k ≤ m) : s.EndsWithin m := by
  obtain ⟨j, t, hj, hrun, hend⟩ := h
  exact ⟨j, t, hj.trans hk, hrun, hend⟩

theorem State.EndsWithin.step (h : t.EndsWithin k) (ht : engineStep s = .next t) : s.EndsWithin (k + 1) := by
  obtain ⟨j, u, hj, hrun, hend⟩ := h
  exact ⟨j + 1, u, by omega, by rw [engineRun, ht]; exact hrun, hend⟩

/-! ### Where a step of the decoder leads -/

/-- A step either ends the command or leads to state `st` of the decoder, with the reader past the next code. -/
def State.DecodesTo (s t : State) (st : DecState) : Prop :=
  t.status.busy = false ∨ t.runs (.decode false st) ∧ t.rd = s.pastCode.rd

theorem checkClear_decodesTo (h : s.Inv) (hr : s.runs (.decode false .checkClear)) :
    ∃ t, engineStep s = .next t ∧ s.DecodesTo t .first ∧ (t.status.busy = true → s.code = 2 ^ s.tbl.n.toNat) := by
  obtain ⟨hwidth, hover, hclear, hother⟩ := decoderChecksTheClearCode s false h hr
  by_cases hw : s.tbl.width.toNat ≤ 12
  · by_cases ho : s.Overruns
    · exact ⟨_, hover hw ho, .inl rfl, nofun⟩
    · by_cases hc : s.code = 2 ^ s.tbl.n.toNat
      · exact ⟨_, hclear hw ho hc, .inr ⟨⟨hr.1, rfl⟩, rfl⟩, fun _ => hc⟩
      · exact ⟨_, hother hw ho hc, .inl rfl, nofun⟩
  · exact ⟨_, hwidth (by omega), .inl rfl, nofun⟩

theorem first_decodesTo (h : s.Inv) (hr : s.runs (.decode false .first)) :
    ∃ t, engineStep s = .next t ∧ s.DecodesTo t .loop := by
  obtain ⟨hwidth, hover, hnone, hsome⟩ := decoderEmitsTheFirstCode s false h hr
  by_cases hw : s.tbl.width.toNat ≤ 12
  · by_cases ho : s.Overruns
    · exact ⟨_, hover hw ho, .inl rfl⟩
    · cases hq : s.tbl.lookup s.code with
      | none => exact ⟨_, hnone hw ho (Dict.lookup_none.mp hq), .inl rfl⟩
      | some q =>
        obtain ⟨v, hv, ht⟩ := hsome hw ho q hq
        exact ⟨_, ht, .inr ⟨⟨⟨hr.1.1, hv.cmd_eq.trans_ne hr.1.2⟩, rfl⟩, hv.rd_eq⟩⟩
  · exact ⟨_, hwidth (by omega), .inl rfl⟩

theorem Emits.runs {v : State} {q : Seq} {f : Fsm} (hv : Emits q s v) (hr : s.runs f) : v.runs f :=
  ⟨⟨hv.status_eq ▸ hr.1.1, hv.cmd_eq.trans_ne hr.1.2⟩, hv.status_eq ▸ hr.2⟩

theorem found_decodesTo (h : s.Inv) (hr : s.runs (.decode false .loop)) (hpos : s.out.pos.toNat < s.out.cap.toNat)
    (hin : s.rd.cur.toNat + s.tbl.width.toNat ≤ 8 * s.rd.len.toNat) (hw : s.tbl.width.toNat ≤ 12)
    (hclear : s.code ≠ 2 ^ s.tbl.n.toNat) (heoi : s.code ≠ 2 ^ s.tbl.n.toNat + 1) {q : Seq}
    (hq : s.tbl.lookup s.code = some q) : ∃ t, engineStep s = .next t ∧ s.DecodesTo t .loop := by
  obtain ⟨hempty, hentry⟩ := decoderHandlesAFoundCode s false h hr hpos hin hw hclear heoi
  cases q with
  | nil => exact ⟨_, hempty hq, .inl rfl⟩
  | cons b q =>
    obtain ⟨v, hv, hfirst, happend⟩ := hentry b q hq
    have hto : v.runs (.decode false .loop) ∧ v.rd = s.pastCode.rd := ⟨hv.runs hr, hv.rd_eq⟩
    rcases hprev : s.dec.prev with _ | _ | ⟨x, prev⟩
    · exact ⟨_, hfirst (.inl hprev), .inr hto⟩
    · exact ⟨_, hfirst (.inr hprev), .inr hto⟩
    · exact ⟨_, happend x prev hprev, .inr hto⟩

theorem undefined_decodesTo (h : s.Inv) (hr : s.runs (.decode false .loop)) (hpos : s.out.pos.toNat < s.out.cap.toNat)
    (hin : s.rd.cur.toNat + s.tbl.width.toNat ≤ 8 * s.rd.len.toNat) (hw : s.tbl.width.toNat ≤ 12)
    (hc : s.tbl.count ≤ s.code) : ∃ t, engineStep s = .next t ∧ s.DecodesTo t .loop := by
  obtain ⟨hbad, hnone, hsome⟩ := decoderHandlesAnUndefinedCode s false h hr hpos hin hw hc
  by_cases hb : s.tbl.count < s.code ∧ s.cfg.badCode = true
  · exact ⟨_, hbad hb, .inl rfl⟩
  · rcases hprev : s.dec.prev with _ | _ | ⟨x, prev⟩
    · exact ⟨_, hnone hb (.inl hprev), .inl rfl⟩
    · exact ⟨_, hnone hb (.inr hprev), .inl rfl⟩
    · obtain ⟨v, hv, ht⟩ := hsome x prev hb hprev
      exact ⟨_, ht, .inr ⟨hv.runs hr, hv.rd_eq⟩⟩

/-- A step of D_LOOP that goes on reads a whole code (R103). -/
theorem loop_decodesTo (h : s.Inv) (hr : s.runs (.decode false .loop)) :
    ∃ t, engineStep s = .next t ∧ s.DecodesTo t .loop ∧
      (t.status.busy = true → s.tbl.width.toNat ≤ s.rd.remaining) := by
  obtain ⟨hstop, hwidth, heoi, hclear⟩ := decoderLoopEndsAndClears s false h hr
  by_cases hfull : s.out.cap.toNat ≤ s.out.pos.toNat
  · exact ⟨_, (hstop (.inl hfull)).1 rfl, .inl rfl, nofun⟩
  by_cases hleft : s.rd.remaining < s.tbl.width.toNat
  · exact ⟨_, (hstop (.inr hleft)).1 rfl, .inl rfl, nofun⟩
  suffices hgo : ∃ t, engineStep s = .next t ∧ s.DecodesTo t .loop by
    obtain ⟨t, ht, hto⟩ := hgo
    exact ⟨t, ht, hto, fun _ => Nat.le_of_not_lt hleft⟩
  by_cases hw : 12 < s.tbl.width.toNat
  · exact ⟨_, hwidth hfull hleft hw, .inl rfl⟩
  have hpos : s.out.pos.toNat < s.out.cap.toNat := Nat.lt_of_not_le hfull
  have hin : s.rd.cur.toNat + s.tbl.width.toNat ≤ 8 * s.rd.len.toNat := by
    have := (h.table (h.decoding false .loop hr.1 hr.2).table).width_min
    unfold Reader.remaining at hleft
    omega
  have hw' : s.tbl.width.toNat ≤ 12 := Nat.le_of_not_lt hw
  by_cases hce : s.code = 2 ^ s.tbl.n.toNat + 1
  · exact ⟨_, (heoi hfull hleft hw' hce).1 rfl, .inl rfl⟩
  by_cases hcc : s.code = 2 ^ s.tbl.n.toNat
  · exact ⟨_, hclear hfull hleft hw' hcc, .inr ⟨hr, rfl⟩⟩
  cases hq : s.tbl.lookup s.code with
  | some q => exact found_decodesTo h hr hpos hin hw' hcc hce hq
  | none => exact undefined_decodesTo h hr hpos hin hw' (Dict.lookup_none.mp hq)

/-! ### The bits that are left bound the steps -/

theorem State.pastCode_remaining (h : s.DataInv) {p : Bool} (hd : s.Decoding p) :
    s.pastCode.rd.remaining = s.rd.remaining - s.tbl.width.toNat := by
  have hcur := State.pastCode_cur h hd
  have hlen : s.pastCode.rd.len = s.rd.len := rfl
  unfold State.nextCur at hcur
  rw [Reader.remaining, Reader.remaining, hcur, hlen]
  omega

/-- After a step that goes on, at least three bits fewer are left, or none. -/
theorem State.DecodesTo.endsWithin {st st' : DecState} (h : s.Inv) (hr : s.runs (.decode false st))
    (ht : engineStep s = .next t) (hto : s.DecodesTo t st')
    (hk : t.status.busy = true → t.Inv → t.runs (.decode false st') →
      t.rd.remaining ≤ s.rd.remaining - 3 → t.EndsWithin k) : s.EndsWithin (k + 1) := by
  refine State.EndsWithin.step ?_ ht
  rcases hto with hend | ⟨hruns, hrd⟩
  · exact State.endsWithin_of_not_busy hend k
  · have hd := h.decoding false st hr.1 hr.2
    have hmin := (h.table hd.table).width_min
    have hrem := State.pastCode_remaining h.toDataInv hd
    refine hk hruns.1.1 (engineStep_inv h ht) hruns ?_
    rw [hrd, hrem]
    omega

theorem loop_endsWithin (h : s.Inv) (hr : s.runs (.decode false .loop)) (hk : s.rd.remaining < 3 * k) :
    s.EndsWithin k := by
  induction k generalizing s with
  | zero => omega
  | succ k ih =>
    obtain ⟨t, ht, hto, hwhole⟩ := loop_decodesTo h hr
    refine hto.endsWithin h hr ht fun hb hi hruns hrem => ih hi hruns ?_
    have := (h.table (h.decoding false .loop hr.1 hr.2).table).width_min
    have := hwhole hb
    omega

theorem first_endsWithin (h : s.Inv) (hr : s.runs (.decode false .first)) (hk : s.rd.remaining < 3 * k) :
    s.EndsWithin (k + 1) := by
  obtain ⟨t, ht, hto⟩ := first_decodesTo h hr
  exact hto.endsWithin h hr ht fun _ hi hruns hrem => loop_endsWithin hi hruns (by omega)

/-- Past the end of its region a reader gives zeros (R77). -/
theorem State.code_of_empty (h : s.rd.len.toNat = 0) : s.code = 0 := by
  simp [State.code, State.nextCode, State.codeAt, h]

/-- The first code of an empty region is 0, which is no clear code; any other region has the bits of the code that D_CHECK_CLEAR
reads (R101). -/
theorem checkClear_endsWithin (h : s.Inv) (hr : s.runs (.decode false .checkClear)) :
    s.EndsWithin (8 * s.rd.len.toNat / 3 + 2) := by
  obtain ⟨t, ht, hto, hclear⟩ := checkClear_decodesTo h hr
  refine hto.endsWithin h hr ht fun hb hi hruns hrem => first_endsWithin hi hruns ?_
  have hlen : s.rd.len.toNat ≠ 0 := fun h0 => by
    have := hclear hb
    rw [State.code_of_empty h0] at this
    exact absurd this.symm (Nat.two_pow_pos _).ne'
  unfold Reader.remaining at hrem ⊢
  omega

/-- The setup ends the command or starts the decoder, over the same reader (R98). -/
theorem execLzwDecompress_decodes {base cap flags : Word} (hr : s.running) :
    ∃ t, exec (.lzwDecompress base cap flags) s = .next t ∧ (t.status.busy = false ∨
      t.rd = s.rd ∧ (t.runs (.decode false .first) ∨ t.runs (.decode false .checkClear))) := by
  obtain ⟨hinit, hrange, hsetup⟩ := lzwDecompressSetsUp.2 base cap flags s
  by_cases hu : s.rd.valid = true ∧ s.tbl.valid = true
  · by_cases hbad : ¬base.toNat + cap.toNat ≤ s.dmemSize ∨ s.MeetsReader base.toNat cap.toNat
    · exact ⟨_, hrange hu.1 hu.2 hbad, .inl rfl⟩
    · rw [not_or, not_not] at hbad
      refine ⟨_, hsetup hu.1 hu.2 hbad.1 hbad.2, .inr ⟨rfl, ?_⟩⟩
      cases hf : flags.getLsbD 0 with
      | true => exact .inl ⟨hr, rfl⟩
      | false => exact .inr ⟨hr, rfl⟩
  · rw [not_and_or, Bool.not_eq_true, Bool.not_eq_true] at hu
    exact ⟨_, hinit hu, .inl rfl⟩

/-- Settles O57: the setup is one step, and the steps after it are bounded by the bits of the reader's region. -/
theorem decompressEnds : Obligations.DecompressEnds := by
  intro s base cap flags h hb hf hdec
  have hcmd : s.cmd ≠ 0xFF#8 := fun hc => by
    rw [decodeCommand_softReset ((opcodeOf_commandWords s).trans hc)] at hdec
    cases hdec
  obtain ⟨t, ht, hto⟩ := execLzwDecompress_decodes (base := base) (cap := cap) (flags := flags) ⟨hb, hcmd⟩
  rw [← engineStep_first hb hf hdec] at ht
  have hrest : t.EndsWithin (8 * s.rd.len.toNat / 3 + 2) := by
    rcases hto with hend | ⟨hrd, hfirst | hcheck⟩
    · exact State.endsWithin_of_not_busy hend _
    · refine first_endsWithin (engineStep_inv h ht) hfirst ?_
      rw [hrd, Reader.remaining]
      omega
    · rw [← hrd]
      exact checkClear_endsWithin (engineStep_inv h ht) hcheck
  exact (hrest.step ht).mono (by omega)

end Sys2Proof.Machine
end

section
/-! ## The compress machine (43_lzw_compress.md): its setup (R112) -/

namespace Sys2Proof.Machine

variable {s : State}

/-- The precondition on the symbol width, as one test (R112). -/
theorem symbolWidth_test (n : Nat) :
    (decide (Config.nMin ≤ n) && decide (n ≤ Config.nMax)) = decide (2 ≤ n ∧ n ≤ 11) := (Bool.decide_and _ _).symm

/-- LZW_COMPRESS with a writer and a legal symbol width: the tests of its two regions, then the setup (R112). -/
theorem execLzwCompress_valid {n : Word} (hv : s.wr.valid = true) (hw : 2 ≤ n.toNat ∧ n.toNat ≤ 11)
    (base len flags : Word) : execLzwCompress n base len flags s =
      (Res.require (s.legalRegion base len) .range 0 base.toNat s <|
        Res.require (!overlap base len s.wr.base s.wr.len) .range 0 base.toNat s <|
        Res.require (!s.hitsReader s.wr.base s.wr.len) .range 0 s.wr.base.toNat s <|
        .ok () { s with
          tbl := .initial n
          enc := ⟨n.toNat, base.toNat, len.toNat, 0, [], 0, flags.getLsbD 0, flags.getLsbD 1⟩
          status := { s.status with fsm := .compress .start } }).outcome := by
  rw [execLzwCompress, Res.require_pos hv, symbolWidth_test, Res.require_pos (decide_eq_true hw),
    tableInit_initial hw.1 hw.2]
  rfl

theorem not_overlap {b1 l1 b2 l2 : Word} (h : ¬Meets b1.toNat l1.toNat b2.toNat l2.toNat) :
    (!overlap b1 l1 b2 l2) = true := by
  rw [Bool.eq_false_iff.mpr (mt (overlap_iff b1 l1 b2 l2).mp h)]; rfl

theorem overlap_of_meets {b1 l1 b2 l2 : Word} (h : Meets b1.toNat l1.toNat b2.toNat l2.toNat) :
    (!overlap b1 l1 b2 l2) = false := by
  rw [(overlap_iff b1 l1 b2 l2).mpr h]; rfl

/-- Settles O19, by the five preconditions of R112 and by the table TBL_INIT leaves. -/
theorem lzwCompressSetsUp : Obligations.LzwCompressSetsUp := by
  refine ⟨encodes_of_operands (fun _ => rfl) fun _ => rfl, fun n base len flags s => ?_⟩
  show (_ → execLzwCompress n base len flags s = _) ∧ (_ → _ → execLzwCompress n base len flags s = _) ∧
    (_ → _ → _ → execLzwCompress n base len flags s = _) ∧
    (_ → _ → _ → _ → _ → execLzwCompress n base len flags s = _) ∧
    (_ → _ → _ → _ → _ → ∃ t u, execLzwCompress n base len flags s = .next t ∧ execTblInit n s = .next u ∧ _)
  refine ⟨fun hv => ?_, fun hv hw => ?_, fun hv hw hbad => ?_, fun hv hw hl ha hhit => ?_, fun hv hw hl ha hhit => ?_⟩
  · exact Res.outcome_require_neg hv _ _ _ _ _
  · rw [execLzwCompress, Res.require_pos hv, symbolWidth_test]
    exact Res.outcome_require_neg (decide_eq_false hw) _ _ _ _ _
  · rw [execLzwCompress_valid hv hw]
    by_cases hl : base.toNat + len.toNat ≤ s.dmemSize
    · have hmeets := not_not.mp (hbad.resolve_left (not_not_intro hl))
      rw [Res.require_pos (State.legalRegion_iff.mpr hl)]
      exact Res.outcome_require_neg (overlap_of_meets hmeets) _ _ _ _ _
    · exact Res.outcome_require_neg (State.legalRegion_eq_false (Nat.lt_of_not_le hl)) _ _ _ _ _
  · rw [execLzwCompress_valid hv hw, Res.require_pos (State.legalRegion_iff.mpr hl),
      Res.require_pos (not_overlap ha)]
    exact Res.outcome_require_neg (hitsReader_of_meets hhit) _ _ _ _ _
  · rw [execLzwCompress_valid hv hw, Res.require_pos (State.legalRegion_iff.mpr hl),
      Res.require_pos (not_overlap ha), Res.require_pos (not_hitsReader hhit)]
    exact ⟨_, _, rfl, execTblInit_ok hw.1 hw.2 s, rfl⟩

end Sys2Proof.Machine
end

section
/-! ## The compress machine: emitting a code (R114, R115) -/

namespace Sys2Proof.Machine

variable {s v : State} {c : Nat}

/-- One emitted code, as a frame: some bytes of DMEM, the writer's cursor and the count of codes differ (R115). -/
theorem EmitsCode.emitted (h : EmitsCode c s v) : ∃ m n, v = s.emitted m n := by
  obtain ⟨u, ⟨hu, -, -⟩, rfl⟩ := h
  exact ⟨u.dmem, s.wr.cur.toNat + s.encWidth, by rw [hu]; rfl⟩

/-- The micro-step with outcome `o` emits code `c` and goes on with `go`, or faults on a width above 12 or a full writer (R114,
R115). -/
def State.EmitsThen (s : State) (c : Nat) (go : State → State) (o : Host.Outcome State Fault Refusal) : Prop :=
  (s.CodeFits → ∃ v, EmitsCode c s v ∧ o = .next (go v)) ∧
    (12 < s.encWidth → o = .next (s.raise .width s.wr.cur.toNat s.encWidth)) ∧
    (s.encWidth ≤ 12 → 8 * s.wr.len.toNat ≤ s.wr.cur.toNat + s.encWidth →
      o = .next (s.raise .capacity s.wr.cur.toNat s.encWidth))

theorem emitCode_emitsThen (h : s.DataInv) (hv : s.wr.valid = true) {go : State → State} {k : Unit → State → Res Unit}
    (hk : s.CodeFits → ∀ v, EmitsCode c s v → k () v = .ok () (go v)) :
    s.EmitsThen c go ((emitCode c s).bind k).outcome := by
  refine ⟨fun hf => ?_, fun hw => ?_, fun hw hfull => ?_⟩
  · obtain ⟨v, hemit, he, -⟩ := emitCode_fits hf (h.writerRegion hv) h.memory c
    exact ⟨v, hemit, by rw [he, Res.bind_ok, hk hf v hemit]; rfl⟩
  · rw [emitCode_width hw]; rfl
  · rw [emitCode_capacity hw hfull]; rfl

/-- The three cases of an emission leave no other. -/
theorem State.EmitsThen.cases {go : State → State} {o : Host.Outcome State Fault Refusal} (h : s.EmitsThen c go o) :
    (∃ v, EmitsCode c s v ∧ o = .next (go v)) ∨ ∃ e i j, o = .next (s.raise e i j) := by
  obtain ⟨hfits, hwidth, hcapacity⟩ := h
  by_cases hw : s.encWidth ≤ 12
  · rcases Nat.lt_or_ge (s.wr.cur.toNat + s.encWidth) (8 * s.wr.len.toNat) with hroom | hfull
    · exact .inl (hfits ⟨hw, hroom⟩)
    · exact .inr ⟨_, _, _, hcapacity hw hfull⟩
  · exact .inr ⟨_, _, _, hwidth (Nat.lt_of_not_le hw)⟩

theorem emitBuffer_eq (h : s.tbl.find s.enc.buf = some c) : emitBuffer s = emitCode c s := by
  rw [emitBuffer, h]

/-- A working buffer that holds bytes has a code (R117). -/
theorem State.Encoding.buffer_code {st : EncState} (he : s.Encoding st) (hne : s.enc.buf ≠ []) :
    ∃ c, s.tbl.find s.enc.buf = some c :=
  (he.buffer.resolve_left fun h => hne h.1).2

end Sys2Proof.Machine
end

section
/-! ## The compress machine: C_START, C_FLUSH and C_EOI (R116, R118, R119) -/

namespace Sys2Proof.Machine

/-- Settles O39: each state emits its code, or omits it, and goes on. -/
theorem encoderStartsFlushesAndEnds : Obligations.EncoderStartsFlushesAndEnds := by
  intro s h emits started flushed ended
  refine ⟨fun hr => ?_, fun hr => ?_, fun hr => ?_⟩
  · have he := h.encoding .start hr.1 hr.2
    show (_ → engineStep s = _) ∧ (_ → s.EmitsThen _ _ (engineStep s))
    rw [engineStep_compress hr, encodeStep, stepStart]
    refine ⟨fun homit => ?_, fun hemit => ?_⟩
    · rw [if_pos homit]; rfl
    · rw [if_neg (Bool.eq_false_iff.mp hemit)]
      refine emitCode_emitsThen h.toDataInv he.writer fun _ v hv => ?_
      obtain ⟨m, n, rfl⟩ := hv.emitted
      rfl
  · have he := h.encoding .flush hr.1 hr.2
    show (_ → engineStep s = _) ∧ (_ → ∃ c, _ ∧ s.EmitsThen c _ (engineStep s))
    rw [engineStep_compress hr, encodeStep, stepFlush]
    refine ⟨fun hempty => ?_, fun hne => ?_⟩
    · rw [if_pos (List.length_eq_zero_iff.mpr hempty)]; rfl
    · obtain ⟨c, hc⟩ := he.buffer_code hne
      rw [if_neg (mt List.length_eq_zero_iff.mp hne), emitBuffer_eq hc]
      exact ⟨c, Dict.find_some hc, emitCode_emitsThen h.toDataInv he.writer fun _ _ _ => rfl⟩
  · have he := h.encoding .eoi hr.1 hr.2
    show (_ → engineStep s = _) ∧ (_ → s.EmitsThen _ _ (engineStep s))
    rw [engineStep_compress hr, encodeStep, stepEoi]
    refine ⟨fun homit => ?_, fun hemit => ?_⟩
    · rw [if_pos homit]; rfl
    · rw [if_neg (Bool.eq_false_iff.mp hemit)]
      exact emitCode_emitsThen h.toDataInv he.writer fun _ _ _ => rfl

end Sys2Proof.Machine
end

section
/-! ## The compress machine: C_SCAN (R117) -/

namespace Sys2Proof.Machine

variable {s : State}

/-- The input byte that C_SCAN consumes next. -/
def State.scanByte (s : State) : Byte := s.peek (s.enc.src + s.enc.idx)

/-- The working buffer extended by that byte. -/
def State.extended (s : State) : Seq := s.enc.buf ++ [s.scanByte]

/-- The byte lies in the input region, so C_SCAN reads it (R112). -/
theorem State.Encoding.memRead_scanByte (he : s.Encoding .scan) :
    s.memRead (s.enc.src + s.enc.idx) = some s.scanByte := by
  have hlt := he.scanning rfl
  have hregion : s.enc.src + s.enc.len ≤ s.dmemSize := he.source
  exact State.memRead_eq (by omega)

theorem stepScan_illegal (he : s.Encoding .scan) (hb : 2 ^ s.enc.n ≤ s.scanByte.toNat) :
    stepScan s = .raised .literal s.enc.idx s.scanByte.toNat s := by
  rw [stepScan, he.memRead_scanByte, Res.access_some, decide_eq_false (Nat.not_lt.mpr hb)]
  rfl

theorem stepScan_extends (he : s.Encoding .scan) (hb : s.scanByte.toNat < 2 ^ s.enc.n) {c : Nat}
    (hc : s.tbl.find s.extended = some c) : stepScan s = .ok () (scanNext s.extended s) := by
  rw [State.extended] at hc
  rw [stepScan, he.memRead_scanByte, Res.access_some, Res.require_pos (decide_eq_true hb)]
  dsimp only
  rw [hc]
  rfl

theorem stepScan_emits (he : s.Encoding .scan) (hb : s.scanByte.toNat < 2 ^ s.enc.n)
    (hnone : s.tbl.find s.extended = none) {c : Nat} (hc : s.tbl.find s.enc.buf = some c) :
    stepScan s = (emitCode c s).bind fun _ v => (tableAppend s.extended v).bind fun _ v =>
      .ok () (scanNext [s.scanByte] v) := by
  rw [State.extended] at hnone
  rw [stepScan, he.memRead_scanByte, Res.access_some, Res.require_pos (decide_eq_true hb)]
  dsimp only
  rw [hnone, emitBuffer_eq hc]
  rfl

/-- The dictionary holds every legal byte alone, so only a buffer that holds bytes has an extension it does not hold (R117). -/
theorem State.Encoding.buffer_ne_nil {st : EncState} (he : s.Encoding st) (h : s.DataInv)
    (hb : s.scanByte.toNat < 2 ^ s.enc.n) (hnone : s.tbl.find s.extended = none) : s.enc.buf ≠ [] := by
  intro hempty
  obtain ⟨c, hc⟩ := find_literal (h.table he.table) (he.symbolWidth ▸ hb)
  rw [State.extended, hempty, List.nil_append, hc] at hnone
  cases hnone

/-- A table written at a width of 12 or less has room for an entry (R114, R117). -/
theorem State.CodeFits.room (h : s.CodeFits) : s.tbl.count < 4097 := by
  have := bitlen_le_iff.mp ((Nat.le_max_right _ _).trans h.1)
  omega

/-- Settles O40: the literal test, then whether the dictionary holds the extended buffer. -/
theorem encoderScansOneByte : Obligations.EncoderScansOneByte := by
  intro s h hr b ext go
  have he := h.encoding .scan hr.1 hr.2
  show (_ → engineStep s = _) ∧ (_ → _ → engineStep s = _) ∧
    (_ → _ → ∃ c, _ ∧ s.EmitsThen c (fun v => go { v with tbl := s.tbl.push ext } [b]) (engineStep s))
  rw [engineStep_compress hr, encodeStep]
  refine ⟨fun hb => ?_, fun hb ⟨c, hc⟩ => ?_, fun hb hnew => ?_⟩
  · rw [stepScan_illegal he hb]; rfl
  · obtain ⟨i, hi⟩ := Dict.find_isSome.mpr (Dict.lookup_mem hc)
    rw [stepScan_extends he hb hi]; rfl
  · have hnone : s.tbl.find s.extended = none :=
      Dict.find_none.mpr fun hmem => (List.mem_iff_getElem?.mp hmem).elim hnew
    obtain ⟨c, hc⟩ := he.buffer_code (he.buffer_ne_nil h.toDataInv hb hnone)
    rw [stepScan_emits he hb hnone hc]
    refine ⟨c, Dict.find_some hc, emitCode_emitsThen h.toDataInv he.writer fun hfits v hv => ?_⟩
    obtain ⟨m, n, rfl⟩ := hv.emitted
    rw [tableAppend_ok (s := s.emitted m n) hfits.room]
    rfl

end Sys2Proof.Machine
end

section
/-! ## The end of a compress (R121)

Each micro-step that raises no fault takes the machine one step nearer to its end: one step for each byte of the input, and one
each for the setup, C_START, C_FLUSH and C_EOI. -/

namespace Sys2Proof.Machine

variable {s t : State} {k : Nat}

/-! ### Runs of the engine that end the command after a known number of steps -/

/-- `k` micro-steps of the engine end the command, and fewer leave it running unless one raises a fault. -/
def State.EndsAfter (s : State) (k : Nat) : Prop :=
  (∃ t, engineRun k s = .next t ∧ t.status.busy = false) ∧
    ∀ j t, j < k → engineRun j s = .next t → t.status.fault = false → t.status.busy = true

theorem State.endsAfter_zero (h : s.status.busy = false) : s.EndsAfter 0 :=
  ⟨⟨s, rfl, h⟩, fun j _ hj => absurd hj j.not_lt_zero⟩

theorem State.endsAfter_of_fault (hb : s.status.busy = false) (hf : s.status.fault = true) (k : Nat) :
    s.EndsAfter k := by
  refine ⟨⟨s, engineRun_idle hb k, hb⟩, fun j t _ ht hok => ?_⟩
  rw [engineRun_idle hb] at ht
  cases ht
  rw [hf] at hok
  cases hok

theorem State.EndsAfter.step (h : t.EndsAfter k) (hb : s.status.busy = true) (ht : engineStep s = .next t) :
    s.EndsAfter (k + 1) := by
  obtain ⟨⟨u, hrun, hend⟩, hbefore⟩ := h
  refine ⟨⟨u, by rw [engineRun, ht]; exact hrun, hend⟩, fun j v hj hv hok => ?_⟩
  cases j with
  | zero => cases hv; exact hb
  | succ j =>
    rw [engineRun, ht] at hv
    exact hbefore j v (by omega) hv hok

/-! ### The steps that are left -/

/-- How many micro-steps the compress machine takes after the one in state `st`, while nothing faults. -/
def State.stepsAfter (s : State) : EncState → Nat
  | .start => s.enc.len + 2
  | .scan => s.enc.len - s.enc.idx + 1
  | .flush => 1
  | .eoi => 0

/-- The command has faulted, or has `k` micro-steps left if none of them faults. -/
def State.StepsLeft (s : State) (k : Nat) : Prop :=
  s.status.busy = false ∧ (s.status.fault = true ∨ k = 0) ∨
    ∃ st, s.runs (.compress st) ∧ k = s.stepsAfter st + 1

theorem State.stepsLeft_raise (e : Exc) (i j k : Nat) : (s.raise e i j).StepsLeft k := .inl ⟨rfl, .inl rfl⟩

theorem State.stepsLeft_finish (f : Bool) (a b : Nat) : (s.finish f a b).StepsLeft 0 := .inl ⟨rfl, .inr rfl⟩

theorem State.stepsLeft_setFsm (hr : s.running) {st : EncState} (hk : k = s.stepsAfter st + 1) :
    (s.setFsm (.compress st)).StepsLeft k := .inr ⟨st, ⟨hr, rfl⟩, by rw [hk]; cases st <;> rfl⟩

/-- A step that emits a code leaves as many steps as what follows the emission. -/
theorem State.EmitsThen.stepsLeft {c : Nat} {go : State → State} (h : s.EmitsThen c go (engineStep s))
    (hgo : ∀ m n, (go (s.emitted m n)).StepsLeft k) : ∃ t, engineStep s = .next t ∧ t.StepsLeft k := by
  rcases h.cases with ⟨v, hv, ht⟩ | ⟨e, i, j, ht⟩
  · obtain ⟨m, n, rfl⟩ := hv.emitted
    exact ⟨_, ht, hgo m n⟩
  · exact ⟨_, ht, State.stepsLeft_raise e i j k⟩

/-- C_START goes on to the first byte, or past the input when it is empty (R116). -/
theorem State.Encoding.start_stepsLeft (he : s.Encoding .start) (hr : s.running) :
    (s.setFsm (.compress (if s.enc.len = 0 then .flush else .scan))).StepsLeft (s.stepsAfter .start) := by
  obtain ⟨hidx, -⟩ := he.started rfl
  refine State.stepsLeft_setFsm hr ?_
  split
  case isTrue hlen => simp only [State.stepsAfter, hlen]
  case isFalse => simp only [State.stepsAfter, hidx, Nat.sub_zero]

/-- C_SCAN goes on to the next byte, or past the input after the last (R117). -/
theorem State.Encoding.scan_stepsLeft (he : s.Encoding .scan) (hr : s.running) (buf : Seq) :
    (scanNext buf s).StepsLeft (s.stepsAfter .scan) := by
  have hlt := he.scanning rfl
  refine State.stepsLeft_setFsm (s := { s with enc := { s.enc with buf := buf, idx := s.enc.idx + 1 } }) hr ?_
  split <;> simp only [State.stepsAfter] <;> omega

/-- Every micro-step of the compress machine faults or leaves one step fewer. -/
theorem compress_stepsLeft {st : EncState} (h : s.Inv) (hr : s.runs (.compress st)) :
    ∃ t, engineStep s = .next t ∧ t.StepsLeft (s.stepsAfter st) := by
  have he := h.encoding st hr.1 hr.2
  obtain ⟨hstart, hflush, heoi⟩ := encoderStartsFlushesAndEnds s h
  cases st with
  | start =>
    obtain ⟨homits, hemits⟩ := hstart hr
    cases homit : s.enc.omitClear with
    | true => exact ⟨_, homits homit, he.start_stepsLeft hr.1⟩
    | false => exact State.EmitsThen.stepsLeft (hemits homit) fun m n => (he.emitted m n).start_stepsLeft hr.1
  | scan =>
    obtain ⟨hliteral, hextends, hemits⟩ := encoderScansOneByte s h hr
    rcases Nat.lt_or_ge s.scanByte.toNat (2 ^ s.enc.n) with hb | hb
    · by_cases hin : ∃ c, s.tbl.lookup c = some s.extended
      · exact ⟨_, hextends hb hin, he.scan_stepsLeft hr.1 _⟩
      · obtain ⟨c, -, hemits⟩ := hemits hb (not_exists.mp hin)
        exact State.EmitsThen.stepsLeft hemits fun m n => ((he.emitted m n).push s.extended).scan_stepsLeft hr.1 _
    · exact ⟨_, hliteral hb, State.stepsLeft_raise _ _ _ _⟩
  | flush =>
    obtain ⟨hempty, hcode⟩ := hflush hr
    by_cases hbuf : s.enc.buf = []
    · exact ⟨_, hempty hbuf, State.stepsLeft_setFsm hr.1 rfl⟩
    · obtain ⟨c, -, hemits⟩ := hcode hbuf
      exact State.EmitsThen.stepsLeft hemits fun m n => State.stepsLeft_setFsm (s := s.emitted m n) hr.1 rfl
  | eoi =>
    obtain ⟨homits, hemits⟩ := heoi hr
    cases homit : s.enc.omitEoi with
    | true => exact ⟨_, homits homit, State.stepsLeft_finish _ _ _⟩
    | false => exact State.EmitsThen.stepsLeft (hemits homit) fun m n => State.stepsLeft_finish _ _ _

theorem State.StepsLeft.endsAfter (hl : s.StepsLeft k) (h : s.Inv) : s.EndsAfter k := by
  induction k generalizing s with
  | zero =>
    rcases hl with ⟨hb, -⟩ | ⟨st, -, hk⟩
    · exact State.endsAfter_zero hb
    · cases hk
  | succ k ih =>
    rcases hl with ⟨hb, hf⟩ | ⟨st, hr, hk⟩
    · exact State.endsAfter_of_fault hb (hf.resolve_right k.succ_ne_zero) _
    · obtain ⟨t, ht, hl⟩ := compress_stepsLeft h hr
      rw [← Nat.succ.inj hk] at hl
      exact (ih hl (engineStep_inv h ht)).step hr.1.1 ht

/-- The setup faults, or starts the machine over the whole input (R112). -/
theorem execLzwCompress_stepsLeft (hr : s.running) (n base len flags : Word) :
    ∃ t, exec (.lzwCompress n base len flags) s = .next t ∧ t.StepsLeft (len.toNat + 3) := by
  obtain ⟨hinit, hwidth, hrange, hreader, hsetup⟩ := lzwCompressSetsUp.2 n base len flags s
  by_cases hv : s.wr.valid = true
  case neg => exact ⟨_, hinit (Bool.eq_false_iff.mpr hv), State.stepsLeft_raise _ _ _ _⟩
  by_cases hw : 2 ≤ n.toNat ∧ n.toNat ≤ 11
  case neg => exact ⟨_, hwidth hv hw, State.stepsLeft_raise _ _ _ _⟩
  by_cases hl : base.toNat + len.toNat ≤ s.dmemSize
  case neg => exact ⟨_, hrange hv hw (.inl hl), State.stepsLeft_raise _ _ _ _⟩
  by_cases ha : Meets base.toNat len.toNat s.wr.base.toNat s.wr.len.toNat
  case pos => exact ⟨_, hrange hv hw (.inr (not_not_intro ha)), State.stepsLeft_raise _ _ _ _⟩
  by_cases hm : s.MeetsReader s.wr.base.toNat s.wr.len.toNat
  case pos => exact ⟨_, hreader hv hw hl ha hm, State.stepsLeft_raise _ _ _ _⟩
  obtain ⟨t, u, ht, -, rfl⟩ := hsetup hv hw hl ha hm
  exact ⟨_, ht, .inr ⟨.start, ⟨hr, rfl⟩, rfl⟩⟩

/-- A command that decodes to anything but SOFT_RESET is running (R28). -/
theorem State.running_of_decodeCommand (hb : s.status.busy = true) {i : Instr}
    (hdec : decodeCommand s.commandWords = .ok i) (hi : i ≠ .softReset) : s.running := by
  refine ⟨hb, fun hcmd => hi ?_⟩
  rw [decodeCommand_softReset ((opcodeOf_commandWords s).trans hcmd)] at hdec
  cases hdec
  rfl

/-- Settles O58: the setup is one step, and the steps after it are counted down. -/
theorem compressEnds : Obligations.CompressEnds := by
  intro s n base len flags h hb hf hdec
  have hr := State.running_of_decodeCommand hb hdec nofun
  obtain ⟨t, ht, hl⟩ := execLzwCompress_stepsLeft hr n base len flags
  rw [← engineStep_first hb hf hdec] at ht
  exact (hl.endsAfter (engineStep_inv h ht)).step hb ht

end Sys2Proof.Machine
end

section
/-! ## GIF_PARSE and the blocks of its stream (R122, R129 to R136) -/

namespace Sys2Proof.Machine

/-- Settles O20, by the one precondition of R122. -/
theorem gifParseSetsUp : Obligations.GifParseSetsUp := by
  refine ⟨encodes_of_operands (fun _ => rfl) fun _ => rfl, fun base len s => ⟨fun hl => ?_, fun hl => ?_⟩⟩
  · exact Res.outcome_require_neg (State.legalRegion_eq_false hl) _ _ _ _ _
  · show execGifParse base len s = _
    rw [execGifParse, Res.require_pos (State.legalRegion_iff.mpr hl)]
    rfl

variable {s : State} {i : Instr}

/-! ### The extensions -/

/-- The parser past an extension: what it records, and P_LABEL at offset `p` (R130). -/
def State.pass (s : State) (blocks : List Block) (p : Nat) : State :=
  { s with
    cont := { s.cont with blocks := s.cont.blocks ++ blocks }
    par := { s.par with pos := word p }
    status := { s.status with fsm := .parse .label } }

/-- What an extension records in the container (R131 to R135). -/
def extensionBlocks : Instr → List Block
  | .gifExtComment text => [.comment text]
  | .gifExtGraphicsControl _ packed delay transparent _ => [.graphicsControl packed delay transparent]
  | .gifExtApplication _ identifier auth payload => [.application identifier auth payload]
  | .gifExtPlainText _ header => [.plainText header]
  | _ => []

theorem State.pass_nil (s : State) (p : Nat) : s.pass [] p = (s.setPos p).setFsm (.parse .label) := by
  rw [State.pass, List.append_nil]; rfl

/-- An extension records its blocks and moves `P_POS` past its introducer and the bytes after it. -/
theorem exec_extension {n : Nat} (hi : extensionLength i = some n) :
    exec i s = .next (s.pass (extensionBlocks i) (s.par.pos.toNat + 1 + n)) := by
  cases i with
  | gifExtGraphicsControl | gifExtPlainText => cases hi; rfl
  | gifExtension => cases hi; exact congrArg Host.Outcome.next (s.pass_nil _).symm
  | gifExtComment text =>
    cases hi
    rw [show s.par.pos.toNat + 1 + (text.length + 2) = s.par.pos.toNat + 2 + text.length + 1 by omega]
    rfl
  | gifExtApplication _ _ _ payload =>
    cases hi
    rw [show s.par.pos.toNat + 1 + (payload.length + 14) = s.par.pos.toNat + 14 + payload.length + 1 by omega]
    rfl
  | _ => cases hi

/-- Settles O25: the extensions by `exec_extension`, the image descriptor and the trailer by what each writes. -/
theorem gifBlocksComplete : Obligations.GifBlocksComplete := by
  intro s pos records
  have hrec {i : Instr} {b : Block} {n : Nat} (hi : extensionLength i = some n) (hb : extensionBlocks i = [b]) :
      records i b (n + 1) :=
    ⟨_, exec_extension hi, by rw [hb]; rfl, by rw [Nat.add_comm n, ← Nat.add_assoc]; rfl, rfl, rfl, .of_dmem rfl⟩
  refine ⟨fun _ => hrec rfl rfl, fun _ _ _ _ _ => hrec rfl rfl, fun _ _ _ _ => hrec rfl rfl, fun _ _ => hrec rfl rfl,
    fun _ => ?_, fun _ _ _ _ _ => ?_, ?_⟩
  · exact ⟨_, rfl, rfl, rfl, rfl, .of_dmem rfl⟩
  · exact ⟨_, rfl, rfl, rfl, rfl, .of_dmem rfl⟩
  · exact ⟨_, rfl, rfl, rfl, rfl, rfl, ⟨rfl, rfl, word_word _⟩, rfl, .of_dmem rfl⟩

/-- Settles O31: the block's bytes decode to it, in the parser's state of their label. -/
theorem stepRunsTheBlockAtTheCursor : Obligations.StepRunsTheBlockAtTheCursor := by
  intro s st i bytes hr hturns hregion _ hw henc hle hbytes hst
  rw [step_engine hturns hr.1.1]
  cases bytes with
  | nil => simp at hst
  | cons b t =>
    have hfsm : s.runs (blockFsm b) := by
      simp only [List.head?_cons, Option.some.injEq] at hst
      rcases hst with ⟨rfl, rfl⟩ | ⟨rfl, rfl⟩ | ⟨rfl, rfl⟩ <;> exact hr
    exact engineStep_block hfsm hregion hle hbytes (decodeBlock_encodeBlock hw henc)

end Sys2Proof.Machine
end

section
/-! ## The parser's fixed-length reads (R125 to R128, R136 to R140) -/

namespace Sys2Proof.Machine

variable {s : State} {i k : Nat}

/-! ### Bytes of the parse region -/

/-- The first `k` bytes of a stretch of the parse region, one by one. -/
theorem State.bytesAt_split {j : Nat} (h : i + k ≤ j) :
    s.bytesAt i j = ((List.range k).map fun e => s.byteAt (i + e)) ++ s.bytesAt (i + k) j := by
  rw [State.bytesAt_append (Nat.le_add_right i k) h]
  simp only [State.bytesAt, Nat.add_sub_cancel_left]

theorem State.bytesAt_tail (s : State) (i j : Nat) : (s.bytesAt i j).tail = s.bytesAt (i + 1) j := by
  by_cases h : i < j
  · rw [State.bytesAt_cons h, List.tail_cons]
  · rw [State.bytesAt_nil (by omega), State.bytesAt_nil (by omega), List.tail_nil]

/-! ### P_HEADER and P_GCT -/

/-- Settles O41, by the reads of the header's bytes and of the table's. -/
theorem parserReadsHeaderAndGlobalTable : Obligations.ParserReadsHeaderAndGlobalTable := by
  intro s h
  refine ⟨?_, ?_⟩
  · intro hr hlen
    have hp := h.parsing .header hr.1 hr.2
    have hpos := hp.header rfl
    have hread : s.readBytes s.par.base 13 = some (s.bytesAt 0 13) :=
      State.readParse_eq hp.region (i := 0) (by omega)
    rw [engineStep_parse hr, parseStep, stepHeader, needing_go (by omega), hread]
    rfl
  · intro hr k hlen
    have hp := h.parsing .gct hr.1 hr.2
    refine ⟨_, rgbTriples_spec s s.par.pos.toNat k, ?_⟩
    rw [engineStep_parse hr, parseStep, stepGct, needing_go hlen, readColors_eq hp.region hlen]
    rfl

/-! ### P_LABEL -/

/-- P_LABEL with a byte to read: what it selects (R127, R128). -/
theorem stepLabel_byte (hregion : s.InDmem s.par.base s.par.len) (hlt : s.par.pos.toNat < s.par.len) {b : Byte}
    (hb : s.byteAt s.par.pos.toNat = b) :
    stepLabel s =
      if b = 0x21#8 then .next (s.setFsm (.parse .ext))
      else if b = 0x2C#8 then .next (s.setFsm (.parse .image))
      else if b = 0x3B#8 then exec .gifTrailer s
      else .next ((s.setPos (s.par.pos.toNat + 1)).setFsm (.parse .label)) := by
  have hneed : s.need 1 = true := decide_eq_true hlt
  rw [stepLabel, if_pos hneed, State.parseByte_eq hregion hlt, hb]

/-- Settles O42, by the label byte. -/
theorem parserDispatchesOnLabels : Obligations.ParserDispatchesOnLabels := by
  intro s h hr hlt b
  have hp := h.parsing .label hr.1 hr.2
  rw [engineStep_parse hr, parseStep]
  refine ⟨fun hb => ?_, fun hb => ?_, fun hb => ?_, fun hext himage htrailer => ?_⟩
  · rw [stepLabel_byte hp.region hlt hb]; rfl
  · rw [stepLabel_byte hp.region hlt hb]; rfl
  · rw [stepLabel_byte hp.region hlt hb]; rfl
  · rw [stepLabel_byte hp.region hlt rfl, if_neg hext, if_neg himage, if_neg htrailer]
    exact congrArg _ (State.setFsm_same (s := s.setPos _) hr.2)

/-! ### P_IMAGE, P_LCT and P_CODESIZE -/

theorem decodeImage_bytes {j : Nat} (h : i + 9 ≤ j) : decodeImage (s.bytesAt i j) =
    .ok (.gifImage (s.u16At i) (s.u16At (i + 2)) (s.u16At (i + 4)) (s.u16At (i + 6)) (s.byteAt (i + 8)),
      s.bytesAt (i + 9) j) := by
  rw [State.bytesAt_split h]; rfl

/-- P_IMAGE runs the descriptor that is decoded from the byte after its label on (R136). -/
theorem stepImage_runs (hregion : s.InDmem s.par.base s.par.len) (hle : s.par.pos.toNat ≤ s.par.len) :
    stepImage s = runBlock (decodeImage (s.bytesAt (s.par.pos.toNat + 1) s.par.len)) s := by
  rw [stepImage, State.parseStream_eq hregion hle, ← State.bytesAt_tail]

theorem stepLct_reads (hregion : s.InDmem s.par.base s.par.len) (hk : s.lctSize = some k)
    (hle : s.par.pos.toNat + 3 * k ≤ s.par.len) :
    ∃ t, s.TableAt s.par.pos.toNat k t ∧ (stepLct s).outcome = .next { s with
      par := { s.par with img := { s.par.img with lct := some t }, pos := word (s.par.pos.toNat + 3 * k) }
      status := { s.status with fsm := .parse .codeSize } } := by
  refine ⟨_, rgbTriples_spec s s.par.pos.toNat k, ?_⟩
  rw [stepLct, hk]
  dsimp only
  rw [needing_go hle, readColors_eq hregion hle]
  rfl

/-- Settles O44, by the reads of the descriptor, of the local table under its size, and of the code-size byte. -/
theorem parserReadsImageHeads : Obligations.ParserReadsImageHeads := by
  intro s h P
  refine ⟨?_, ?_, ?_⟩
  · intro hr hle
    have hp := h.parsing .image hr.1 hr.2
    rw [engineStep_parse hr, parseStep, stepImage_runs hp.region hp.cursor, decodeImage_bytes (by omega)]
    rfl
  · intro hr reads
    have hp := h.parsing .lct hr.1 hr.2
    have hstep : engineStep s = (stepLct s).outcome := engineStep_parse hr
    have hreads {k : Nat} (hk : s.lctSize = some k) : reads k := fun hle => hstep ▸ stepLct_reads hp.region hk hle
    refine ⟨fun hown => hreads (if_pos hown), fun hown hflag => hreads ?_, fun hown hflag => ?_⟩
    · rw [State.lctSize, hown, hflag]; rfl
    · have hnone : s.lctSize = none := by rw [State.lctSize, hown, hflag]; rfl
      rw [hstep, stepLct, hnone]
      rfl
  · intro hr hle cs u
    have hp := h.parsing .codeSize hr.1 hr.2
    have hstep : engineStep s = ((tableInit cs.toNat u).bind fun _ s =>
        .ok () ({ s with par := { s.par with img := { s.par.img with codeSize := cs }, subIdx := 0 } }.setFsm
          (.parse .subLen))).outcome := by
      rw [engineStep_parse hr, parseStep, stepCodeSize, needing_go hle, State.parseByte_eq hp.region hle]
      rfl
    refine ⟨fun hbad => ?_, fun h1 h2 => ?_⟩
    · rw [hstep, tableInit_raised hbad]; rfl
    · rw [hstep, tableInit_ok h1 h2]; rfl

/-! ### P_SUBLEN and P_SUBDATA -/

/-- Settles O45, by the length byte, and by whether the pixel buffer is full. -/
theorem parserFeedsSubBlocks : Obligations.ParserFeedsSubBlocks := by
  intro s h P l u L img cells
  refine ⟨fun hr hle => ?_, fun hr hle => ?_⟩
  · have hp := h.parsing .subLen hr.1 hr.2
    have hstep : engineStep s = Res.outcome (if l = 0#8 then .ok () ((u.addBlock (.image img)).setFsm (.parse .label))
        else .ok () ({ u with par := { u.par with subLen := l } }.setFsm (.parse .subData))) := by
      rw [engineStep_parse hr, parseStep, stepSubLen, needing_go hle, State.parseByte_eq hp.region hle]
      rfl
    refine ⟨fun hl => ?_, fun hl => ?_⟩
    · rw [hstep, if_pos hl]; rfl
    · rw [hstep, if_neg hl]; rfl
  · have hstep : engineStep s =
        Res.outcome (if img.filled < cells then .ok () s.startSubBlock else .ok () s.resumeParse) := by
      rw [engineStep_parse hr, parseStep, stepSubData, needing_go hle]
      rfl
    refine ⟨fun hroom => ?_, fun hfull => ?_⟩
    · rw [hstep, if_pos hroom, State.startSubBlock]
      simp only [decide_eq_true_eq]
      rfl
    · rw [hstep, if_neg (Nat.not_lt.mpr hfull)]; rfl

end Sys2Proof.Machine
end

section
/-! ## The parser's extensions (R130 to R135) and its truncations (R124) -/

namespace Sys2Proof.Machine

variable {s : State} {i j z : Nat}

/-! ### The extensions as bytes of the parse region -/

theorem decodeComment_bytes (hz : s.ZeroAt i z) : decodeComment (s.bytesAt i s.par.len) =
    .ok (.gifExtComment (s.bytesAt i z), s.bytesAt (z + 1) s.par.len) := by
  rw [decodeComment, splitAtZero_zeroAt hz]

theorem decodeGraphicsControl_bytes (h : i + 6 ≤ j) : decodeGraphicsControl (s.bytesAt i j) =
    .ok (.gifExtGraphicsControl (s.byteAt i) (s.byteAt (i + 1)) (s.u16At (i + 2)) (s.byteAt (i + 4)) (s.byteAt (i + 5)),
      s.bytesAt (i + 6) j) := by
  rw [State.bytesAt_split h]; rfl

theorem decodeApplication_bytes (h : i + 12 ≤ s.par.len) (hz : s.ZeroAt (i + 12) z) :
    ∃ identifier auth, identifier.toList = s.bytesAt (i + 1) (i + 9) ∧ auth.toList = s.bytesAt (i + 9) (i + 12) ∧
      decodeApplication (s.bytesAt i s.par.len) =
        .ok (.gifExtApplication (s.byteAt i) identifier auth (s.bytesAt (i + 12) z), s.bytesAt (z + 1) s.par.len) := by
  refine ⟨#v[s.byteAt (i + 1), s.byteAt (i + 2), s.byteAt (i + 3), s.byteAt (i + 4), s.byteAt (i + 5),
    s.byteAt (i + 6), s.byteAt (i + 7), s.byteAt (i + 8)], #v[s.byteAt (i + 9), s.byteAt (i + 10), s.byteAt (i + 11)],
    ?_, ?_, ?_⟩
  · rw [State.bytesAt_split (k := 8) (by omega), State.bytesAt_nil (by omega)]; rfl
  · rw [State.bytesAt_split (k := 3) (by omega), State.bytesAt_nil (by omega)]; rfl
  · rw [State.bytesAt_split h]
    simp [List.range_succ_eq_map, decodeApplication, splitAtZero_zeroAt hz]

theorem decodePlainText_bytes (h : i + 13 ≤ j) : ∃ header, header.toList = s.bytesAt (i + 1) (i + 13) ∧
    decodePlainText (s.bytesAt i j) = .ok (.gifExtPlainText (s.byteAt i) header, s.bytesAt (i + 13) j) := by
  refine ⟨#v[s.byteAt (i + 1), s.byteAt (i + 2), s.byteAt (i + 3), s.byteAt (i + 4), s.byteAt (i + 5), s.byteAt (i + 6),
    s.byteAt (i + 7), s.byteAt (i + 8), s.byteAt (i + 9), s.byteAt (i + 10), s.byteAt (i + 11), s.byteAt (i + 12)],
    ?_, ?_⟩
  · rw [State.bytesAt_split (k := 12) (by omega), State.bytesAt_nil (by omega)]; rfl
  · rw [State.bytesAt_split h]; rfl

/-! ### P_EXT -/

/-- P_EXT runs what is decoded from the byte after the introducer on (R130). -/
theorem stepExt_runs (hregion : s.InDmem s.par.base s.par.len) (hle : s.par.pos.toNat ≤ s.par.len) :
    stepExt s = runBlock (decodeExtension (s.bytesAt (s.par.pos.toNat + 1) s.par.len)) s := by
  rw [stepExt, State.parseStream_eq hregion hle, ← State.bytesAt_tail]

theorem engineStep_ext (h : s.Inv) (hr : s.runs (.parse .ext)) :
    engineStep s = runBlock (decodeExtension (s.bytesAt (s.par.pos.toNat + 1) s.par.len)) s := by
  have hp := h.parsing .ext hr.1 hr.2
  rw [engineStep_parse hr, parseStep, stepExt_runs hp.region hp.cursor]

/-- A decoded extension is recorded, and `P_POS` moves to its end. -/
theorem runBlock_extension {x : Instr} {rest : Seq} {n p : Nat} (hn : extensionLength x = some n)
    (hp : p = s.par.pos.toNat + 1 + n) : runBlock (.ok (x, rest)) s = .next (s.pass (extensionBlocks x) p) := by
  rw [hp]; exact exec_extension hn

/-- Settles O43, by the label byte: the bytes after it are those of the extension. -/
theorem parserReadsExtensions : Obligations.ParserReadsExtensions := by
  intro s h hr P label goes
  have hgoes {i : Instr} {n p : Nat} {rest : Seq} (hP : P + 2 ≤ s.par.len)
      (hd : decodeExtension (label :: s.bytesAt (P + 2) s.par.len) = .ok (i, rest)) (hn : extensionLength i = some n)
      (hp : p = P + 1 + n) : goes (extensionBlocks i) p := by
    show engineStep s = .next (s.pass _ p)
    rw [engineStep_ext h hr, State.bytesAt_cons (by omega)]
    exact (congrArg (runBlock · s) hd).trans (runBlock_extension hn hp)
  refine ⟨fun hP hl z hz => ?_, fun hP hl => ?_, fun hP hl z hz => ?_, fun hP hl => ?_, fun hP hc hg ha hp => ?_⟩
  · refine hgoes (i := .gifExtComment (s.bytesAt (P + 2) z)) hP (by rw [hl]; exact decodeComment_bytes hz) rfl ?_
    have := hz.1
    rw [State.bytesAt_length]; omega
  · exact hgoes (by omega) (by rw [hl]; exact decodeGraphicsControl_bytes (i := P + 2) (by omega)) rfl rfl
  · obtain ⟨identifier, auth, hid, hauth, hd⟩ := decodeApplication_bytes (i := P + 2) hP hz
    refine ⟨identifier, auth, hid, hauth, hgoes (by omega) (by rw [hl]; exact hd) rfl ?_⟩
    have := hz.1
    rw [State.bytesAt_length]; omega
  · obtain ⟨header, hheader, hd⟩ := decodePlainText_bytes (s := s) (i := P + 2) hP
    exact ⟨header, hheader, hgoes (by omega) (by rw [hl]; exact hd) rfl rfl⟩
  · refine hgoes (i := .gifExtension label) (rest := s.bytesAt (P + 2) s.par.len) hP ?_ rfl rfl
    rw [decodeExtension, if_neg hc, if_neg hg, if_neg ha, if_neg hp]

/-! ### Truncation -/

theorem decodeGraphicsControl_short {bs : Seq} (h : bs.length < 6) : decodeGraphicsControl bs = .error .truncated := by
  unfold decodeGraphicsControl
  split
  · simp only [List.length_cons] at h; omega
  · rfl

theorem decodeApplication_short {bs : Seq} (h : bs.length < 12) : decodeApplication bs = .error .truncated := by
  unfold decodeApplication
  split
  · simp only [List.length_cons] at h; omega
  · rfl

theorem decodeApplication_noZero (h : i + 12 ≤ s.par.len) (hz : s.NoZeroFrom (i + 12)) :
    decodeApplication (s.bytesAt i s.par.len) = .error .truncated := by
  rw [State.bytesAt_split h]
  simp [List.range_succ_eq_map, decodeApplication, splitAtZero_noZero hz]

theorem decodePlainText_short {bs : Seq} (h : bs.length < 13) : decodePlainText bs = .error .truncated := by
  unfold decodePlainText
  split
  · simp only [List.length_cons] at h; omega
  · rfl

theorem decodeImage_short {bs : Seq} (h : bs.length < 9) : decodeImage bs = .error .truncated := by
  unfold decodeImage
  split
  · simp only [List.length_cons] at h; omega
  · rfl

/-- What an extension at offset `P` of the parse region lacks (R124, R131 to R135). -/
def State.ExtensionEnds (s : State) (P : Nat) : Prop :=
  s.par.len < P + 2 ∨ s.byteAt (P + 1) = 0xFE#8 ∧ s.NoZeroFrom (P + 2) ∨
    s.byteAt (P + 1) = 0xF9#8 ∧ s.par.len < P + 8 ∨
    s.byteAt (P + 1) = 0xFF#8 ∧ (s.par.len < P + 14 ∨ s.NoZeroFrom (P + 14)) ∨
    s.byteAt (P + 1) = 0x01#8 ∧ s.par.len < P + 15

theorem decodeExtension_ends {P : Nat} (h : s.ExtensionEnds P) :
    decodeExtension (s.bytesAt (P + 1) s.par.len) = .error .truncated := by
  have hlen := s.bytesAt_length (P + 1 + 1) s.par.len
  by_cases hP : P + 2 ≤ s.par.len
  case neg => rw [State.bytesAt_nil (by omega)]; rfl
  rw [State.bytesAt_cons (by omega)]
  rcases h with h | ⟨hl, hz⟩ | ⟨hl, hn⟩ | ⟨hl, hn⟩ | ⟨hl, hn⟩
  · omega
  · rw [hl]
    show decodeComment _ = _
    rw [decodeComment, splitAtZero_noZero hz]
  · rw [hl]
    exact decodeGraphicsControl_short (by omega)
  · rw [hl]
    show decodeApplication _ = _
    by_cases h14 : P + 14 ≤ s.par.len
    · exact decodeApplication_noZero (i := P + 2) h14 (hn.resolve_left (by omega))
    · exact decodeApplication_short (by omega)
  · rw [hl]
    exact decodePlainText_short (by omega)

/-- The state finds too few bytes of the parse region left, or no terminator in them (R124). -/
def State.LacksBytes (s : State) : ParState → Prop
  | .header => s.par.len < 13
  | .gct => s.par.len < s.par.pos.toNat + 3 * 2 ^ (s.par.gSize.toNat + 1)
  | .label | .codeSize | .subLen => s.par.len < s.par.pos.toNat + 1
  | .ext => s.ExtensionEnds s.par.pos.toNat
  | .image => s.par.len < s.par.pos.toNat + 10
  | .lct => ∃ k, s.lctSize = some k ∧ s.par.len < s.par.pos.toNat + 3 * k
  | .subData => s.par.len < s.par.pos.toNat + s.par.subLen.toNat

/-- Each state's test fails, or its decoder runs out of bytes. -/
theorem engineStep_truncates {st : ParState} (h : s.Inv) (hr : s.runs (.parse st)) (hl : s.LacksBytes st) :
    engineStep s = .next s.truncate := by
  have hp := h.parsing st hr.1 hr.2
  cases st with
  | header =>
    have hlen : s.par.len < s.par.pos.toNat + 13 := by rw [hp.header rfl, Nat.zero_add]; exact hl
    rw [engineStep_parse hr, parseStep, stepHeader, needing_truncate hlen]; rfl
  | gct => rw [engineStep_parse hr, parseStep, stepGct, needing_truncate hl]; rfl
  | label =>
    have hneed : s.need 1 = false := decide_eq_false (Nat.not_le.mpr hl)
    rw [engineStep_parse hr, parseStep, stepLabel, hneed, if_neg Bool.false_ne_true]
  | ext => rw [engineStep_ext h hr, decodeExtension_ends hl, runBlock]
  | image =>
    have hlen : (s.bytesAt (s.par.pos.toNat + 1) s.par.len).length < 9 := by
      have : s.par.len < s.par.pos.toNat + 10 := hl
      rw [State.bytesAt_length]; omega
    rw [engineStep_parse hr, parseStep, stepImage_runs hp.region hp.cursor, decodeImage_short hlen, runBlock]
  | lct =>
    obtain ⟨k, hk, hlen⟩ := hl
    rw [engineStep_parse hr, parseStep, stepLct, hk]
    exact congrArg Res.outcome (needing_truncate hlen)
  | codeSize => rw [engineStep_parse hr, parseStep, stepCodeSize, needing_truncate hl]; rfl
  | subLen => rw [engineStep_parse hr, parseStep, stepSubLen, needing_truncate hl]; rfl
  | subData => rw [engineStep_parse hr, parseStep, stepSubData, needing_truncate hl]; rfl

/-- Settles O46: each of its nine cases is `LacksBytes` of that state. -/
theorem truncationEndsTheParse : Obligations.TruncationEndsTheParse := by
  intro s st h hr P label len lct hends
  have hlacks : s.LacksBytes st := by
    rcases hends with ⟨rfl, hl⟩ | ⟨rfl, hl⟩ | ⟨rfl, hl⟩ | ⟨rfl, hl⟩ | ⟨rfl, hl⟩ | ⟨rfl, hl⟩ | ⟨rfl | rfl, hl⟩ | ⟨rfl, hl⟩ <;>
      exact hl
  exact ⟨_, engineStep_truncates h hr hlacks, ⟨rfl, rfl, rfl⟩, rfl, rfl, rfl, rfl, .of_dmem rfl⟩

/-! ### No DMEM byte is written -/

/-- Settles O52: the target region of a decoder inside GIF_PARSE is empty. -/
theorem parsingWritesNoMemory : Obligations.ParsingWritesNoMemory := by
  refine ⟨fun i s t hinit happend hlookup ht => ?_, fun st s t hr ht => ?_, fun st s t h hr ht a => ?_⟩
  · refine exec_keepsMemory (i := i) ?_ ht
    cases i with
    | wrInit base len => exact absurd rfl (hinit base len)
    | wrAppend value width => exact absurd rfl (happend value width)
    | tblLookup code base cap => exact absurd rfl (hlookup code base cap)
    | _ => rfl
  · exact parseStep_keepsMemory ((engineStep_parse hr).symm.trans ht)
  · have hkeep := engineWritesOnlyItsTarget s t h ht a
    rw [State.target_decode hr.1.2 hr.2] at hkeep
    exact hkeep (by simp [State.outRegion])

end Sys2Proof.Machine
end

section
/-! ## What one micro-step of the decoder and of the parser can do (R109, R141)

One statement for each machine, over all its states: the faults it can raise, and how far it moves on. -/

namespace Sys2Proof.Machine

variable {s t u v : State} {p : Bool} {st : DecState}

/-! ### The decoder -/

/-- The codes of the faults the decoder raises (R109). -/
def State.DecodeFault (s : State) (code : Byte) : Prop :=
  code ∈ [Exc.format, .width, .noSeq].map Exc.code ∨ code = Exc.badCode.code ∧ s.cfg.badCode = true ∨
    code = Exc.readOverrun.code ∧ s.cfg.rdOverrun = true

/-- How many micro-steps the decoder takes, at most, from a state on when no bits are left: D_CHECK_CLEAR and D_FIRST still read
a code there (R77), and D_LOOP ends. -/
def DecState.stepsAtEnd : DecState → Nat
  | .checkClear => 3
  | .first => 2
  | .loop => 1

/-- The parser is at the same place of the same region, in a sub-block of the same length. -/
def State.SamePlace (s t : State) : Prop :=
  t.par.len = s.par.len ∧ t.par.pos = s.par.pos ∧ t.par.subLen = s.par.subLen

/-- What a micro-step of the decoder from state `st` leads to. -/
inductive State.DecodesOn (s : State) (p : Bool) (st : DecState) (t : State) : Prop
  /-- The command ends, by a finish or by a fault. -/
  | ends (hb : t.status.busy = false) (hf : t.status.fault = true → s.DecodeFault t.status.faultCode)
  /-- Inside GIF_PARSE, the parser goes on past the sub-block. -/
  | resumes (hr : t.runs (.parse .subLen)) (hlen : t.par.len = s.par.len)
      (hpos : t.par.pos = word (s.par.pos.toNat + s.par.subLen.toNat))
  /-- A code is read, and in D_LOOP a whole one. -/
  | reads (st' : DecState) (hr : t.runs (.decode p st')) (hrd : t.rd = s.pastCode.rd) (hplace : s.SamePlace t)
      (hst : st'.stepsAtEnd < st.stepsAtEnd ∨ st' = st ∧ s.tbl.width.toNat ≤ s.rd.remaining)

theorem State.DecodesOn.raise {e : Exc} {i j : Nat} (he : s.DecodeFault e.code) : s.DecodesOn p st (u.raise e i j) :=
  .ends rfl fun _ => he

theorem Emits.samePlace {q : Seq} (h : Emits q s v) : s.SamePlace v :=
  ⟨congrArg (·.par.len) h.1, congrArg (·.par.pos) h.1, congrArg (·.par.subLen) h.1⟩

theorem State.decodeFault_width (s : State) : s.DecodeFault Exc.width.code := .inl (by decide)

theorem State.decodeFault_noSeq (s : State) : s.DecodeFault Exc.noSeq.code := .inl (by decide)

theorem State.Overruns.decodeFault (ho : s.Overruns) : s.DecodeFault Exc.readOverrun.code := .inr (.inr ⟨rfl, ho.2⟩)

theorem checkClear_decodesOn (h : s.Inv) (hr : s.runs (.decode p .checkClear)) :
    ∃ t, engineStep s = .next t ∧ s.DecodesOn p .checkClear t := by
  obtain ⟨hwidth, hover, hclear, hother⟩ := decoderChecksTheClearCode s p h hr
  by_cases hw : s.tbl.width.toNat ≤ 12
  case neg => exact ⟨_, hwidth (by omega), .raise s.decodeFault_width⟩
  by_cases ho : s.Overruns
  · exact ⟨_, hover hw ho, .raise ho.decodeFault⟩
  · by_cases hc : s.code = 2 ^ s.tbl.n.toNat
    · exact ⟨_, hclear hw ho hc, .reads .first ⟨hr.1, rfl⟩ rfl ⟨rfl, rfl, rfl⟩ (.inl (by decide))⟩
    · exact ⟨_, hother hw ho hc, .raise (.inl (by decide))⟩

theorem first_decodesOn (h : s.Inv) (hr : s.runs (.decode p .first)) :
    ∃ t, engineStep s = .next t ∧ s.DecodesOn p .first t := by
  obtain ⟨hwidth, hover, hnone, hsome⟩ := decoderEmitsTheFirstCode s p h hr
  by_cases hw : s.tbl.width.toNat ≤ 12
  case neg => exact ⟨_, hwidth (by omega), .raise s.decodeFault_width⟩
  by_cases ho : s.Overruns
  · exact ⟨_, hover hw ho, .raise ho.decodeFault⟩
  · cases hq : s.tbl.lookup s.code with
    | none => exact ⟨_, hnone hw ho (Dict.lookup_none.mp hq), .raise s.decodeFault_noSeq⟩
    | some q =>
      obtain ⟨v, hv, ht⟩ := hsome hw ho q hq
      exact ⟨_, ht, .reads .loop ⟨⟨hr.1.1, hv.cmd_eq.trans_ne hr.1.2⟩, rfl⟩ hv.rd_eq hv.samePlace (.inl (by decide))⟩

/-- The test of D_LOOP that a whole code is left, as the cursor's (R78, R103). -/
theorem cur_add_width_le (h : s.Inv) (hr : s.runs (.decode p st)) (hin : s.tbl.width.toNat ≤ s.rd.remaining) :
    s.rd.cur.toNat + s.tbl.width.toNat ≤ 8 * s.rd.len.toNat := by
  have hmin := (h.table (h.decoding p st hr.1 hr.2).table).width_min
  unfold Reader.remaining at hin
  omega

theorem found_decodesOn (h : s.Inv) (hr : s.runs (.decode p .loop)) (hpos : s.out.pos.toNat < s.out.cap.toNat)
    (hin : s.tbl.width.toNat ≤ s.rd.remaining) (hw : s.tbl.width.toNat ≤ 12) (hclear : s.code ≠ 2 ^ s.tbl.n.toNat)
    (heoi : s.code ≠ 2 ^ s.tbl.n.toNat + 1) {q : Seq} (hq : s.tbl.lookup s.code = some q) :
    ∃ t, engineStep s = .next t ∧ s.DecodesOn p .loop t := by
  obtain ⟨hempty, hentry⟩ := decoderHandlesAFoundCode s p h hr hpos (cur_add_width_le h hr hin) hw hclear heoi
  cases q with
  | nil => exact ⟨_, hempty hq, .raise s.decodeFault_noSeq⟩
  | cons b q =>
    obtain ⟨v, hv, hfirst, happend⟩ := hentry b q hq
    have hreads {t : State} (hruns : t.runs (.decode p .loop)) (hrd : t.rd = v.rd) (hpar : t.par = v.par) :
        s.DecodesOn p .loop t := by
      refine .reads .loop hruns (hrd.trans hv.rd_eq) ?_ (.inr ⟨rfl, hin⟩)
      rw [State.SamePlace, hpar]; exact hv.samePlace
    rcases hprev : s.dec.prev with _ | _ | ⟨x, prev⟩
    · exact ⟨_, hfirst (.inl hprev), hreads (hv.runs hr) rfl rfl⟩
    · exact ⟨_, hfirst (.inr hprev), hreads (hv.runs hr) rfl rfl⟩
    · exact ⟨_, happend x prev hprev, hreads (hv.runs hr) rfl rfl⟩

theorem undefined_decodesOn (h : s.Inv) (hr : s.runs (.decode p .loop)) (hpos : s.out.pos.toNat < s.out.cap.toNat)
    (hin : s.tbl.width.toNat ≤ s.rd.remaining) (hw : s.tbl.width.toNat ≤ 12) (hc : s.tbl.count ≤ s.code) :
    ∃ t, engineStep s = .next t ∧ s.DecodesOn p .loop t := by
  obtain ⟨hbad, hnone, hsome⟩ := decoderHandlesAnUndefinedCode s p h hr hpos (cur_add_width_le h hr hin) hw hc
  by_cases hb : s.tbl.count < s.code ∧ s.cfg.badCode = true
  · exact ⟨_, hbad hb, .raise (.inr (.inl ⟨rfl, hb.2⟩))⟩
  rcases hprev : s.dec.prev with _ | _ | ⟨x, prev⟩
  · exact ⟨_, hnone hb (.inl hprev), .raise s.decodeFault_noSeq⟩
  · exact ⟨_, hnone hb (.inr hprev), .raise s.decodeFault_noSeq⟩
  · obtain ⟨v, hv, ht⟩ := hsome x prev hb hprev
    exact ⟨_, ht, .reads .loop (hv.runs hr) hv.rd_eq hv.samePlace (.inr ⟨rfl, hin⟩)⟩

/-- The decoder's end ends the command, or hands over to the parser (R108, R140). -/
theorem decodeFinish_decodesOn (hr : v.runs (.decode p .loop)) (hok : v.status.fault = false) (hpar : v.par = s.par) :
    ∃ t, (decodeFinish p v).outcome = .next t ∧ s.DecodesOn p .loop t := by
  cases p with
  | false => exact ⟨_, rfl, .ends rfl fun hf => absurd (hok.symm.trans hf) Bool.false_ne_true⟩
  | true => exact ⟨_, rfl, .resumes ⟨hr.1, rfl⟩ (by rw [← hpar]; rfl) (by rw [← hpar]; rfl)⟩

theorem loop_decodesOn (h : s.Inv) (hr : s.runs (.decode p .loop)) :
    ∃ t, engineStep s = .next t ∧ s.DecodesOn p .loop t := by
  have hok := (h.active hr.1).noFault
  by_cases hstop : s.out.cap.toNat ≤ s.out.pos.toNat ∨ 8 * s.rd.len.toNat - s.rd.cur.toNat < s.tbl.width.toNat
  · rw [engineStep_decode hr, decodeStep, stepLoop_ends hstop]
    exact decodeFinish_decodesOn hr hok rfl
  obtain ⟨hfull, hleft⟩ := not_or.mp hstop
  by_cases hw : s.tbl.width.toNat ≤ 12
  case neg =>
    obtain ⟨-, hwidth, -⟩ := decoderLoopEndsAndClears s p h hr
    exact ⟨_, hwidth hfull hleft (by omega), .raise s.decodeFault_width⟩
  have hstep := engineStep_loop_code h hr hfull hleft hw
  have hin : s.tbl.width.toNat ≤ s.rd.remaining := Nat.le_of_not_lt hleft
  by_cases hce : s.code = 2 ^ s.tbl.n.toNat + 1
  · rw [hstep, stepCode_eoi (s := s.pastCode) hce]
    exact decodeFinish_decodesOn hr hok rfl
  by_cases hcc : s.code = 2 ^ s.tbl.n.toNat
  · rw [hstep, stepCode_clear (s := s.pastCode) hcc, stepClear_eq (s := s.pastCode) hr.2]
    exact ⟨_, rfl, .reads .loop hr rfl ⟨rfl, rfl, rfl⟩ (.inr ⟨rfl, hin⟩)⟩
  cases hq : s.tbl.lookup s.code with
  | some q => exact found_decodesOn h hr (Nat.lt_of_not_le hfull) hin hw hcc hce hq
  | none => exact undefined_decodesOn h hr (Nat.lt_of_not_le hfull) hin hw (Dict.lookup_none.mp hq)

/-- Every micro-step of the decoder. -/
theorem decode_decodesOn (h : s.Inv) (hr : s.runs (.decode p st)) :
    ∃ t, engineStep s = .next t ∧ s.DecodesOn p st t := by
  cases st with
  | checkClear => exact checkClear_decodesOn h hr
  | first => exact first_decodesOn h hr
  | loop => exact loop_decodesOn h hr

/-! ### The parser -/

/-- How many micro-steps the parser takes, at most, from a state on when no bytes are left: it truncates, P_LABEL after the state
its label selects, and P_SUBDATA after a decoder over no bytes and P_SUBLEN. -/
def ParState.stepsAtEnd : ParState → Nat
  | .label => 2
  | .subData => 5
  | _ => 1

/-- What a micro-step of the parser from state `st` leads to. -/
inductive State.ParsesOn (s : State) (st : ParState) (t : State) : Prop
  /-- The command ends, by the trailer, a truncation or a fault (R124, R129, R141). -/
  | ends (hb : t.status.busy = false) (hf : t.status.fault = true →
      t.status.faultCode = Exc.lctSize.code ∧ st = .lct ∨ t.status.faultCode = Exc.symbolWidth.code ∧ st = .codeSize)
  /-- The parser goes on in another state, past `d` bytes of its region. -/
  | moves (st' : ParState) (d : Nat) (hr : t.runs (.parse st')) (hlen : t.par.len = s.par.len)
      (hpos : t.par.pos = word (s.par.pos.toNat + d)) (hle : s.par.pos.toNat + d ≤ s.par.len)
      (hst : st'.stepsAtEnd < 5 * d + st.stepsAtEnd)
  /-- P_SUBDATA starts the decoder over a sub-block (R140). -/
  | decodes (st' : DecState) (hst : st = .subData) (hr : t.runs (.decode true st')) (hplace : s.SamePlace t)
      (hrd : t.rd.remaining = 8 * s.par.subLen.toNat) (hle : s.par.pos.toNat + s.par.subLen.toNat ≤ s.par.len)

variable {q : ParState}

/-- A command that ends without a fault of this micro-step's has none (R155). -/
theorem State.ParsesOn.finish (h : s.Inv) (hr : s.runs (.parse q)) (hb : t.status.busy = false)
    (hf : t.status.fault = s.status.fault) : s.ParsesOn q t :=
  .ends hb fun hf' => absurd ((h.active hr.1).noFault.symm.trans (hf.symm.trans hf')) Bool.false_ne_true

theorem truncate_parsesOn (h : s.Inv) (hr : s.runs (.parse q)) (hl : s.LacksBytes q) :
    ∃ t, engineStep s = .next t ∧ s.ParsesOn q t :=
  ⟨_, engineStep_truncates h hr hl, .finish h hr rfl rfl⟩

theorem label_parsesOn (h : s.Inv) (hr : s.runs (.parse .label)) :
    ∃ t, engineStep s = .next t ∧ s.ParsesOn .label t := by
  rcases Nat.lt_or_ge s.par.pos.toNat s.par.len with hlt | hend
  case inr => exact truncate_parsesOn h hr (Nat.lt_succ_of_le hend)
  obtain ⟨hext, himage, htrailer, hother⟩ := parserDispatchesOnLabels s h hr hlt
  have hstay : s.par.pos = word (s.par.pos.toNat + 0) := (word_toNat_self _).symm
  by_cases he : s.byteAt s.par.pos.toNat = 0x21#8
  · exact ⟨_, hext he, .moves .ext 0 ⟨hr.1, rfl⟩ rfl hstay hlt.le (by decide)⟩
  by_cases hi : s.byteAt s.par.pos.toNat = 0x2C#8
  · exact ⟨_, himage hi, .moves .image 0 ⟨hr.1, rfl⟩ rfl hstay hlt.le (by decide)⟩
  by_cases ht : s.byteAt s.par.pos.toNat = 0x3B#8
  · exact ⟨_, htrailer ht, .finish h hr rfl rfl⟩
  · exact ⟨_, hother he hi ht, .moves .label 1 hr rfl rfl hlt (by decide)⟩

theorem ext_parsesOn (h : s.Inv) (hr : s.runs (.parse .ext)) : ∃ t, engineStep s = .next t ∧ s.ParsesOn .ext t := by
  rw [engineStep_ext h hr]
  cases hd : decodeExtension (s.bytesAt (s.par.pos.toNat + 1) s.par.len) with
  | error e => exact ⟨_, rfl, .finish h hr rfl rfl⟩
  | ok x =>
    obtain ⟨n, hn, hlen⟩ := decodeExtension_length hd
    have hpos := extensionLength_pos hn
    rw [State.bytesAt_length] at hlen
    refine ⟨_, exec_extension hn, .moves .label (1 + n) ⟨hr.1, rfl⟩ rfl ?_ (by omega) ?_⟩
    · rw [← Nat.add_assoc]; rfl
    · simp only [ParState.stepsAtEnd]; omega

theorem lct_parsesOn (h : s.Inv) (hr : s.runs (.parse .lct)) : ∃ t, engineStep s = .next t ∧ s.ParsesOn .lct t := by
  have hp := h.parsing .lct hr.1 hr.2
  cases hk : s.lctSize with
  | none =>
    rw [engineStep_parse hr, parseStep, stepLct, hk]
    exact ⟨_, rfl, .ends rfl fun _ => .inl ⟨rfl, rfl⟩⟩
  | some k =>
    rcases Nat.lt_or_ge s.par.len (s.par.pos.toNat + 3 * k) with hl | hle
    · exact truncate_parsesOn h hr ⟨k, hk, hl⟩
    · obtain ⟨c, -, ht⟩ := stepLct_reads hp.region hk hle
      obtain ⟨v, rfl⟩ := lctSize_eq hk
      refine ⟨_, (engineStep_parse hr).trans ht, .moves .codeSize _ ⟨hr.1, rfl⟩ rfl rfl hle ?_⟩
      have := Nat.two_pow_pos (v.toNat + 1)
      simp only [ParState.stepsAtEnd]; omega

theorem codeSize_parsesOn (h : s.Inv) (hr : s.runs (.parse .codeSize)) :
    ∃ t, engineStep s = .next t ∧ s.ParsesOn .codeSize t := by
  rcases Nat.lt_or_ge s.par.pos.toNat s.par.len with hlt | hend
  case inr => exact truncate_parsesOn h hr (Nat.lt_succ_of_le hend)
  obtain ⟨-, -, hcodeSize⟩ := parserReadsImageHeads s h
  obtain ⟨hbad, hok⟩ := hcodeSize hr hlt
  by_cases hw : 2 ≤ (s.byteAt s.par.pos.toNat).toNat ∧ (s.byteAt s.par.pos.toNat).toNat ≤ 11
  · exact ⟨_, hok hw.1 hw.2, .moves .subLen 1 ⟨hr.1, rfl⟩ rfl rfl hlt (by decide)⟩
  · exact ⟨_, hbad (by omega), .ends rfl fun _ => .inr ⟨rfl, rfl⟩⟩

theorem subLen_parsesOn (h : s.Inv) (hr : s.runs (.parse .subLen)) :
    ∃ t, engineStep s = .next t ∧ s.ParsesOn .subLen t := by
  rcases Nat.lt_or_ge s.par.pos.toNat s.par.len with hlt | hend
  case inr => exact truncate_parsesOn h hr (Nat.lt_succ_of_le hend)
  obtain ⟨hzero, hdata⟩ := (parserFeedsSubBlocks s h).1 hr hlt
  by_cases hl : s.byteAt s.par.pos.toNat = 0#8
  · exact ⟨_, hzero hl, .moves .label 1 ⟨hr.1, rfl⟩ rfl rfl hlt (by decide)⟩
  · exact ⟨_, hdata hl, .moves .subData 1 ⟨hr.1, rfl⟩ rfl rfl hlt (by decide)⟩

theorem subData_parsesOn (h : s.Inv) (hr : s.runs (.parse .subData)) :
    ∃ t, engineStep s = .next t ∧ s.ParsesOn .subData t := by
  rcases Nat.lt_or_ge s.par.len (s.par.pos.toNat + s.par.subLen.toNat) with hl | hle
  · exact truncate_parsesOn h hr hl
  obtain ⟨hroom, hfull⟩ := (parserFeedsSubBlocks s h).2 hr hle
  rcases Nat.lt_or_ge s.par.img.filled s.par.img.cells with hcells | hcells
  · refine ⟨_, hroom hcells, .decodes _ rfl ⟨hr.1, rfl⟩ ⟨rfl, rfl, rfl⟩ ?_ hle⟩
    have := s.par.subLen.isLt
    rw [Reader.remaining, word_toNat (by omega)]; rfl
  · exact ⟨_, hfull hcells, .moves .subLen _ ⟨hr.1, rfl⟩ rfl rfl hle (by simp only [ParState.stepsAtEnd]; omega)⟩

/-- Every micro-step of the parser. -/
theorem parse_parsesOn (h : s.Inv) (hr : s.runs (.parse q)) : ∃ t, engineStep s = .next t ∧ s.ParsesOn q t := by
  have hp := h.parsing q hr.1 hr.2
  cases q with
  | header =>
    rcases Nat.lt_or_ge s.par.len 13 with hl | hle
    · exact truncate_parsesOn h hr hl
    · have hpos := hp.header rfl
      refine ⟨_, (parserReadsHeaderAndGlobalTable s h).1 hr hle, .moves _ 13 ⟨hr.1, rfl⟩ rfl ?_ (by omega) ?_⟩
      · rw [hpos]; rfl
      · split <;> decide
  | gct =>
    rcases Nat.lt_or_ge s.par.len (s.par.pos.toNat + 3 * 2 ^ (s.par.gSize.toNat + 1)) with hl | hle
    · exact truncate_parsesOn h hr hl
    · obtain ⟨c, -, ht⟩ := (parserReadsHeaderAndGlobalTable s h).2 hr hle
      have := Nat.two_pow_pos (s.par.gSize.toNat + 1)
      exact ⟨_, ht, .moves .label _ ⟨hr.1, rfl⟩ rfl rfl hle (by simp only [ParState.stepsAtEnd]; omega)⟩
  | label => exact label_parsesOn h hr
  | ext => exact ext_parsesOn h hr
  | image =>
    rcases Nat.lt_or_ge s.par.len (s.par.pos.toNat + 10) with hl | hle
    · exact truncate_parsesOn h hr hl
    · refine ⟨_, (parserReadsImageHeads s h).1 hr hle, .moves _ 10 ⟨hr.1, rfl⟩ rfl rfl hle ?_⟩
      split <;> decide
  | lct => exact lct_parsesOn h hr
  | codeSize => exact codeSize_parsesOn h hr
  | subLen => exact subLen_parsesOn h hr
  | subData => exact subData_parsesOn h hr

end Sys2Proof.Machine
end

section
/-! ## The faults of the composite commands (R109, R121, R141) -/

namespace Sys2Proof.Machine

variable {s t : State}

/-! ### The compress machine -/

/-- A state that is in no fault, or in one of these. -/
def State.FaultsIn (codes : List Exc) (t : State) : Prop := t.status.fault = true → t.status.faultCode ∈ codes.map Exc.code

theorem State.faultsIn_of_noFault (h : t.status.fault = false) (codes : List Exc) : t.FaultsIn codes :=
  fun hf => absurd (h.symm.trans hf) Bool.false_ne_true

theorem State.faultsIn_raise {e : Exc} {codes : List Exc} (he : e ∈ codes) (s : State) (i j : Nat) :
    (s.raise e i j).FaultsIn codes := fun _ => List.mem_map_of_mem he

/-- Everything an emitted code can do: it fits and is counted, or it faults on its width or on a full writer (R114, R115). -/
theorem emitCode_fits_or_faults (c : Nat) (s : State) :
    (emitCode c s).Sat (fun _ t => s.CodeFits ∧ ∃ m n, t = s.emitted m n)
      (fun e _ _ t => t = s ∧ e ∈ [Exc.width, .capacity]) fun _ => True := by
  refine Res.Sat.bind ((append_sat c s.encWidth s).mono ?_ ?_ fun _ _ => trivial)
  · rintro _ _ ⟨-, hw, hroom, u, hu, rfl⟩
    obtain ⟨m, rfl, -⟩ := State.orCode_cases hu
    exact ⟨⟨hw, hroom⟩, m, _, rfl⟩
  · rintro e _ _ _ ⟨rfl, -, -, ⟨rfl, -⟩ | ⟨rfl, -⟩⟩ <;> simp

/-- The faults of the compress machine (R121). -/
def encodeFaults : List Exc := [.literal, .width, .capacity]

/-- Emitting a code, then the rest, raises faults of the compress machine, while the rest does. -/
theorem leads_emitCode_faults {c : Nat} {k : Unit → State → Res Unit}
    (hk : s.CodeFits → ∀ m n, (k () (s.emitted m n)).Leads (State.FaultsIn encodeFaults)) :
    ((emitCode c s).bind k).Leads (State.FaultsIn encodeFaults) := by
  refine Res.leads_bind (emitCode_fits_or_faults c s) ?_ ?_
  · rintro _ _ ⟨hfits, m, n, rfl⟩; exact hk hfits m n
  · rintro e i j _ ⟨rfl, he⟩; exact State.faultsIn_raise (List.mem_cons_of_mem _ he) _ i j

theorem leads_emitBuffer_faults {k : Unit → State → Res Unit}
    (hk : s.CodeFits → ∀ m n, (k () (s.emitted m n)).Leads (State.FaultsIn encodeFaults)) :
    ((emitBuffer s).bind k).Leads (State.FaultsIn encodeFaults) := by
  unfold emitBuffer
  split
  · trivial
  · exact leads_emitCode_faults hk

/-- A micro-step of the compress machine raises no other fault; a table it appends to has room (R117). -/
theorem encodeStep_faults {st : EncState} (hok : s.status.fault = false) (ht : encodeStep st s = .next t) :
    t.FaultsIn encodeFaults := by
  have hgo {u : State} (hu : u.status.fault = s.status.fault) : u.FaultsIn encodeFaults :=
    State.faultsIn_of_noFault (hu.trans hok) _
  refine Res.Leads.next ?_ ht
  cases st with
  | start =>
    dsimp only [stepStart]
    split
    · exact hgo rfl
    · exact leads_emitCode_faults fun _ m n => hgo rfl
  | scan =>
    refine Res.leads_access fun b _ => Res.leads_require (State.faultsIn_raise (by decide) _ _ _) fun _ => ?_
    dsimp only
    split
    · exact hgo rfl
    · refine leads_emitBuffer_faults fun hfits m n => ?_
      rw [tableAppend_ok (s := s.emitted m n) hfits.room]
      exact hgo rfl
  | flush =>
    dsimp only [stepFlush]
    split
    · exact hgo rfl
    · exact leads_emitBuffer_faults fun _ m n => hgo rfl
  | eoi =>
    dsimp only [stepEoi]
    split
    · exact hgo rfl
    · exact leads_emitCode_faults fun _ m n => hgo rfl

/-! ### All three -/

/-- A step that leaves the command running raised no fault (R155). -/
theorem noFault_of_runs (h : s.Inv) (ht : engineStep s = .next t) {f : Fsm} (hr : t.runs f) : t.status.fault = false :=
  ((engineStep_inv h ht).active hr.1).noFault

/-- Settles O56, by what a micro-step of each machine can do. -/
theorem parseRaisesOnlyItsFaults : Obligations.ParseRaisesOnlyItsFaults := by
  intro s t h hr ht hf
  have hended {f : Fsm} (hruns : t.runs f) : False :=
    absurd ((noFault_of_runs h ht hruns).symm.trans hf) Bool.false_ne_true
  refine ⟨fun p st hfsm => ?_, fun st hfsm => ?_, fun st hfsm => ?_⟩
  · obtain ⟨u, hu, hon⟩ := decode_decodesOn h ⟨hr, hfsm⟩
    cases ht.symm.trans hu
    cases hon with
    | ends _ hfault => exact hfault hf
    | resumes hruns => exact (hended hruns).elim
    | reads _ hruns => exact (hended hruns).elim
  · rw [engineStep_compress ⟨hr, hfsm⟩] at ht
    exact encodeStep_faults (h.active hr).noFault ht hf
  · obtain ⟨u, hu, hon⟩ := parse_parsesOn h ⟨hr, hfsm⟩
    cases ht.symm.trans hu
    cases hon with
    | ends _ hfault => exact hfault hf
    | moves _ _ hruns => exact (hended hruns).elim
    | decodes _ _ hruns => exact (hended hruns).elim

end Sys2Proof.Machine
end

section
/-! ## The end of a parse (R142)

A cost in micro-steps that every one of them lowers: five for each byte of the region that is left, and a few for the state. The
decoder costs one for every three bits of its sub-block, of which five per byte leaves more than enough. -/

namespace Sys2Proof.Machine

variable {s t : State} {k : Nat}

/-- The cost of a parser state: five micro-steps for each byte that is left, and those of the state. -/
def State.parseCost (s : State) (st : ParState) : Nat := 5 * (s.par.len - s.par.pos.toNat) + st.stepsAtEnd

/-- The cost of a decoder state inside GIF_PARSE: its own, and that of P_SUBLEN past the sub-block. -/
def State.decodeCost (s : State) (st : DecState) : Nat :=
  s.rd.remaining / 3 + st.stepsAtEnd + (5 * (s.par.len - (s.par.pos.toNat + s.par.subLen.toNat)) + 1)

/-- The command has ended, or GIF_PARSE runs at a cost of at most `k`. -/
def State.CostsAtMost (s : State) (k : Nat) : Prop :=
  s.status.busy = false ∨ (∃ st, s.runs (.parse st) ∧ s.parseCost st ≤ k) ∨
    ∃ st, s.runs (.decode true st) ∧ s.decodeCost st ≤ k

theorem decode_costs {st : DecState} (h : s.Inv) (hr : s.runs (.decode true st)) (hk : s.decodeCost st ≤ k + 1) :
    ∃ t, engineStep s = .next t ∧ t.CostsAtMost k := by
  obtain ⟨t, ht, hon⟩ := decode_decodesOn h hr
  refine ⟨t, ht, ?_⟩
  have hd := h.decoding true st hr.1 hr.2
  obtain ⟨-, hregion, hle⟩ := hd.parser rfl
  have hbound := h.region_bound hregion
  unfold State.decodeCost at hk
  cases hon with
  | ends hb => exact .inl hb
  | resumes hruns hlen hpos =>
    refine .inr (.inl ⟨.subLen, hruns, ?_⟩)
    rw [State.parseCost, hlen, hpos, word_toNat (by omega)]
    cases st <;> simp only [ParState.stepsAtEnd, DecState.stepsAtEnd] at * <;> omega
  | reads st' hruns hrd hplace hst =>
    obtain ⟨hlen, hpos, hsub⟩ := hplace
    refine .inr (.inr ⟨st', hruns, ?_⟩)
    have hmin := (h.table hd.table).width_min
    rw [State.decodeCost, hlen, hpos, hsub, hrd, State.pastCode_remaining h.toDataInv hd]
    rcases hst with hst | ⟨rfl, hwhole⟩ <;> omega

theorem parse_costs {st : ParState} (h : s.Inv) (hr : s.runs (.parse st)) (hk : s.parseCost st ≤ k + 1) :
    ∃ t, engineStep s = .next t ∧ t.CostsAtMost k := by
  obtain ⟨t, ht, hon⟩ := parse_parsesOn h hr
  refine ⟨t, ht, ?_⟩
  have hbound := h.region_bound (h.parsing st hr.1 hr.2).region
  unfold State.parseCost at hk
  cases hon with
  | ends hb => exact .inl hb
  | moves st' d hruns hlen hpos hle hst =>
    refine .inr (.inl ⟨st', hruns, ?_⟩)
    rw [State.parseCost, hlen, hpos, word_toNat (by omega)]
    omega
  | decodes st' hst hruns hplace hrd hle =>
    obtain ⟨hlen, hpos, hsub⟩ := hplace
    refine .inr (.inr ⟨st', hruns, ?_⟩)
    have hst' : st'.stepsAtEnd ≤ 3 := by cases st' <;> decide
    rw [hst, ParState.stepsAtEnd] at hk
    rw [State.decodeCost, hlen, hpos, hsub, hrd]
    omega

/-- The cost bounds the micro-steps to the end of the command. -/
theorem State.CostsAtMost.endsWithin (hc : s.CostsAtMost k) (h : s.Inv) : s.EndsWithin k := by
  induction k generalizing s with
  | zero =>
    rcases hc with hb | ⟨st, -, hk⟩ | ⟨st, -, hk⟩
    · exact State.endsWithin_of_not_busy hb 0
    · unfold State.parseCost at hk; cases st <;> simp only [ParState.stepsAtEnd] at hk <;> omega
    · unfold State.decodeCost at hk; omega
  | succ k ih =>
    have hgo (hstep : ∃ t, engineStep s = .next t ∧ t.CostsAtMost k) : s.EndsWithin (k + 1) := by
      obtain ⟨t, ht, hct⟩ := hstep
      exact (ih hct (engineStep_inv h ht)).step ht
    rcases hc with hb | ⟨st, hr, hk⟩ | ⟨st, hr, hk⟩
    · exact State.endsWithin_of_not_busy hb _
    · exact hgo (parse_costs h hr hk)
    · exact hgo (decode_costs h hr hk)

/-- Settles O59: the setup is one step, and leaves P_HEADER at the start of the region. -/
theorem parseEnds : Obligations.ParseEnds := by
  intro s base len h hb hf hdec
  have hr := State.running_of_decodeCommand hb hdec nofun
  have hcost : ∃ t, exec (.gifParse base len) s = .next t ∧ t.CostsAtMost (5 * len.toNat + 1) := by
    obtain ⟨hrange, hsetup⟩ := gifParseSetsUp.2 base len s
    rcases Nat.lt_or_ge s.dmemSize (base.toNat + len.toNat) with hl | hl
    · exact ⟨_, hrange hl, .inl rfl⟩
    · exact ⟨_, hsetup hl, .inr (.inl ⟨.header, ⟨hr, rfl⟩, Nat.le_refl _⟩)⟩
  obtain ⟨t, ht, hct⟩ := hcost
  rw [← engineStep_first hb hf hdec] at ht
  exact (hct.endsWithin (engineStep_inv h ht)).step ht

end Sys2Proof.Machine
end

section
/-! ## The colour tables (R143 to R147) -/

namespace Sys2Proof.Machine

variable {s : State} {sel : Word}

/-- The selector names the global table, or the local table of an image block (R143). -/
theorem State.selTable_iff {t : Option ColorTable} : s.selTable sel = some t ↔
    sel.toNat = 0 ∧ t = s.cont.gct ∨ ∃ k img, sel.toNat = k + 1 ∧ s.cont.blocks[k]? = some (.image img) ∧ t = img.lct := by
  unfold State.selTable
  cases sel.toNat with
  | zero => simp [eq_comm]
  | succ k =>
    rcases hb : s.cont.blocks[k]? with - | b
    · simp [hb]
    · cases b <;> simp [hb, eq_comm]

/-- With a container, a selector that names no image is the fault of every table command (R143). -/
theorem outcome_selecting_none (hv : s.cont.valid = true) (hsel : s.selTable sel = none) (op : Nat)
    (k : Option ColorTable → Res Unit) :
    (Res.require s.cont.valid .notInit 0 op s (Res.selecting sel s k)).outcome = .next (s.raise .index 0 sel.toNat) := by
  rw [Res.require_pos hv, Res.selecting, hsel]; rfl

/-- With a container and a selector that names a table, the command goes on with the table (R143). -/
theorem outcome_selecting_some {t : Option ColorTable} (hv : s.cont.valid = true) (hsel : s.selTable sel = some t)
    (op : Nat) (k : Option ColorTable → Res Unit) :
    (Res.require s.cont.valid .notInit 0 op s (Res.selecting sel s k)).outcome = (k t).outcome := by
  rw [Res.require_pos hv, Res.selecting, hsel]

section
variable {tab : ColorTable} (hv : s.cont.valid = true) (hsel : s.selTable sel = some (some tab))
include hv hsel

theorem execCtIndex_past {index : Word} (hi : tab.length ≤ index.toNat) :
    execCtIndex sel index s = .next (s.raise .index 1 index.toNat) := by
  rw [execCtIndex, outcome_selecting_some hv hsel]
  dsimp only
  rw [List.getElem?_eq_none hi]
  rfl

theorem execCtIndex_color {index : Word} {c : Rgb} (hc : tab[index.toNat]? = some c) :
    execCtIndex sel index s = .next (s.finish false c.packed 0) := by
  rw [execCtIndex, outcome_selecting_some hv hsel]
  dsimp only
  rw [hc]
  rfl

theorem execCtFind_first {rgb : Word} {i : Nat} (hi : tab[i]? = some (rgbOperand rgb))
    (hmin : ∀ j, j < i → tab[j]? ≠ some (rgbOperand rgb)) : execCtFind sel rgb s = .next (s.finish true i 0) := by
  rw [execCtFind, outcome_selecting_some hv hsel]
  dsimp only
  rw [findColor_first hi hmin, Nat.zero_add]
  rfl

theorem execCtFind_absent {rgb : Word} (hno : ∀ i : Nat, tab[i]? ≠ some (rgbOperand rgb)) :
    execCtFind sel rgb s = .next (s.finish false 0xFFFFFFFF 0) := by
  rw [execCtFind, outcome_selecting_some hv hsel]
  dsimp only
  rw [findColor_none hno]
  rfl

end

/-- Settles O21, by the three answers of the selector: no image, an absent table, and a table. -/
theorem colorTablesAreRead : Obligations.ColorTablesAreRead := by
  refine ⟨encodes_of_operands (fun _ => rfl) fun _ => rfl, encodes_of_operands (fun _ => rfl) fun _ => rfl,
    encodes_of_operands (fun _ => rfl) fun _ => rfl, fun sel index rgb s => ?_⟩
  intro names color
  have hselects {t : Option ColorTable} : names t → s.selTable sel = some t := State.selTable_iff.mpr
  refine ⟨fun hv => ?_, fun hv hno => ?_, fun hv habsent => ?_, fun tab hv htab => ?_⟩
  · exact ⟨Res.outcome_require_neg hv _ _ _ _ _, Res.outcome_require_neg hv _ _ _ _ _,
      Res.outcome_require_neg hv _ _ _ _ _⟩
  · have hsel : s.selTable sel = none :=
      Option.eq_none_iff_forall_ne_some.mpr fun t ht => hno t (State.selTable_iff.mp ht)
    exact ⟨outcome_selecting_none hv hsel _ _, outcome_selecting_none hv hsel _ _, outcome_selecting_none hv hsel _ _⟩
  · have hsel := hselects habsent
    exact ⟨next_finish_reports (outcome_selecting_some hv hsel _ _), outcome_selecting_some hv hsel _ _,
      outcome_selecting_some hv hsel _ _⟩
  · have hsel := hselects htab
    exact ⟨next_finish_reports (outcome_selecting_some hv hsel _ _), execCtIndex_past hv hsel,
      fun c hc => next_finish_reports (execCtIndex_color hv hsel hc),
      fun i hi hmin => next_finish_reports (execCtFind_first hv hsel hi hmin),
      fun hno => next_finish_reports (execCtFind_absent hv hsel hno)⟩

end Sys2Proof.Machine
end

section
/-! ## CONT_READ (R148) -/

namespace Sys2Proof.Machine

variable {s : State} {block field element : Word} {n : Nat}

/-! ### What a field reads as -/

/-- How many fields R148 lists for a block of this kind; they are numbered from 0. -/
def Block.fieldCount : Block → Nat
  | .comment _ => 3
  | .graphicsControl .. => 4
  | .application .. => 5
  | .plainText _ => 2
  | .image _ => 10

theorem Block.field_none {b : Block} {e : Nat} (h : b.fieldCount ≤ n) : b.field n e = .noField := by
  obtain ⟨k, rfl⟩ := Nat.exists_eq_add_of_le' h
  cases b <;> rfl

/-- A presence field reads 1 or 0 (R148). -/
theorem isSome_toNat (t : Option ColorTable) : t.isSome.toNat = if t = none then 0 else 1 := by
  cases t <;> rfl

theorem FieldRead.element_value {bs : Seq} {e : Nat} {b : Byte} (h : bs[e]? = some b) :
    FieldRead.element bs e = .value b.toNat := by
  rw [FieldRead.element, h]

theorem FieldRead.element_past {bs : Seq} {e : Nat} (h : bs.length ≤ e) : FieldRead.element bs e = .noElement := by
  rw [FieldRead.element, List.getElem?_eq_none h]

theorem Image.pixelField_past {img : Image} {e : Nat} (h : img.cells ≤ e) : img.pixelField e = .noElement :=
  if_neg (Nat.not_lt.mpr h)

theorem Image.pixelField_unwritten {img : Image} {e : Nat} (h : e < img.cells) (hb : img.pixels.read e = none) :
    img.pixelField e = .unwritten := by
  rw [Image.pixelField, if_pos h, hb]

theorem Image.pixelField_written {img : Image} {e : Nat} {b : Byte} (h : e < img.cells)
    (hb : img.pixels.read e = some b) : img.pixelField e = .value b.toNat := by
  rw [Image.pixelField, if_pos h, hb]

/-! ### What the command gives for a list of fields -/

/-- CONT_READ gives what its `field` operand reads as in the list `g` of fields. -/
def State.ContReads (s : State) (block field element : Word) (g : Nat → FieldRead) : Prop :=
  exec (.contRead block field element) s = (contReadField block field element (g field.toNat) s).outcome

theorem contReads_header (hv : s.cont.valid = true) (hb : block = headerBlock) :
    s.ContReads block field element s.cont.headerField := by
  show execContRead block field element s = _
  rw [execContRead, Res.require_pos hv, if_pos hb]

theorem contReads_block {b : Block} (hv : s.cont.valid = true) (hb : block ≠ headerBlock)
    (hblock : s.cont.blocks[block.toNat]? = some b) : s.ContReads block field element (b.field · element.toNat) := by
  show execContRead block field element s = _
  rw [execContRead, Res.require_pos hv, if_neg hb, hblock]

theorem execContRead_noBlock (hv : s.cont.valid = true) (hb : block ≠ headerBlock)
    (hlen : s.cont.blocks.length ≤ block.toNat) :
    execContRead block field element s = .next (s.raise .index 0 block.toNat) := by
  rw [execContRead, Res.require_pos hv, if_neg hb, List.getElem?_eq_none hlen]
  rfl

namespace State.ContReads

variable {g : Nat → FieldRead} (h : s.ContReads block field element g)
include h

/-- The outcome for the field numbered `n`, once it is known what that field reads as. -/
theorem outcome {r : FieldRead} (hn : field.toNat = n) (hg : g n = r) :
    exec (.contRead block field element) s = (contReadField block field element r s).outcome := by
  rw [h, hn, hg]

theorem readsValue {v : Nat} (hg : g n = .value v) (hn : field.toNat = n) : ReadsField s block field element v :=
  ⟨_, h.outcome hn hg, ends_finish _ _ _ _, onlyResults_finish _ _ _ _⟩

theorem readsElement {bs : Seq} (hg : g n = .element bs element.toNat) (hn : field.toNat = n) :
    ReadsElement s block field element bs :=
  ⟨fun _ hb => h.readsValue (hg.trans (FieldRead.element_value hb)) hn,
    fun hlen => h.outcome hn (hg.trans (FieldRead.element_past hlen))⟩

theorem noField (hg : g field.toNat = .noField) : NoField s block field element := h.outcome rfl hg

end State.ContReads

/-- Settles O22, by the list of fields that the header, or the block's kind, has. -/
theorem contReadReadsTheContainer : Obligations.ContReadReadsTheContainer := by
  refine ⟨encodes_of_operands (fun _ => rfl) fun _ => rfl, fun block field element s => ?_⟩
  intro f e reads elements noField hdr bytes3
  refine ⟨fun hv => Res.outcome_require_neg hv _ _ _ _ _, fun hv hb => ?_, fun hv hb => execContRead_noBlock hv hb,
    fun hv hb => ?_⟩
  · have h : s.ContReads block field element s.cont.headerField := contReads_header hv hb
    rw [← isSome_toNat]
    exact ⟨h.readsValue rfl, h.readsValue rfl, h.readsValue rfl, h.readsValue rfl, h.readsValue rfl, h.readsValue rfl,
      h.readsValue rfl, h.readsValue rfl, h.readsValue rfl, fun hf => h.noField (headerField_none hf)⟩
  · have hblock {b : Block} (hat : s.cont.blocks[block.toNat]? = some b) :
        s.ContReads block field element (b.field · e) := contReads_block hv hb hat
    have hunlisted {b : Block} (hat : s.cont.blocks[block.toNat]? = some b) (hf : b.fieldCount ≤ f) : noField :=
      (hblock hat).noField (Block.field_none hf)
    refine ⟨fun text hat => ?_, fun packed delay transparent hat => ?_, fun identifier auth payload hat => ?_,
      fun header hat => ?_, fun img hat => ?_⟩
    · have h := hblock hat
      exact ⟨h.readsValue rfl, h.readsValue rfl, h.readsElement rfl, hunlisted hat⟩
    · have h := hblock hat
      exact ⟨h.readsValue rfl, h.readsValue rfl, h.readsValue rfl, h.readsValue rfl, hunlisted hat⟩
    · have h := hblock hat
      exact ⟨h.readsValue rfl, h.readsElement rfl, h.readsElement rfl, h.readsValue rfl, h.readsElement rfl,
        hunlisted hat⟩
    · have h := hblock hat
      exact ⟨h.readsValue rfl, h.readsElement rfl, hunlisted hat⟩
    · have h := hblock hat
      rw [← isSome_toNat]
      exact ⟨h.readsValue rfl, h.readsValue rfl, h.readsValue rfl, h.readsValue rfl, h.readsValue rfl,
        h.readsValue rfl, h.readsValue rfl, h.readsValue rfl,
        fun hf => ⟨fun hpast => h.outcome hf (Image.pixelField_past hpast),
          fun hlt hr => h.outcome hf (Image.pixelField_unwritten hlt hr),
          fun hlt b hr => h.readsValue (n := 8) (Image.pixelField_written hlt hr) hf⟩,
        h.readsValue rfl, hunlisted hat⟩

end Sys2Proof.Machine
end

section
/-! ## Every micro-step answers a next state: the commands (R37, R38, R153) -/

namespace Sys2Proof.Machine

variable {s : State}

/-! ### Pieces that never stop the model -/

/-- The piece goes on or raises a fault of the block; it does not stop the model. -/
def Res.Answers (r : Res Unit) : Prop := r.Sat (fun _ _ => True) (fun _ _ _ _ => True) fun _ => False

theorem Res.Answers.next {r : Res Unit} (h : r.Answers) : ∃ t, r.outcome = .next t := h.total

theorem Res.answers_ok (s : State) : (Res.ok () s).Answers := trivial

theorem Res.answers_raised (e : Exc) (i j : Nat) (s : State) : (Res.raised e i j s : Res Unit).Answers := trivial

theorem Res.answers_require {c : Bool} {e : Exc} {i j : Nat} {s : State} {k : Res Unit} (hk : c = true → k.Answers) :
    (Res.require c e i j s k).Answers := Res.sat_require.mpr ⟨fun _ => trivial, hk⟩

/-- An access to bytes that exist cannot stop the model (R37, R38). -/
theorem Res.answers_access {α : Type} {o : Option α} {k : α → Res Unit} {a : α} (ho : o = some a) (hk : (k a).Answers) :
    (Res.access o k).Answers := by rw [ho]; exact hk

theorem Res.answers_bind {α : Type} {r : Res α} {k : α → State → Res Unit} {Q : α → State → Prop}
    {R : Exc → Nat → Nat → State → Prop} {S : Fault → Prop} (h : r.Sat Q R S) (hS : ∀ f, ¬S f)
    (hk : ∀ a t, (k a t).Answers) : (r.bind k).Answers :=
  Res.Sat.bind (h.mono (fun a t _ => hk a t) (fun _ _ _ _ _ => trivial) hS)

/-- A selector that names no image is a fault of the block (R143). -/
theorem answers_selecting {sel : Word} {k : Option ColorTable → Res Unit} (hk : ∀ t, (k t).Answers) :
    (Res.selecting sel s k).Answers := by
  unfold Res.selecting
  split
  · exact Res.answers_raised _ _ _ _
  · exact hk _

theorem answers_contReadField (block field element : Word) (r : FieldRead) :
    (contReadField block field element r s).Answers := by cases r <;> trivial

/-! ### The instructions -/

theorem execRdConsume_answers (h : s.DataInv) (width : Word) : ∃ t, execRdConsume width s = .next t :=
  (Res.answers_require fun hv =>
    Res.answers_bind (consume_sat width.toNat s) (fun _ hstop => hstop.2 (h.readerRegion hv)) fun _ _ =>
      Res.answers_ok _).next

theorem execWrInit_answers (base len : Word) (s : State) : ∃ t, execWrInit base len s = .next t := by
  refine (Res.answers_require fun _ => Res.answers_require fun hl => Res.answers_require fun _ => ?_).next
  have hwrite := s.writeBytes_eq (a := base.toNat) (List.replicate len.toNat 0#8)
    (by rw [List.length_replicate]; exact inDmem_of_legalRegion hl)
  exact Res.answers_access hwrite (Res.answers_ok _)

theorem execWrAppend_answers (h : s.DataInv) (value width : Word) : ∃ t, execWrAppend value width s = .next t :=
  (Res.answers_require fun hv => Res.answers_require fun _ =>
    Res.answers_bind (append_sat_appends (h.writerRegion hv) h.memory value.toNat width.toNat) (fun _ => id) fun _ _ =>
      Res.answers_ok _).next

theorem execTblAppend_answers (base len : Word) (s : State) : ∃ t, execTblAppend base len s = .next t :=
  (Res.answers_require fun _ => Res.answers_require fun hl =>
    Res.answers_access (State.readBytes_eq (inDmem_of_legalRegion hl)) <|
      Res.answers_bind (tableAppend_sat _ s) (fun _ => id) fun _ _ => Res.answers_ok _).next

theorem execTblLookup_answers (code base cap : Word) (s : State) : ∃ t, execTblLookup code base cap s = .next t := by
  refine (Res.answers_require fun _ => Res.answers_require fun hl => Res.answers_require fun _ => ?_).next
  split
  · exact Res.answers_access (State.writeBytes_copyEntry (inDmem_of_legalRegion hl) _) (Res.answers_ok _)
  · exact Res.answers_ok _

theorem execLzwCompress_answers (n base len flags : Word) (s : State) :
    ∃ t, execLzwCompress n base len flags s = .next t :=
  (Res.answers_require fun _ => Res.answers_require fun _ => Res.answers_require fun _ => Res.answers_require fun _ =>
    Res.answers_require fun _ =>
      Res.answers_bind (tableInit_sat n.toNat s) (fun _ => id) fun _ _ => Res.answers_ok _).next

theorem execCtIndex_answers (sel index : Word) (s : State) : ∃ t, execCtIndex sel index s = .next t := by
  refine (Res.answers_require fun _ => answers_selecting fun t => ?_).next
  cases t with
  | none => exact Res.answers_raised _ _ _ _
  | some t => dsimp only; split <;> [exact Res.answers_raised _ _ _ _; exact Res.answers_ok _]

theorem execCtFind_answers (sel rgb : Word) (s : State) : ∃ t, execCtFind sel rgb s = .next t := by
  refine (Res.answers_require fun _ => answers_selecting fun t => ?_).next
  cases t with
  | none => exact Res.answers_raised _ _ _ _
  | some t => dsimp only; split <;> exact Res.answers_ok _

theorem execContRead_answers (block field element : Word) (s : State) :
    ∃ t, execContRead block field element s = .next t := by
  refine (Res.answers_require fun _ => ?_).next
  split
  · exact answers_contReadField _ _ _ _
  · split
    · exact Res.answers_raised _ _ _ _
    · exact answers_contReadField _ _ _ _

/-- Every instruction answers a next state: its preconditions keep each access in DMEM, or the invariants of the reader and the
writer do. -/
theorem exec_answers (h : s.DataInv) (i : Instr) : ∃ t, exec i s = .next t := by
  cases i with
  | nop | softReset | gifExtension | gifImage | gifTrailer | gifExtComment | gifExtGraphicsControl | gifExtApplication
  | gifExtPlainText => exact ⟨_, rfl⟩
  | rdIsComplete | wrCanAppend | wrWritten | tblCount | tblWidth | tblClear | gifParse =>
    exact (Res.answers_require fun _ => Res.answers_ok _).next
  | rdInit => exact (Res.answers_require fun _ => Res.answers_require fun _ => Res.answers_ok _).next
  | rdConsume width => exact execRdConsume_answers h width
  | wrInit base len => exact execWrInit_answers base len s
  | wrAppend value width => exact execWrAppend_answers h value width
  | tblInit n => exact (Res.answers_bind (tableInit_sat n.toNat s) (fun _ => id) fun _ _ => Res.answers_ok _).next
  | tblAppend base len => exact execTblAppend_answers base len s
  | tblLookup code base cap => exact execTblLookup_answers code base cap s
  | lzwDecompress =>
    exact (Res.answers_require fun _ => Res.answers_require fun _ => Res.answers_require fun _ =>
      Res.answers_require fun _ => Res.answers_ok _).next
  | lzwCompress n base len flags => exact execLzwCompress_answers n base len flags s
  | ctSize =>
    refine (Res.answers_require fun _ => answers_selecting fun t => ?_).next
    cases t <;> exact Res.answers_ok _
  | ctIndex sel index => exact execCtIndex_answers sel index s
  | ctFind sel rgb => exact execCtFind_answers sel rgb s
  | contRead block field element => exact execContRead_answers block field element s

/-! ### The engine -/

theorem firstStep_answers (h : s.DataInv) : ∃ t, firstStep s = .next t := by
  unfold firstStep
  split
  · exact exec_answers h _
  · exact ⟨_, rfl⟩

theorem engineStep_softReset (hb : s.status.busy = true) (hc : s.cmd = 0xFF#8) : engineStep s = .next s.softReset := by
  rw [engineStep, if_pos hb, microStep, if_pos hc, firstStep_softReset hc]

/-- Settles O49, by what `FSM` says runs next: a command's first micro-step, or one of the decoder, the compressor or the parser,
for each of which a law names the next state. -/
theorem engineAlwaysHasAMicroStep : Obligations.EngineAlwaysHasAMicroStep := by
  intro s h
  cases hb : s.status.busy with
  | false => exact ⟨s, engineStep_idle hb⟩
  | true =>
    by_cases hc : s.cmd = 0xFF#8
    · exact ⟨_, engineStep_softReset hb hc⟩
    have hr : s.running := ⟨hb, hc⟩
    cases hf : s.status.fsm with
    | idle => rw [engineStep_idleFsm hb hf]; exact firstStep_answers h.toDataInv
    | decode p st => exact (decode_decodesOn h ⟨hr, hf⟩).imp fun _ => And.left
    | compress st => exact (compress_stepsLeft h ⟨hr, hf⟩).imp fun _ => And.left
    | parse st => exact (parse_parsesOn h ⟨hr, hf⟩).imp fun _ => And.left

end Sys2Proof.Machine
end

section
/-! ## NOP and SOFT_RESET (R150, R151) -/

namespace Sys2Proof.Machine

/-- Settles O7: NOP is a finish alone, and its `CMD` write falls under the rejection of every command but SOFT_RESET. -/
theorem nopOnlyFinishes : Obligations.NopOnlyFinishes := by
  refine ⟨encodes_of_operands (fun _ => rfl) fun _ => rfl, fun s => next_finish_reports rfl, fun s v hop hf => ?_⟩
  have hne : opcodeOf v ≠ 0xFF#8 := by rw [hop]; decide
  exact writeCmd_rejects (.inr ⟨hf, hne⟩)

/-- Settles O23: the next state is the reset state over the same memory and host, with `CMD` and `DONE` set. -/
theorem softResetResetsTheBlock : Obligations.SoftResetResetsTheBlock := by
  refine ⟨fun c hc => decodeCommand_softReset hc, fun s => ⟨s.softReset, rfl, ?_⟩⟩
  and_intros <;> rfl

end Sys2Proof.Machine
end

section
/-! ## Fault entry and finish (R31, R155, R156) -/

namespace Sys2Proof.Machine

/-- Settles O26: `raise` and `finish` write the fields listed and no other, and the codes count up from 0x01. -/
theorem faultAndFinishWriteStatus : Obligations.FaultAndFinishWriteStatus :=
  ⟨fun _ _ _ _ => rfl, fun _ _ _ _ => rfl, by decide⟩

end Sys2Proof.Machine
end

section
/-! ## `REJECT` in the engine's micro-steps: the shared pieces (R16)

No micro-step but that of SOFT_RESET writes `STATUS.REJECT`: a piece that starts with it at `b` ends with it at `b`. -/

namespace Sys2Proof.Machine

/-- `REJECT` is `b` where the piece goes on and where it raises a fault. -/
def Res.RejectIs {α : Type} (r : Res α) (b : Bool) : Prop :=
  r.Sat (fun _ t => t.status.reject = b) (fun _ _ _ t => t.status.reject = b) fun _ => True

variable {α β : Type} {s t : State} {b : Bool}

theorem Res.RejectIs.next {r : Res Unit} (h : r.RejectIs b) (ht : r.outcome = .next t) : t.status.reject = b :=
  Res.Sat.next h ht

/-! ### The combinators -/

theorem Res.RejectIs.bind {r : Res α} {k : α → State → Res β} (hr : r.RejectIs b)
    (hk : ∀ a t, t.status.reject = b → (k a t).RejectIs b) : (r.bind k).RejectIs b :=
  Res.Sat.bind (hr.mono hk (fun _ _ _ _ h => h) fun _ _ => trivial)

theorem Res.rejectIs_access {o : Option α} {k : α → Res β} (hk : ∀ a, o = some a → (k a).RejectIs b) :
    (Res.access o k).RejectIs b :=
  Res.sat_access.mpr ⟨fun _ => trivial, hk⟩

section
variable (h : s.status.reject = b)
include h

theorem Res.rejectIs_require {c : Bool} {e : Exc} {i j : Nat} {k : Res α} (hk : k.RejectIs b) :
    (Res.require c e i j s k).RejectIs b :=
  Res.sat_require.mpr ⟨fun _ => h, fun _ => hk⟩

theorem Res.rejectIs_needing {k : Nat} {r : Res Unit} (hr : r.RejectIs b) : (Res.needing k s r).RejectIs b := by
  unfold Res.needing
  split
  · exact hr
  · exact h

/-! ### The bit stream, the dictionary and the output -/

theorem consume_reject (w : Nat) : (consume w s).RejectIs b :=
  Res.rejectIs_require h <| Res.rejectIs_require h <| Res.rejectIs_access fun _ _ => h

theorem append_reject (v w : Nat) : (append v w s).RejectIs b := by
  refine (append_frame v w s).mono ?_ ?_ fun _ _ => trivial
  · rintro _ _ ⟨_, _, rfl, -⟩; exact h
  · rintro _ _ _ _ rfl; exact h

theorem tableInit_reject (n : Nat) : (tableInit n s).RejectIs b := Res.rejectIs_require h h

theorem tableAppend_reject (q : Seq) : (tableAppend q s).RejectIs b := Res.rejectIs_require h h

theorem emit_reject (q : Seq) : (emit q s).RejectIs b := by
  refine (emit_frame q s).mono ?_ (fun _ _ _ _ => False.elim) fun _ _ => trivial
  rintro _ _ ⟨_, _, _, rfl, -⟩; exact h

/-- Writing a sequence to DMEM, then the rest. -/
theorem Res.rejectIs_writeBytes {a : Nat} {q : Seq} {k : State → Res α}
    (hk : ∀ t, t.status.reject = b → (k t).RejectIs b) : (Res.access (s.writeBytes a q) k).RejectIs b := by
  refine Res.rejectIs_access fun t ht => hk t ?_
  obtain ⟨-, rfl⟩ := State.writeBytes_cases q ht
  exact h

end

end Sys2Proof.Machine
end

section
/-! ## `REJECT` in the engine's micro-steps: the commands and the machines -/

namespace Sys2Proof.Machine

variable {s t : State} {b : Bool} (h : s.status.reject = b)
include h

/-! ### The instructions -/

theorem exec_reject {i : Instr} (hi : i ≠ .softReset) (ht : exec i s = .next t) : t.status.reject = b := by
  cases i with
  | softReset => exact absurd rfl hi
  | nop | rdIsComplete | wrCanAppend | wrWritten | tblCount | tblWidth | ctSize | ctIndex | ctFind | contRead =>
    rcases exec_endsIn rfl ht with ⟨_, _, _, rfl⟩ | ⟨_, _, _, rfl⟩ <;> exact h
  | gifExtension | gifImage | gifTrailer | gifExtComment | gifExtGraphicsControl | gifExtApplication
  | gifExtPlainText => cases ht; exact h
  | rdInit =>
    refine Res.RejectIs.next ?_ ht
    exact Res.rejectIs_require h <| Res.rejectIs_require h h
  | rdConsume width =>
    refine Res.RejectIs.next ?_ ht
    exact Res.rejectIs_require h <| (consume_reject h _).bind fun _ _ hu => hu
  | wrInit =>
    refine Res.RejectIs.next ?_ ht
    exact Res.rejectIs_require h <| Res.rejectIs_require h <| Res.rejectIs_require h <|
      Res.rejectIs_writeBytes h fun _ hu => hu
  | wrAppend =>
    refine Res.RejectIs.next ?_ ht
    exact Res.rejectIs_require h <| Res.rejectIs_require h <| (append_reject h _ _).bind fun _ _ hu => hu
  | tblInit =>
    refine Res.RejectIs.next ?_ ht
    exact (tableInit_reject h _).bind fun _ _ hu => hu
  | tblAppend =>
    refine Res.RejectIs.next ?_ ht
    exact Res.rejectIs_require h <| Res.rejectIs_require h <| Res.rejectIs_access fun q _ =>
      (tableAppend_reject h q).bind fun _ _ hu => hu
  | tblLookup =>
    refine (Res.rejectIs_require h <| Res.rejectIs_require h <| Res.rejectIs_require h ?_).next ht
    split
    · exact Res.rejectIs_writeBytes h fun _ hu => hu
    · exact h
  | tblClear =>
    refine Res.RejectIs.next ?_ ht
    exact Res.rejectIs_require h h
  | lzwDecompress =>
    refine Res.RejectIs.next ?_ ht
    exact Res.rejectIs_require h <| Res.rejectIs_require h <| Res.rejectIs_require h <| Res.rejectIs_require h h
  | lzwCompress =>
    refine Res.RejectIs.next ?_ ht
    exact Res.rejectIs_require h <| Res.rejectIs_require h <| Res.rejectIs_require h <| Res.rejectIs_require h <|
      Res.rejectIs_require h <| (tableInit_reject h _).bind fun _ _ hu => hu
  | gifParse =>
    refine Res.RejectIs.next ?_ ht
    exact Res.rejectIs_require h h

theorem firstStep_reject (hc : s.cmd ≠ 0xFF#8) (ht : firstStep s = .next t) : t.status.reject = b := by
  unfold firstStep at ht
  split at ht
  · rename_i i hi
    refine exec_reject h ?_ ht
    rintro rfl
    exact hc ((opcodeOf_commandWords s).symm.trans (opcode_of_decodeCommand_softReset hi))
  · cases ht; exact h

/-! ### The decompress machine -/

theorem readCode_reject : (readCode s).RejectIs b := Res.rejectIs_require h (consume_reject h _)

theorem decodeFinish_reject (p : Bool) : (decodeFinish p s).RejectIs b := by
  cases p <;> exact h

theorem stepClear_reject (p : Bool) : (stepClear p s).RejectIs b := by
  unfold stepClear
  dsimp only
  split <;> exact h

theorem appendAfterPrev_reject (x : Byte) : (appendAfterPrev x s).RejectIs b := by
  unfold appendAfterPrev
  split
  · exact (tableAppend_reject h _).bind fun _ _ hu => hu
  · exact h

theorem stepFound_reject (p : Bool) (c : Nat) (q : Seq) : (stepFound p c q s).RejectIs b := by
  cases q with
  | nil => exact h
  | cons x q =>
    exact (emit_reject h _).bind fun _ _ hu => (appendAfterPrev_reject hu x).bind fun _ _ hv => hv

theorem stepUndefined_reject (p : Bool) (c : Nat) : (stepUndefined p c s).RejectIs b := by
  refine Res.rejectIs_require h ?_
  split
  · exact (tableAppend_reject h _).bind fun _ _ hu => (emit_reject hu _).bind fun _ _ hv => hv
  · exact h

theorem stepCode_reject (p : Bool) (c : Nat) : (stepCode p c s).RejectIs b := by
  unfold stepCode
  split
  · exact decodeFinish_reject h p
  · split
    · exact stepClear_reject h p
    · split
      · exact stepFound_reject h p c _
      · exact stepUndefined_reject h p c

theorem decodeStep_reject {p : Bool} {st : DecState} (ht : decodeStep p st s = .next t) : t.status.reject = b := by
  refine Res.RejectIs.next ?_ ht
  cases st with
  | checkClear => exact (readCode_reject h).bind fun _ _ hu => Res.rejectIs_require hu hu
  | first =>
    refine (readCode_reject h).bind fun _ _ hu => ?_
    split
    · exact hu
    · exact (emit_reject hu _).bind fun _ _ hv => hv
  | loop =>
    dsimp only [stepLoop]
    split
    · exact decodeFinish_reject h p
    · split
      · exact decodeFinish_reject h p
      · exact (readCode_reject h).bind fun c _ hu => stepCode_reject hu p c

/-! ### The compress machine -/

theorem emitCode_reject (c : Nat) : (emitCode c s).RejectIs b := (append_reject h _ _).bind fun _ _ hu => hu

theorem emitBuffer_reject : (emitBuffer s).RejectIs b := by
  unfold emitBuffer
  split
  · trivial
  · exact emitCode_reject h _

/-- An emission that may be left out. -/
theorem emission_reject {c : Prop} [Decidable c] {r : Res Unit} (hr : r.RejectIs b) :
    (if c then .ok () s else r : Res Unit).RejectIs b := by
  split
  · exact h
  · exact hr

theorem encodeStep_reject {st : EncState} (ht : encodeStep st s = .next t) : t.status.reject = b := by
  refine Res.RejectIs.next ?_ ht
  cases st with
  | start => exact (emission_reject h (emitCode_reject h _)).bind fun _ _ hu => hu
  | scan =>
    refine Res.rejectIs_access fun x _ => Res.rejectIs_require h ?_
    dsimp only
    split
    · exact h
    · exact (emitBuffer_reject h).bind fun _ _ hu => (tableAppend_reject hu _).bind fun _ _ hv => hv
  | flush => exact (emission_reject h (emitBuffer_reject h)).bind fun _ _ hu => hu
  | eoi => exact (emission_reject h (emitCode_reject h _)).bind fun _ _ hu => hu

/-! ### The parser -/

theorem runBlock_reject {d : Except DecodeError (Instr × List Byte)} (hd : ∀ i rest, d = .ok (i, rest) → i.format = .block)
    (ht : runBlock d s = .next t) : t.status.reject = b := by
  unfold runBlock at ht
  split at ht
  · refine exec_reject h ?_ ht
    rintro rfl
    cases hd _ _ rfl
  · cases ht; exact h

theorem stepLabel_reject (ht : stepLabel s = .next t) : t.status.reject = b := by
  unfold stepLabel at ht
  split at ht
  · split at ht
    · cases ht
    · split at ht
      · cases ht; exact h
      · split at ht
        · cases ht; exact h
        · split at ht
          · exact exec_reject (i := .gifTrailer) h nofun ht
          · cases ht; exact h
  · cases ht; exact h

theorem parseStep_reject {st : ParState} (ht : parseStep st s = .next t) : t.status.reject = b := by
  cases st with
  | header | gct =>
    refine Res.RejectIs.next ?_ ht
    exact Res.rejectIs_needing h <| Res.rejectIs_access fun _ _ => h
  | label => exact stepLabel_reject h ht
  | ext =>
    simp only [parseStep, stepExt] at ht
    split at ht
    · cases ht
    · exact runBlock_reject h (fun _ _ => decodeExtension_format) ht
  | image =>
    simp only [parseStep, stepImage] at ht
    split at ht
    · cases ht
    · exact runBlock_reject h (fun _ _ => decodeImage_format) ht
  | lct =>
    refine Res.RejectIs.next ?_ ht
    unfold stepLct
    split
    · exact h
    · exact Res.rejectIs_needing h <| Res.rejectIs_access fun _ _ => h
  | codeSize =>
    refine Res.RejectIs.next ?_ ht
    exact Res.rejectIs_needing h <| Res.rejectIs_access fun cs _ =>
      (tableInit_reject (s := s.setPos (s.par.pos.toNat + 1)) h cs.toNat).bind fun _ _ hu => hu
  | subLen =>
    refine Res.RejectIs.next (Res.rejectIs_needing h <| Res.rejectIs_access fun l _ => ?_) ht
    dsimp only
    split <;> exact h
  | subData =>
    refine Res.RejectIs.next (Res.rejectIs_needing h ?_) ht
    split <;> exact h

/-! ### Every micro-step -/

theorem microStep_reject (hc : s.cmd ≠ 0xFF#8) (ht : microStep s = .next t) : t.status.reject = b := by
  unfold microStep at ht
  rw [if_neg hc] at ht
  split at ht
  · exact firstStep_reject h hc ht
  · exact decodeStep_reject h ht
  · exact encodeStep_reject h ht
  · exact parseStep_reject h ht

end Sys2Proof.Machine
end

section
/-! ## The fault state, and `REJECT`, until a reset (R16, R155, R160) -/

namespace Sys2Proof.Machine

variable {s t u : State}

/-- Once set, `FAULT` stays set with its code, and `REJECT` stays set. -/
structure State.KeepsSticky (s t : State) : Prop where
  fault : s.status.fault = true → t.status.fault = true ∧ t.status.faultCode = s.status.faultCode
  reject : s.status.reject = true → t.status.reject = true

theorem State.KeepsSticky.of_status (h : t.status = s.status) : s.KeepsSticky t := by
  constructor <;> rw [h] <;> simp

/-- A dropped write sets `REJECT` and leaves the fault (R29). -/
theorem State.keepsSticky_rejectWrite (s : State) : s.KeepsSticky s.rejectWrite := ⟨fun h => ⟨h, rfl⟩, fun _ => rfl⟩

/-! ### The host -/

/-- A command accepted in the fault state is SOFT_RESET, which clears nothing before its micro-step (R28). -/
theorem State.keepsSticky_writeCmd (s : State) (v : Word) : s.KeepsSticky (s.writeCmd v) := by
  unfold State.writeCmd
  split
  · exact ⟨fun h => ⟨h, rfl⟩, id⟩
  · exact s.keepsSticky_rejectWrite

theorem State.keepsSticky_writeIdle (hu : u.status = s.status) : s.KeepsSticky (s.writeIdle u) := by
  unfold State.writeIdle
  split
  · exact s.keepsSticky_rejectWrite
  · exact .of_status hu

theorem State.keepsSticky_csrWrite (s : State) (off : Nat) (v : Word) : s.KeepsSticky (s.csrWrite off v) := by
  unfold State.csrWrite
  split
  case h_1 => exact s.keepsSticky_writeCmd v
  case h_7 => exact .of_status rfl
  all_goals exact State.keepsSticky_writeIdle rfl

theorem hostAct_keepsSticky {op : HostOp} (ht : hostAct op s = .next t) :
    s.KeepsSticky t ∨ ∃ init, op = .hardwareReset init := by
  cases op with
  | csrRead bytes off => rw [csrAccess_next ht]; exact .inl (.of_status rfl)
  | csrWrite bytes off v => rw [csrAccess_next ht]; exact .inl (s.keepsSticky_csrWrite off v)
  | dmemRead a =>
    simp only [hostAct, dmemAccess] at ht
    split at ht
    · cases ht
    · split at ht <;> cases ht
      exact .inl (.of_status rfl)
  | dmemWrite a v =>
    simp only [hostAct, dmemAccess] at ht
    split at ht
    · cases ht
    · split at ht <;> cases ht
      rename_i hw
      obtain ⟨-, rfl⟩ := State.memWrite_cases hw
      exact .inl (.of_status rfl)
  | wait => cases ht; left; split <;> exact .of_status rfl
  | hardwareReset init => exact .inr ⟨init, rfl⟩

theorem hostStep_keepsSticky (hm : s.mover = .host) (ht : hostStep s.turned = .next t) :
    s.KeepsSticky t ∨ s.HardwareResets t := by
  rcases hostStep_cases ht with rfl | ⟨op, rest, hscript, hact⟩
  · exact .inl (.of_status rfl)
  · rcases hostAct_keepsSticky hact with hkeep | ⟨init, rfl⟩
    · exact .inl ⟨hkeep.fault, hkeep.reject⟩
    · cases hact
      exact .inr ⟨hm, init, rest, hscript, rfl⟩

/-! ### The engine -/

/-- In the fault state nothing but SOFT_RESET runs (R28, R155). -/
theorem engineStep_keepsSticky (h : s.Inv) (hm : s.mover = .engine) (ht : engineStep s.turned = .next t) :
    s.KeepsSticky t ∨ s.SoftResets t := by
  cases hb : s.status.busy with
  | false =>
    rw [engineStep_idle (s := s.turned) hb] at ht
    cases ht
    exact .inl (.of_status rfl)
  | true =>
    by_cases hc : s.cmd = 0xFF#8
    · rw [engineStep_softReset (s := s.turned) hb hc] at ht
      exact .inr ⟨hm, hb, hc, ht⟩
    · have hbt : s.turned.status.busy = true := hb
      rw [engineStep, if_pos hbt] at ht
      have hok : s.status.fault = false := (h.active ⟨hb, hc⟩).noFault
      refine .inl ⟨fun hf => ?_, fun hr => microStep_reject (s := s.turned) hr hc ht⟩
      exact absurd (hok.symm.trans hf) Bool.false_ne_true

/-- Settles O54: the host's writes and the micro-steps of the commands clear neither `FAULT` nor `REJECT`, and what is left is the
two resets. -/
theorem faultStateIsSticky : Obligations.FaultStateIsSticky := by
  intro s t h ht
  have key : s.KeepsSticky t ∨ s.HardwareResets t ∨ s.SoftResets t := by
    rcases step_cases ht with ⟨hm, ht⟩ | ⟨hm, ht⟩
    · exact (engineStep_keepsSticky h hm ht).imp_right .inr
    · exact (hostStep_keepsSticky hm ht).imp_right .inl
  exact ⟨fun hf => key.imp_left (·.fault hf), fun hr => key.imp_left (·.reject hr)⟩

end Sys2Proof.Machine
end

section
/-! ## The reset state (R164, R21 to R27) -/

namespace Sys2Proof.Machine

/-- The invariants hold after every reset over a legal data memory: the data's hold, and no machine runs. -/
theorem State.hardwareReset_inv {size : Nat} (h1 : 1 ≤ size) (h2 : size ≤ Config.dmemSizeMax) {m : Memory}
    (hm : m.Legal size) (host : HostAgent) : (State.hardwareReset size m host).Inv :=
  (State.hardwareReset_dataInv h1 h2 hm host).inv_of_idle rfl fun _ => rfl

/-- Settles O48: the model's own reset state is the reset over 2^28 bytes, of which none is listed. -/
theorem resetMeetsTheInvariant : Obligations.ResetMeetsTheInvariant :=
  ⟨State.hardwareReset_inv (by decide) (by decide) ⟨rfl, List.forall_mem_nil _⟩ _,
    fun _ _ host h1 h2 hwf hbound => State.hardwareReset_inv h1 h2 ⟨hwf, hbound⟩ host⟩

/-- After a reset the one CSR that does not read 0 is `ID` (R14, R20, R164). -/
theorem State.csrRead_reset : ∀ k < 32, State.reset.csrRead (4 * k) = if k = 23 then 0x4C5A5701#32 else 0 := by decide

/-- Settles O24: no unit is valid after a reset, so the first check of each command that needs one fails. -/
theorem resetStateIsAsTheSpecSays : Obligations.ResetStateIsAsTheSpecSays := by
  unfold Obligations.ResetStateIsAsTheSpecSays
  intro s
  have hrd : s.rd.valid = false := rfl
  have hwr : s.wr.valid = false := rfl
  have htbl : s.tbl.valid = false := rfl
  have hcont : s.cont.valid = false := rfl
  refine ⟨rfl, rfl, rfl, rfl, rfl, rfl, rfl, rfl, rfl, rfl, rfl, rfl, rfl, rfl, rfl, rfl, State.csrRead_reset,
    fun a b c d => ?_⟩
  -- The faults hold in every state without a valid unit.
  clear_value s
  and_intros <;> exact Res.outcome_require_neg (by assumption) _ _ _ _ _

end Sys2Proof.Machine
end

section
/-! ## Words written out from the opcode map (R56, R66, R67) -/

namespace Sys2Proof

/-- Settles O5: the rows differ under their common mask, and the decoder computes on each encoding. -/
theorem specWordsDecode : Obligations.SpecWordsDecode := by
  refine ⟨by decide, by decide, by decide, ?_⟩
  and_intros <;> rfl

end Sys2Proof
end
